-- ==== Sys2Proof/Word.lean ====
section
/-! DEFINITION. The word types of the ES-2416 and their plainest arithmetic. -/

namespace Sys2Proof

/-- A pixel, or one byte of host memory, of a frame or of a record. -/
abbrev Byte := BitVec 8

/-- A 16-bit field of a frame or of the configuration block. -/
abbrev Half := BitVec 16

/-- A 32-bit quantity: an encoder position, a snapshot counter, a record field. -/
abbrev Word := BitVec 32

/-- A station number, 0 to 15. -/
abbrev StationNo := BitVec 4

/-- Saturating addition on a 32-bit word ("Saturating" of the numbering conventions). -/
def satAdd (w : Word) (n : Nat) : Word := BitVec.ofNat 32 (min (w.toNat + n) 4294967295)

/-- Saturating increment of a 32-bit word. -/
def satInc (w : Word) : Word := satAdd w 1

/-- Saturating increment of a 16-bit count (the drop counts of R153 and R154). -/
def satInc16 (h : Half) : Half := BitVec.ofNat 16 (min (h.toNat + 1) 65535)

/-- The magnitude of the difference of two counts. -/
def natDist (a b : Nat) : Nat := (a - b) + (b - a)

end Sys2Proof
end

