-- ==== Sys2Proof/Syntax.lean ====
section
/-! DEFINITION. The commands: one constructor of `Instr` per row of spec/opcode_table.json, in the
table's order, with the operands the rules of that row speak of. -/

namespace Sys2Proof

/-- The levels of encoder channels A and B (R1). -/
structure ChannelPair where
  a : Bool
  b : Bool
  deriving DecidableEq, Repr

/-- The two alert kinds of an ALERT frame (R107). -/
inductive AlertKind where
  | splice
  | mark
  deriving DecidableEq, Repr

/-- One zone entry of a SUMMARY frame as it travels: a class code byte and a severity byte (R107). -/
structure ZoneCode where
  cls : Byte
  severity : Byte
  deriving DecidableEq, Repr

/-- A frame as its bits come off the line, up to its last CRC bit (R107, R108). -/
structure RawFrame where
  arbitration : Byte
  length : Byte
  body : List Byte
  crc : Half
  deriving DecidableEq, Repr

/-- The commands of the station (spec/opcode_table.json, row by row). -/
inductive Instr where
  /-- POWER_ON: the strap pins and the levels on the encoder inputs. -/
  | powerOn (straps : StationNo) (inputs : ChannelPair)
  /-- ENCODER_STEP: the encoder inputs now show this pair. -/
  | encoderStep (inputs : ChannelPair)
  /-- LINE_ARRIVAL: line-valid falls after these pixels. -/
  | lineArrival (pixels : List Byte)
  /-- LOCAL_SPLICE: an active edge on the splice-detect input. -/
  | localSplice
  /-- LOCAL_MARK: an active edge on the registration-mark input. -/
  | localMark
  /-- FRAME_TRANSMIT_START: the next bit at which a queued frame may be started. -/
  | frameTransmitStart
  /-- ARBITRATION_LOST: dominant read where recessive was sent, at this arbitration bit (0 is the first). -/
  | arbitrationLost (bit : Nat)
  /-- BIT_ERROR: a mismatch read back at this bit (0 is the first arbitration bit, 8 the first length bit). -/
  | bitError (bit : Nat)
  /-- BAD_FRAME: the end of a received frame that fails its CRC or its test of form. -/
  | badFrame (frame : RawFrame)
  /-- HALT_FRAME: the end of a HALT frame with a good CRC. -/
  | haltFrame (sender : StationNo)
  /-- RUN_FRAME: the end of a RUN frame with a good CRC. -/
  | runFrame (sender : StationNo)
  /-- ALERT_FRAME: the end of an ALERT frame with a good CRC. -/
  | alertFrame (sender : StationNo) (alert : AlertKind) (startLine : Word)
  /-- SUMMARY_FRAME: the end of a SUMMARY frame with a good CRC. -/
  | summaryFrame (sender : StationNo) (band : Half) (pressure : Byte) (left right : List ZoneCode)
  /-- SPAN_FRAME: the end of a SPAN frame with a good CRC. -/
  | spanFrame (sender : StationNo) (c0 w fingerprint : Half)
  /-- ENROLLMENT_WINDOW_EXPIRY: the enrollment timer reaches 0. -/
  | enrollmentWindowExpiry
  /-- CONFIGURE: the host writes command code 1. -/
  | configure
  /-- CONFIGURE_READ_DONE: the last of the 256 bytes has arrived; byte i is bits 8i+7 to 8i. -/
  | configureReadDone (block : BitVec 2048)
  /-- START: the host writes command code 2. -/
  | start
  /-- HALT: the host writes command code 3. -/
  | halt
  /-- LEARN: the host writes command code 4. -/
  | learn
  /-- SNAPSHOT: the host writes command code 5. -/
  | snapshot
  /-- SNAPSHOT_WRITE_DONE: the last snapshot write has been issued. -/
  | snapshotWriteDone
  /-- CLEAR: the host writes command code 6. -/
  | clear
  /-- RESET: the host writes command code 7. -/
  | reset
  /-- UNKNOWN_COMMAND: the host writes another command code. -/
  | unknownCommand (code : Word)
  /-- WINDOW_WRITE: the host writes these bytes from this window offset upward. -/
  | windowWrite (offset : Nat) (data : List Byte)
  /-- GRANT_SUBMIT: the host writes the grant tag. -/
  | grantSubmit (tag : Word)
  /-- GRANT_OPEN: the Host Port opens the oldest grant. -/
  | grantOpen
  /-- RECORD_WRITE: the Host Port writes the head record into the open grant. -/
  | recordWrite
  /-- GRANT_FLUSH_TIMER_EXPIRY: the open grant's flush timer reaches 0. -/
  | grantFlushTimerExpiry
  /-- FINALISE_LINE: finalisation writes one more reference line. -/
  | finaliseLine
  /-- LINK_LOSS: the host link is lost. -/
  | linkLoss
  /-- LINK_UP: the host link returns. -/
  | linkUp
  /-- LINE_IDLE: the eleventh consecutive recessive bit of the Span Bus line. -/
  | lineIdle
  deriving DecidableEq, Repr

end Sys2Proof
end

