-- ==== Sys2Proof/Machine/State.lean ====
section
/-! DEFINITION. The state of one station as plain data, block by block as the manual's block table
gives it, its value right after power-on (`State.reset`), and the update of each block. -/

namespace Sys2Proof.Machine

/-! ## Names of states, classes, modes and codes -/

/-- The operating states (section 7.6, R169). -/
inductive OpState where
  | unconfigured | idle | enrolling | armed | running | stopping
  deriving DecidableEq, Repr

/-- The reference states (R56). -/
inductive RefState where
  | empty | learning | finalising | ready
  deriving DecidableEq, Repr

/-- The phase modes of the Registration Tracker (section 3.2). -/
inductive PhaseMode where
  | seeking | locked | coasting | lost
  deriving DecidableEq, Repr

/-- The five rounding modes (R33). -/
inductive Rounding where
  | nearestEven | truncate | floor | ceiling | nearestAway
  deriving DecidableEq, Repr

/-- The row states (R22). -/
inductive RowState where
  | absent | present | damaged | blanked
  deriving DecidableEq, Repr

/-- The tile classes (section 5.4). -/
inductive TileClass where
  | void | blind | unref | quiet | hit
  deriving DecidableEq, Repr

/-- The fidelities (R142). -/
inductive Fidelity where
  | full | half | quarter | stamp
  deriving DecidableEq, Repr

/-- The reasons for sending a tile (R139, R142). -/
inductive Reason where
  | core | context | sample
  deriving DecidableEq, Repr

/-- The link state (R165). -/
inductive LinkState where
  | down | up
  deriving DecidableEq, Repr

/-- The grant status (R157, R169). -/
inductive GrantStatus where
  | accepted | invalid | full | state
  deriving DecidableEq, Repr

/-- The result codes of a command (R171). -/
inductive ResultCode where
  | none | ok | unknownCommand | wrongState | badArgument | configInvalid | linkLost
  deriving DecidableEq, Repr

/-- The event codes (R178). -/
inductive EventCode where
  | splice | mark | locked | coasting | lost | stepClamped | referenceReady | spanConflict
  | fingerprintMismatch | duplicateStation | lateForRun | busTrouble | runStarted | runEnded
  deriving DecidableEq, Repr

/-- The frame kinds (R107). -/
inductive FrameKind where
  | halt | run | alert | summary | span
  deriving DecidableEq, Repr

/-- Why a grant was retired (R163). -/
inductive RetireFlag where
  | bySpace | byTimer | byHalt
  deriving DecidableEq, Repr

/-! ## Encoder and Trigger Unit (chapter 1) -/

/-- A pending trigger: its line number and encoder position (R10). -/
structure Stamp where
  line : Nat
  position : Word
  deriving DecidableEq, Repr

/-- The state of the Encoder and Trigger Unit (section 1.1). -/
structure Encoder where
  /-- the accepted channel pair -/
  pair : ChannelPair
  /-- the position E -/
  e : Word
  /-- the high-water count H -/
  high : Word
  epoch : Word
  dividerPhase : Nat
  /-- 0 to 4,294,967,296 -/
  lineCounter : Nat
  lineLimit : Bool
  /-- the last trigger's line number -/
  lastLine : Nat
  /-- the last trigger's position -/
  lastPosition : Word
  /-- oldest first -/
  stamps : List Stamp
  deriving DecidableEq, Repr

/-- R16: the unit after power-on, the inputs showing `pair`. -/
def Encoder.initial (pair : ChannelPair) : Encoder :=
  { pair := pair, e := 0, high := 0, epoch := 0, dividerPhase := 0, lineCounter := 0,
    lineLimit := false, lastLine := 0, lastPosition := 0, stamps := [] }

/-! ## Line Intake Unit (chapter 2) -/

/-- A blanking window, both ends included (section 2.5). -/
structure Window where
  start : Nat
  stop : Nat
  started : Bool
  deriving DecidableEq, Repr

/-- The state of the Line Intake Unit (section 2.1). -/
structure Intake where
  /-- the stored pixels of the line buffer, at most 8,192 -/
  buffer : List Byte
  /-- its pixel count, saturating at 65,535 -/
  count : Nat
  /-- 0 to 4,294,967,296 -/
  nextLine : Nat
  /-- in increasing start line -/
  windows : List Window
  deriving DecidableEq, Repr

/-- R32: the unit after power-on. -/
def Intake.initial : Intake := { buffer := [], count := 0, nextLine := 0, windows := [] }

/-! ## Registration Tracker (chapter 3) -/

/-- The source of a queued mark (R35, R36). -/
inductive MarkSource where
  | own
  | peer (sender : StationNo)
  deriving DecidableEq, Repr

/-- A pending repeat start (section 3.2). -/
structure MarkEntry where
  start : Nat
  source : MarkSource
  deriving DecidableEq, Repr

/-- The state of the Registration Tracker (section 3.2), but for the two accumulators, which stand
with the counters. -/
structure Tracker where
  mode : PhaseMode
  /-- the phase accumulator P, 16 fraction bits -/
  p : Nat
  /-- the step S, 16 fraction bits -/
  step : Nat
  /-- saturating -/
  repeatNo : Word
  wrapPending : Bool
  sinceWrap : Nat
  coasts : Nat
  prevAccepted : Bool
  /-- lines-since-start, saturating -/
  sinceStart : Word
  /-- the tracker line, 0 to 4,294,967,296 -/
  line : Nat
  /-- in increasing start line -/
  marks : List MarkEntry
  lastTaken : Option Nat
  deriving DecidableEq, Repr

/-- R53, R54: the tracker after power-on, a soft reset or an epoch. -/
def Tracker.initial : Tracker :=
  { mode := .seeking, p := 0, step := 65536, repeatNo := 0, wrapPending := false, sinceWrap := 0,
    coasts := 0, prevAccepted := false, sinceStart := 0, line := 0, marks := [], lastTaken := none }

/-! ## Reference Memory Controller (chapter 4) -/

/-- The on-chip state of the Reference Memory Controller (section 4.1); the two DRAM regions are in
`State.dram`. -/
structure RefCtl where
  state : RefState
  /-- the count table, one entry per reference line -/
  counts : List Nat
  shortLines : Nat
  touched : Nat
  /-- learned repeats, saturating -/
  learned : Word
  depth : Nat
  endingLine : Nat
  /-- finalisation progress: how many reference lines have been written -/
  written : Nat
  /-- finalisation progress: lines filled so far -/
  filled : Nat
  deriving DecidableEq, Repr

/-- R70: the controller after power-on, with a count table of `lines` entries. -/
def RefCtl.initial (lines : Nat) : RefCtl :=
  { state := .empty, counts := List.replicate lines 0, shortLines := 0, touched := 0, learned := 0,
    depth := 1, endingLine := 0, written := 0, filled := 0 }

/-! ## Tile Scorer and Band Table (chapters 5 and 6) -/

/-- The results of one scored tile (R71). -/
structure TileResult where
  mean : Nat
  mad : Nat
  shift : Int
  peak : Nat
  glare : Nat
  clipped : Bool
  cls : TileClass
  severity : Nat
  deriving DecidableEq, Repr

/-- One tile slot: its accumulators and, once scored, its results (R71). -/
structure Slot where
  inspectable : Nat
  pixelSum : Nat
  glare : Nat
  compared : Nat
  sumAbs : Nat
  sumSigned : Int
  peak : Nat
  result : Option TileResult
  deriving DecidableEq, Repr

/-- R71: a slot at the creation of its band entry. -/
def Slot.initial : Slot :=
  { inspectable := 0, pixelSum := 0, glare := 0, compared := 0, sumAbs := 0, sumSigned := 0,
    peak := 0, result := none }

/-- One row of a band entry: row state, registered flag and stored pixels (R22, R24, R50). -/
structure Row where
  state : RowState
  registered : Bool
  pixels : List Byte
  deriving DecidableEq, Repr

/-- R23: a row at the creation of its band entry. -/
def Row.initial : Row := { state := .absent, registered := false, pixels := [] }

/-- One entry of a facing zone: global tile column, class and severity (R93). -/
structure ZoneEntry where
  g : Nat
  cls : TileClass
  severity : Nat
  deriving DecidableEq, Repr

/-- A RECEIVED summary as a band entry keeps it (section 6.1). -/
structure Summary where
  zone : List ZoneEntry
  pressure : Nat
  deriving DecidableEq, Repr

/-- A summary side of a band entry: its status, with the facing zone when RECEIVED (section 6.1). -/
inductive Side where
  | none
  | received (summary : Summary)
  | absent
  | mismatched
  deriving DecidableEq, Repr

/-- FILLING or SCORED; the entries that are FREE are those the list of open entries does not hold. -/
inductive EntryState where
  | filling | scored
  deriving DecidableEq, Repr

/-- What a band entry keeps of its row 0's line record (R146). -/
structure Row0 where
  refLine : Option Nat
  repeatNo : Word
  mode : PhaseMode
  deriving DecidableEq, Repr

/-- One open band entry (section 6.1). -/
structure Entry where
  band : Nat
  state : EntryState
  /-- 32 rows -/
  rows : List Row
  row0 : Row0
  /-- one slot per own tile column -/
  slots : List Slot
  announced : Option Nat
  left : Side
  right : Side
  summarySent : Bool
  deriving DecidableEq, Repr

/-- A summary waiting for its band: well-formed (`some`) or mismatched (`none`) (R96). -/
structure EarlySummary where
  band : Nat
  summary : Option Summary
  deriving DecidableEq, Repr

/-- The state of the Band Table (section 6.1). -/
structure BandTable where
  /-- the open entries in increasing band order; the rest of the eight are FREE -/
  entries : List Entry
  /-- in increasing band order -/
  leftEarly : List EarlySummary
  rightEarly : List EarlySummary
  carryBand : Option Nat
  /-- in increasing column order -/
  carryCols : List Nat
  /-- the pixel stores of the FREE entries, each its 32 rows as earlier bands left them (R24); the one freed
  longest ago is the first (log entry 33) -/
  free : List (List (List Byte))
  deriving DecidableEq, Repr

/-- R105: the table after power-on: eight FREE entries, their pixel stores not written yet (log entry 32). -/
def BandTable.initial : BandTable :=
  { entries := [], leftEarly := [], rightEarly := [], carryBand := none, carryCols := [],
    free := List.replicate 8 [] }

/-! ## Span Bus Controller (chapter 7) -/

/-- A frame's kind, sender and body (R107); length and CRC follow from them. -/
structure Frame where
  kind : FrameKind
  sender : StationNo
  body : List Byte
  deriving DecidableEq, Repr

/-- A frame of the transmit queue (section 7.1): its bit-error count, whether it is the frame now being
sent, and its place in the order of queueing, by which R115 finds the oldest. -/
structure TxFrame where
  frame : Frame
  errors : Nat
  sending : Bool
  age : Nat
  deriving DecidableEq, Repr

/-- One entry of the heard-station list (R119). -/
structure Heard where
  number : StationNo
  c0 : Nat
  w : Nat
  fingerprint : Half
  deriving DecidableEq, Repr

/-- One side of the neighbour table (R123). -/
structure Neighbour where
  number : StationNo
  c0 : Nat
  w : Nat
  overlap : Nat
  deriving DecidableEq, Repr

/-- The state of the Span Bus Controller (section 7.1). -/
structure SpanBus where
  op : OpState
  /-- 0 to 11 -/
  idle : Nat
  /-- the frame in reception: the bits taken so far -/
  reception : Option (List Bool)
  /-- by arbitration value, then by age; at most 8 -/
  queue : List TxFrame
  /-- the age the next queued frame gets -/
  nextAge : Nat
  /-- the frame on the line -/
  onLine : Option Frame
  heard : List Heard
  left : Option Neighbour
  right : Option Neighbour
  /-- the enrollment timer: stopped, or the ticks left -/
  timer : Option Nat
  dupReported : Bool
  deriving DecidableEq, Repr

/-- R130: the controller after power-on. -/
def SpanBus.initial : SpanBus :=
  { op := .unconfigured, idle := 0, reception := none, queue := [], nextAge := 0, onLine := none,
    heard := [], left := none, right := none, timer := none, dupReported := false }

/-! ## Output Queue and Host Port (chapter 9) -/

/-- A TILE record (R146, R147). -/
structure TileRec where
  fidelity : Fidelity
  reason : Reason
  unilateral : Bool
  handover : Bool
  partialRows : Bool
  clipped : Bool
  station : StationNo
  cls : TileClass
  g : Nat
  band : Nat
  repeatNo : Word
  refLine : Option Nat
  mean : Nat
  mad : Nat
  shift : Int
  peak : Nat
  glare : Nat
  /-- for each row in turn, whether it has usable pixels -/
  usable : List Bool
  payload : List Byte
  inspectable : Nat
  compared : Nat
  deriving DecidableEq, Repr

/-- The side statuses a BAND record carries (R149). -/
inductive SideStatus where
  | none | received | absent | mismatched
  deriving DecidableEq, Repr

/-- A BAND record (R149, R154). -/
structure BandRec where
  station : StationNo
  mode : PhaseMode
  pressure : Nat
  left : SideStatus
  right : SideStatus
  band : Nat
  repeatNo : Word
  voids : Nat
  blinds : Nat
  unrefs : Nat
  quiets : Nat
  hits : Nat
  queued : Nat
  coreDrops : Half
  contextDrops : Half
  sampleDrops : Half
  unreported : Half
  deriving DecidableEq, Repr

/-- An EVENT record (R168, R179, R180). -/
structure EventRec where
  code : EventCode
  origin : StationNo
  peer : Bool
  line : Word
  data : Word
  deriving DecidableEq, Repr

/-- A record of the output queue. -/
inductive Rec where
  | tile (t : TileRec)
  | band (b : BandRec)
  | event (e : EventRec)
  deriving DecidableEq, Repr

/-- What the close does about one tile slot (R139 to R143). -/
inductive TileAction where
  | nothing
  | suppress (why : Reason)
  | offer (t : TileRec)
  deriving DecidableEq, Repr

/-- A close that other commands fall into: the Steering Unit's sequence of offers, as far as it has not been made
(R148, R151), and the line events that wait behind it. -/
structure Offering where
  /-- what the close does about the tile slots still to come, in increasing column -/
  actions : List TileAction
  /-- the TILE records of the close taken so far (R149) -/
  taken : Nat
  /-- the BAND record, offered last; its count of taken records and its drop counts are filled in then -/
  band : BandRec
  /-- the retired stamps whose line events wait for the close, in STOPPING (R14, R102) -/
  retired : List Stamp
  deriving DecidableEq, Repr

/-- A grant: a host buffer and its tag (section 9.3). -/
structure Grant where
  address : BitVec 64
  length : Word
  tag : Word
  deriving DecidableEq, Repr

/-- The open grant (section 9.1). -/
structure OpenGrant where
  grant : Grant
  used : Nat
  records : Nat
  firstBand : Option Nat
  lastBand : Option Nat
  timer : Nat
  deriving DecidableEq, Repr

/-- The state of the output queue and the Host Port (section 9.1); the fill and the pressure level are
read off the queue (Ops). -/
structure Port where
  /-- oldest first -/
  queue : List Rec
  coreDrops : Half
  contextDrops : Half
  sampleDrops : Half
  unreported : Half
  /-- a close that other commands fall into, with what has still to come of it -/
  offering : Option Offering
  /-- the grant FIFO, oldest first -/
  fifo : List Grant
  grant : Option OpenGrant
  nextSeq : Word
  link : LinkState
  grantStatus : GrantStatus
  deriving DecidableEq, Repr

/-- R167: the queue and the port after power-on, with the link in the given state. -/
def Port.initial (link : LinkState) : Port :=
  { queue := [], coreDrops := 0, contextDrops := 0, sampleDrops := 0, unreported := 0,
    offering := none, fifo := [], grant := none, nextSeq := 1, link := link, grantStatus := .accepted }

/-! ## Station Control (chapter 10) -/

/-- The setting of one measure: its enable and area byte and its two thresholds (R83, R175). -/
structure Threshold where
  setting : Byte
  overAt : Int
  underAt : Int
  deriving DecidableEq, Repr

/-- The configuration in force (R175), clamped as R176 says.  `fits` holds the limits on W and L × W of
R55 and R176, so that no reference line of a configuration lies outside the DRAM. -/
structure StationConfig where
  c0 : Nat
  w : Nat
  l : Nat
  d : Nat
  rounding : Rounding
  /-- bit 0 bus enable, bit 1 completion interrupt enable -/
  flags : Byte
  k : Nat
  hs : Nat
  wc : Nat
  moff : Nat
  soff : Nat
  sb : Nat
  glareLimit : Nat
  /-- bit 0: ANY 0, ALL 1 -/
  combination : Byte
  contextFidelity : Fidelity
  sampleFidelity : Fidelity
  ps : Nat
  flush : Nat
  ring : Nat
  mad : Threshold
  shift : Threshold
  peak : Threshold
  report : Half
  share : Half
  peerRouting : Byte
  fits : l * w ≤ 67108864 ∧ w ≤ 8192
  deriving DecidableEq, Repr

/-- R183: the configuration in force after power-on, all 0. -/
def StationConfig.zero : StationConfig :=
  { c0 := 0, w := 0, l := 0, d := 0, rounding := .nearestEven, flags := 0, k := 0, hs := 0, wc := 0,
    moff := 0, soff := 0, sb := 0, glareLimit := 0, combination := 0, contextFidelity := .full,
    sampleFidelity := .full, ps := 0, flush := 0, ring := 0,
    mad := { setting := 0, overAt := 0, underAt := 0 }, shift := { setting := 0, overAt := 0, underAt := 0 },
    peak := { setting := 0, overAt := 0, underAt := 0 }, report := 0, share := 0, peerRouting := 0,
    fits := by decide }

/-- A command that takes time, with what it took from the argument fields (R172, R174, R177). -/
inductive InFlight where
  | configure (address : BitVec 64)
  | snapshot (address : BitVec 64) (words : List Word)
  deriving DecidableEq, Repr

/-- The command phase (R171). -/
inductive CmdPhase where
  | ready
  | busy (work : InFlight)
  | done
  | failed
  deriving DecidableEq, Repr

/-- The state of Station Control (chapter 10). -/
structure Control where
  station : StationNo
  cfg : StationConfig
  argAddress : BitVec 64
  argLength : Word
  code : Word
  grantAddress : BitVec 64
  grantLength : Word
  grantTag : Word
  phase : CmdPhase
  result : ResultCode
  detail : Byte
  commandLost : Bool
  deriving DecidableEq, Repr

/-- R183: Station Control after power-on, the straps giving `station`. -/
def Control.initial (station : StationNo) : Control :=
  { station := station, cfg := .zero, argAddress := 0, argLength := 0, code := 0, grantAddress := 0,
    grantLength := 0, grantTag := 0, phase := .ready, result := .none, detail := 0,
    commandLost := false }

/-! ## Counters (R177) -/

/-- The 32 words of the snapshot, in its order (R177): thirty counters and two accumulators. -/
inductive Counter where
  /-- LINES_TRIGGERED, R7 -/
  | linesTriggered
  /-- STAMP_OVERFLOWS, R12 -/
  | stampOverflows
  /-- ENCODER_GLITCHES, R2 -/
  | encoderGlitches
  /-- REVERSE_STEPS, R1 -/
  | reverseSteps
  /-- LINES_ARRIVED, R20 -/
  | linesArrived
  /-- LINES_MISSED, R20 -/
  | linesMissed
  /-- LINES_DAMAGED, R19 -/
  | linesDamaged
  /-- LINES_UNSOLICITED, R18 -/
  | linesUnsolicited
  /-- LINES_BLANKED, R21 -/
  | linesBlanked
  /-- SPLICE_WINDOWS_LATE, R27 -/
  | spliceWindowsLate
  /-- SPLICE_WINDOWS_FORCED, R29 -/
  | spliceWindowsForced
  /-- MARKS_ACCEPTED, R52 -/
  | marksAccepted
  /-- MARKS_REJECTED, R46 -/
  | marksRejected
  /-- MARKS_DISCARDED, R52 -/
  | marksDiscarded
  /-- stretch accumulator, R44 -/
  | stretch
  /-- shrink accumulator, R44 -/
  | shrink
  /-- SUMMARIES_LATE, R97 -/
  | summariesLate
  /-- SUMMARIES_EARLY_LOST, R96 -/
  | summariesEarlyLost
  /-- BUS_ARBITRATION_LOSSES, R111 -/
  | busArbitrationLosses
  /-- BUS_BIT_ERRORS, R112 -/
  | busBitErrors
  /-- BUS_FRAMES_DROPPED, R112 -/
  | busFramesDropped
  /-- BUS_FRAMES_BAD, R108 -/
  | busFramesBad
  /-- BUS_QUEUE_DISCARDS, R115 -/
  | busQueueDiscards
  /-- CONTEXT_SUPPRESSED, R143 -/
  | contextSuppressed
  /-- SAMPLE_SUPPRESSED, R143 -/
  | sampleSuppressed
  /-- TILE_CORE_DROPPED, R153 -/
  | tileCoreDropped
  /-- TILE_CONTEXT_DROPPED, R153 -/
  | tileContextDropped
  /-- TILE_SAMPLE_DROPPED, R153 -/
  | tileSampleDropped
  /-- BAND_RECORDS_DROPPED, R154 -/
  | bandRecordsDropped
  /-- EVENT_RECORDS_DROPPED, R155 -/
  | eventRecordsDropped
  /-- COMMANDS_LOST, R172 -/
  | commandsLost
  /-- COMMANDS_FAILED, R172 -/
  | commandsFailed
  deriving DecidableEq, Repr

/-- The counters of R15, R31, R52, R104, R129, R150, R166 and R172 and the two accumulators of R44, each
32 bits wide and saturating. -/
structure Counters where
  linesTriggered : Word := 0
  stampOverflows : Word := 0
  encoderGlitches : Word := 0
  reverseSteps : Word := 0
  linesArrived : Word := 0
  linesMissed : Word := 0
  linesDamaged : Word := 0
  linesUnsolicited : Word := 0
  linesBlanked : Word := 0
  spliceWindowsLate : Word := 0
  spliceWindowsForced : Word := 0
  marksAccepted : Word := 0
  marksRejected : Word := 0
  marksDiscarded : Word := 0
  stretch : Word := 0
  shrink : Word := 0
  summariesLate : Word := 0
  summariesEarlyLost : Word := 0
  busArbitrationLosses : Word := 0
  busBitErrors : Word := 0
  busFramesDropped : Word := 0
  busFramesBad : Word := 0
  busQueueDiscards : Word := 0
  contextSuppressed : Word := 0
  sampleSuppressed : Word := 0
  tileCoreDropped : Word := 0
  tileContextDropped : Word := 0
  tileSampleDropped : Word := 0
  bandRecordsDropped : Word := 0
  eventRecordsDropped : Word := 0
  commandsLost : Word := 0
  commandsFailed : Word := 0
  deriving DecidableEq, Repr

/-- The words in snapshot order (R177). -/
def Counter.all : List Counter :=
  [.linesTriggered, .stampOverflows, .encoderGlitches, .reverseSteps,
   .linesArrived, .linesMissed, .linesDamaged, .linesUnsolicited,
   .linesBlanked, .spliceWindowsLate, .spliceWindowsForced, .marksAccepted,
   .marksRejected, .marksDiscarded, .stretch, .shrink,
   .summariesLate, .summariesEarlyLost, .busArbitrationLosses, .busBitErrors,
   .busFramesDropped, .busFramesBad, .busQueueDiscards, .contextSuppressed,
   .sampleSuppressed, .tileCoreDropped, .tileContextDropped, .tileSampleDropped,
   .bandRecordsDropped, .eventRecordsDropped, .commandsLost, .commandsFailed]

/-- The value of one counter. -/
def Counters.get (c : Counters) : Counter → Word
  | .linesTriggered => c.linesTriggered
  | .stampOverflows => c.stampOverflows
  | .encoderGlitches => c.encoderGlitches
  | .reverseSteps => c.reverseSteps
  | .linesArrived => c.linesArrived
  | .linesMissed => c.linesMissed
  | .linesDamaged => c.linesDamaged
  | .linesUnsolicited => c.linesUnsolicited
  | .linesBlanked => c.linesBlanked
  | .spliceWindowsLate => c.spliceWindowsLate
  | .spliceWindowsForced => c.spliceWindowsForced
  | .marksAccepted => c.marksAccepted
  | .marksRejected => c.marksRejected
  | .marksDiscarded => c.marksDiscarded
  | .stretch => c.stretch
  | .shrink => c.shrink
  | .summariesLate => c.summariesLate
  | .summariesEarlyLost => c.summariesEarlyLost
  | .busArbitrationLosses => c.busArbitrationLosses
  | .busBitErrors => c.busBitErrors
  | .busFramesDropped => c.busFramesDropped
  | .busFramesBad => c.busFramesBad
  | .busQueueDiscards => c.busQueueDiscards
  | .contextSuppressed => c.contextSuppressed
  | .sampleSuppressed => c.sampleSuppressed
  | .tileCoreDropped => c.tileCoreDropped
  | .tileContextDropped => c.tileContextDropped
  | .tileSampleDropped => c.tileSampleDropped
  | .bandRecordsDropped => c.bandRecordsDropped
  | .eventRecordsDropped => c.eventRecordsDropped
  | .commandsLost => c.commandsLost
  | .commandsFailed => c.commandsFailed

/-- Sets one counter. -/
def Counters.set (c : Counters) (k : Counter) (w : Word) : Counters :=
  match k with
  | .linesTriggered => { c with linesTriggered := w }
  | .stampOverflows => { c with stampOverflows := w }
  | .encoderGlitches => { c with encoderGlitches := w }
  | .reverseSteps => { c with reverseSteps := w }
  | .linesArrived => { c with linesArrived := w }
  | .linesMissed => { c with linesMissed := w }
  | .linesDamaged => { c with linesDamaged := w }
  | .linesUnsolicited => { c with linesUnsolicited := w }
  | .linesBlanked => { c with linesBlanked := w }
  | .spliceWindowsLate => { c with spliceWindowsLate := w }
  | .spliceWindowsForced => { c with spliceWindowsForced := w }
  | .marksAccepted => { c with marksAccepted := w }
  | .marksRejected => { c with marksRejected := w }
  | .marksDiscarded => { c with marksDiscarded := w }
  | .stretch => { c with stretch := w }
  | .shrink => { c with shrink := w }
  | .summariesLate => { c with summariesLate := w }
  | .summariesEarlyLost => { c with summariesEarlyLost := w }
  | .busArbitrationLosses => { c with busArbitrationLosses := w }
  | .busBitErrors => { c with busBitErrors := w }
  | .busFramesDropped => { c with busFramesDropped := w }
  | .busFramesBad => { c with busFramesBad := w }
  | .busQueueDiscards => { c with busQueueDiscards := w }
  | .contextSuppressed => { c with contextSuppressed := w }
  | .sampleSuppressed => { c with sampleSuppressed := w }
  | .tileCoreDropped => { c with tileCoreDropped := w }
  | .tileContextDropped => { c with tileContextDropped := w }
  | .tileSampleDropped => { c with tileSampleDropped := w }
  | .bandRecordsDropped => { c with bandRecordsDropped := w }
  | .eventRecordsDropped => { c with eventRecordsDropped := w }
  | .commandsLost => { c with commandsLost := w }
  | .commandsFailed => { c with commandsFailed := w }

/-! ## What leaves the station -/

/-- What the station has put out: a pulse on the line-trigger output (R7), a read of the configuration
block (R174), a write to host memory (R159, R163, R177) and an interrupt message (R181). -/
inductive Output where
  | linePulse
  | blockRead (address : Nat)
  | hostWrite (address : Nat) (bytes : List Byte)
  | interrupt
  deriving DecidableEq, Repr

/-! ## The whole station -/

/-- The state of one station, and the queue of the commands that wait. -/
structure State where
  encoder : Encoder
  intake : Intake
  tracker : Tracker
  ref : RefCtl
  table : BandTable
  bus : SpanBus
  port : Port
  ctl : Control
  counters : Counters
  /-- the attached DRAM: the bytes written since power-on, in rising address order (R55) -/
  dram : List Host.Cell
  /-- everything the station has put out, in the order issued (R164) -/
  outputs : List Output
  /-- how many power-ons there have been: the model's index into `Config.dramUnknown` -/
  powerCycles : Nat
  /-- how many free values have been drawn: the model's index into `Config.snapshotIssued` -/
  draws : Nat
  /-- the commands that wait, first in first out -/
  pending : List Instr
  /-- for each close to come that other commands fall into, how many of its tile slots it deals with before the
  first of them; with none listed a close makes all its offers at once (R151; log entry 29) -/
  overlap : List Nat
  deriving DecidableEq, Repr

/-- Why the machine stops. -/
inductive Fault where
  /-- Raised by FINALISE_LINE in FINALISING when no reference line has a count of 1 or more.  R64: "R62
  enters FINALISING only when such a line exists", so no run meets it, and the manual gives the step no
  effect there.  Safe: the model stops where the manual says nothing. -/
  | finaliseNothing
  deriving DecidableEq, Repr

/-- Why a command has no meaning. -/
inductive Refusal where
  /-- Raised by an arm of `exec` for a command that has no meaning yet.  Safe: the model stops. -/
  | notModelled (mnemonic : String)
  deriving DecidableEq, Repr

/-- The station right after power-on (R183) with the straps at `station`, the encoder inputs at `pair`,
the given power-on count, draw count, outputs, waiting commands and overlaps. -/
def State.powered (station : StationNo) (pair : ChannelPair) (cycles draws : Nat)
    (outputs : List Output) (pending : List Instr) (overlap : List Nat) : State :=
  { encoder := .initial pair, intake := .initial, tracker := .initial, ref := .initial 0,
    table := .initial, bus := .initial, port := .initial .down, ctl := .initial station,
    counters := {}, dram := [], outputs := outputs, powerCycles := cycles, draws := draws,
    pending := pending, overlap := overlap }

/-- The station right after reset: R183 with the straps at station 0 and both encoder channels low
(log entry 1). -/
def State.reset : State := State.powered 0 { a := false, b := false } 0 0 [] [] []

/-! ## Updates of one block -/

/-- Updates `encoder` and nothing else. -/
def State.updEncoder (f : Encoder → Encoder) (s : State) : State := { s with encoder := f s.encoder }

/-- Updates `intake` and nothing else. -/
def State.updIntake (f : Intake → Intake) (s : State) : State := { s with intake := f s.intake }

/-- Updates `tracker` and nothing else. -/
def State.updTracker (f : Tracker → Tracker) (s : State) : State := { s with tracker := f s.tracker }

/-- Updates `ref` and nothing else. -/
def State.updRef (f : RefCtl → RefCtl) (s : State) : State := { s with ref := f s.ref }

/-- Updates `table` and nothing else. -/
def State.updTable (f : BandTable → BandTable) (s : State) : State := { s with table := f s.table }

/-- Updates `bus` and nothing else. -/
def State.updBus (f : SpanBus → SpanBus) (s : State) : State := { s with bus := f s.bus }

/-- Updates `port` and nothing else. -/
def State.updPort (f : Port → Port) (s : State) : State := { s with port := f s.port }

/-- Updates `ctl` and nothing else. -/
def State.updCtl (f : Control → Control) (s : State) : State := { s with ctl := f s.ctl }

/-- Updates `counters` and nothing else. -/
def State.updCounters (f : Counters → Counters) (s : State) : State := { s with counters := f s.counters }

/-- Updates `dram` and nothing else. -/
def State.updDram (f : List Host.Cell → List Host.Cell) (s : State) : State := { s with dram := f s.dram }

/-- Updates `outputs` and nothing else. -/
def State.updOutputs (f : List Output → List Output) (s : State) : State := { s with outputs := f s.outputs }

/-- Updates `powerCycles` and nothing else. -/
def State.updPowerCycles (f : Nat → Nat) (s : State) : State := { s with powerCycles := f s.powerCycles }

/-- Updates `draws` and nothing else. -/
def State.updDraws (f : Nat → Nat) (s : State) : State := { s with draws := f s.draws }

/-- Updates `pending` and nothing else. -/
def State.updPending (f : List Instr → List Instr) (s : State) : State := { s with pending := f s.pending }

/-- Updates `overlap` and nothing else. -/
def State.updOverlap (f : List Nat → List Nat) (s : State) : State := { s with overlap := f s.overlap }

end Sys2Proof.Machine
end

