-- ==== Sys2Proof/Machine/Rounding.lean ====
section
/-! DEFINITION. The rounding modes and the one division site round(a / b) (R33). -/

namespace Sys2Proof.Machine

/-- R33: the mode code of the configuration block; codes 5 to 7 and above name no mode. -/
def Rounding.ofCode : Nat → Option Rounding
  | 0 => some .nearestEven
  | 1 => some .truncate
  | 2 => some .floor
  | 3 => some .ceiling
  | 4 => some .nearestAway
  | _ => none

/-- R33: the code of a mode. -/
def Rounding.code : Rounding → Nat
  | .nearestEven => 0
  | .truncate => 1
  | .floor => 2
  | .ceiling => 3
  | .nearestAway => 4

/-- R33: round(a / b) for b above 0, the integer the mode chooses from the exact quotient. -/
def roundDiv (mode : Rounding) (a : Int) (b : Nat) : Int :=
  let q := a / (b : Int)
  let rem := a % (b : Int)
  match mode with
  | .floor => q
  | .ceiling => if rem = 0 then q else q + 1
  | .truncate => if rem = 0 ∨ 0 ≤ a then q else q + 1
  | .nearestEven =>
    if 2 * rem < b then q
    else if (b : Int) < 2 * rem then q + 1
    else if q % 2 = 0 then q else q + 1
  | .nearestAway =>
    if 2 * rem < b then q
    else if (b : Int) < 2 * rem then q + 1
    else if 0 ≤ a then q + 1 else q

/-- R33 at a site whose numerator is never negative. -/
def roundNat (mode : Rounding) (a b : Nat) : Nat := (roundDiv mode a b).toNat

end Sys2Proof.Machine
end

