-- ==== Sys2Proof/Config.lean ====
section
/-! DEFINITION. The free values: what the manual leaves open while the station goes on. Each is an
opaque constant without a body, so no proof can rest on a value of it. -/

namespace Sys2Proof.Config

/-- What a DRAM byte that nothing has written since the given power-on reads as.
R70: "Power-on leaves the contents of both DRAM regions unknown."  Log entry 3. -/
opaque dramUnknown : Nat → Nat → BitVec 8

/-- How many of the 32 snapshot words had been issued when the link was lost (the given number is the
model's draw counter).  R177: "any part already issued may stand in host memory."  Log entry 4. -/
opaque snapshotIssued : Nat → Nat

/-- The four-byte line-number field of an EVENT record whose line number, 4,294,967,296 or more, four
bytes cannot hold.  R126 and R178 give such an event that line number and R168 gives the field 32 bits.
Log entry 5. -/
opaque lineTooWide : Nat → BitVec 32

/-- What the host reads at a window offset that the table of R169 gives to no field.  Log entry 6. -/
opaque windowGap : Nat → BitVec 8

end Sys2Proof.Config
end

