-- ==== Sys2Proof/Machine/Ops.lean ====
section
/-! DEFINITION. The named operations the blocks share: counters, outputs, the fill and pressure of the
output queue, the configuration flags, and the DRAM. -/

namespace Sys2Proof.Machine

/-! ## Counters and outputs -/

/-- Adds to one counter, saturating (R15, R31, R44, R52, R104, R129, R150, R166, R172). -/
def addTo (k : Counter) (n : Nat) (s : State) : State :=
  s.updCounters fun c => c.set k (satAdd (c.get k) n)

/-- Increments one counter, saturating. -/
def bump (k : Counter) (s : State) : State := addTo k 1 s

/-- Puts something out. -/
def emit (o : Output) (s : State) : State := s.updOutputs (· ++ [o])

/-- R181: sends the attention interrupt; with the link DOWN the message is not sent and not held. -/
def attention (s : State) : State :=
  match s.port.link with
  | .up => emit .interrupt s
  | .down => s

/-! ## Configuration flags (R175) -/

/-- The bus enable of the configuration in force. -/
def busEnabled (s : State) : Bool := s.ctl.cfg.flags.getLsbD 0

/-- The completion interrupt enable of the configuration in force. -/
def completionInterrupts (s : State) : Bool := s.ctl.cfg.flags.getLsbD 1

/-- How many tile columns the span has: W / 32. -/
def StationConfig.tiles (c : StationConfig) : Nat := c.w / 32

/-! ## Line and band numbers -/

/-- The greatest line number a run can have (R8). -/
def maxLine : Nat := 4294967295

/-- R9: the band of a line. -/
def bandOf (line : Nat) : Nat := line / 32

/-- R9: the row of a line in its band. -/
def rowOf (line : Nat) : Nat := line % 32

/-! ## The output queue's fill and pressure -/

/-- Section 9.1: the size of a record in bytes. -/
def Rec.size : Rec → Nat
  | .tile t => 32 + t.payload.length
  | .band _ => 32
  | .event _ => 16

/-- The size of a queue of records. -/
def queueSize : List Rec → Nat
  | [] => 0
  | r :: rs => r.size + queueSize rs

/-- R151: the capacity of the output queue in bytes. -/
def capacity : Nat := 2097152

/-- The fill f of the output queue. -/
def fill (s : State) : Nat := queueSize s.port.queue

/-- R152: the pressure level of a fill. -/
def levelOf (f : Nat) : Nat :=
  if f < 524288 then 0 else if f < 1048576 then 1 else if f < 1572864 then 2 else 3

/-- R152: the pressure level of the station. -/
def pressure (s : State) : Nat := levelOf (fill s)

/-! ## The attached DRAM (R55) -/

/-- R55: 256 MiB. -/
def dramBytes : Nat := 268435456

/-- R55: where the accumulator region starts. -/
def accumulatorBase : Nat := 67108864

/-- What the DRAM holds at an address: the byte last written since power-on, or nothing. -/
def memGet? (m : List Host.Cell) (a : Nat) : Option Byte :=
  (m.find? fun c => c.1 == a).map (·.2)

/-- The cells of a run of bytes from an address upward. -/
def cellsFrom : Nat → List Byte → List Host.Cell
  | _, [] => []
  | a, b :: bs => (a, b) :: cellsFrom (a + 1) bs

/-- Writes a run of bytes from an address upward. -/
def memWrite (a : Nat) (bytes : List Byte) (m : List Host.Cell) : List Host.Cell :=
  m.filter (fun c => c.1 < a) ++ cellsFrom a bytes ++ m.filter (fun c => a + bytes.length ≤ c.1)

/-- The canonical form of the DRAM: addresses strictly rising and inside the 256 MiB.  An unlisted
address holds no byte, so no entry equals what an unlisted address reads as. -/
abbrev MemWf (m : List Host.Cell) : Prop :=
  m.Pairwise (fun x y => x.1 < y.1) ∧ ∀ c ∈ m, c.1 < dramBytes

/-- The DRAM byte at an address; one that nothing has written since power-on is a free value (R70). -/
def dramByte (s : State) (a : Nat) : Byte :=
  (memGet? s.dram a).getD (Config.dramUnknown s.powerCycles a)

/-- A run of DRAM bytes from an address upward. -/
def dramRow (s : State) (a n : Nat) : List Byte :=
  let near := s.dram.filter fun c => decide (a ≤ c.1) && decide (c.1 < a + n)
  (List.range n).map fun i => (memGet? near (a + i)).getD (Config.dramUnknown s.powerCycles (a + i))

/-- Writes a run of DRAM bytes from an address upward. -/
def dramWrite (a : Nat) (bytes : List Byte) (s : State) : State := s.updDram (memWrite a bytes)

/-- A 16-bit word as two bytes, the low byte first. -/
def le16 (n : Nat) : List Byte := [BitVec.ofNat 8 n, BitVec.ofNat 8 (n / 256)]

/-- A 32-bit word as four bytes, the low byte first. -/
def le32 (n : Nat) : List Byte := le16 n ++ le16 (n / 65536)

/-- A 64-bit word as eight bytes, the low byte first. -/
def le64 (n : Nat) : List Byte := le32 n ++ le32 (n / 4294967296)

/-- A 16-bit number as two bytes, the high byte first (R107). -/
def be16 (n : Nat) : List Byte := [BitVec.ofNat 8 (n / 256), BitVec.ofNat 8 n]

/-- A 32-bit number as four bytes, the high byte first (R107). -/
def be32 (n : Nat) : List Byte := be16 (n / 65536) ++ be16 n

end Sys2Proof.Machine
end

