-- ==== Sys2Proof/Machine/Layout.lean ====
section
/-! DEFINITION. The layouts the host sees: records, completion entries and the codes in them (R168). -/

namespace Sys2Proof.Machine

/-! ## Codes -/

/-- R142. -/
def Fidelity.code : Fidelity → Nat
  | .full => 0 | .half => 1 | .quarter => 2 | .stamp => 3

/-- R142: the fidelity a code names. -/
def Fidelity.ofCode : Nat → Option Fidelity
  | 0 => some .full | 1 => some .half | 2 => some .quarter | 3 => some .stamp | _ => none

/-- R142. -/
def Reason.code : Reason → Nat
  | .core => 1 | .context => 2 | .sample => 3

/-- R107. -/
def TileClass.code : TileClass → Nat
  | .void => 0 | .blind => 1 | .unref => 2 | .quiet => 3 | .hit => 4

/-- R107: the class a code names. -/
def TileClass.ofCode : Nat → Option TileClass
  | 0 => some .void | 1 => some .blind | 2 => some .unref | 3 => some .quiet | 4 => some .hit
  | _ => none

/-- R149, R169. -/
def PhaseMode.code : PhaseMode → Nat
  | .seeking => 0 | .locked => 1 | .coasting => 2 | .lost => 3

/-- R149. -/
def SideStatus.code : SideStatus → Nat
  | .none => 0 | .received => 1 | .absent => 2 | .mismatched => 3

/-- R169. -/
def OpState.code : OpState → Nat
  | .unconfigured => 0 | .idle => 1 | .enrolling => 2 | .armed => 3 | .running => 4 | .stopping => 5

/-- R169. -/
def RefState.code : RefState → Nat
  | .empty => 0 | .learning => 1 | .finalising => 2 | .ready => 3

/-- R169. -/
def LinkState.code : LinkState → Nat
  | .down => 0 | .up => 1

/-- R169. -/
def CmdPhase.code : CmdPhase → Nat
  | .ready => 0 | .busy _ => 1 | .done => 2 | .failed => 3

/-- R171. -/
def ResultCode.code : ResultCode → Nat
  | .none => 0 | .ok => 1 | .unknownCommand => 2 | .wrongState => 3 | .badArgument => 4
  | .configInvalid => 5 | .linkLost => 6

/-- R169. -/
def GrantStatus.code : GrantStatus → Nat
  | .accepted => 0 | .invalid => 1 | .full => 2 | .state => 3

/-- R178. -/
def EventCode.code : EventCode → Nat
  | .splice => 1 | .mark => 2 | .locked => 3 | .coasting => 4 | .lost => 5 | .stepClamped => 6
  | .referenceReady => 7 | .spanConflict => 8 | .fingerprintMismatch => 9 | .duplicateStation => 10
  | .lateForRun => 11 | .busTrouble => 12 | .runStarted => 13 | .runEnded => 14

/-- R168: the flag bits of a completion entry. -/
def RetireFlag.code : RetireFlag → Nat
  | .bySpace => 1 | .byTimer => 2 | .byHalt => 4

/-- A flag bit. -/
def bit (b : Bool) (weight : Nat) : Nat := if b then weight else 0

/-- One byte. -/
def byte (n : Nat) : Byte := BitVec.ofNat 8 n

/-- R168: the usable-row map, bit k for row k. -/
def rowMap : List Bool → Nat
  | [] => 0
  | b :: bs => bit b 1 + 2 * rowMap bs

/-! ## Records (R168) -/

/-- R168: the TILE record, header and payload. -/
def TileRec.bytes (t : TileRec) : List Byte :=
  [byte 1, byte t.fidelity.code, byte t.reason.code,
    byte (bit t.unilateral 1 + bit t.handover 2 + bit t.partialRows 4 + bit t.clipped 8),
    byte t.station.toNat, byte t.cls.code]
  ++ le16 t.g ++ le32 t.band ++ le32 t.repeatNo.toNat ++ le16 (t.refLine.getD 65535)
  ++ [byte t.mean, byte t.mad, BitVec.ofInt 8 t.shift, byte t.peak]
  ++ le16 t.glare ++ le32 (rowMap t.usable) ++ le16 t.payload.length
  ++ [byte t.inspectable, byte t.compared] ++ t.payload

/-- R168: the BAND record. -/
def BandRec.bytes (b : BandRec) : List Byte :=
  [byte 2, byte b.station.toNat, byte (b.mode.code + 16 * b.pressure),
    byte (b.left.code + 16 * b.right.code)]
  ++ le32 b.band ++ le32 b.repeatNo.toNat
  ++ le16 b.voids ++ le16 b.blinds ++ le16 b.unrefs ++ le16 b.quiets ++ le16 b.hits
  ++ le16 b.queued ++ le16 b.coreDrops.toNat ++ le16 b.contextDrops.toNat
  ++ le16 b.sampleDrops.toNat ++ le16 b.unreported.toNat

/-- R168: the EVENT record. -/
def EventRec.bytes (e : EventRec) : List Byte :=
  [byte 3, byte e.code.code, byte e.origin.toNat, byte (bit e.peer 1)]
  ++ le32 e.line.toNat ++ le32 e.data.toNat ++ le32 0

/-- R168: a record as it is written into a grant. -/
def Rec.bytes : Rec → List Byte
  | .tile t => t.bytes
  | .band b => b.bytes
  | .event e => e.bytes

/-- The band of a TILE or BAND record; an EVENT record carries none (R159). -/
def Rec.band? : Rec → Option Nat
  | .tile t => some t.band
  | .band b => some b.band
  | .event _ => none

/-- R163, R168: the completion entry of the open grant retired with sequence number `seq`. -/
def completionBytes (seq : Word) (g : OpenGrant) (flag : RetireFlag) : List Byte :=
  le32 seq.toNat ++ le32 g.grant.tag.toNat ++ le32 g.used ++ le32 g.records
  ++ le32 (g.firstBand.getD 4294967295) ++ le32 (g.lastBand.getD 4294967295)
  ++ [byte flag.code, 0, 0, 0, 0, 0, 0, 0]

end Sys2Proof.Machine
end

