-- ==== Sys2Proof/Machine/Frames.lean ====
section
/-! DEFINITION. Span Bus frames: the CRC, the fields on the line, the test of form, and the fingerprint
(R107 to R110, R122). -/

namespace Sys2Proof.Machine

/-! ## The CRC (R109) -/

/-- R109: one bit taken into the CRC register. -/
def crcBit (reg : Half) (b : Bool) : Half :=
  if reg.msb != b then (reg <<< 1) ^^^ 0x1021#16 else reg <<< 1

/-- The bits of a byte, most significant first. -/
def bitsOfByte (b : Byte) : List Bool :=
  [b.getLsbD 7, b.getLsbD 6, b.getLsbD 5, b.getLsbD 4, b.getLsbD 3, b.getLsbD 2, b.getLsbD 1,
    b.getLsbD 0]

/-- The bits of a list of bytes, in the order they are sent. -/
def bitsOf (bytes : List Byte) : List Bool := bytes.flatMap bitsOfByte

/-- R109: the CRC of a list of bytes, preset to all ones and sent as it stands. -/
def crc16 (bytes : List Byte) : Half := (bitsOf bytes).foldl crcBit 0xFFFF#16

/-- R122: the fingerprint of a station with divider `d` and reference length `l`. -/
def fingerprint (d l : Nat) : Half := crc16 (be16 d ++ be16 l)

/-! ## Kinds, arbitration values and the bits of a frame (R107) -/

/-- R107. -/
def FrameKind.code : FrameKind → Nat
  | .halt => 1 | .run => 2 | .alert => 3 | .summary => 4 | .span => 5

/-- R107: kind × 16 + sender. -/
def Frame.arb (f : Frame) : Nat := f.kind.code * 16 + f.sender.toNat

/-- The arbitration, length and body fields of a frame. -/
def Frame.fields (f : Frame) : List Byte := byte f.arb :: byte f.body.length :: f.body

/-- The frame's bits from its first arbitration bit to its last CRC bit. -/
def Frame.bits (f : Frame) : List Bool :=
  bitsOf f.fields ++ bitsOf (be16 (crc16 f.fields).toNat)

/-- R107. -/
def alertCode : AlertKind → Nat
  | .splice => 1 | .mark => 2

/-! ## Frames heard -/

/-- What a frame with a good CRC says, by its kind. -/
inductive HeardFrame where
  | halt (sender : StationNo)
  | run (sender : StationNo)
  | alert (sender : StationNo) (alert : AlertKind) (startLine : Word)
  | summary (sender : StationNo) (band : Half) (pressure : Byte) (left right : List ZoneCode)
  | span (sender : StationNo) (c0 w fingerprint : Half)
  deriving DecidableEq, Repr

/-- The sender of a frame. -/
def HeardFrame.sender : HeardFrame → StationNo
  | .halt n => n
  | .run n => n
  | .alert n _ _ => n
  | .summary n _ _ _ _ => n
  | .span n _ _ _ => n

/-- The bytes of zone entries, each a class code and a severity (R107). -/
def zoneBytes : List ZoneCode → List Byte
  | [] => []
  | z :: zs => z.cls :: z.severity :: zoneBytes zs

/-- The zone entries a list of bytes spells, two bytes each. -/
def zoneOfBytes : List Byte → List ZoneCode
  | c :: v :: bs => { cls := c, severity := v } :: zoneOfBytes bs
  | _ => []

/-- R107: the frame on the line. -/
def HeardFrame.frame : HeardFrame → Frame
  | .halt n => { kind := .halt, sender := n, body := [] }
  | .run n => { kind := .run, sender := n, body := [] }
  | .alert n k line =>
    { kind := .alert, sender := n, body := byte (alertCode k) :: be32 line.toNat }
  | .summary n b p l r =>
    { kind := .summary, sender := n,
      body := be16 b.toNat ++ [p, byte l.length, byte r.length] ++ zoneBytes l ++ zoneBytes r }
  | .span n c0 w fp =>
    { kind := .span, sender := n, body := be16 c0.toNat ++ be16 w.toNat ++ be16 fp.toNat }

/-- R110: the form of a SPAN's C0 and W. -/
def spanForm (c0 w : Nat) : Bool :=
  decide (c0 % 32 = 0) && decide (w % 32 = 0) && decide (512 ≤ w) && decide (w ≤ 8192)

/-- R110: whether a frame with a good CRC passes the test of form.  A SUMMARY's length 5 + 2 × (left
count + right count) has one byte to stand in (R107). -/
def HeardFrame.wellFormed : HeardFrame → Bool
  | .summary _ _ _ l r => decide (5 + 2 * (l.length + r.length) ≤ 255)
  | .span _ c0 w _ => spanForm c0.toNat w.toNat
  | _ => true

/-- A big-endian 16-bit field. -/
def half (hi lo : Byte) : Half := BitVec.ofNat 16 (256 * hi.toNat + lo.toNat)

/-- R110: what a received frame says, when it passes the test of form. -/
def parseFrame (f : RawFrame) : Option HeardFrame :=
  let sender : StationNo := BitVec.ofNat 4 f.arbitration.toNat
  if f.body.length = f.length.toNat then
    match f.arbitration.toNat / 16, f.body with
    | 1, [] => some (.halt sender)
    | 2, [] => some (.run sender)
    | 3, [k, a, b, c, d] =>
      let line : Word := BitVec.ofNat 32 (65536 * (half a b).toNat + (half c d).toNat)
      if k = 1 then some (.alert sender .splice line)
      else if k = 2 then some (.alert sender .mark line)
      else none
    | 4, b1 :: b0 :: p :: l :: r :: zone =>
      if zone.length = 2 * (l.toNat + r.toNat) then
        some (.summary sender (half b1 b0) p (zoneOfBytes (zone.take (2 * l.toNat)))
          (zoneOfBytes (zone.drop (2 * l.toNat))))
      else none
    | 5, [c1, c0, w1, w0, f1, f0] =>
      if spanForm (half c1 c0).toNat (half w1 w0).toNat then
        some (.span sender (half c1 c0) (half w1 w0) (half f1 f0))
      else none
    | _, _ => none
  else none

/-- R108: whether the CRC computed over arbitration, length and body agrees with the CRC field. -/
def goodCrc (f : RawFrame) : Bool := crc16 (f.arbitration :: f.length :: f.body) == f.crc

/-- R108, R110: what a received frame says, when its CRC agrees and it passes the test of form. -/
def readFrame (f : RawFrame) : Option HeardFrame := if goodCrc f then parseFrame f else none

end Sys2Proof.Machine
end

