-- ==== Sys2Proof/Machine/Bus.lean ====
section
/-! DEFINITION. The transmit queue of the Span Bus Controller (R114 to R116) and the frames the station
itself builds (R118, R120, R125, R127, R128). -/

namespace Sys2Proof.Machine

/-- Replaces the transmit queue. -/
def setTxQueue (q : List TxFrame) (s : State) : State := s.updBus fun b => { b with queue := q }

/-- R114: puts a frame in its place: after every frame of equal or lower arbitration value. -/
def insertTx (t : TxFrame) : List TxFrame → List TxFrame
  | [] => [t]
  | u :: us => if u.frame.arb ≤ t.frame.arb then u :: insertTx t us else t :: u :: us

/-- R115: whether a queued frame may give way to a frame of arbitration value `arb`. -/
def mayYield (arb : Nat) (u : TxFrame) : Bool := !u.sending && decide (arb ≤ u.frame.arb)

/-- The oldest of some frames: the one queued first. -/
def oldestTx : List TxFrame → Option TxFrame
  | [] => none
  | u :: us =>
    match oldestTx us with
    | none => some u
    | some v => if u.age < v.age then some u else some v

/-- R115: whether a HALT or SPAN frame is already waiting or being sent, so that another is not queued. -/
def alreadyQueued (k : FrameKind) (b : SpanBus) : Bool :=
  (k == .halt || k == .span) &&
    (b.queue.any (fun u => u.frame.kind == k) || b.onLine.any (fun f => f.kind == k))

/-- R114, R115: offers a frame to the transmit queue. -/
def offerFrame (f : Frame) (s : State) : State :=
  let b := s.bus
  let t : TxFrame := { frame := f, errors := 0, sending := false, age := b.nextAge }
  let s1 := s.updBus fun b => { b with nextAge := b.nextAge + 1 }
  if alreadyQueued f.kind b then s
  else if b.queue.length < 8 then setTxQueue (insertTx t b.queue) s1
  else
    match oldestTx (b.queue.filter (mayYield f.arb)) with
    | some old => bump .busQueueDiscards (setTxQueue (insertTx t (b.queue.erase old)) s1)
    | none => bump .busQueueDiscards s

/-! ## The frames the station builds -/

/-- R125: the station's HALT frame. -/
def haltFrameOf (s : State) : Frame := (HeardFrame.halt s.ctl.station).frame

/-- R120: the station's RUN frame. -/
def runFrameOf (s : State) : Frame := (HeardFrame.run s.ctl.station).frame

/-- R122: the station's fingerprint. -/
def ownFingerprint (s : State) : Half := fingerprint s.ctl.cfg.d s.ctl.cfg.l

/-- R118: the station's SPAN frame, with its C0, W and fingerprint. -/
def spanFrameOf (s : State) : Frame :=
  (HeardFrame.span s.ctl.station (BitVec.ofNat 16 s.ctl.cfg.c0) (BitVec.ofNat 16 s.ctl.cfg.w)
    (ownFingerprint s)).frame

/-- R128: the ALERT frame of a local splice or mark. -/
def alertFrameOf (k : AlertKind) (line : Word) (s : State) : Frame :=
  (HeardFrame.alert s.ctl.station k line).frame

/-- R116, R124: withdraws the SPAN and RUN frames from the transmit queue. -/
def withdrawEnrolling (q : List TxFrame) : List TxFrame :=
  q.filter fun u => !(u.frame.kind == .span || u.frame.kind == .run)

end Sys2Proof.Machine
end

