-- ==== Sys2Proof/Machine/Delivery.lean ====
section
/-! DEFINITION. The output queue and the Host Port: taking and dropping records, writing the head
record into the open grant, and retiring a grant (R151 to R164). -/

namespace Sys2Proof.Machine

/-! ## Retiring the open grant -/

/-- R163: where the completion entry for a sequence number goes: slot (n − 1) modulo 256 of the ring. -/
def ringSlot (seq : Word) : Nat := (seq - 1).toNat % 256

/-- R159: the open grant's remaining space. -/
def OpenGrant.space (g : OpenGrant) : Nat := g.grant.length.toNat - g.used

/-- R163, R164, R181: retires the open grant: its completion entry goes to the ring, next sequence
increments, and the attention interrupt follows when completion interrupts are enabled. -/
def retireGrant (flag : RetireFlag) (s : State) : State :=
  match s.port.grant with
  | none => s
  | some g =>
    let s1 := emit (.hostWrite (s.ctl.cfg.ring + 32 * ringSlot s.port.nextSeq)
      (completionBytes s.port.nextSeq g flag)) s
    let s2 := s1.updPort fun p => { p with grant := none, nextSeq := p.nextSeq + 1 }
    if completionInterrupts s2 then attention s2 else s2

/-- R160: whether the open grant is due to be retired by space. -/
def spaceDue (s : State) : Bool :=
  match s.port.grant with
  | none => false
  | some g =>
    decide (g.space < 16) ||
      match s.port.queue with
      | [] => false
      | r :: _ => decide (g.space < r.size)

/-- R160: retires the open grant by space when it is due. -/
def spaceTest (s : State) : State := if spaceDue s then retireGrant .bySpace s else s

/-! ## Offers to the queue -/

/-- R151: whether a record fits in the free space. -/
def fits (r : Rec) (s : State) : Bool := decide (r.size ≤ capacity - fill s)

/-- R151: a taken record joins the tail; R160 is tested on the head it may have become. -/
def joinQueue (r : Rec) (s : State) : State :=
  spaceTest (s.updPort fun p => { p with queue := p.queue ++ [r] })

/-- R151, R155: offers an EVENT record. -/
def offerEvent (e : EventRec) (s : State) : State :=
  if fits (.event e) s then joinQueue (.event e) s else bump .eventRecordsDropped s

/-- R153: the loss of a TILE record that does not fit, counted by its reason. -/
def dropTile (r : Reason) (s : State) : State :=
  match r with
  | .core =>
    bump .tileCoreDropped (s.updPort fun p => { p with coreDrops := satInc16 p.coreDrops })
  | .context =>
    bump .tileContextDropped (s.updPort fun p => { p with contextDrops := satInc16 p.contextDrops })
  | .sample =>
    bump .tileSampleDropped (s.updPort fun p => { p with sampleDrops := satInc16 p.sampleDrops })

/-- R151, R153: offers a TILE record. -/
def offerTile (t : TileRec) (s : State) : State :=
  if fits (.tile t) s then joinQueue (.tile t) s else dropTile t.reason s

/-- R154: the BAND record with the drop counts and bands-unreported count of the queue written in. -/
def withDrops (b : BandRec) (p : Port) : BandRec :=
  { b with coreDrops := p.coreDrops, contextDrops := p.contextDrops, sampleDrops := p.sampleDrops,
           unreported := p.unreported }

/-- R151, R154: offers a BAND record. -/
def offerBand (b : BandRec) (s : State) : State :=
  if fits (.band b) s then
    joinQueue (.band (withDrops b s.port)) (s.updPort fun p =>
      { p with coreDrops := 0, contextDrops := 0, sampleDrops := 0, unreported := 0 })
  else
    bump .bandRecordsDropped (s.updPort fun p => { p with unreported := satInc16 p.unreported })

/-! ## Filling a grant -/

/-- R159: the open grant after a record has been written into it. -/
def OpenGrant.wrote (g : OpenGrant) (r : Rec) : OpenGrant :=
  { g with
    used := g.used + r.size
    records := g.records + 1
    firstBand := match r.band? with
      | none => g.firstBand
      | some b => some (g.firstBand.getD b)
    lastBand := match r.band? with
      | none => g.lastBand
      | some b => some b }

/-- R159, R160: writes the head record into the open grant `g` at the grant's address plus its bytes
used; the record leaves the queue; the space tests follow. -/
def writeHead (g : OpenGrant) (r : Rec) (s : State) : State :=
  spaceTest ((emit (.hostWrite (g.grant.address.toNat + g.used) r.bytes) s).updPort fun p =>
    { p with queue := p.queue.tail, grant := some (g.wrote r) })

/-- R158: a freshly opened grant. -/
def freshGrant (flush : Nat) (g : Grant) : OpenGrant :=
  { grant := g, used := 0, records := 0, firstBand := none, lastBand := none, timer := flush }

end Sys2Proof.Machine
end

