-- ==== Sys2Proof/Machine/Events.lean ====
section
/-! DEFINITION. Raising and routing an event (R178, R179). -/

namespace Sys2Proof.Machine

/-- R178: the line-number field of an EVENT record.  A next line of 4,294,967,296 does not fit the four
bytes of R168: what they hold then is a free value (log entry 5). -/
def eventLine (line : Nat) : Word :=
  if line ≤ maxLine then BitVec.ofNat 32 line else Config.lineTooWide line

/-- R179: whether the SHARE path takes an event: SPLICE and MARK alone. -/
def sharedAs : EventCode → Option AlertKind
  | .splice => some .splice
  | .mark => some .mark
  | _ => none

/-- R179: the REPORT path of a local event. -/
def reportLocal (code : EventCode) (line : Nat) (data : Word) (s : State) : State :=
  if s.ctl.cfg.report.getLsbD code.code then
    offerEvent { code := code, origin := s.ctl.station, peer := false, line := eventLine line,
                 data := data } s
  else s

/-- R128, R179: the SHARE path of a local event, taken while RUNNING with the bus enabled. -/
def shareLocal (code : EventCode) (line : Nat) (s : State) : State :=
  match sharedAs code with
  | none => s
  | some k =>
    if s.ctl.cfg.share.getLsbD code.code && s.bus.op == .running && busEnabled s then
      offerFrame (alertFrameOf k (BitVec.ofNat 32 line) s) s
    else s

/-- R178, R179: raises a local event with its line number and data. -/
def raise (code : EventCode) (line : Nat) (data : Word) (s : State) : State :=
  shareLocal code line (reportLocal code line data s)

/-- R178: raises a local event to which its rule gives no line number: it carries the next line. -/
def raiseNow (code : EventCode) (data : Word) (s : State) : State :=
  raise code s.intake.nextLine data s

end Sys2Proof.Machine
end

