-- ==== Sys2Proof/Machine/Windows.lean ====
section
/-! DEFINITION. The blanking window list (R25 to R30). -/

namespace Sys2Proof.Machine

/-- Whether a line lies within a window. -/
def Window.holds (line : Nat) (w : Window) : Bool := decide (w.start ≤ line) && decide (line ≤ w.stop)

/-- R28: whether two windows overlap or adjoin. -/
def Window.touches (a b : Window) : Bool :=
  decide (a.start ≤ b.stop + 1) && decide (b.start ≤ a.stop + 1)

/-- R28: two windows as one. -/
def Window.join (a b : Window) : Window :=
  { start := min a.start b.start, stop := max a.stop b.stop, started := a.started || b.started }

/-- R28: inserts a window in start-line order. -/
def insertWindow (w : Window) : List Window → List Window
  | [] => [w]
  | v :: vs => if v.start ≤ w.start then v :: insertWindow w vs else w :: v :: vs

/-- R28: merges a window with every window it overlaps or adjoins, in start-line order. -/
def mergeWindow (w : Window) (ws : List Window) : List Window :=
  insertWindow ((ws.filter (w.touches ·)).foldl Window.join w) (ws.filter fun v => !w.touches v)

/-- R29: a new window that finds the list full joins the last window, whose started flag stays, and then
whatever the two reach. -/
def forceWindow (w : Window) (ws : List Window) : List Window :=
  match ws.getLast? with
  | none => [w]
  | some last =>
    mergeWindow { start := min last.start w.start, stop := max last.stop w.stop,
                  started := last.started } ws.dropLast

/-- Replaces the blanking window list. -/
def setWindows (ws : List Window) (s : State) : State := s.updIntake fun i => { i with windows := ws }

/-- R28, R29: enters a window in the list. -/
def enterWindow (w : Window) (s : State) : State :=
  let ws := s.intake.windows
  if ws.any (w.touches ·) then setWindows (mergeWindow w ws) s
  else if ws.length < 4 then setWindows (insertWindow w ws) s
  else bump .spliceWindowsForced (setWindows (forceWindow w ws) s)

/-- R27: a window request from `first` to `last`, both computed without wrapping. -/
def requestWindow (first last : Nat) (s : State) : State :=
  let start := max first s.intake.nextLine
  if last < s.intake.nextLine then bump .spliceWindowsLate s
  else if maxLine < start then s
  else enterWindow { start := start, stop := min last maxLine, started := false } s

/-- R21: whether a line lies within a blanking window. -/
def blankedAt (line : Nat) (ws : List Window) : Bool := ws.any (·.holds line)

/-- R30: whether a line is the first of a window. -/
def startsAt (line : Nat) (ws : List Window) : Bool := ws.any fun w => w.holds line && !w.started

/-- R30: sets the started flag of the window a line lies within. -/
def markStarted (line : Nat) (ws : List Window) : List Window :=
  ws.map fun w => if w.holds line then { w with started := true } else w

/-- R30: removes every window whose end line has been reached. -/
def dropEnded (line : Nat) (ws : List Window) : List Window := ws.filter fun w => decide (line < w.stop)

end Sys2Proof.Machine
end

