-- ==== Sys2Proof/Machine/Registration.lean ====
section
/-! DEFINITION. The Registration Tracker: the mark queue, the test of a mark, the reference index and
the advance of the phase (R33 to R51). -/

namespace Sys2Proof.Machine

/-! ## Line events and line records -/

/-- A line event as intake hands it on (R20). -/
structure LineEvent where
  line : Nat
  arrived : Bool
  position : Word
  pixels : List Byte
  damaged : Bool
  blanked : Bool
  windowStart : Bool
  deriving DecidableEq, Repr

/-- A line record as the tracker hands it on (R50), with the repeat-end notice of R61. -/
structure LineRecord where
  line : Nat
  /-- the kind: ARRIVED or MISSED -/
  arrived : Bool
  damaged : Bool
  pixels : List Byte
  position : Word
  blanked : Bool
  /-- the record's reference index: present when the line is registered -/
  index : Option Nat
  repeatNo : Word
  mode : PhaseMode
  repeatEnd : Bool
  deriving DecidableEq, Repr

/-- R50: the registered flag of a record. -/
def LineRecord.registered (r : LineRecord) : Bool := r.index.isSome

/-! ## The mark queue -/

/-- R37: inserts a mark in start-line order. -/
def insertMark (m : MarkEntry) : List MarkEntry → List MarkEntry
  | [] => [m]
  | n :: ns => if n.start ≤ m.start then n :: insertMark m ns else m :: n :: ns

/-- R37: the spacing below which two starts are one repeat: floor(L / 4). -/
def markSpacing (s : State) : Nat := s.ctl.cfg.l / 4

/-- R37: whether a start line is a duplicate of a queued one or of the last taken start. -/
def duplicateMark (start : Nat) (s : State) : Bool :=
  s.tracker.marks.any (fun m => decide (natDist start m.start < markSpacing s)) ||
    s.tracker.lastTaken.any fun t => decide (natDist start t < markSpacing s)

/-- R37: whether an offered start line is discarded: stale, blanked, duplicate or full. -/
def discardMark (start : Nat) (s : State) : Bool :=
  decide (start < s.tracker.line) || blankedAt start s.intake.windows || duplicateMark start s ||
    decide (4 ≤ s.tracker.marks.length)

/-- R37: offers a start line to the mark queue. -/
def offerMark (start : Nat) (source : MarkSource) (s : State) : State :=
  if discardMark start s then bump .marksDiscarded s
  else s.updTracker fun t =>
    { t with marks := insertMark { start := start, source := source } t.marks }

/-! ## Reseek and coast -/

/-- R38: the return to SEEKING at a window start. -/
def reseek (s : State) : State :=
  s.updTracker fun t =>
    { t with mode := .seeking, wrapPending := false, prevAccepted := false, sinceWrap := 0, coasts := 0 }

/-- R39: a coast, with its event. -/
def coast (ev : LineEvent) (s : State) : State :=
  let s1 := s.updTracker fun t =>
    { t with
      wrapPending := false
      prevAccepted := false
      coasts := t.coasts + 1
      mode := if t.coasts + 1 < 4 then .coasting else .lost }
  raise (if s.tracker.coasts + 1 < 4 then .coasting else .lost) ev.line ev.position s1

/-- R39: the counts a line event raises before its marks are taken. -/
def countLine (ev : LineEvent) (s : State) : State :=
  let s1 := s.updTracker fun t =>
    { t with
      sinceStart := satInc t.sinceStart
      sinceWrap := if t.wrapPending then t.sinceWrap + 1 else t.sinceWrap }
  if s.tracker.wrapPending && decide (s.ctl.cfg.wc + 1 ≤ s.tracker.sinceWrap + 1) then coast ev s1
  else s1

/-! ## Acting on a mark -/

/-- R42, R44: what acquiring and accepting a mark both set. -/
def lockOn (s : State) : State :=
  bump .marksAccepted (s.updTracker fun t =>
    { t with
      p := 0
      mode := .locked
      coasts := 0
      wrapPending := false
      prevAccepted := true
      sinceStart := 0 })

/-- Increments the repeat number, saturating (R42, R44). -/
def nextRepeat (s : State) : State :=
  s.updTracker fun t => { t with repeatNo := satInc t.repeatNo }

/-- R42: a mark acted on in SEEKING or LOST is acquired. -/
def acquireMark (ev : LineEvent) (s : State) : State :=
  raise .locked ev.line ev.position (lockOn (nextRepeat s))

/-- R45: the step that a repeat of `n` line events gives, before the clamp. -/
def stepFor (s : State) (n : Nat) : Nat := roundNat s.ctl.cfg.rounding (65536 * s.ctl.cfg.l) n

/-- R45: S held to 49,152 to 81,920. -/
def clampStep (n : Nat) : Nat := max 49152 (min n 81920)

/-- R45: the step update of an accepted mark whose repeat began at an acquired or accepted one. -/
def updateStep (ev : LineEvent) (s : State) : State :=
  let raw := stepFor s s.tracker.sinceStart.toNat
  let s1 := s.updTracker fun t => { t with step := clampStep raw }
  if clampStep raw = raw then s1 else raise .stepClamped ev.line ev.position s1

/-- R43: the rounded phase q. -/
def roundedPhase (s : State) : Nat := roundNat s.ctl.cfg.rounding s.tracker.p 65536

/-- R43: the offset e of a mark from the predicted start: +q when late, q − L when early. -/
def markOffset (s : State) : Int :=
  if s.tracker.wrapPending then (roundedPhase s : Int) else (roundedPhase s : Int) - s.ctl.cfg.l

/-- R44: adds the offset of an accepted mark to its accumulator. -/
def addOffset (e : Int) (s : State) : State :=
  if 0 < e then addTo .stretch e.toNat s
  else if e < 0 then addTo .shrink (-e).toNat s
  else s

/-- R44: accepts a mark. -/
def acceptMark (ev : LineEvent) (s : State) : State :=
  let s1 := addOffset (markOffset s) s
  let s2 := if s.tracker.prevAccepted then updateStep ev s1 else s1
  let s3 := if s.tracker.wrapPending then s2 else nextRepeat s2
  let s4 := lockOn s3
  if s.tracker.mode = .coasting then raise .locked ev.line ev.position s4 else s4

/-- R42, R43, R46: acts on the line's mark according to the phase mode. -/
def actOnMark (ev : LineEvent) (s : State) : State :=
  match s.tracker.mode with
  | .seeking | .lost => acquireMark ev s
  | .locked | .coasting =>
    if (markOffset s).natAbs ≤ s.ctl.cfg.wc then acceptMark ev s else bump .marksRejected s

/-- R61: whether the line's mark, acted on in this state, sends a repeat-end notice. -/
def sendsNotice (s : State) : Bool :=
  match s.tracker.mode with
  | .seeking | .lost => false
  | .locked | .coasting => decide ((markOffset s).natAbs ≤ s.ctl.cfg.wc) && s.tracker.prevAccepted

/-- R41: the entries due at a line: those at the head whose start line is at or below it. -/
def dueMarks (line : Nat) (ms : List MarkEntry) : List MarkEntry :=
  ms.takeWhile fun m => decide (m.start ≤ line)

/-- R41: takes the entries due at the line off the queue; all but the first are stale duplicates. -/
def takeDue (line : Nat) (s : State) : State :=
  let due := dueMarks line s.tracker.marks
  match due.getLast? with
  | none => s
  | some last =>
    addTo .marksDiscarded (due.length - 1) (s.updTracker fun t =>
      { t with marks := t.marks.drop due.length, lastTaken := some last.start })

/-- R41: takes the line's marks and acts on the first of them, or discards it on a blanked line. -/
def takeMarks (ev : LineEvent) (s : State) : State :=
  if (dueMarks ev.line s.tracker.marks).isEmpty then s
  else if ev.blanked then bump .marksDiscarded (takeDue ev.line s)
  else actOnMark ev (takeDue ev.line s)

/-- R61: whether the marks taken at this line send a repeat-end notice. -/
def noticeAt (ev : LineEvent) (s : State) : Bool :=
  !(dueMarks ev.line s.tracker.marks).isEmpty && !ev.blanked && sendsNotice (takeDue ev.line s)

/-! ## The reference index and the advance -/

/-- R47: whether a line is registered, once its marks have been taken. -/
def registersLine (ev : LineEvent) (s : State) : Bool :=
  (s.tracker.mode == .locked || s.tracker.mode == .coasting) && !ev.blanked

/-- R47: the reference index of a registered line; an index of L becomes 0. -/
def refIndex (s : State) : Nat := if roundedPhase s < s.ctl.cfg.l then roundedPhase s else 0

/-- R48: the phase grown by the step, and the predicted wrap when it reaches `full`, L × 65,536. -/
def Tracker.advance (full : Nat) (t : Tracker) : Tracker :=
  if t.p + t.step < full then { t with p := t.p + t.step }
  else
    { t with p := t.p + t.step - full, repeatNo := satInc t.repeatNo, wrapPending := true,
             sinceWrap := 0 }

/-- R48: the advance of the phase over a registered line. -/
def advancePhase (s : State) : State := s.updTracker (Tracker.advance (65536 * s.ctl.cfg.l))

/-- R50: the line record, formed before the phase advances (R49). -/
def recordFor (ev : LineEvent) (notice : Bool) (s : State) : LineRecord :=
  { line := ev.line
    arrived := ev.arrived
    damaged := ev.damaged
    pixels := ev.pixels
    position := ev.position
    blanked := ev.blanked
    index := if registersLine ev s then some (refIndex s) else none
    repeatNo := s.tracker.repeatNo
    mode := s.tracker.mode
    repeatEnd := notice }

/-- R38, R39: the reseek and the count towards a coast, the first two parts of a line event. -/
def beforeMarks (ev : LineEvent) (s : State) : State :=
  countLine ev (if ev.windowStart then reseek s else s)

/-- R48, R50: what follows the forming of the record: the advance and the tracker line. -/
def afterRecord (ev : LineEvent) (s : State) : State :=
  (if registersLine ev s then advancePhase s else s).updTracker fun t => { t with line := ev.line + 1 }

/-- R38 to R50: the tracker takes one line event and makes its line record. -/
def trackLine (ev : LineEvent) (s : State) : State × LineRecord :=
  let s1 := beforeMarks ev s
  let s2 := takeMarks ev s1
  (afterRecord ev s2, recordFor ev (noticeAt ev s1) s2)

end Sys2Proof.Machine
end

