-- ==== Sys2Proof/Machine/Reference.lean ====
section
/-! DEFINITION. The Reference Memory Controller: learning, the completion test, finalisation and
serving (R55 to R70). -/

namespace Sys2Proof.Machine

/-! ## Addresses (R55) -/

/-- R55: where image line `r` starts. -/
def imageAddr (s : State) (r : Nat) : Nat := r * s.ctl.cfg.w

/-- R55: where the accumulator row of line `r` starts. -/
def sumAddr (s : State) (r : Nat) : Nat := accumulatorBase + 2 * (r * s.ctl.cfg.w)

/-- Image line `r`. -/
def imageLine (s : State) (r : Nat) : List Byte := dramRow s (imageAddr s r) s.ctl.cfg.w

/-- The 16-bit words a run of bytes holds (log entry 7: the low byte first). -/
def wordsOf : List Byte → List Nat
  | lo :: hi :: bs => (lo.toNat + 256 * hi.toNat) :: wordsOf bs
  | _ => []

/-- The accumulator row of line `r`. -/
def sumRow (s : State) (r : Nat) : List Nat := wordsOf (dramRow s (sumAddr s r) (2 * s.ctl.cfg.w))

/-- Writes the accumulator row of line `r`. -/
def writeSums (r : Nat) (sums : List Nat) (s : State) : State :=
  dramWrite (sumAddr s r) (sums.flatMap le16) s

/-- Writes image line `r`. -/
def writeImage (r : Nat) (pixels : List Byte) (s : State) : State :=
  dramWrite (imageAddr s r) pixels s

/-- The count of reference line `r`. -/
def countAt (s : State) (r : Nat) : Nat := s.ref.counts.getD r 0

/-! ## Learning -/

/-- R57: an accepted LEARN; the ending line is held (the table of R70), and the finalisation progress, which
R57 does not name, stays (log entry 15). -/
def startLearning (s : State) : State :=
  s.updRef fun r =>
    { r with
      state := .learning
      counts := List.replicate s.ctl.cfg.l 0
      shortLines := s.ctl.cfg.l
      touched := 0
      learned := 0
      depth := s.ctl.cfg.k }

/-- R62: whether learning is complete, once the learned-repeat count has incremented. -/
def learningComplete (r : RefCtl) : Bool :=
  decide (r.shortLines = 0) || (decide (4 * r.depth ≤ r.learned.toNat) && decide (1 ≤ r.touched))

/-- R61, R62: a repeat-end notice with the record of the given line. -/
def repeatEnd (line : Nat) (s : State) : State :=
  if s.ref.state = .learning then
    s.updRef fun r =>
      let r1 := { r with learned := satInc r.learned }
      if learningComplete r1 then
        { r1 with state := .finalising, endingLine := line, written := 0, filled := 0 }
      else r1
  else s

/-- R59: whether a record contributes to learning; `row` is its row in the band entry. -/
def contributes (rec : LineRecord) (row : Row) (s : State) : Bool :=
  s.ref.state == .learning && rec.mode == .locked && row.state == .present &&
    rec.index.any fun r => decide (countAt s r < 255)

/-- R60: the contribution of a row's pixels to reference line `r`. -/
def contribute (r : Nat) (pixels : List Byte) (s : State) : State :=
  let own := pixels.map (·.toNat)
  let sums := if countAt s r = 0 then own else List.zipWith (· + ·) (sumRow s r) own
  (writeSums r sums s).updRef fun c =>
    let n := c.counts.getD r 0 + 1
    { c with
      counts := c.counts.set r n
      touched := if n = 1 then c.touched + 1 else c.touched
      shortLines := if n = c.depth then c.shortLines - 1 else c.shortLines }

/-- R59, R60: the learning part of taking a record: its W pixels. -/
def learnFrom (rec : LineRecord) (row : Row) (s : State) : State :=
  if contributes rec row s then contribute (rec.index.getD 0) (row.pixels.take s.ctl.cfg.w) s else s

/-! ## Serving -/

/-- R67: the reference line served with a record, if one is. -/
def serve (rec : LineRecord) (row : Row) (s : State) : Option (List Byte) :=
  if s.ref.state = .ready ∧ row.registered = true ∧ row.state = .present then
    rec.index.map (imageLine s)
  else none

/-! ## Finalisation -/

/-- The first of some counts that is 1 or more, numbered from `i` (R64). -/
def firstTouched : Nat → List Nat → Option Nat
  | _, [] => none
  | i, c :: cs => if c = 0 then firstTouched (i + 1) cs else some i

/-- R64: the reference line written after `done` others, `m` being the lowest counted line: m, then 0
to m − 1, then m + 1 upward. -/
def finaliseTarget (m done : Nat) : Nat :=
  if done = 0 then m else if done ≤ m then done - 1 else done

/-- R64: the line a line of count 0 copies: m below m, and the line below above it. -/
def copySource (m r : Nat) : Nat := if r < m then m else r - 1

/-- R64: an image line by division. -/
def divideRow (mode : Rounding) (sums : List Nat) (count : Nat) : List Byte :=
  sums.map fun a => byte (roundNat mode a count)

/-- R64: writes reference line `r`, by division or by copy. -/
def finaliseRow (m r : Nat) (s : State) : State :=
  if countAt s r = 0 then
    (writeImage r (imageLine s (copySource m r)) s).updRef fun c => { c with filled := c.filled + 1 }
  else
    writeImage r (divideRow s.ctl.cfg.rounding (sumRow s r) (countAt s r)) s

/-- R65: the end of finalisation, once every reference line has been written. -/
def finaliseEnd (s : State) : State :=
  if s.ref.written < s.ctl.cfg.l then s
  else raise .referenceReady s.ref.endingLine (BitVec.ofNat 32 s.ref.filled)
    (s.updRef fun c => { c with state := .ready })

/-- R64: the lowest reference line whose count is 1 or more. -/
def lowestTouched (s : State) : Option Nat := firstTouched 0 (s.ref.counts.take s.ctl.cfg.l)

/-- R64, R65: one step of finalisation, `m` being the lowest counted reference line. -/
def finaliseStep (m : Nat) (s : State) : State :=
  finaliseEnd (if s.ref.written < s.ctl.cfg.l then
    (finaliseRow m (finaliseTarget m s.ref.written) s).updRef fun c =>
      { c with written := c.written + 1 }
    else s)

end Sys2Proof.Machine
end

