-- ==== Sys2Proof/Machine/Scoring.lean ====
section
/-! DEFINITION. The Tile Scorer: accumulators, measures, classes and severity (R71 to R86). -/

namespace Sys2Proof.Machine

/-- The 32 values of tile slot `t` in a row (R71). -/
def tileChunk (t : Nat) (pixels : List Byte) : List Byte := (pixels.drop (32 * t)).take 32

/-! ## Taking a line record -/

/-- R72: how many of some pixels are 0 or 255. -/
def glareOf (px : List Byte) : Nat := (px.filter fun p => p == 0 || p == 255).length

/-- The sum of some pixels. -/
def sumOf (px : List Byte) : Nat := (px.map (·.toNat)).sum

/-- R72: adds an inspectable row's 32 pixels to a slot. -/
def Slot.addRow (px : List Byte) (s : Slot) : Slot :=
  { s with
    inspectable := s.inspectable + 1
    pixelSum := s.pixelSum + sumOf px
    glare := s.glare + glareOf px }

/-- R73: the differences d = p − q_ref of a tile's row. -/
def differences (px ref : List Byte) : List Int :=
  List.zipWith (fun p q => (p.toNat : Int) - (q.toNat : Int)) px ref

/-- R73: adds a compared row's differences to a slot. -/
def Slot.addDifferences (ds : List Int) (s : Slot) : Slot :=
  { s with
    compared := s.compared + 1
    sumAbs := s.sumAbs + (ds.map (·.natAbs)).sum
    sumSigned := s.sumSigned + ds.sum
    peak := (ds.map (·.natAbs)).foldl max s.peak }

/-- R72, R73: what one line record adds to slot `t`; `served` is the reference line served with it. -/
def slotTake (row : Row) (served : Option (List Byte)) (t : Nat) (s : Slot) : Slot :=
  if row.state = .present then
    let s1 := s.addRow (tileChunk t row.pixels)
    match served with
    | none => s1
    | some ref => s1.addDifferences (differences (tileChunk t row.pixels) (tileChunk t ref))
  else s

/-- R72, R73: what one line record adds to every slot of its band entry. -/
def scorerTake (row : Row) (served : Option (List Byte)) (slots : List Slot) : List Slot :=
  slots.mapIdx fun t s => slotTake row served t s

/-! ## Measures -/

/-- R76: MAD. -/
def madOf (mode : Rounding) (s : Slot) : Nat :=
  if s.compared = 0 then 0 else roundNat mode s.sumAbs (s.compared * 32)

/-- R77: the rounded mean signed difference, before the clamp. -/
def rawShift (mode : Rounding) (s : Slot) : Int :=
  if s.compared = 0 then 0 else roundDiv mode s.sumSigned (s.compared * 32)

/-- R77: the clamp of SHIFT to a signed byte. -/
def clampShift (x : Int) : Int := max (-128) (min x 127)

/-- R79: MEAN. -/
def meanOf (mode : Rounding) (s : Slot) : Nat :=
  if s.inspectable = 0 then 0 else roundNat mode s.pixelSum (s.inspectable * 32)

/-! ## Classes (R80 to R85) -/

/-- R83: whether a measure is enabled. -/
def Threshold.enabled (t : Threshold) : Bool := t.setting.getLsbD 0

/-- R83: whether a measure triggers at a value. -/
def Threshold.triggers (t : Threshold) (v : Int) : Bool :=
  t.enabled &&
    if t.setting.getLsbD 1 then decide (t.underAt < v) && decide (v < t.overAt)
    else decide (t.overAt ≤ v) || decide (v ≤ t.underAt)

/-- R84: whether the enabled measures trigger as the combination requires. -/
def combinationHolds (cfg : StationConfig) (mad : Nat) (shift : Int) (peak : Nat) : Bool :=
  let enabled := [cfg.mad.enabled, cfg.shift.enabled, cfg.peak.enabled]
  let triggered := [cfg.mad.triggers mad, cfg.shift.triggers shift, cfg.peak.triggers peak]
  if cfg.combination.getLsbD 0 then
    enabled.any id && (List.zipWith (fun e t => !e || t) enabled triggered).all id
  else triggered.any id

/-- Section 5.4: the class of a tile, in the class order of R80 to R84. -/
def classOf (cfg : StationConfig) (ready : Bool) (s : Slot) (mad : Nat) (shift : Int) : TileClass :=
  if s.inspectable < 16 then .void
  else if cfg.glareLimit < s.glare then .blind
  else if s.compared < 16 ∨ ready = false then .unref
  else if combinationHolds cfg mad shift s.peak then .hit
  else .quiet

/-- R85: the severity. -/
def severityOf (c : TileClass) (peak : Nat) : Nat :=
  match c with
  | .hit | .quiet => peak
  | .void | .blind | .unref => 0

/-- R75 to R85: the results of a slot, `ready` saying whether the reference state at the call is READY. -/
def scoreSlot (cfg : StationConfig) (ready : Bool) (s : Slot) : TileResult :=
  let mad := madOf cfg.rounding s
  let raw := rawShift cfg.rounding s
  let cls := classOf cfg ready s mad (clampShift raw)
  { mean := meanOf cfg.rounding s
    mad := mad
    shift := clampShift raw
    peak := s.peak
    glare := s.glare
    clipped := decide (clampShift raw ≠ raw)
    cls := cls
    severity := severityOf cls s.peak }

/-- R75: scores every slot of a band against one reference state. -/
def scoreSlots (cfg : StationConfig) (ready : Bool) (slots : List Slot) : List Slot :=
  slots.map fun s => { s with result := some (scoreSlot cfg ready s) }

/-- The class of a slot; an unscored slot has none (R71). -/
def Slot.cls? (s : Slot) : Option TileClass := s.result.map (·.cls)

end Sys2Proof.Machine
end

