-- ==== Sys2Proof/Machine/Steering.lean ====
section
/-! DEFINITION. The Steering Unit: home, core forwarder, reasons, fidelities, payloads and the records
of a closing band (R131 to R149). -/

namespace Sys2Proof.Machine

/-! ## Overlap tiles, base home, core forwarder and home -/

/-- The first own tile column, C0 / 32. -/
def firstTile (cfg : StationConfig) : Nat := cfg.c0 / 32

/-- The first tile column beyond the span, (C0 + W) / 32. -/
def endTile (cfg : StationConfig) : Nat := (cfg.c0 + cfg.w) / 32

/-- How a side of a closing band stands: its neighbour, whether it is agreed, and the neighbour's summary
of the band when RECEIVED (R100, R131). -/
structure SideView where
  neighbour : Neighbour
  agreed : Bool
  summary : Option Summary
  deriving DecidableEq, Repr

/-- R93: the RECEIVED summary of a side. -/
def Side.summary? : Side → Option Summary
  | .received z => some z
  | _ => Option.none

/-- R100: a side with a neighbour: agreed when RECEIVED with the summary-sent flag set. -/
def sideView (n : Neighbour) (side : Side) (sent : Bool) : SideView :=
  { neighbour := n, agreed := side.summary?.isSome && sent, summary := side.summary? }

/-- R133: the side of an overlap tile, if own tile column `g` is one. -/
def overlapSide (cfg : StationConfig) (left right : Option SideView) (g : Nat) : Option SideView :=
  match left, right with
  | some l, r =>
    if g < firstTile cfg + l.neighbour.overlap then some l
    else r.filter fun v => decide (endTile cfg ≤ g + v.neighbour.overlap)
  | none, r => r.filter fun v => decide (endTile cfg ≤ g + v.neighbour.overlap)

/-- R134: the distance of tile `g`'s centre from the centre of a span. -/
def centreDistance (c0 w g : Nat) : Nat := natDist (c0 + w / 2) (32 * g + 16)

/-- R134: whether this station is the base home of overlap tile `g`. -/
def isBaseHome (station : StationNo) (cfg : StationConfig) (n : Neighbour) (g : Nat) : Bool :=
  let own := centreDistance cfg.c0 cfg.w g
  let other := centreDistance n.c0 n.w g
  decide (own < other) || (decide (own = other) && decide (station.toNat < n.number.toNat))

/-- R135: who the core forwarder of an overlap tile on an agreed side is. -/
inductive Forwarder where
  | own | other | nobody
  deriving DecidableEq, Repr

/-- A station's verdict on a tile, as R135 and R136 read it. -/
structure Verdict where
  station : StationNo
  cls : TileClass
  severity : Nat
  pressure : Nat
  deriving DecidableEq, Repr

/-- R135: whether the first of two stations that both class a tile HIT is the core forwarder. -/
def forwardsBefore (a b : Verdict) : Bool :=
  if a.severity ≠ b.severity then decide (b.severity < a.severity)
  else if a.pressure ≠ b.pressure then decide (a.pressure < b.pressure)
  else decide (a.station.toNat < b.station.toNat)

/-- R135: the core forwarder. -/
def forwarderOf (own other : Verdict) : Forwarder :=
  match own.cls == .hit, other.cls == .hit with
  | true, false => .own
  | false, true => .other
  | true, true => if forwardsBefore own other then .own else .other
  | false, false => .nobody

/-- R136: whether a class cannot see the tile: BLIND or VOID. -/
def unseeing (c : TileClass) : Bool := c == .blind || c == .void

/-- R136: whether home passes from the base home to the other station, blind or for pressure. -/
def handsOver (base other : Verdict) : Bool :=
  (unseeing base.cls && !unseeing other.cls) ||
    (decide (2 ≤ base.pressure) && decide (other.pressure < base.pressure))

/-! ## The decision on one tile -/

/-- What the station decides about forwarding one own tile: the table at the end of section 8.2. -/
structure Standing where
  core : Bool
  /-- the neighbour will send the tile as a defect (R139) -/
  elsewhere : Bool
  home : Bool
  handover : Bool
  unilateral : Bool
  deriving DecidableEq, Repr

/-- The entry of a facing zone for a column. -/
def zoneAt (z : Summary) (g : Nat) : Option ZoneEntry := z.zone.find? fun e => e.g == g

/-- R133: an ordinary tile. -/
def ordinaryStanding (cls : TileClass) : Standing :=
  { core := cls == .hit, elsewhere := false, home := true, handover := false, unilateral := false }

/-- R137, R139: an overlap tile on a unilateral side. -/
def unilateralStanding (v : SideView) (cls : TileClass) (g : Nat) : Standing :=
  { core := cls == .hit
    elsewhere := v.summary.any fun z => (zoneAt z g).any fun e => e.cls == .hit
    home := true
    handover := false
    unilateral := true }

/-- R135, R136, R139: an overlap tile on an agreed side, from both stations' verdicts. -/
def agreedStanding (cfg : StationConfig) (n : Neighbour) (own other : Verdict) (g : Nat) : Standing :=
  let mine := isBaseHome own.station cfg n g
  let passes := if mine then handsOver own other else handsOver other own
  let home := if mine then !passes else passes
  let fwd := forwarderOf own other
  { core := fwd == .own
    elsewhere := fwd == .other
    home := home
    handover := home && passes
    unilateral := false }

/-- R135: the neighbour's verdict on a column, from its RECEIVED summary. -/
def verdictOf (n : Neighbour) (z : Summary) (g : Nat) : Option Verdict :=
  (zoneAt z g).map fun e =>
    { station := n.number, cls := e.cls, severity := e.severity, pressure := z.pressure }

/-- R133 to R139: the standing of own tile `g`.  On an agreed side the facing zone names every overlap
column (R93); a column it does not name is taken as on a unilateral side (log entry 12). -/
def standingOf (cfg : StationConfig) (own : Verdict) (side : Option SideView) (g : Nat) : Standing :=
  match side with
  | none => ordinaryStanding own.cls
  | some v =>
    match v.agreed, v.summary.bind fun z => verdictOf v.neighbour z g with
    | true, some other => agreedStanding cfg v.neighbour own other g
    | _, _ => unilateralStanding v own.cls g

/-! ## Hits and reasons -/

/-- A pair of the hit set: a band and a column (R138). -/
structure Hit where
  band : Nat
  g : Nat
  deriving DecidableEq, Repr

/-- The own columns classed HIT in some slots, counted from column `g` upward (R138). -/
def hitColumns : Nat → List Slot → List Nat
  | _, [] => []
  | g, s :: ss => if s.cls? = some .hit then g :: hitColumns (g + 1) ss else hitColumns (g + 1) ss

/-- The columns classed HIT in a RECEIVED facing zone (R138). -/
def zoneHits (side : Side) : List Nat :=
  match side.summary? with
  | none => []
  | some z => (z.zone.filter fun e => e.cls == .hit).map (·.g)

/-- Every column of a band entry classed HIT by this station, once scored, or by a neighbour's zone. -/
def entryHits (cfg : StationConfig) (e : Entry) : List Nat :=
  hitColumns (firstTile cfg) e.slots ++ zoneHits e.left ++ zoneHits e.right

/-- R138: the hit set at the close of `e`, `next` being the entry of the band after it if open. -/
def hitSet (cfg : StationConfig) (carryBand : Option Nat) (carryCols : List Nat) (e : Entry)
    (next : Option Entry) : List Hit :=
  (if carryBand.any fun b => decide (b + 1 = e.band) then
      carryCols.map fun g => { band := e.band - 1, g := g }
    else [])
  ++ (entryHits cfg e).map (fun g => { band := e.band, g := g })
  ++ match next with
    | none => []
    | some n => (entryHits cfg n).map fun g => { band := n.band, g := g }

/-- R138: whether a hit is a promotion source for own tile `g` of band `b`. -/
def promotes (b g : Nat) (h : Hit) : Bool :=
  decide (natDist h.band b ≤ 1) && decide (natDist h.g g ≤ 1) && decide ((h.band, h.g) ≠ (b, g))

/-- R139 to R141: the reason for sending own tile `g` of band `b`, if any. -/
def reasonFor (ps b g : Nat) (cls : TileClass) (st : Standing) (hits : List Hit) : Option Reason :=
  if st.core then some .core
  else if st.elsewhere || cls == .void || !st.home then none
  else if hits.any (promotes b g) then some .context
  else if ps ≠ 0 ∧ b % ps = 0 then some .sample
  else none

/-! ## Fidelity (R143) -/

/-- R143: one step below a context fidelity, and not below QUARTER. -/
def Fidelity.lower : Fidelity → Fidelity
  | .full => .half
  | .half => .quarter
  | .quarter => .quarter
  | .stamp => .stamp

/-- R143: the degrade ladder; nothing when the record is suppressed. -/
def ladder (cfg : StationConfig) (level : Nat) : Reason → Option Fidelity
  | .core => some .full
  | .context =>
    if level ≤ 1 then some cfg.contextFidelity
    else if level = 2 then some cfg.contextFidelity.lower
    else none
  | .sample =>
    if level = 0 then some cfg.sampleFidelity else if level = 1 then some .stamp else none

/-! ## Payloads (R144, R145) -/

/-- R144: whether a row has usable pixels. -/
def Row.usable (r : Row) : Bool := r.state == .present || r.state == .blanked

/-- R144: a row of a FULL payload. -/
def fullRow (t : Nat) (r : Row) : List Byte :=
  if r.usable then tileChunk t r.pixels else List.replicate 32 0

/-- R144: the mean of the block of `n` columns from tile column `n * j`, over the usable of some rows. -/
def blockMean (mode : Rounding) (n t j : Nat) (rows : List Row) : Byte :=
  let px := (rows.filter Row.usable).flatMap fun r => ((tileChunk t r.pixels).drop (n * j)).take n
  if px.isEmpty then 0 else byte (roundNat mode (sumOf px) px.length)

/-- Rows `n * i` to `n * i + n − 1`. -/
def rowGroup (n i : Nat) (rows : List Row) : List Row := (rows.drop (n * i)).take n

/-- R144: a payload reduced by `n` in each direction. -/
def reducedPayload (mode : Rounding) (n t : Nat) (rows : List Row) : List Byte :=
  (List.range (32 / n)).flatMap fun i =>
    (List.range (32 / n)).map fun j => blockMean mode n t j (rowGroup n i rows)

/-- R144: the payload of tile slot `t` at a fidelity. -/
def payloadOf (mode : Rounding) (f : Fidelity) (t : Nat) (rows : List Row) : List Byte :=
  match f with
  | .full => rows.flatMap (fullRow t)
  | .half => reducedPayload mode 2 t rows
  | .quarter => reducedPayload mode 4 t rows
  | .stamp => []

/-- R145: whether some group of `n` rows has no usable pixels. -/
def emptyGroup (n : Nat) (rows : List Row) : Bool :=
  (List.range (32 / n)).any fun i => !(rowGroup n i rows).any Row.usable

/-- R145: the PARTIAL flag. -/
def partialOf (f : Fidelity) (rows : List Row) : Bool :=
  match f with
  | .full => emptyGroup 1 rows
  | .half => emptyGroup 2 rows
  | .quarter => emptyGroup 4 rows
  | .stamp => false

/-! ## Records -/

/-- What a close supplies to the Steering Unit (R131, R132). -/
structure CloseView where
  station : StationNo
  cfg : StationConfig
  entry : Entry
  left : Option SideView
  right : Option SideView
  hits : List Hit
  /-- the pressure level read at the start of the close -/
  level : Nat
  deriving DecidableEq, Repr

/-- The side of a tile column in a close. -/
def CloseView.side (v : CloseView) (g : Nat) : Option SideView := overlapSide v.cfg v.left v.right g

/-- This station's verdict on a tile in a close (R135). -/
def CloseView.own (v : CloseView) (res : TileResult) : Verdict :=
  { station := v.station, cls := res.cls, severity := res.severity,
    pressure := v.entry.announced.getD 0 }

/-- The standing of own tile column `g` in a close. -/
def CloseView.standing (v : CloseView) (g : Nat) (res : TileResult) : Standing :=
  standingOf v.cfg (v.own res) (v.side g) g

/-- The reason of own tile column `g` in a close. -/
def CloseView.reason (v : CloseView) (g : Nat) (res : TileResult) : Option Reason :=
  reasonFor v.cfg.ps v.entry.band g res.cls (v.standing g res) v.hits

/-- R146, R147: the TILE record of slot `t`. -/
def tileRecord (v : CloseView) (t : Nat) (slot : Slot) (res : TileResult) (why : Reason)
    (f : Fidelity) : TileRec :=
  let g := firstTile v.cfg + t
  { fidelity := f
    reason := why
    unilateral := (v.standing g res).unilateral
    handover := (v.standing g res).handover && why != .core
    partialRows := partialOf f v.entry.rows
    clipped := res.clipped
    station := v.station
    cls := res.cls
    g := g
    band := v.entry.band
    repeatNo := v.entry.row0.repeatNo
    refLine := v.entry.row0.refLine
    mean := res.mean
    mad := res.mad
    shift := res.shift
    peak := res.peak
    glare := res.glare
    usable := v.entry.rows.map Row.usable
    payload := payloadOf v.cfg.rounding f t v.entry.rows
    inspectable := slot.inspectable
    compared := slot.compared }

/-- R139 to R143: what the close does about slot `t`. -/
def tileAction (v : CloseView) (t : Nat) (slot : Slot) : TileAction :=
  match slot.result with
  | none => .nothing
  | some res =>
    match v.reason (firstTile v.cfg + t) res with
    | none => .nothing
    | some why =>
      match ladder v.cfg v.level why with
      | none => .suppress why
      | some f => .offer (tileRecord v t slot res why f)

/-- R143: counts a suppressed record by its reason. -/
def countSuppressed (why : Reason) (s : State) : State :=
  match why with
  | .core => s
  | .context => bump .contextSuppressed s
  | .sample => bump .sampleSuppressed s

/-- R143, R148: carries out a tile action; the number counts the TILE records taken (R149). -/
def applyAction (a : TileAction) (x : State × Nat) : State × Nat :=
  match a with
  | .nothing => x
  | .suppress why => (countSuppressed why x.1, x.2)
  | .offer t => (offerTile t x.1, if fits (.tile t) x.1 then x.2 + 1 else x.2)

/-- R148: carries out tile actions in turn. -/
def applyActions : List TileAction → State × Nat → State × Nat
  | [], x => x
  | a :: as, x => applyActions as (applyAction a x)

/-- R148: what the close does about the slots from slot `t` on, in increasing column. -/
def tileActions (v : CloseView) : Nat → List Slot → List TileAction
  | _, [] => []
  | t, slot :: slots => tileAction v t slot :: tileActions v (t + 1) slots

/-- R149: the status of a side. -/
def Side.status : Side → SideStatus
  | .none => .none
  | .received _ => .received
  | .absent => .absent
  | .mismatched => .mismatched

/-- R149: how many slots are in a class. -/
def classCount (c : TileClass) (slots : List Slot) : Nat :=
  (slots.filter fun s => s.cls? == some c).length

/-- R149: the BAND record of a closing band; the records taken and the drop counts are filled in when it is
offered. -/
def bandRecord (v : CloseView) : BandRec :=
  { station := v.station
    mode := v.entry.row0.mode
    pressure := v.level
    left := v.entry.left.status
    right := v.entry.right.status
    band := v.entry.band
    repeatNo := v.entry.row0.repeatNo
    voids := classCount .void v.entry.slots
    blinds := classCount .blind v.entry.slots
    unrefs := classCount .unref v.entry.slots
    quiets := classCount .quiet v.entry.slots
    hits := classCount .hit v.entry.slots
    queued := 0
    coreDrops := 0
    contextDrops := 0
    sampleDrops := 0
    unreported := 0 }

/-! ## The sequence of offers (R148, R151) -/

/-- R148: the offers of a closing band, the TILE records first and the BAND record last. -/
def offeringOf (v : CloseView) : Offering :=
  { actions := tileActions v 0 v.entry.slots, taken := 0, band := bandRecord v, retired := [] }

/-- R148, R149: makes every offer of a sequence. -/
def offerRest (o : Offering) (s : State) : State :=
  let x := applyActions o.actions (s, o.taken)
  offerBand { o.band with queued := x.2 } x.1

/-- R151: deals with the next `n` slots of a sequence and keeps the rest of it for later. -/
def offerSome (n : Nat) (o : Offering) (s : State) : State :=
  let x := applyActions (o.actions.take n) (s, o.taken)
  x.1.updPort fun p => { p with offering := some { o with actions := o.actions.drop n, taken := x.2 } }

/-- R148, R149: makes every offer that has still to come of a close. -/
def endOffers (o : Offering) (s : State) : State := offerRest o (s.updPort fun p => { p with offering := none })

/-- R148, R151: offers the records of a closing band: all of them, or, where other commands fall into the close,
those before the first of them (log entry 29). -/
def steer (v : CloseView) (s : State) : State :=
  match s.overlap with
  | [] => offerRest (offeringOf v) s
  | n :: later => offerSome n (offeringOf v) (s.updOverlap fun _ => later)

end Sys2Proof.Machine
end

