-- ==== Sys2Proof/Machine/Bands.lean ====
section
/-! DEFINITION. The Band Table: band entries, scoring, summaries and closing (R89 to R105, R127). -/

namespace Sys2Proof.Machine

/-! ## Entries -/

/-- The open entry of a band. -/
def findEntry (band : Nat) (s : State) : Option Entry := s.table.entries.find? fun e => e.band == band

/-- Changes the open entry of a band. -/
def updEntry (band : Nat) (f : Entry → Entry) (s : State) : State :=
  s.updTable fun t => { t with entries := t.entries.map fun e => if e.band = band then f e else e }

/-- Changes one row of a band entry. -/
def Entry.updRow (row : Nat) (f : Row → Row) (e : Entry) : Entry :=
  { e with rows := e.rows.modify row f }

/-- One row of a line's band entry; a band with no open entry has none, and reads as ABSENT. -/
def rowAt (line : Nat) (s : State) : Row :=
  match findEntry (bandOf line) s with
  | none => Row.initial
  | some e => e.rows.getD (rowOf line) Row.initial

/-- R90, R95: the status an early or arriving summary gives a side. -/
def sideOf : Option Summary → Side
  | some z => .received z
  | none => .mismatched

/-- R90: the status a side of a new entry gets from its early-summary list. -/
def earlySide (band : Nat) (early : List EarlySummary) : Side :=
  match early.find? fun x => x.band == band with
  | none => .none
  | some x => sideOf x.summary

/-- R90: an early-summary list without the summaries of a band. -/
def dropEarly (band : Nat) (early : List EarlySummary) : List EarlySummary :=
  early.filter fun x => x.band != band

/-- R23, R24: the 32 rows of a new entry: ABSENT, and over the pixels an earlier band left in the store. -/
def rowsOver (store : List (List Byte)) : List Row :=
  (List.range 32).map fun k => { Row.initial with pixels := store.getD k [] }

/-- R24: the pixel store of an entry: the pixels of its rows. -/
def Entry.store (e : Entry) : List (List Byte) := e.rows.map (·.pixels)

/-- R23, R90: a new band entry over the pixel store of the FREE entry it takes. -/
def newEntry (band tiles : Nat) (store : List (List Byte)) (left right : Side) : Entry :=
  { band := band
    state := .filling
    rows := rowsOver store
    row0 := { refLine := none, repeatNo := 0, mode := .seeking }
    slots := List.replicate tiles Slot.initial
    announced := none
    left := left
    right := right
    summarySent := false }

/-- R23, R90: creates the entry of a band, in the entry freed longest ago, and attaches the early summaries
for it. -/
def createEntry (band : Nat) (s : State) : State :=
  s.updTable fun t =>
    { t with
      entries := t.entries ++ [newEntry band s.ctl.cfg.tiles (t.free.headD []) (earlySide band t.leftEarly)
        (earlySide band t.rightEarly)]
      free := t.free.tail
      leftEarly := dropEarly band t.leftEarly
      rightEarly := dropEarly band t.rightEarly }

/-! ## The summary of a band (R92, R127) -/

/-- R92: the zone entry of a slot as scored. -/
def zoneCode (s : Slot) : ZoneCode :=
  match s.result with
  | none => { cls := 0, severity := 0 }
  | some r => { cls := byte r.cls.code, severity := byte r.severity }

/-- R92: the left zone list: the overlap tiles, then the guard tile. -/
def leftZone (n : Option Neighbour) (slots : List Slot) : List ZoneCode :=
  match n with
  | none => []
  | some n => (slots.take (n.overlap + 1)).map zoneCode

/-- R92: the right zone list: the guard tile, then the overlap tiles. -/
def rightZone (n : Option Neighbour) (slots : List Slot) : List ZoneCode :=
  match n with
  | none => []
  | some n => (slots.drop (slots.length - (n.overlap + 1))).map zoneCode

/-- R92, R127: the SUMMARY frame of a scored band. -/
def summaryFrameOf (s : State) (e : Entry) : Frame :=
  (HeardFrame.summary s.ctl.station (BitVec.ofNat 16 e.band) (byte (e.announced.getD 0))
    (leftZone s.bus.left e.slots) (rightZone s.bus.right e.slots)).frame

/-! ## Closing (R98 to R101) -/

/-- Whether a side is RECEIVED. -/
def Side.isReceived (d : Side) : Bool := d.summary?.isSome

/-- R98 (a) for one side: a side with a neighbour is RECEIVED in both bands. -/
def sideSettled (n : Option Neighbour) (a b : Side) : Bool :=
  n.isNone || (a.isReceived && b.isReceived)

/-- R98 (a): band b + 1 is SCORED and every side with a neighbour is RECEIVED in b and b + 1. -/
def settledWithNext (s : State) (e : Entry) : Bool :=
  (findEntry (e.band + 1) s).any fun n =>
    n.state == .scored && sideSettled s.bus.left e.left n.left &&
      sideSettled s.bus.right e.right n.right

/-- R98 (b): band b + Hs has been scored. -/
def settleDepthReached (s : State) (e : Entry) : Bool :=
  s.table.entries.any fun n => n.state == .scored && decide (e.band + s.ctl.cfg.hs ≤ n.band)

/-- R98: whether an entry may close now. -/
def closable (s : State) (e : Entry) : Bool :=
  e.state == .scored &&
    !(s.table.entries.any fun n => decide (n.band + 1 = e.band)) &&
    (settledWithNext s e || settleDepthReached s e || s.bus.op == .stopping)

/-- R100: a side with a neighbour whose status is still NONE becomes ABSENT. -/
def absentIfNone (n : Option Neighbour) (side : Side) : Side :=
  match n, side with
  | some _, .none => .absent
  | _, d => d

/-- R100: the entry as the close hands it to the Steering Unit. -/
def closingEntry (s : State) (e : Entry) : Entry :=
  { e with left := absentIfNone s.bus.left e.left, right := absentIfNone s.bus.right e.right }

/-- R100, R131: what the close of entry `e` supplies. -/
def closeView (s : State) (e : Entry) : CloseView :=
  let c := closingEntry s e
  { station := s.ctl.station
    cfg := s.ctl.cfg
    entry := c
    left := s.bus.left.map fun n => sideView n c.left c.summarySent
    right := s.bus.right.map fun n => sideView n c.right c.summarySent
    hits := hitSet s.ctl.cfg s.table.carryBand s.table.carryCols c (findEntry (e.band + 1) s)
    level := pressure s }

/-- R101: the columns of the carry map after the close of an entry, in increasing order. -/
def carryColumns (cfg : StationConfig) (e : Entry) : List Nat :=
  ((List.range (endTile cfg - firstTile cfg + 2)).map (· + (firstTile cfg - 1))).filter
    fun g => (entryHits cfg e).contains g

/-- R100, R101, R131: closes an entry: its records, the carry map, and the entry freed, its pixel store kept
(R24). -/
def closeEntry (e : Entry) (s : State) : State :=
  let c := closingEntry s e
  (steer (closeView s e) s).updTable fun t =>
    { t with
      carryBand := some e.band
      carryCols := carryColumns s.ctl.cfg c
      free := t.free ++ [e.store]
      entries := t.entries.filter fun x => x.band != e.band }

/-- R98, R131: closes every entry that may close, one after another, at most `fuel` of them; a close that other
commands fall into lets the closes after it wait (log entry 29). -/
def closeAll : Nat → State → State
  | 0, s => s
  | fuel + 1, s =>
    match s.port.offering, s.table.entries.find? (closable s) with
    | none, some e => closeAll fuel (closeEntry e s)
    | _, _ => s

/-- R98: the closing test, after an event that can make it hold. -/
def closingTest (s : State) : State := closeAll s.table.entries.length s

/-- R131: makes the offers still to come of a close that other commands fell into, and the closes that wait for it,
with no other command among them. -/
def finishCloses (s : State) : State :=
  match s.port.offering with
  | none => s
  | some o => (closingTest (endOffers o (s.updOverlap fun _ => []))).updOverlap fun _ => s.overlap

/-! ## Scoring (R91) -/

/-- R91 steps 1 to 3: the entry as scored. -/
def Entry.scoredWith (cfg : StationConfig) (ready : Bool) (level : Nat) (sent : Bool) (e : Entry) :
    Entry :=
  { e with slots := scoreSlots cfg ready e.slots, announced := some level, state := .scored,
           summarySent := sent }

/-- R91 step 4: whether a summary is handed on. -/
def makesSummary (s : State) : Bool :=
  (s.bus.left.isSome || s.bus.right.isSome) && s.bus.op == .running

/-- R91: the entry of a band as the scoring leaves it. -/
def scoredEntry (s : State) (e : Entry) : Entry :=
  e.scoredWith s.ctl.cfg (s.ref.state == .ready) (pressure s) (makesSummary s)

/-- R91, R102: scores a band and hands its summary on; the closing test follows at once. -/
def scoreEntry (band : Nat) (s : State) : State :=
  match findEntry band s with
  | none => s
  | some e =>
    let s1 := updEntry band (fun _ => scoredEntry s e) s
    closingTest (if makesSummary s then offerFrame (summaryFrameOf s (scoredEntry s e)) s1 else s1)

/-- R91, R131: scores a band, once the closes before it are made: a close and a scoring are each one event at the
Band Table. -/
def scoreBand (band : Nat) (s : State) : State := scoreEntry band (finishCloses s)

/-! ## Received summaries (R93 to R97) -/

/-- R93: a facing zone with its columns, counted from column `g`; nothing if a class code names none. -/
def zoneFrom : Nat → List ZoneCode → Option (List ZoneEntry)
  | _, [] => some []
  | g, z :: zs =>
    match TileClass.ofCode z.cls.toNat, zoneFrom (g + 1) zs with
    | some c, some es => some ({ g := g, cls := c, severity := z.severity.toNat } :: es)
    | _, _ => none

/-- R93: a facing zone of the expected count, with the pressure held to 3; nothing when mismatched. -/
def facingZone (g0 overlap : Nat) (codes : List ZoneCode) (level : Byte) : Option Summary :=
  if codes.length = overlap + 1 then
    (zoneFrom g0 codes).map fun z => { zone := z, pressure := min level.toNat 3 }
  else none

/-- R94: the band a received 16-bit number resolves to, or nothing for a band below 0. -/
def resolveBand (current m : Nat) : Option Nat :=
  let d := (65536 + m - current % 65536) % 65536
  if d ≤ 32767 then some (current + d)
  else if 65536 ≤ current + d then some (current + d - 65536)
  else none

/-- The sides of a station. -/
inductive Which where
  | left | right
  deriving DecidableEq, Repr

/-- One side of an entry. -/
def Entry.side (w : Which) (e : Entry) : Side :=
  match w with
  | .left => e.left
  | .right => e.right

/-- Sets one side of an entry. -/
def Entry.setSide (w : Which) (d : Side) (e : Entry) : Entry :=
  match w with
  | .left => { e with left := d }
  | .right => { e with right := d }

/-- One early-summary list. -/
def BandTable.early (w : Which) (t : BandTable) : List EarlySummary :=
  match w with
  | .left => t.leftEarly
  | .right => t.rightEarly

/-- Sets one early-summary list. -/
def BandTable.setEarly (w : Which) (l : List EarlySummary) (t : BandTable) : BandTable :=
  match w with
  | .left => { t with leftEarly := l }
  | .right => { t with rightEarly := l }

/-- R96: inserts an early summary in band order. -/
def insertEarly (x : EarlySummary) : List EarlySummary → List EarlySummary
  | [] => [x]
  | y :: ys => if y.band ≤ x.band then y :: insertEarly x ys else x :: y :: ys

/-- R95: attaches a summary to an open entry on a side whose status is NONE; the closing test follows a
RECEIVED attachment. -/
def attachSummary (w : Which) (e : Entry) (z : Option Summary) (s : State) : State :=
  match e.side w with
  | .none =>
    let s1 := updEntry e.band (Entry.setSide w (sideOf z)) s
    if z.isSome then closingTest s1 else s1
  | _ => s

/-- R96: enters an early summary in its list; of five, the lowest band is lost. -/
def enterEarly (w : Which) (x : EarlySummary) (s : State) : State :=
  let l := s.table.early w
  if l.any fun y => y.band == x.band then s
  else
    let l1 := insertEarly x l
    if l1.length ≤ 4 then s.updTable (BandTable.setEarly w l1)
    else bump .summariesEarlyLost (s.updTable (BandTable.setEarly w l1.tail))

/-- R102: whether an entry closes as part of the entry to STOPPING, one event that no summary comes into. -/
def stopsWith (e : Entry) (s : State) : Bool := s.bus.op == .stopping && e.state == .scored

/-- R95 to R97: a summary of a neighbour's side whose band number has been resolved: attached, early or
late. -/
def placeAt (w : Which) (resolved : Option Nat) (z : Option Summary) (s : State) : State :=
  match resolved with
  | none => bump .summariesLate s
  | some band =>
    match findEntry band s with
    | some e => if stopsWith e s then bump .summariesLate s else attachSummary w e z s
    | none =>
      if bandOf s.intake.nextLine ≤ band then enterEarly w { band := band, summary := z } s
      else bump .summariesLate s

/-- R94 to R97: a summary of a neighbour's side. -/
def placeSummary (w : Which) (m : Nat) (z : Option Summary) (s : State) : State :=
  placeAt w (resolveBand (bandOf s.intake.nextLine) m) z s

/-- R93: the column of the first entry of the facing zone on the left. -/
def leftFacingStart (cfg : StationConfig) : Nat := firstTile cfg - 1

/-- R93: the column of the first entry of the facing zone on the right. -/
def rightFacingStart (cfg : StationConfig) (overlap : Nat) : Nat := endTile cfg - overlap

/-- R93: a SUMMARY heard in RUNNING or STOPPING, matched against the neighbour table. -/
def takeSummary (sender : StationNo) (m : Half) (level : Byte) (left right : List ZoneCode)
    (s : State) : State :=
  match s.bus.left.filter (fun n => n.number == sender),
        s.bus.right.filter (fun n => n.number == sender) with
  | some n, _ =>
    placeSummary .left m.toNat (facingZone (leftFacingStart s.ctl.cfg) n.overlap right level) s
  | none, some n =>
    placeSummary .right m.toNat
      (facingZone (rightFacingStart s.ctl.cfg n.overlap) n.overlap left level) s
  | none, none => s

end Sys2Proof.Machine
end

