-- ==== Sys2Proof/Machine/Lines.lean ====
section
/-! DEFINITION. One line event through the station: intake, tracker, controller, scorer and Band Table
(R18 to R24, R50, R61, R67, R91). -/

namespace Sys2Proof.Machine

/-- R22: the row state of a line event. -/
def rowStateOf (ev : LineEvent) : RowState :=
  if !ev.arrived then .absent else if ev.damaged then .damaged else if ev.blanked then .blanked
  else .present

/-- R21, R30: the line event of a stamp, its flags set from the blanking window list. -/
def lineEventOf (st : Stamp) (arrived : Bool) (pixels : List Byte) (damaged : Bool) (s : State) :
    LineEvent :=
  { line := st.line
    arrived := arrived
    position := st.position
    pixels := pixels
    damaged := damaged
    blanked := blankedAt st.line s.intake.windows
    windowStart := startsAt st.line s.intake.windows }

/-- R20, R21: counts a line event. -/
def countEvent (ev : LineEvent) (s : State) : State :=
  let s1 := bump (if ev.arrived then .linesArrived else .linesMissed) s
  if ev.blanked then bump .linesBlanked s1 else s1

/-- R24: writes pixels over the start of a row's store; what lies beyond them stays. -/
def Row.writePixels (pixels : List Byte) (r : Row) : Row :=
  { r with pixels := pixels ++ r.pixels.drop pixels.length }

/-- R22, R24: writes the row state and, for an ARRIVED line, the pixels; a MISSED line writes none, and the
row's store keeps what an earlier band left there. -/
def writeRow (ev : LineEvent) (r : Row) : Row :=
  let r1 := if ev.arrived then r.writePixels ev.pixels else r
  { r1 with state := rowStateOf ev }

/-- R21: what intake does with a line event before it hands it on, in order. -/
def intakeEvent (ev : LineEvent) (s : State) : State :=
  let s1 := setWindows (markStarted ev.line s.intake.windows) (countEvent ev s)
  let s2 := if rowOf ev.line = 0 then createEntry (bandOf ev.line) s1 else s1
  let s3 := updEntry (bandOf ev.line) (Entry.updRow (rowOf ev.line) (writeRow ev)) s2
  (s3.updIntake fun i => { i with nextLine := ev.line + 1 }).updIntake fun i =>
    { i with windows := dropEnded ev.line i.windows }

/-- R50, R146: what a line record writes into its band entry. -/
def recordEntry (rec : LineRecord) (e : Entry) : Entry :=
  let e1 := e.updRow (rowOf rec.line) fun r => { r with registered := rec.registered }
  if rowOf rec.line = 0 then
    { e1 with row0 := { refLine := rec.index, repeatNo := rec.repeatNo, mode := rec.mode } }
  else e1

/-- R50: the line record sets its row's registered flag, and row 0's record is kept. -/
def markRegistered (rec : LineRecord) (s : State) : State :=
  updEntry (bandOf rec.line) (recordEntry rec) s

/-- R72, R73: the Tile Scorer takes a record with the reference line served with it. -/
def scoreRow (rec : LineRecord) (row : Row) (served : Option (List Byte)) (s : State) : State :=
  updEntry (bandOf rec.line) (fun e => { e with slots := scorerTake row served e.slots }) s

/-- R61, R59, R67, R72: the controller and then the scorer take a record. -/
def takeRecord (rec : LineRecord) (s : State) : State :=
  let row := rowAt rec.line s
  let s1 := if rec.repeatEnd then repeatEnd rec.line s else s
  scoreRow rec row (serve rec row s1) (learnFrom rec row s1)

/-- R91: the scoring of the band after row 31. -/
def afterRow (line : Nat) (s : State) : State :=
  if rowOf line = 31 then scoreBand (bandOf line) s else s

/-- R20 to R24, R38 to R50, R61, R67, R72, R91: one line event through the whole station. -/
def takeLine (ev : LineEvent) (s : State) : State :=
  let x := trackLine ev (intakeEvent ev s)
  afterRow ev.line (takeRecord x.2 (markRegistered x.2 x.1))

/-- R12, R14, R20: a stamp whose line is declared missed. -/
def missLine (st : Stamp) (s : State) : State := takeLine (lineEventOf st false [] false s) s

/-- R19: a line's pixels adjusted to W. -/
def adjustTo (w : Nat) (pixels : List Byte) : List Byte :=
  pixels.take w ++ List.replicate (w - pixels.length) 0

/-- R17: the saturating pixel count. -/
def pixelCount (pixels : List Byte) : Nat := min pixels.length 65535

/-- R17: the pixels the line buffer stores. -/
def stored (pixels : List Byte) : List Byte := pixels.take 8192

/-- R17: the line buffer as the fall of line-valid leaves it. -/
def fillBuffer (pixels : List Byte) (s : State) : State :=
  s.updIntake fun i => { i with buffer := stored pixels, count := pixelCount pixels }

/-- R18, R19: an arrival that takes the stamp `st`. -/
def arriveAt (st : Stamp) (pixels : List Byte) (s : State) : State :=
  let damaged := decide (pixelCount pixels ≠ s.ctl.cfg.w)
  let ev := lineEventOf st true (adjustTo s.ctl.cfg.w (stored pixels)) damaged s
  takeLine ev (if damaged then bump .linesDamaged s else s)

end Sys2Proof.Machine
end

