-- ==== Sys2Proof/Machine/Runs.lean ====
section
/-! DEFINITION. The run: the epoch, enrollment and the neighbour table, the entry to STOPPING, the
return to IDLE and stand-down (R5, R14, R53, R102, R116, R118 to R126). -/

namespace Sys2Proof.Machine

/-- Sets the operating state. -/
def setOp (op : OpState) (s : State) : State := s.updBus fun b => { b with op := op }

/-! ## The end of the run -/

/-- R126, R131, R162: whether no band is open, no close has offers to come, and no record is queued. -/
def drained (s : State) : Bool :=
  s.table.entries.isEmpty && s.port.queue.isEmpty && s.port.offering.isNone

/-- R162: in STOPPING, drained, the open grant is retired at halt. -/
def haltRetire (s : State) : State :=
  if s.bus.op == .stopping && drained s then retireGrant .byHalt s else s

/-- R126: the number of bands closed in the run: the next line divided by 32 and rounded up. -/
def bandsClosed (s : State) : Nat := (s.intake.nextLine + 31) / 32

/-- R116, R126: the return to IDLE. -/
def returnToIdle (s : State) : State :=
  raiseNow .runEnded (BitVec.ofNat 32 (bandsClosed s))
    (s.updBus fun b => { b with op := .idle, queue := [] })

/-- R126, R162: the tests made after each event that can make them hold. -/
def settle (s : State) : State :=
  let s1 := haltRetire s
  if s1.bus.op == .stopping && drained s1 && s1.port.grant.isNone then returnToIdle s1 else s1

/-- R102: the band of an entry still FILLING. -/
def fillingBand (s : State) : Option Nat :=
  (s.table.entries.find? fun e => e.state == .filling).map (·.band)

/-- R102: the entry still FILLING, if there is one, is scored and closes. -/
def scoreFilling (s : State) : State :=
  match fillingBand s with
  | none => s
  | some band => scoreBand band s

/-- R14: takes every stamp off the queue. -/
def emptyStamps (s : State) : State := s.updEncoder fun c => { c with stamps := [] }

/-- R14, R102: lets retired stamps wait for the close that other commands fall into. -/
def keepRetired (sts : List Stamp) (s : State) : State :=
  s.updPort fun p => { p with offering := p.offering.map fun o => { o with retired := sts } }

/-- R14, R102: retires stamps, oldest first, as MISSED line events, and then scores the entry still FILLING; a close
that other commands fall into lets what comes after it wait (log entry 29). -/
def retireStamps : List Stamp → State → State
  | [], s => if s.port.offering.isSome then keepRetired [] s else scoreFilling s
  | st :: sts, s =>
    if s.port.offering.isSome then keepRetired (st :: sts) s else retireStamps sts (missLine st s)

/-- R98, R102: what is due at the Band Table: the closes that may come, and in STOPPING the line events of the
retired stamps `sts` and the scoring of the entry still FILLING. -/
def windUp (sts : List Stamp) (s : State) : State :=
  if s.bus.op = .stopping then retireStamps sts (closingTest s) else closingTest s

/-- R14, R102, R125: the entry to STOPPING: the stamps are off the queue at once, and what it makes due at the Band
Table follows. -/
def enterStopping (s : State) : State := windUp s.encoder.stamps (emptyStamps (setOp .stopping s))

/-- R148, R151: makes the next offer of a close that other commands fall into; after the last, what waited for the
close goes on. -/
def nextOffer (s : State) : State :=
  match s.port.offering with
  | none => s
  | some o =>
    match o.actions with
    | [] => windUp o.retired (endOffers o s)
    | _ :: _ => offerSome 1 o s

/-! ## The epoch -/

/-- R5: the encoder at the epoch. -/
def Encoder.atEpoch (c : Encoder) : Encoder :=
  { c with
    high := c.e
    epoch := c.e
    dividerPhase := 0
    lineCounter := 0
    lineLimit := false
    stamps := []
    lastLine := 0
    lastPosition := c.e }

/-- R116, R124: the controller at the epoch. -/
def SpanBus.atEpoch (b : SpanBus) : SpanBus :=
  { b with op := .running, queue := withdrawEnrolling b.queue, timer := none, dupReported := false }

/-- R105: the Band Table at the epoch. -/
def BandTable.atEpoch (t : BandTable) : BandTable :=
  { t with leftEarly := [], rightEarly := [], carryBand := none, carryCols := [] }

/-- R5, R32, R53, R105, R116, R124: the run state every block takes up. -/
def epochState (s : State) : State :=
  { s with
    encoder := s.encoder.atEpoch
    intake := { s.intake with windows := [], nextLine := 0 }
    tracker := .initial
    table := s.table.atEpoch
    bus := s.bus.atEpoch }

/-- R5, R124: takes the epoch and raises RUN_STARTED with line 0 and the epoch. -/
def takeEpoch (s : State) : State := raise .runStarted 0 s.encoder.e (epochState s)

/-! ## Enrollment and the neighbour table -/

/-- R121: the stand-down from ENROLLING or ARMED. -/
def standDown (s : State) : State :=
  s.updBus fun b => { b with op := .idle, queue := [], timer := none }

/-- The heard stations in increasing station number. -/
def heardInOrder (s : State) : List Heard :=
  (List.range 16).filterMap fun n => s.bus.heard.find? fun h => decide (h.number.toNat = n)

/-- R122: the candidates: the heard stations whose fingerprint is this station's own. -/
def candidates (s : State) : List Heard :=
  (heardInOrder s).filter fun h => h.fingerprint == ownFingerprint s

/-- R122: the excluded stations. -/
def excluded (s : State) : List Heard :=
  (heardInOrder s).filter fun h => h.fingerprint != ownFingerprint s

/-- R123: how a candidate's span lies to this station's. -/
inductive SpanCase where
  | disjoint
  | contained
  | onLeft (overlap : Nat)
  | onRight (overlap : Nat)
  deriving DecidableEq, Repr

/-- R123: the four cases, for this station's span and a candidate's. -/
def spanCase (c0x wx c0y wy : Nat) : SpanCase :=
  let ex := c0x + wx
  let ey := c0y + wy
  if ey ≤ c0x ∨ ex ≤ c0y then .disjoint
  else if (c0y ≤ c0x ∧ ex ≤ ey) ∨ (c0x ≤ c0y ∧ ey ≤ ex) then .contained
  else if c0y < c0x then .onLeft ((ey - c0x) / 32)
  else .onRight ((ex - c0y) / 32)

/-- R123: the case of a heard station. -/
def caseOf (cfg : StationConfig) (h : Heard) : SpanCase := spanCase cfg.c0 cfg.w h.c0 h.w

/-- R123: whether a candidate is a SPAN_CONFLICT. -/
def conflicts (cfg : StationConfig) (h : Heard) : Bool :=
  match caseOf cfg h with
  | .disjoint => false
  | .contained => true
  | .onLeft n => decide (8 < n)
  | .onRight n => decide (8 < n)

/-- R123: a candidate as the neighbour it may be on the left. -/
def leftNeighbour? (cfg : StationConfig) (h : Heard) : Option Neighbour :=
  match caseOf cfg h with
  | .onLeft n =>
    if 1 ≤ n ∧ n ≤ 8 then some { number := h.number, c0 := h.c0, w := h.w, overlap := n } else none
  | _ => none

/-- R123: a candidate as the neighbour it may be on the right. -/
def rightNeighbour? (cfg : StationConfig) (h : Heard) : Option Neighbour :=
  match caseOf cfg h with
  | .onRight n =>
    if 1 ≤ n ∧ n ≤ 8 then some { number := h.number, c0 := h.c0, w := h.w, overlap := n } else none
  | _ => none

/-- R123: whether one left neighbour is chosen before another of a lower station number. -/
def betterLeft (new old : Neighbour) : Bool :=
  decide (old.c0 < new.c0) || (decide (old.c0 = new.c0) && decide (old.overlap < new.overlap))

/-- R123: whether one right neighbour is chosen before another of a lower station number. -/
def betterRight (new old : Neighbour) : Bool :=
  decide (new.c0 < old.c0) || (decide (old.c0 = new.c0) && decide (old.overlap < new.overlap))

/-- The best of some neighbours given in increasing station number: of two that tie, the lower number. -/
def bestOf (better : Neighbour → Neighbour → Bool) : List Neighbour → Option Neighbour
  | [] => none
  | n :: ns =>
    match bestOf better ns with
    | none => some n
    | some m => if better m n then some m else some n

/-- R122: raises FINGERPRINT_MISMATCH for one excluded station. -/
def raiseMismatch (h : Heard) (s : State) : State :=
  raiseNow .fingerprintMismatch
    (BitVec.ofNat 32 (h.number.toNat + 65536 * h.fingerprint.toNat)) s

/-- R123: raises SPAN_CONFLICT for one candidate. -/
def raiseConflict (h : Heard) (s : State) : State :=
  raiseNow .spanConflict (BitVec.ofNat 32 h.number.toNat) s

/-- R122, R123: builds the neighbour table from the heard-station list. -/
def buildNeighbours (s : State) : State :=
  let cs := candidates s
  let s1 := s.updBus fun b =>
    { b with
      left := bestOf betterLeft (cs.filterMap (leftNeighbour? s.ctl.cfg))
      right := bestOf betterRight (cs.filterMap (rightNeighbour? s.ctl.cfg)) }
  (cs.filter (conflicts s.ctl.cfg)).foldl (fun t h => raiseConflict h t)
    ((excluded s).foldl (fun t h => raiseMismatch h t) s1)

/-- R120: the expiry of the enrollment window. -/
def expireWindow (s : State) : State :=
  let s1 := buildNeighbours s
  (offerFrame (runFrameOf s1) s1).updBus fun b => { b with op := .armed, timer := none }

/-! ## START, RUN and HALT -/

/-- R118: START accepted with the bus enabled. -/
def beginEnrolling (s : State) : State :=
  let s1 := s.updBus fun b => { b with heard := [], left := none, right := none, queue := [] }
  (offerFrame (spanFrameOf s1) s1).updBus fun b => { b with op := .enrolling, timer := some 50 }

/-- R6, R118: START accepted with the bus disabled. -/
def runAlone (s : State) : State :=
  takeEpoch (s.updBus fun b => { b with heard := [], left := none, right := none })

/-- R118: an accepted START. -/
def startRun (s : State) : State := if busEnabled s then beginEnrolling s else runAlone s

/-- R124: a RUN frame taken in ENROLLING or ARMED. -/
def runTaken (s : State) : State :=
  match s.bus.op with
  | .enrolling => takeEpoch (buildNeighbours s)
  | .armed => takeEpoch s
  | _ => s

/-- R125: the HALT command, or loss of the host link. -/
def haltAction (s : State) : State :=
  match s.bus.op with
  | .unconfigured | .idle | .stopping => s
  | .enrolling | .armed => standDown s
  | .running => if busEnabled s then offerFrame (haltFrameOf s) s else settle (enterStopping s)

/-- R117, R121, R125: a HALT frame taken. -/
def haltTaken (s : State) : State :=
  match s.bus.op with
  | .enrolling | .armed => standDown s
  | .running => settle (enterStopping s)
  | .unconfigured | .idle | .stopping => s

end Sys2Proof.Machine
end

