-- ==== Sys2Proof/Machine/Receiving.lean ====
section
/-! DEFINITION. A frame taken off the Span Bus: idle, echo, duplicates, and what each kind does in each
operating state (R106, R108, R111 to R113, R117, R119, R121, R128, R180). -/

namespace Sys2Proof.Machine

/-! ## The line -/

/-- R106: the line is idle for this station. -/
def lineIsIdle (s : State) : Bool := s.bus.idle == 11

/-- R106, R108, R130: whether the station follows the frame now ending: with the bus enabled, one it began
to follow when the line was idle, or one it sent or began to send. -/
def follows (s : State) : Bool := busEnabled s && (lineIsIdle s || s.bus.reception.isSome)

/-- R106, R108: the end of a frame: the idle count is 0, and no frame is in reception or on the line. -/
def endOfFrame (s : State) : State :=
  s.updBus fun b =>
    { b with
      idle := 0
      reception := none
      onLine := none
      queue := b.queue.map fun t => { t with sending := false } }

/-- R112: a sent frame leaves the queue. -/
def removeSent (s : State) : State := s.updBus fun b => { b with queue := b.queue.filter fun t => !t.sending }

/-! ## Peer alerts (R26, R36, R180) -/

/-- R180: the ACT bit of the peer routing byte for an alert kind. -/
def peerActs (k : AlertKind) (s : State) : Bool :=
  match k with
  | .splice => s.ctl.cfg.peerRouting.getLsbD 0
  | .mark => s.ctl.cfg.peerRouting.getLsbD 2

/-- R180: the REPORT bit of the peer routing byte for an alert kind. -/
def peerReports (k : AlertKind) (s : State) : Bool :=
  match k with
  | .splice => s.ctl.cfg.peerRouting.getLsbD 1
  | .mark => s.ctl.cfg.peerRouting.getLsbD 3

/-- R180: the event code of an alert kind. -/
def alertEvent : AlertKind → EventCode
  | .splice => .splice
  | .mark => .mark

/-- R26, R36: the block a peer alert is handed to acts on it. -/
def actOnAlert (sender : StationNo) (k : AlertKind) (line : Word) (s : State) : State :=
  match k with
  | .splice => requestWindow line.toNat (line.toNat + s.ctl.cfg.sb - 1) s
  | .mark => offerMark line.toNat (.peer sender) s

/-- R180: routes a peer alert: the record is offered first, and the alert is then handed to its block. -/
def routeAlert (sender : StationNo) (k : AlertKind) (line : Word) (s : State) : State :=
  let s1 :=
    if peerReports k s then
      offerEvent { code := alertEvent k, origin := sender, peer := true, line := line, data := 0 } s
    else s
  if peerActs k s then actOnAlert sender k line s1 else s1

/-! ## SPAN frames (R119) -/

/-- R119: a SPAN frame taken in ENROLLING from a peer. -/
def hearSpan (h : Heard) (s : State) : State :=
  if s.bus.heard.any fun x => x.number == h.number then s
  else
    let s1 := s.updBus fun b => { b with heard := b.heard ++ [h], timer := some 50 }
    offerFrame (spanFrameOf s1) s1

/-! ## What a frame does (R117) -/

/-- R121: a peer's SUMMARY heard while enrolling or armed. -/
def lateForRun (sender : StationNo) (s : State) : State :=
  standDown (raiseNow .lateForRun (BitVec.ofNat 32 sender.toNat) s)

/-- R117: the table of a peer's frame, by kind and operating state. -/
def actOnPeer (f : HeardFrame) (s : State) : State :=
  match f, s.bus.op with
  | .halt _, _ => haltTaken s
  | .run _, _ => runTaken s
  | .alert n k line, .running => routeAlert n k line s
  | .alert n k line, .stopping => routeAlert n k line s
  | .alert _ _ _, _ => s
  | .summary n _ _ _ _, .enrolling => lateForRun n s
  | .summary n _ _ _ _, .armed => lateForRun n s
  | .summary n m p l r, .running => takeSummary n m p l r s
  | .summary n m p l r, .stopping => takeSummary n m p l r s
  | .summary _ _ _ _ _, _ => s
  | .span n c0 w fp, .enrolling =>
    hearSpan { number := n, c0 := c0.toNat, w := w.toNat, fingerprint := fp } s
  | .span _ _ _ _, _ => s

/-- R117: the station's own echo: an echoed RUN or HALT acts as a peer's, and no other echo has an
effect. -/
def actOnEcho (f : HeardFrame) (s : State) : State :=
  match f with
  | .halt _ => haltTaken s
  | .run _ => runTaken s
  | .alert _ _ _ | .summary _ _ _ _ _ | .span _ _ _ _ => s

/-- R113: DUPLICATE_STATION, with the frame's arbitration value. -/
def raiseDuplicate (f : HeardFrame) (s : State) : State :=
  raiseNow .duplicateStation (BitVec.ofNat 32 f.frame.arb) s

/-- R113: DUPLICATE_STATION once in a run. -/
def reportDuplicate (f : HeardFrame) (s : State) : State :=
  if s.bus.dupReported then s
  else (raiseDuplicate f s).updBus fun b => { b with dupReported := true }

/-- R113: whether a frame is a HALT. -/
def HeardFrame.isHalt : HeardFrame → Bool
  | .halt _ => true
  | _ => false

/-- R113: a frame with this station's own number that is not its echo. -/
def actOnDuplicate (f : HeardFrame) (s : State) : State :=
  match s.bus.op with
  | .enrolling | .armed => standDown (raiseDuplicate f s)
  | .running | .stopping =>
    let s1 := reportDuplicate f s
    if f.isHalt then haltTaken s1 else s1
  | .unconfigured | .idle => s

/-- R113: whether a frame is the station's own echo: the frame it is sending, every bit of it sent. -/
def isEcho (f : HeardFrame) (s : State) : Bool := s.bus.onLine == some f.frame

/-- R112, R113, R117: a well-formed frame the station has followed to its end. -/
def actOnFrame (f : HeardFrame) (s : State) : State :=
  if isEcho f s then actOnEcho f (endOfFrame (removeSent s))
  else if f.sender = s.ctl.station then actOnDuplicate f (endOfFrame s)
  else actOnPeer f (endOfFrame s)

/-- R108, R110: a followed frame that fails its CRC or its test of form. -/
def discardFrame (s : State) : State := bump .busFramesBad (endOfFrame s)

/-- R106: a frame the station does not follow: its dominant bits keep the idle count from rising. -/
def missFrame (s : State) : State := if busEnabled s then s.updBus fun b => { b with idle := 0 } else s

/-- R108, R110: the end of a frame with a good CRC. -/
def receiveFrame (f : HeardFrame) (s : State) : State :=
  if !follows s then missFrame s
  else if f.wellFormed then actOnFrame f s
  else discardFrame s

/-- R108, R110: the end of a frame whose CRC and form are still to be tested. -/
def receiveRaw (f : RawFrame) (s : State) : State :=
  if !follows s then missFrame s
  else
    match readFrame f with
    | some h => actOnFrame h s
    | none => discardFrame s

/-! ## Sending (R111, R112) -/

/-- R111: whether a queued frame may be started now. -/
def mayStart (s : State) : Bool :=
  busEnabled s && lineIsIdle s && s.bus.reception.isNone && s.bus.onLine.isNone

/-- R111, R114: marks the head of the queue as being sent. -/
def markHead : List TxFrame → List TxFrame
  | [] => []
  | t :: ts => { t with sending := true } :: ts

/-- R111: starts sending the head frame; the start bit is dominant. -/
def startHead (f : Frame) (s : State) : State :=
  s.updBus fun b =>
    { b with idle := 0, reception := some [], onLine := some f, queue := markHead b.queue }

/-- R111, R112: the station stops driving and follows the rest of the frame as a receiver, from the bits
it has already taken; the bit read at place `n` is the opposite of the one sent. -/
def fallBack (f : Frame) (n : Nat) (s : State) : State :=
  s.updBus fun b =>
    { b with
      onLine := none
      reception := some (f.bits.take n ++ [!(f.bits.getD n false)])
      queue := b.queue.map fun t => { t with sending := false } }

/-- R111: whether losing arbitration at bit `n` of a frame is possible: an arbitration bit sent
recessive. -/
def canLose (f : Frame) (n : Nat) : Bool := decide (n < 8) && f.bits.getD n false

/-- R112: whether a bit error at bit `n` of a frame is possible: a bit of the length, body or CRC. -/
def canErr (f : Frame) (n : Nat) : Bool := decide (8 ≤ n) && decide (n < f.bits.length)

/-- R112: counts a bit error against the queued frame being sent. -/
def countError (t : TxFrame) : TxFrame := if t.sending then { t with errors := t.errors + 1 } else t

/-- R112: whether the queued frame being sent has reached its eighth bit error. -/
def worn (t : TxFrame) : Bool := t.sending && decide (8 ≤ t.errors)

/-- R112: the eighth bit error drops the frame and raises BUS_TROUBLE with its arbitration value. -/
def dropWorn (f : Frame) (s : State) : State :=
  if s.bus.queue.any worn then
    raiseNow .busTrouble (BitVec.ofNat 32 f.arb)
      (bump .busFramesDropped (setTxQueue (s.bus.queue.filter fun t => !worn t) s))
  else s

/-- R112: a bit error at bit `n` of the frame being sent. -/
def bitErrorAt (f : Frame) (n : Nat) (s : State) : State :=
  fallBack f n (dropWorn f (setTxQueue (s.bus.queue.map countError) (bump .busBitErrors s)))

end Sys2Proof.Machine
end

