-- ==== Sys2Proof/Machine/BusCommands.lean ====
section
/-! DEFINITION. The commands of the Span Bus: sending, receiving, idle and the enrollment window. -/

namespace Sys2Proof.Machine

/-- R111: FRAME_TRANSMIT_START; without an idle line or a queued frame nothing is started. -/
def execFrameTransmitStart (s : State) : Host.Outcome State Fault Refusal :=
  .next (match s.bus.queue with
    | [] => s
    | t :: _ => if mayStart s then startHead t.frame s else s)

/-- R111: ARBITRATION_LOST at an arbitration bit the station sent recessive; otherwise nothing was lost. -/
def execArbitrationLost (bit : Nat) (s : State) : Host.Outcome State Fault Refusal :=
  .next (match s.bus.onLine with
    | none => s
    | some f => if canLose f bit then fallBack f bit (bump .busArbitrationLosses s) else s)

/-- R112: BIT_ERROR at a bit of the length, body or CRC of the frame being sent; otherwise no error. -/
def execBitError (bit : Nat) (s : State) : Host.Outcome State Fault Refusal :=
  .next (match s.bus.onLine with
    | none => s
    | some f => if canErr f bit then bitErrorAt f bit s else s)

/-- R108, R110: BAD_FRAME. -/
def execBadFrame (frame : RawFrame) (s : State) : Host.Outcome State Fault Refusal :=
  .next (receiveRaw frame s)

/-- R117, R125: HALT_FRAME. -/
def execHaltFrame (sender : StationNo) (s : State) : Host.Outcome State Fault Refusal :=
  .next (receiveFrame (.halt sender) s)

/-- R117, R124: RUN_FRAME. -/
def execRunFrame (sender : StationNo) (s : State) : Host.Outcome State Fault Refusal :=
  .next (receiveFrame (.run sender) s)

/-- R117, R128: ALERT_FRAME. -/
def execAlertFrame (sender : StationNo) (alert : AlertKind) (startLine : Word) (s : State) :
    Host.Outcome State Fault Refusal :=
  .next (receiveFrame (.alert sender alert startLine) s)

/-- R93, R117: SUMMARY_FRAME. -/
def execSummaryFrame (sender : StationNo) (band : Half) (level : Byte) (left right : List ZoneCode)
    (s : State) : Host.Outcome State Fault Refusal :=
  .next (receiveFrame (.summary sender band level left right) s)

/-- R117, R119: SPAN_FRAME. -/
def execSpanFrame (sender : StationNo) (c0 w fp : Half) (s : State) :
    Host.Outcome State Fault Refusal :=
  .next (receiveFrame (.span sender c0 w fp) s)

/-- R120: ENROLLMENT_WINDOW_EXPIRY; the timer runs in ENROLLING alone. -/
def execEnrollmentWindowExpiry (s : State) : Host.Outcome State Fault Refusal :=
  .next (if s.bus.op = .enrolling then expireWindow s else s)

/-- R106: LINE_IDLE: the eleventh recessive bit of a station that follows no frame. -/
def execLineIdle (s : State) : Host.Outcome State Fault Refusal :=
  .next (if busEnabled s ∧ s.bus.reception = none then s.updBus fun b => { b with idle := 11 } else s)

end Sys2Proof.Machine
end

