-- ==== Sys2Proof/Machine/ConfigBlock.lean ====
section
/-! DEFINITION. The configuration block: its fields, its validation, its clamps and its read-back
(R34, R87, R103, R142, R170, R175, R176). -/

namespace Sys2Proof.Machine

/-! ## Reading the block (R175) -/

/-- Byte `i` of the block. -/
def blockByte (b : BitVec 2048) (i : Nat) : Byte := b.extractLsb' (8 * i) 8

/-- The 16-bit field at offset `i`. -/
def blockHalf (b : BitVec 2048) (i : Nat) : Half := b.extractLsb' (8 * i) 16

/-- The unsigned 16-bit field at offset `i`. -/
def blockNat16 (b : BitVec 2048) (i : Nat) : Nat := (blockHalf b i).toNat

/-- The unsigned 64-bit field at offset `i`. -/
def blockNat64 (b : BitVec 2048) (i : Nat) : Nat := (b.extractLsb' (8 * i) 64).toNat

/-! ## Clamps (R176) -/

/-- R176: K held to a power of two from 1 to 16, 0 taken as 1. -/
def clampK (k : Nat) : Nat :=
  if 16 ≤ k then 16 else if 8 ≤ k then 8 else if 4 ≤ k then 4 else if 2 ≤ k then 2 else 1

/-- A value held to a range. -/
def clampNat (lo hi n : Nat) : Nat := max lo (min n hi)

/-- R87: a threshold held to −512 to 511. -/
def clampThreshold (x : Int) : Int := max (-512) (min x 511)

/-- R34: the capture window held to the smaller of 1,023 and floor(L / 4). -/
def clampWc (l wc : Nat) : Nat := min wc (min 1023 (l / 4))

/-- R83, R87: the setting of a measure at offset `i`. -/
def blockThreshold (b : BitVec 2048) (i : Nat) : Threshold :=
  { setting := blockByte b i
    overAt := clampThreshold (blockHalf b (i + 2)).toInt
    underAt := clampThreshold (blockHalf b (i + 4)).toInt }

/-! ## Validation (R176) -/

/-- The result of validating a block: accepted with its clamps, or refused naming the field at an
offset. -/
inductive Validated where
  | accepted (cfg : StationConfig)
  | refused (offset : Nat)
  deriving DecidableEq, Repr

/-- R176: the clamped configuration of a block whose W and L × W are within the limits. -/
def clampBlock (b : BitVec 2048) (rounding : Rounding) (context sample : Fidelity)
    (fits : blockNat16 b 4 * blockNat16 b 2 ≤ 67108864 ∧ blockNat16 b 2 ≤ 8192) : StationConfig :=
  { c0 := blockNat16 b 0
    w := blockNat16 b 2
    l := blockNat16 b 4
    d := blockNat16 b 6
    rounding := rounding
    flags := blockByte b 9
    k := clampK (blockByte b 10).toNat
    hs := clampNat 2 6 (blockByte b 11).toNat
    wc := clampWc (blockNat16 b 4) (blockNat16 b 12)
    moff := blockNat16 b 14
    soff := blockNat16 b 16
    sb := clampNat 1 4096 (blockNat16 b 18)
    glareLimit := min (blockNat16 b 20) 1024
    combination := blockByte b 22
    contextFidelity := context
    sampleFidelity := sample
    ps := blockNat16 b 26
    flush := clampNat 1 1000 (blockNat16 b 28)
    ring := blockNat64 b 32
    mad := blockThreshold b 40
    shift := blockThreshold b 46
    peak := blockThreshold b 52
    report := blockHalf b 58
    share := blockHalf b 60
    peerRouting := blockByte b 62
    fits := fits }

/-- R142: a context fidelity code of 3 or above is refused. -/
def contextOf (code : Nat) : Option Fidelity := if code ≤ 2 then Fidelity.ofCode code else none

/-- R142: a sample fidelity code of 0 or above 3 is refused. -/
def sampleOf (code : Nat) : Option Fidelity := if code = 0 then none else Fidelity.ofCode code

/-- R176: the ten tests in their order, and the clamps. -/
def validate (b : BitVec 2048) : Validated :=
  let c0 := blockNat16 b 0
  let w := blockNat16 b 2
  let l := blockNat16 b 4
  let d := blockNat16 b 6
  if c0 % 32 ≠ 0 then .refused 0
  else if w < 512 ∨ 8192 < w ∨ w % 32 ≠ 0 then .refused 2
  else if 65536 < c0 + w then .refused 2
  else if l < 256 ∨ 32768 < l then .refused 4
  else if fits : l * w ≤ 67108864 ∧ w ≤ 8192 then
    if d < 1 ∨ 1024 < d then .refused 6
    else
      match Rounding.ofCode (blockByte b 8).toNat with
      | none => .refused 8
      | some rounding =>
        match contextOf (blockByte b 23).toNat with
        | none => .refused 23
        | some context =>
          match sampleOf (blockByte b 24).toNat with
          | none => .refused 24
          | some sample =>
            if blockNat64 b 32 % 4096 ≠ 0 then .refused 32
            else .accepted (clampBlock b rounding context sample fits)
  else .refused 4

/-! ## Read-back (R170) -/

/-- A signed field as its 16-bit two's complement. -/
def leSigned (x : Int) : List Byte := le16 (BitVec.ofInt 16 x).toNat

/-- The bytes of one measure's setting. -/
def Threshold.bytes (t : Threshold) : List Byte := [t.setting, 0] ++ leSigned t.overAt ++ leSigned t.underAt

/-- R170: the 256 bytes of the configuration in force, in the layout of R175; a byte the layout does not
name reads 0, and the ignored bits of a named byte read as the block gave them (log entry 9). -/
def StationConfig.bytes (c : StationConfig) : List Byte :=
  le16 c.c0 ++ le16 c.w ++ le16 c.l ++ le16 c.d
  ++ [byte c.rounding.code, c.flags, byte c.k, byte c.hs]
  ++ le16 c.wc ++ le16 c.moff ++ le16 c.soff ++ le16 c.sb ++ le16 c.glareLimit
  ++ [c.combination, byte c.contextFidelity.code, byte c.sampleFidelity.code, 0]
  ++ le16 c.ps ++ le16 c.flush ++ [0, 0] ++ le64 c.ring
  ++ c.mad.bytes ++ c.shift.bytes ++ c.peak.bytes
  ++ le16 c.report.toNat ++ le16 c.share.toNat ++ [c.peerRouting]
  ++ List.replicate 193 0

end Sys2Proof.Machine
end

