-- ==== Sys2Proof/Machine/Control.lean ====
section
/-! DEFINITION. Station Control: the command slot, the accepted configuration, resets, the snapshot and
the host window (R166, R169 to R177, R183, R184). -/

namespace Sys2Proof.Machine

/-! ## The command slot (R171, R172) -/

/-- Sets the command status. -/
def setStatus (phase : CmdPhase) (result : ResultCode) (detail : Nat) (s : State) : State :=
  s.updCtl fun c => { c with phase := phase, result := result, detail := byte detail }

/-- R172: a command ends DONE with OK, and raises the attention interrupt. -/
def endDone (s : State) : State := attention (setStatus .done .ok 0 s)

/-- R172, R182: a command ends FAILED, is counted, and raises the attention interrupt. -/
def endFailed (result : ResultCode) (detail : Nat) (s : State) : State :=
  attention (bump .commandsFailed (setStatus .failed result detail s))

/-- R171: whether a command is in flight. -/
def busy (s : State) : Bool :=
  match s.ctl.phase with
  | .busy _ => true
  | _ => false

/-- R172: a code written while the phase is BUSY is discarded. -/
def loseCommand (s : State) : State :=
  bump .commandsLost (s.updCtl fun c => { c with commandLost := true })

/-- R172: clears COMMAND_LOST at the acceptance of a command. -/
def acceptCommand (s : State) : State := s.updCtl fun c => { c with commandLost := false }

/-- R172: a command code is written: discarded while BUSY; WRONG_STATE in a state that does not accept
it; BAD_ARGUMENT when its arguments fail; otherwise accepted and carried out by `act`. -/
def submit (code : Nat) (stateOk argOk : Bool) (act : State → State) (s : State) : State :=
  let s0 := s.updCtl fun c => { c with code := BitVec.ofNat 32 code }
  if busy s then loseCommand s0
  else if !stateOk then endFailed .wrongState s.bus.op.code s0
  else if !argOk then endFailed .badArgument 0 s0
  else act (acceptCommand s0)

/-- R172: the argument test of CONFIGURE and SNAPSHOT: an address that is a multiple of 4 and a length of
at least `need`. -/
def argumentOk (need : Nat) (s : State) : Bool :=
  decide (s.ctl.argAddress.toNat % 4 = 0) && decide (need ≤ s.ctl.argLength.toNat)

/-- R171: CONFIGURE is accepted in UNCONFIGURED and IDLE. -/
def configurable (s : State) : Bool := s.bus.op == .unconfigured || s.bus.op == .idle

/-! ## CONFIGURE (R174) -/

/-- R174: an accepted CONFIGURE starts reading the block. -/
def beginConfigure (s : State) : State :=
  emit (.blockRead s.ctl.argAddress.toNat)
    (s.updCtl fun c => { c with phase := .busy (.configure s.ctl.argAddress) })

/-- R69, and the table of R70: an accepted block that changes C0, W or L empties the reference and sets every
item of the table as at power-on; the finalisation progress, which neither names, stays (log entry 15). -/
def refreshReference (new : StationConfig) (s : State) : State :=
  if s.ctl.cfg.c0 = new.c0 ∧ s.ctl.cfg.w = new.w ∧ s.ctl.cfg.l = new.l then s
  else s.updRef fun r =>
    { r with
      state := .empty
      counts := List.replicate new.l 0
      shortLines := 0
      touched := 0
      learned := 0
      depth := 1
      endingLine := 0 }

/-- R166: an accepted block retires the open grant at halt, at the old ring address and with the old sequence,
and empties the grant FIFO.  DESIGN CHOICE (log entry 36): whether that retirement sends a message is decided by
the completion interrupt enable of the old configuration; R166 names the old ring address and sequence alone. -/
def refreshGrants (s : State) : State :=
  (retireGrant .byHalt s).updPort fun p =>
    { p with fifo := [], nextSeq := 1, grantStatus := .accepted }

/-- R106: an accepted block that turns the bus on or off. -/
def refreshBus (on : Bool) (s : State) : State :=
  if busEnabled s = on then s
  else if on then s.updBus fun b => { b with idle := 0 }
  else s.updBus fun b => { b with reception := none, onLine := none }

/-- R174: an accepted block is applied. -/
def applyConfig (new : StationConfig) (s : State) : State :=
  let s1 := refreshBus (new.flags.getLsbD 0) (refreshReference new (refreshGrants s))
  endDone ((setOp .idle s1).updCtl fun c => { c with cfg := new })

/-- R174: the last byte of the block has arrived. -/
def finishConfigure (b : BitVec 2048) (s : State) : State :=
  match validate b with
  | .accepted new => applyConfig new s
  | .refused offset => endFailed .configInvalid offset s

/-! ## SNAPSHOT (R177) -/

/-- R177: the 32 words of the snapshot. -/
def snapshotWords (s : State) : List Word := Counter.all.map s.counters.get

/-- The bytes of snapshot words. -/
def wordBytes (ws : List Word) : List Byte := ws.flatMap fun w => le32 w.toNat

/-- R177: an accepted SNAPSHOT captures the words. -/
def beginSnapshot (s : State) : State :=
  s.updCtl fun c => { c with phase := .busy (.snapshot s.ctl.argAddress (snapshotWords s)) }

/-- R177: the last snapshot write has been issued.  DESIGN CHOICE: the 128 bytes are put out here as one
write, behind every record and completion entry issued since the command was accepted; the manual does not say
how the snapshot's writes stand among the Host Port's (log entry 35). -/
def finishSnapshot (address : BitVec 64) (words : List Word) (s : State) : State :=
  endDone (emit (.hostWrite address.toNat (wordBytes words)) s)

/-! ## CLEAR and RESET (R173, R184) -/

/-- R173: CLEAR. -/
def clearCounters (s : State) : State := s.updCounters fun _ => {}

/-- R184: the soft reset: every block as at power-on but for the station number, the link and the DRAM. -/
def softReset (s : State) : State :=
  { s with
    encoder := .initial s.encoder.pair
    intake := .initial
    tracker := .initial
    ref := .initial 0
    table := .initial
    bus := .initial
    port := .initial s.port.link
    ctl := .initial s.ctl.station
    counters := {} }

/-! ## Link loss (R165, R182) -/

/-- R165: the Host Port at the loss of the link. -/
def dropLink (s : State) : State :=
  s.updPort fun p => { p with link := .down, fifo := [], grant := none }

/-- R177: what part of a snapshot in flight the lost link had let through: a free value from 0 to 32 words
(log entry 4), put out at the loss as one write, behind the Host Port's (log entry 35). -/
def partlyIssued (address : BitVec 64) (words : List Word) (s : State) : State :=
  (emit (.hostWrite address.toNat (wordBytes (words.take (Config.snapshotIssued s.draws % 33)))) s).updDraws
    (· + 1)

/-- R174, R177, R182: the loss of the link abandons a command in flight. -/
def abandonCommand (s : State) : State :=
  match s.ctl.phase with
  | .busy (.configure _) => endFailed .linkLost 0 s
  | .busy (.snapshot address words) => endFailed .linkLost 0 (partlyIssued address words s)
  | _ => s

/-! ## The grant port (R157) -/

/-- R157: the grant the grant port holds, submitted with a tag. -/
def portGrant (tag : Word) (s : State) : Grant :=
  { address := s.ctl.grantAddress, length := s.ctl.grantLength, tag := tag }

/-- R157: whether a grant's address and length are in form. -/
def Grant.wellFormed (g : Grant) : Bool :=
  decide (g.address.toNat % 256 = 0) && decide (g.length.toNat % 256 = 0) &&
    decide (4096 ≤ g.length.toNat) && decide (g.length.toNat ≤ 1048576) &&
    decide (g.address.toNat + g.length.toNat ≤ 18446744073709551616)

/-- R157: the result of a submission, by the first test that applies. -/
def grantResult (g : Grant) (s : State) : GrantStatus :=
  if s.bus.op = .unconfigured then .state
  else if !g.wellFormed then .invalid
  else if 32 ≤ s.port.fifo.length then .full
  else .accepted

/-- R157: the write of the tag submits the grant. -/
def submitGrant (tag : Word) (s : State) : State :=
  let g := portGrant tag s
  let r := grantResult g s
  (s.updCtl fun c => { c with grantTag := tag }).updPort fun p =>
    { p with grantStatus := r, fifo := if r = .accepted then p.fifo ++ [g] else p.fifo }

/-! ## Writes to the window (R169) -/

/-- Replaces byte `i` of a field. -/
def setByte {n : Nat} (i : Nat) (b : Byte) (v : BitVec n) : BitVec n :=
  (v &&& ~~~(BitVec.ofNat n (255 <<< (8 * i)))) ||| BitVec.ofNat n (b.toNat <<< (8 * i))

/-- R169: one byte written to the window: it goes into the argument or grant field it falls in, and
elsewhere it has no effect. -/
def writeByte (offset : Nat) (b : Byte) (c : Control) : Control :=
  if 0x20 ≤ offset ∧ offset < 0x28 then { c with argAddress := setByte (offset - 0x20) b c.argAddress }
  else if 0x28 ≤ offset ∧ offset < 0x2C then
    { c with argLength := setByte (offset - 0x28) b c.argLength }
  else if 0x40 ≤ offset ∧ offset < 0x48 then
    { c with grantAddress := setByte (offset - 0x40) b c.grantAddress }
  else if 0x48 ≤ offset ∧ offset < 0x4C then
    { c with grantLength := setByte (offset - 0x48) b c.grantLength }
  else c

/-- R169: a run of bytes written from an offset upward. -/
def writeBytes : Nat → List Byte → Control → Control
  | _, [], c => c
  | o, b :: bs, c => writeBytes (o + 1) bs (writeByte o b c)

/-! ## Reads of the window (R169, R170) -/

/-- The bytes of the fields at the given offsets of the window: the groups of R169 but for the
configuration in force. -/
def windowFields (s : State) : List (Nat × List Byte) :=
  [(0x00, le16 0x4D42), (0x02, le16 0x2416), (0x04, [1, byte s.ctl.station.toNat]),
   (0x08, [byte s.bus.op.code, byte s.ref.state.code, byte s.tracker.mode.code, byte (pressure s),
     byte s.port.link.code]),
   (0x10, [byte s.ctl.phase.code, byte s.ctl.result.code, s.ctl.detail, byte (bit s.ctl.commandLost 1)]),
   (0x20, le64 s.ctl.argAddress.toNat), (0x28, le32 s.ctl.argLength.toNat),
   (0x2C, le32 s.ctl.code.toNat), (0x40, le64 s.ctl.grantAddress.toNat),
   (0x48, le32 s.ctl.grantLength.toNat), (0x4C, le32 s.ctl.grantTag.toNat),
   (0x50, [byte s.port.grantStatus.code]), (0x100, s.ctl.cfg.bytes)]

/-- The byte some fields hold at an offset. -/
def fieldByte (offset : Nat) : List (Nat × List Byte) → Option Byte
  | [] => none
  | (o, bs) :: rest =>
    if o ≤ offset ∧ offset < o + bs.length then bs[offset - o]? else fieldByte offset rest

/-- R169, R170: what the host reads at an offset of the window; at an offset the table gives to no field
it reads a free value (log entry 6). -/
def windowRead (s : State) (offset : Nat) : Byte :=
  (fieldByte offset (windowFields s)).getD (Config.windowGap offset)

end Sys2Proof.Machine
end

