-- ==== Sys2Proof/Machine/HostCommands.lean ====
section
/-! DEFINITION. The commands of the host window: the command codes, the ends of the commands that take
time, the window writes and the grant port. -/

namespace Sys2Proof.Machine

/-- R172: code 1 written. -/
def writeConfigure (s : State) : State :=
  submit 1 (configurable s) (argumentOk 256 s) beginConfigure s

/-- R172: code 2 written. -/
def writeStart (s : State) : State :=
  submit 2 (s.bus.op == .idle) true (fun t => endDone (startRun t)) s

/-- R172: code 3 written. -/
def writeHalt (s : State) : State := submit 3 true true (fun t => endDone (haltAction t)) s

/-- R172: code 4 written. -/
def writeLearn (s : State) : State :=
  submit 4 (s.bus.op != .unconfigured) true (fun t => endDone (startLearning t)) s

/-- R172: code 5 written. -/
def writeSnapshot (s : State) : State := submit 5 true (argumentOk 128 s) beginSnapshot s

/-- R172: code 6 written. -/
def writeClear (s : State) : State := submit 6 true true (fun t => endDone (clearCounters t)) s

/-- R172: code 7 written. -/
def writeReset (s : State) : State := submit 7 true true (fun t => endDone (softReset t)) s

/-- R172: a code other than 1 to 7 written. -/
def writeOther (code : Word) (s : State) : State :=
  let s0 := s.updCtl fun c => { c with code := code }
  if busy s then loseCommand s0
  else endFailed .unknownCommand (if code.toNat < 256 then code.toNat else 255) s0

/-- R171: CONFIGURE. -/
def execConfigure (s : State) : Host.Outcome State Fault Refusal := .next (writeConfigure s)

/-- R174: CONFIGURE_READ_DONE; with no CONFIGURE in flight no byte is awaited. -/
def execConfigureReadDone (block : BitVec 2048) (s : State) : Host.Outcome State Fault Refusal :=
  .next (match s.ctl.phase with
    | .busy (.configure _) => finishConfigure block s
    | _ => s)

/-- R118, R173: START. -/
def execStart (s : State) : Host.Outcome State Fault Refusal := .next (writeStart s)

/-- R125, R173: HALT. -/
def execHalt (s : State) : Host.Outcome State Fault Refusal := .next (writeHalt s)

/-- R57, R173: LEARN. -/
def execLearn (s : State) : Host.Outcome State Fault Refusal := .next (writeLearn s)

/-- R177: SNAPSHOT. -/
def execSnapshot (s : State) : Host.Outcome State Fault Refusal := .next (writeSnapshot s)

/-- R177: SNAPSHOT_WRITE_DONE; with no SNAPSHOT in flight no write is issued. -/
def execSnapshotWriteDone (s : State) : Host.Outcome State Fault Refusal :=
  .next (match s.ctl.phase with
    | .busy (.snapshot address words) => finishSnapshot address words s
    | _ => s)

/-- R173: CLEAR. -/
def execClear (s : State) : Host.Outcome State Fault Refusal := .next (writeClear s)

/-- R184: RESET. -/
def execReset (s : State) : Host.Outcome State Fault Refusal := .next (writeReset s)

/-- R172: UNKNOWN_COMMAND; a code from 1 to 7 is the command it names. -/
def execUnknownCommand (code : Word) (s : State) : Host.Outcome State Fault Refusal :=
  .next (match code.toNat with
    | 1 => writeConfigure s
    | 2 => writeStart s
    | 3 => writeHalt s
    | 4 => writeLearn s
    | 5 => writeSnapshot s
    | 6 => writeClear s
    | 7 => writeReset s
    | _ => writeOther code s)

/-- R169: WINDOW_WRITE. -/
def execWindowWrite (offset : Nat) (data : List Byte) (s : State) :
    Host.Outcome State Fault Refusal :=
  .next (s.updCtl (writeBytes offset data))

/-- R157: GRANT_SUBMIT. -/
def execGrantSubmit (tag : Word) (s : State) : Host.Outcome State Fault Refusal :=
  .next (submitGrant tag s)

end Sys2Proof.Machine
end

