-- ==== Sys2Proof/Machine/PortCommands.lean ====
section
/-! DEFINITION. The Host Port's own moves, the ends of its timer and of the link, the finalisation step
and the internal tick. -/

namespace Sys2Proof.Machine

/-- R158: opens the oldest grant and writes the head record into it. -/
def openGrant (g : Grant) (r : Rec) (s : State) : State :=
  writeHead (freshGrant s.ctl.cfg.flush g) r (s.updPort fun p => { p with fifo := p.fifo.tail })

/-- R158: GRANT_OPEN, when a record is queued, no grant is open, a grant waits and the link is UP. -/
def execGrantOpen (s : State) : Host.Outcome State Fault Refusal :=
  .next (match s.port.queue, s.port.grant, s.port.fifo, s.port.link with
    | r :: _, none, g :: _, .up => settle (openGrant g r s)
    | _, _, _, _ => s)

/-- R159: RECORD_WRITE, when a grant is open, the link is UP and the head record fits. -/
def execRecordWrite (s : State) : Host.Outcome State Fault Refusal :=
  .next (match s.port.queue, s.port.grant, s.port.link with
    | r :: _, some g, .up => if r.size ≤ g.space then settle (writeHead g r s) else s
    | _, _, _ => s)

/-- R161: the open grant's flush timer reaches 0. -/
def flushExpired (s : State) : State := settle (retireGrant .byTimer s)

/-- R161: GRANT_FLUSH_TIMER_EXPIRY, when a grant is open. -/
def execGrantFlushTimerExpiry (s : State) : Host.Outcome State Fault Refusal :=
  .next (if s.port.grant.isSome then flushExpired s else s)

/-- R64: FINALISE_LINE, in FINALISING. -/
def execFinaliseLine (s : State) : Host.Outcome State Fault Refusal :=
  if s.ref.state = .finalising then
    match lowestTouched s with
    | some m => .next (finaliseStep m s)
    | none => .fault .finaliseNothing
  else .next s

/-- R165, R182: LINK_LOSS. -/
def execLinkLoss (s : State) : Host.Outcome State Fault Refusal :=
  .next (settle (haltAction (abandonCommand (dropLink s))))

/-- R165: LINK_UP. -/
def execLinkUp (s : State) : Host.Outcome State Fault Refusal :=
  .next (s.updPort fun p => { p with link := .up })

/-! ## The internal 1 ms tick -/

/-- R118, R120: the tick at the enrollment timer, which runs in ENROLLING alone. -/
def tickEnrollment (s : State) : State :=
  match s.bus.op, s.bus.timer with
  | .enrolling, some n =>
    if n ≤ 1 then expireWindow s else s.updBus fun b => { b with timer := some (n - 1) }
  | _, _ => s

/-- R161: the tick at the open grant's flush timer. -/
def tickFlush (s : State) : State :=
  match s.port.grant with
  | none => s
  | some g =>
    if g.timer ≤ 1 then flushExpired s
    else s.updPort fun p => { p with grant := some { g with timer := g.timer - 1 } }

/-- One tick of the internal 1 ms timer (log entry 2). -/
def tick (s : State) : State := tickFlush (tickEnrollment s)

/-- What the station does with no command waiting: a close that others fall into makes its next offer, what waits for
it following the last, and with no offer left 1 ms passes (log entries 2 and 29). -/
def idleStep (s : State) : State :=
  match s.port.offering with
  | none => tick s
  | some _ => nextOffer s

end Sys2Proof.Machine
end

