-- ==== Sys2Proof/Machine/WebCommands.lean ====
section
/-! DEFINITION. The commands of the web signals and of power: POWER_ON, ENCODER_STEP, LINE_ARRIVAL,
LOCAL_SPLICE and LOCAL_MARK. -/

namespace Sys2Proof.Machine

/-! ## POWER_ON (R183) -/

/-- R183: power-on latches the straps and sets every block to its initial state; what the station has
put out stays put out. -/
def execPowerOn (straps : StationNo) (inputs : ChannelPair) (s : State) :
    Host.Outcome State Fault Refusal :=
  .next (State.powered straps inputs (s.powerCycles + 1) s.draws s.outputs s.pending s.overlap)

/-! ## ENCODER_STEP (R1 to R3, R7, R8, R12) -/

/-- R1: the next pair of the forward cycle 00, 10, 11, 01. -/
def nextForward (p : ChannelPair) : ChannelPair :=
  match p.a, p.b with
  | false, false => { a := true, b := false }
  | true, false => { a := true, b := true }
  | true, true => { a := false, b := true }
  | false, true => { a := false, b := false }

/-- R2: a glitch. -/
def glitch (inputs : ChannelPair) (s : State) : State :=
  bump .encoderGlitches (s.updEncoder fun c => { c with pair := inputs })

/-- R1: a reverse step; it is counted in RUNNING. -/
def reverseStep (inputs : ChannelPair) (s : State) : State :=
  let s1 := s.updEncoder fun c => { c with pair := inputs, e := c.e - 1 }
  if s.bus.op = .running then bump .reverseSteps s1 else s1

/-- R12: a trigger that finds 4 stamps drops the oldest, whose line is declared missed. -/
def makeRoom (s : State) : State :=
  if 4 ≤ s.encoder.stamps.length then
    match s.encoder.stamps with
    | [] => s
    | oldest :: rest =>
      missLine oldest (bump .stampOverflows (s.updEncoder fun c => { c with stamps := rest }))
  else s

/-- R7, R8: the trigger's own effect on the unit. -/
def Encoder.triggered (c : Encoder) : Encoder :=
  { c with
    stamps := c.stamps ++ [{ line := c.lineCounter, position := c.e }]
    lastLine := c.lineCounter
    lastPosition := c.e
    lineCounter := c.lineCounter + 1
    lineLimit := decide (c.lineCounter = maxLine) }

/-- R7, R8, R12: a line trigger. -/
def trigger (s : State) : State :=
  bump .linesTriggered ((makeRoom (emit .linePulse s)).updEncoder Encoder.triggered)

/-- R3, R7, R8: a forward advance; the one that completes D counts triggers, until the line limit. -/
def forwardAdvance (s : State) : State :=
  if s.encoder.dividerPhase + 1 = s.ctl.cfg.d then
    let s1 := s.updEncoder fun c => { c with high := c.e, dividerPhase := 0 }
    if s.encoder.lineLimit then s1 else trigger s1
  else s.updEncoder fun c => { c with high := c.e, dividerPhase := c.dividerPhase + 1 }

/-- R1, R3: a forward step; in RUNNING one that brings E to H + 1 is a forward advance. -/
def forwardStep (inputs : ChannelPair) (s : State) : State :=
  let s1 := s.updEncoder fun c => { c with pair := inputs, e := c.e + 1 }
  if s.bus.op = .running ∧ s1.encoder.e = s1.encoder.high + 1 then forwardAdvance s1 else s1

/-- R1, R2: the encoder inputs decoded against the accepted pair; inputs that show that pair again are no
change. -/
def encoderInputs (inputs : ChannelPair) (s : State) : State :=
  if inputs = s.encoder.pair then s
  else if inputs = nextForward s.encoder.pair then forwardStep inputs s
  else if s.encoder.pair = nextForward inputs then reverseStep inputs s
  else glitch inputs s

/-- R1: ENCODER_STEP. -/
def execEncoderStep (inputs : ChannelPair) (s : State) : Host.Outcome State Fault Refusal :=
  .next (encoderInputs inputs s)

/-! ## LINE_ARRIVAL (R11, R17 to R19) -/

/-- R18: an unsolicited arrival is discarded and counted in LINES_UNSOLICITED.  DESIGN CHOICE: it is counted
there alone, also when its pixel count is not W; R19 and R31 count "each damaged arrival" in LINES_DAMAGED, and
whether they mean this one is left open (log entry 34). -/
def unsolicited (s : State) : State :=
  bump .linesUnsolicited (s.updIntake fun i => { i with buffer := [], count := 0 })

/-- R11, R17, R18: the fall of line-valid. -/
def lineArrives (pixels : List Byte) (s : State) : State :=
  match s.encoder.stamps with
  | [] => unsolicited s
  | oldest :: rest =>
    arriveAt oldest pixels (fillBuffer pixels (s.updEncoder fun c => { c with stamps := rest }))

/-- R18: LINE_ARRIVAL. -/
def execLineArrival (pixels : List Byte) (s : State) : Host.Outcome State Fault Refusal :=
  .next (lineArrives pixels s)

/-! ## LOCAL_SPLICE (R25) and LOCAL_MARK (R35) -/

/-- R25: a local splice taken in RUNNING, its window starting at `start`. -/
def takeSplice (start : Nat) (s : State) : State :=
  if maxLine < start then s
  else raise .splice start s.encoder.lastPosition (requestWindow start (start + s.ctl.cfg.sb - 1) s)

/-- R25: LOCAL_SPLICE. -/
def execLocalSplice (s : State) : Host.Outcome State Fault Refusal :=
  .next (if s.bus.op = .running then takeSplice (s.encoder.lastLine + s.ctl.cfg.soff) s else s)

/-- R35: a local mark taken in RUNNING with the given start line. -/
def takeMark (start : Nat) (s : State) : State :=
  if maxLine < start then bump .marksDiscarded s
  else raise .mark start s.encoder.lastPosition (offerMark start .own s)

/-- R35: LOCAL_MARK. -/
def execLocalMark (s : State) : Host.Outcome State Fault Refusal :=
  .next (if s.bus.op = .running then takeMark (s.encoder.lastLine + s.ctl.cfg.moff) s else s)

end Sys2Proof.Machine
end

