-- ==== Sys2Proof/Machine/Dispatch.lean ====
section
/-! DEFINITION. One arm per command: its meaning. -/

namespace Sys2Proof.Machine

def exec (i : Instr) (s : State) : Host.Outcome State Fault Refusal :=
  match i with
  | .powerOn straps inputs => Sys2Proof.Machine.execPowerOn straps inputs s
  | .encoderStep inputs => Sys2Proof.Machine.execEncoderStep inputs s
  | .lineArrival pixels => Sys2Proof.Machine.execLineArrival pixels s
  | .localSplice => Sys2Proof.Machine.execLocalSplice s
  | .localMark => Sys2Proof.Machine.execLocalMark s
  | .frameTransmitStart => Sys2Proof.Machine.execFrameTransmitStart s
  | .arbitrationLost bit => Sys2Proof.Machine.execArbitrationLost bit s
  | .bitError bit => Sys2Proof.Machine.execBitError bit s
  | .badFrame frame => Sys2Proof.Machine.execBadFrame frame s
  | .haltFrame sender => Sys2Proof.Machine.execHaltFrame sender s
  | .runFrame sender => Sys2Proof.Machine.execRunFrame sender s
  | .alertFrame sender alert startLine => Sys2Proof.Machine.execAlertFrame sender alert startLine s
  | .summaryFrame sender band level left right => Sys2Proof.Machine.execSummaryFrame sender band level left right s
  | .spanFrame sender c0 w fp => Sys2Proof.Machine.execSpanFrame sender c0 w fp s
  | .enrollmentWindowExpiry => Sys2Proof.Machine.execEnrollmentWindowExpiry s
  | .configure => Sys2Proof.Machine.execConfigure s
  | .configureReadDone block => Sys2Proof.Machine.execConfigureReadDone block s
  | .start => Sys2Proof.Machine.execStart s
  | .halt => Sys2Proof.Machine.execHalt s
  | .learn => Sys2Proof.Machine.execLearn s
  | .snapshot => Sys2Proof.Machine.execSnapshot s
  | .snapshotWriteDone => Sys2Proof.Machine.execSnapshotWriteDone s
  | .clear => Sys2Proof.Machine.execClear s
  | .reset => Sys2Proof.Machine.execReset s
  | .unknownCommand code => Sys2Proof.Machine.execUnknownCommand code s
  | .windowWrite offset data => Sys2Proof.Machine.execWindowWrite offset data s
  | .grantSubmit tag => Sys2Proof.Machine.execGrantSubmit tag s
  | .grantOpen => Sys2Proof.Machine.execGrantOpen s
  | .recordWrite => Sys2Proof.Machine.execRecordWrite s
  | .grantFlushTimerExpiry => Sys2Proof.Machine.execGrantFlushTimerExpiry s
  | .finaliseLine => Sys2Proof.Machine.execFinaliseLine s
  | .linkLoss => Sys2Proof.Machine.execLinkLoss s
  | .linkUp => Sys2Proof.Machine.execLinkUp s
  | .lineIdle => Sys2Proof.Machine.execLineIdle s

end Sys2Proof.Machine
end

