-- ==== Sys2Proof/Safety.lean ====
section
/-! DEFINITION. What counts as a sound state: the invariants of the manual that every step keeps, block by
block. -/

namespace Sys2Proof.Machine

/-- The operating states of a run: RUNNING and STOPPING. -/
def inRun (s : State) : Prop := s.bus.op = .running ∨ s.bus.op = .stopping

/-! ## Encoder and Trigger Unit -/

/-- R8, R10: at most 4 stamps, their line numbers consecutive and ending just below the line counter, which
does not wrap: it reaches 4,294,967,296 exactly when the line limit flag is set. -/
def StampsOk (s : State) : Prop :=
  s.encoder.stamps.length ≤ 4 ∧
  (∀ i, (h : i < s.encoder.stamps.length) →
    s.encoder.stamps[i].line + s.encoder.stamps.length = s.encoder.lineCounter + i) ∧
  s.encoder.lineCounter ≤ 4294967296 ∧
  (s.encoder.lineLimit = true ↔ s.encoder.lineCounter = 4294967296)

/-! ## Line Intake Unit -/

/-- R28: the blanking window list holds at most 4 windows, in increasing start line, no two of which overlap
or adjoin; each is a range of line numbers a run can have (R27). -/
def WindowsCanonical (ws : List Window) : Prop :=
  ws.length ≤ 4 ∧ (∀ w ∈ ws, w.start ≤ w.stop ∧ w.stop ≤ maxLine) ∧
  ws.Pairwise fun a b => a.stop + 1 < b.start

/-- R28, with the range of the blanking length Sb (R176) that a window request relies on. -/
def WindowsOk (s : State) : Prop :=
  WindowsCanonical s.intake.windows ∧ (s.bus.op ≠ .unconfigured → 1 ≤ s.ctl.cfg.sb)

/-! ## Registration Tracker -/

/-- R37: at most 4 marks in increasing start line, and during a run any two at least floor(L / 4) lines
apart. -/
def MarksOk (s : State) : Prop :=
  s.tracker.marks.length ≤ 4 ∧
  (s.tracker.marks.Pairwise fun a b => a.start ≤ b.start) ∧
  (inRun s → s.tracker.marks.Pairwise fun a b => a.start + markSpacing s ≤ b.start)

/-- R45, R48: the step stays within 49,152 to 81,920, and during a run the phase stays below L × 65,536;
L is at least 256 once a configuration has been accepted (R176). -/
def PhaseOk (s : State) : Prop :=
  49152 ≤ s.tracker.step ∧ s.tracker.step ≤ 81920 ∧
  (s.bus.op ≠ .unconfigured → 256 ≤ s.ctl.cfg.l) ∧
  (inRun s → s.tracker.p < 65536 * s.ctl.cfg.l)

/-! ## Reference Memory Controller -/

/-- The attached DRAM is in its canonical form. -/
def DramOk (s : State) : Prop := MemWf s.dram

/-! ## Span Bus Controller -/

/-- R114: whether one queued frame stands before another: the lower arbitration value first, and of equal
values the one queued first. -/
def TxFrame.before (a b : TxFrame) : Prop :=
  a.frame.arb < b.frame.arb ∨ (a.frame.arb = b.frame.arb ∧ a.age < b.age)

/-- R114: at most 8 frames in the transmit queue, in the order of R114. -/
def TxQueueOk (s : State) : Prop :=
  s.bus.queue.length ≤ 8 ∧ s.bus.queue.Pairwise TxFrame.before ∧
  ∀ t ∈ s.bus.queue, t.age < s.bus.nextAge

/-- R119: the heard-station list holds at most one entry of each station number. -/
def HeardOk (s : State) : Prop := (s.bus.heard.map (·.number)).Nodup

/-! ## Band Table -/

/-- R96: an early-summary list holds at most 4 summaries, in strictly increasing band number. -/
def EarlyListOk (l : List EarlySummary) : Prop :=
  l.length ≤ 4 ∧ l.Pairwise fun a b => a.band < b.band

/-- R96, for both sides. -/
def EarlyOk (s : State) : Prop := EarlyListOk s.table.leftEarly ∧ EarlyListOk s.table.rightEarly

/-- R89: the open entries hold `n` consecutive band numbers from `b` upward. -/
def Consecutive : Nat → List Entry → Prop
  | _, [] => True
  | b, e :: es => e.band = b ∧ Consecutive (b + 1) es

/-- R89, R99: the open entries of a run whose next line is `next`, under the settle depth `hs`: consecutive
bands; while a band is filling its entry alone is FILLING, holds the highest band and is the band of the next
line; every other open entry is SCORED, and there are at most `hs` of them. -/
def BandsInOrder (next hs : Nat) (es : List Entry) : Prop :=
  ∃ scored : List Entry,
    scored.length ≤ hs ∧ (∀ e ∈ scored, e.state = .scored) ∧ scored.length ≤ bandOf next ∧
    Consecutive (bandOf next - scored.length) scored ∧
    if next % 32 = 0 then es = scored
    else ∃ f : Entry, es = scored ++ [f] ∧ f.state = .filling ∧ f.band = bandOf next

/-- R14, R20: the stamps of the lines from next line up to the line counter, in order. -/
def StampsFrom (s : State) (sts : List Stamp) : Prop :=
  sts.length ≤ 4 ∧ (∀ i, (h : i < sts.length) → sts[i].line = s.intake.nextLine + i) ∧
  s.encoder.lineCounter = s.intake.nextLine + sts.length

/-- R20, R89, R99, R102, R103: how the line numbers, the stamps and the band entries stand together in each
operating state.  In RUNNING the stamps are the lines from next line up to the line counter and the open
entries are in order under Hs.  In every other state no stamp is pending and no band is open, but that in STOPPING
retired stamps, with the same lines, and open entries may still wait for a close. -/
def RunOk (s : State) : Prop :=
  (s.bus.op ≠ .unconfigured → 2 ≤ s.ctl.cfg.hs ∧ s.ctl.cfg.hs ≤ 6) ∧
  (∀ address, s.ctl.phase = .busy (.configure address) →
    s.bus.op = .unconfigured ∨ s.bus.op = .idle) ∧
  match s.bus.op with
  | .running =>
    StampsFrom s s.encoder.stamps ∧ BandsInOrder s.intake.nextLine s.ctl.cfg.hs s.table.entries
  | .stopping =>
    s.encoder.stamps = [] ∧ (s.port.offering = none → s.table.entries = []) ∧
    ∀ o, s.port.offering = some o → StampsFrom s o.retired ∧
      ((o.retired = [] ∧ s.table.entries = []) ∨
        BandsInOrder s.intake.nextLine s.ctl.cfg.hs s.table.entries)
  | .unconfigured | .idle | .enrolling | .armed =>
    s.encoder.stamps = [] ∧ s.table.entries = []

/-! ## Output Queue and Host Port -/

/-- R151: the fill never exceeds the capacity of the output queue. -/
def FillOk (s : State) : Prop := fill s ≤ capacity

/-- R157, R160: the grant FIFO holds at most 32 grants, each in form, as is the open grant; and no open
grant is due to be retired by space: it has 16 bytes or more left and the head record fits in them. -/
def GrantsOk (s : State) : Prop :=
  s.port.fifo.length ≤ 32 ∧ (∀ g ∈ s.port.fifo, g.wellFormed = true) ∧
  (∀ o, s.port.grant = some o → o.grant.wellFormed = true) ∧ spaceDue s = false

/-- R126, R131: offers of a close are still to come in a run alone: it does not end before they are made. -/
def OfferingOk (s : State) : Prop := s.port.offering ≠ none → inRun s

/-! ## Words the statements use -/

/-- R1: the forward cycle of the channel pair, each pair with the one after it. -/
def forwardCycle : List (ChannelPair × ChannelPair) :=
  [(⟨false, false⟩, ⟨true, false⟩), (⟨true, false⟩, ⟨true, true⟩), (⟨true, true⟩, ⟨false, true⟩),
   (⟨false, true⟩, ⟨false, false⟩)]

/-- R171: no command is in flight. -/
def Unoccupied (s : State) : Prop := ∀ w, s.ctl.phase ≠ .busy w

/-- R181: what the attention interrupt puts out: one message with the link UP, none with it DOWN. -/
def messageOf (link : LinkState) : List Output :=
  match link with
  | .up => [.interrupt]
  | .down => []

/-- R171: the command status of a command that has ended. -/
def Control.ended (c : Control) (phase : CmdPhase) (result : ResultCode) (detail : Byte) : Control :=
  { c with phase := phase, result := result, detail := detail }

/-- R151, R179: the output queue after a local event has been raised. -/
def queueAfterEvent (code : EventCode) (line : Nat) (data : Word) (s : State) : List Rec :=
  let r : Rec := .event { code := code, origin := s.ctl.station, peer := false, line := eventLine line,
                          data := data }
  if s.ctl.cfg.report.getLsbD code.code = true ∧ r.size + fill s ≤ capacity then s.port.queue ++ [r]
  else s.port.queue

/-- The command that the end of a received frame is. -/
def HeardFrame.command : HeardFrame → Instr
  | .halt n => .haltFrame n
  | .run n => .runFrame n
  | .alert n k line => .alertFrame n k line
  | .summary n b p l r => .summaryFrame n b p l r
  | .span n c0 w fp => .spanFrame n c0 w fp

/-- R107, R109: a frame's fields as they come off the line. -/
def HeardFrame.raw (h : HeardFrame) : RawFrame :=
  { arbitration := byte h.frame.arb
    length := byte h.frame.body.length
    body := h.frame.body
    crc := crc16 h.frame.fields }

/-- R108, R110, R113: a well-formed frame of another station, followed to its end. -/
def FromPeer (h : HeardFrame) (s : State) : Prop :=
  follows s = true ∧ h.wellFormed = true ∧ h.sender ≠ s.ctl.station ∧ s.bus.onLine ≠ some h.frame

/-- R113: the end of the frame the station has itself sent whole. -/
def OwnEcho (h : HeardFrame) (s : State) : Prop :=
  follows s = true ∧ h.wellFormed = true ∧ s.bus.onLine = some h.frame

/-- R106, R108: the state once the end of a frame has been taken: the idle count is 0, no frame is in reception or on
the line, and every frame queued waits again. -/
def frameEnded (s : State) : State :=
  { s with
    bus := { s.bus with
      idle := 0
      reception := none
      onLine := none
      queue := s.bus.queue.map fun u => { u with sending := false } } }

/-- R112: the state once the end of the station's own echo has been taken: besides, the frame that was being sent has
left the transmit queue. -/
def echoEnded (s : State) : State :=
  { s with
    bus := { s.bus with
      idle := 0
      reception := none
      onLine := none
      queue := s.bus.queue.filter fun u => u.sending = false } }

/-- R112, R117: a frame that is acted on as a peer's or as the station's own echo, `base` being the state
once the frame's end has been taken and, for an echo, the frame has left the transmit queue. -/
def Taken (h : HeardFrame) (s base : State) : Prop :=
  (FromPeer h s ∧ base = frameEnded s) ∨ (OwnEcho h s ∧ base = echoEnded s)

/-- R155, R179: EVENT_RECORDS_DROPPED after a local event of a code has been raised: one more when its REPORT bit is
set and the 16 bytes of its record do not fit. -/
def droppedAfterEvent (code : EventCode) (s : State) : Word :=
  if s.ctl.cfg.report.getLsbD code.code = true ∧ 2097152 < 16 + fill s then
    satInc s.counters.eventRecordsDropped
  else s.counters.eventRecordsDropped

/-- R160: an open grant that is to be retired by space when a queue stands before it: fewer than 16 bytes are left in
it, or too few for the head record. -/
def DueBySpace (g : OpenGrant) (q : List Rec) : Prop :=
  g.grant.length.toNat < g.used + 16 ∨
    ∃ r rest, q = r :: rest ∧ g.grant.length.toNat < g.used + r.size

/-- R163, R164, R181: what the retirement of a grant puts out: its completion entry in its slot of the ring, and then a
message when completion interrupts are enabled and the link is UP. -/
def retirementPuts (g : OpenGrant) (flag : RetireFlag) (s : State) : List Output :=
  .hostWrite (s.ctl.cfg.ring + 32 * ((s.port.nextSeq - 1).toNat % 256))
      (completionBytes s.port.nextSeq g flag) ::
    if completionInterrupts s = true then messageOf s.port.link else []

/-- R160, R163: records have been offered to the queue, from `s` to `t`.  When one was taken and the open grant is then
due by space, the grant has been retired with BY_SPACE, and its completion entry put out; otherwise the grant, next
sequence and what has been put out are as they were. -/
def SpaceTested (s t : State) : Prop :=
  (∀ g, s.port.grant = some g → t.port.queue ≠ s.port.queue → DueBySpace g t.port.queue →
    t.port.grant = none ∧ t.port.nextSeq = s.port.nextSeq + 1 ∧
    t.outputs = s.outputs ++ retirementPuts g .bySpace s) ∧
  ((∀ g, s.port.grant = some g → t.port.queue = s.port.queue ∨ ¬ DueBySpace g t.port.queue) →
    t.port.grant = s.port.grant ∧ t.port.nextSeq = s.port.nextSeq ∧ t.outputs = s.outputs)

/-- R151, R155, R160, R179: a local event has been raised, as far as the output queue goes, from `s` to `t`: its EVENT
record is taken when its REPORT bit is set and it fits, and counted in EVENT_RECORDS_DROPPED when it does not; a
record that comes to the head may retire the open grant by space. -/
def EventRaised (code : EventCode) (line : Nat) (data : Word) (s t : State) : Prop :=
  t.port = { s.port with
    queue := queueAfterEvent code line data s, grant := t.port.grant, nextSeq := t.port.nextSeq } ∧
  t.counters.eventRecordsDropped = droppedAfterEvent code s ∧ SpaceTested s t

/-- R155, R179: a local event has been raised, from `s` to `t`, when a condition holds, and nothing offered to the queue
otherwise. -/
def EventRaisedIf (p : Prop) (code : EventCode) (line : Nat) (data : Word) (s t : State) : Prop :=
  (p → EventRaised code line data s t) ∧
  (¬ p → t.port = s.port ∧ t.counters.eventRecordsDropped = s.counters.eventRecordsDropped ∧
    t.outputs = s.outputs)

/-- R177: the 32 words of the snapshot, in the order of its table. -/
def snapshotTable (c : Counters) : List Word :=
  [c.linesTriggered, c.stampOverflows, c.encoderGlitches, c.reverseSteps,
   c.linesArrived, c.linesMissed, c.linesDamaged, c.linesUnsolicited, c.linesBlanked, c.spliceWindowsLate,
   c.spliceWindowsForced,
   c.marksAccepted, c.marksRejected, c.marksDiscarded, c.stretch, c.shrink,
   c.summariesLate, c.summariesEarlyLost,
   c.busArbitrationLosses, c.busBitErrors, c.busFramesDropped, c.busFramesBad, c.busQueueDiscards,
   c.contextSuppressed, c.sampleSuppressed,
   c.tileCoreDropped, c.tileContextDropped, c.tileSampleDropped, c.bandRecordsDropped, c.eventRecordsDropped,
   c.commandsLost, c.commandsFailed]

/-- The 256 bytes of a configuration block as CONFIGURE_READ_DONE takes them, byte i in bits 8i + 7 to 8i. -/
def blockOf : List Byte → BitVec 2048
  | [] => 0
  | b :: bs => (blockOf bs <<< 8) ||| b.setWidth 2048

/-- R123: a heard station that overlaps this station's span on the left by 1 to 8 tiles. -/
def OverlapsLeft (cfg : StationConfig) (h : Heard) : Prop :=
  h.c0 < cfg.c0 ∧ cfg.c0 < h.c0 + h.w ∧ h.c0 + h.w < cfg.c0 + cfg.w ∧
    1 ≤ (h.c0 + h.w - cfg.c0) / 32 ∧ (h.c0 + h.w - cfg.c0) / 32 ≤ 8

/-- R123: a heard station that overlaps this station's span on the right by 1 to 8 tiles. -/
def OverlapsRight (cfg : StationConfig) (h : Heard) : Prop :=
  cfg.c0 < h.c0 ∧ h.c0 < cfg.c0 + cfg.w ∧ cfg.c0 + cfg.w < h.c0 + h.w ∧
    1 ≤ (cfg.c0 + cfg.w - h.c0) / 32 ∧ (cfg.c0 + cfg.w - h.c0) / 32 ≤ 8

/-- A station as its neighbour's table holds it (R123). -/
def asNeighbour (station : StationNo) (cfg : StationConfig) (overlap : Nat) : Neighbour :=
  { number := station, c0 := cfg.c0, w := cfg.w, overlap := overlap }

/-- R37: a start line that is discarded when it is offered to the mark queue: stale, on a blanked line, a
duplicate of a queued mark or of the last taken start, or one mark too many. -/
def Discarded (start : Nat) (s : State) : Prop :=
  start < s.tracker.line ∨ blankedAt start s.intake.windows = true ∨
  (∃ m ∈ s.tracker.marks, natDist start m.start < s.ctl.cfg.l / 4) ∨
  (∃ l, s.tracker.lastTaken = some l ∧ natDist start l < s.ctl.cfg.l / 4) ∨
  4 ≤ s.tracker.marks.length

/-- R33: the integer `n` that a mode chooses from the exact quotient a / b, b above 0, in the words of the
table: the nearest integer with its rule for a half, the integer part, the greatest integer not above, the
least not below. -/
def RoundsTo (mode : Rounding) (a : Int) (b : Nat) (n : Int) : Prop :=
  match mode with
  | .nearestEven =>
    2 * (a - n * b).natAbs < b ∨ (2 * (a - n * b).natAbs = b ∧ n % 2 = 0)
  | .truncate => (0 ≤ a ∧ 0 ≤ a - n * b ∧ a - n * b < b) ∨ (a ≤ 0 ∧ a - n * b ≤ 0 ∧ n * b - a < b)
  | .floor => n * b ≤ a ∧ a < (n + 1) * b
  | .ceiling => (n - 1) * b < a ∧ a ≤ n * b
  | .nearestAway =>
    2 * (a - n * b).natAbs < b ∨ (2 * (a - n * b).natAbs = b ∧ a.natAbs < (n * b).natAbs)

/-- R83: a value lies in the area of a measure's setting: OUTSIDE, at or above O or at or below U; INSIDE,
strictly between U and O. -/
def InArea (t : Threshold) (v : Int) : Prop :=
  if t.setting.getLsbD 1 = true then t.underAt < v ∧ v < t.overAt else t.overAt ≤ v ∨ v ≤ t.underAt

/-- R117: the operating states in which a peer's frame of each kind has no effect. -/
def ignoresPeer (h : HeardFrame) (op : OpState) : Prop :=
  match h with
  | .halt _ => op = .unconfigured ∨ op = .idle ∨ op = .stopping
  | .run _ => op = .unconfigured ∨ op = .idle ∨ op = .running ∨ op = .stopping
  | .alert _ _ _ => op = .unconfigured ∨ op = .idle ∨ op = .enrolling ∨ op = .armed
  | .summary _ _ _ _ _ => op = .unconfigured ∨ op = .idle
  | .span _ _ _ _ => op ≠ .enrolling

/-- R117: when the station's own echo has no effect but to leave the queue: an ALERT, SUMMARY or SPAN always,
a HALT or RUN where a peer's has none. -/
def ignoresEcho (h : HeardFrame) (op : OpState) : Prop :=
  match h with
  | .halt _ | .run _ => ignoresPeer h op
  | .alert _ _ _ | .summary _ _ _ _ _ | .span _ _ _ _ => True

/-- R113: a well-formed frame that bears this station's number and is not its echo. -/
def OwnNumber (h : HeardFrame) (s : State) : Prop :=
  follows s = true ∧ h.wellFormed = true ∧ h.sender = s.ctl.station ∧ s.bus.onLine ≠ some h.frame

/-- R121, R125: the state when its station has stood down: IDLE, the transmit queue empty, the enrollment
timer stopped. -/
def stoodDown (s : State) : State :=
  { s with bus := { s.bus with op := .idle, queue := [], timer := none } }

/-- R172: the state once a host command of the given code has ended DONE with OK: the status says so, and one
message goes out when the link is UP. -/
def succeeded (code : Word) (s : State) : State :=
  { s with
    ctl := { s.ctl with code := code, commandLost := false, phase := .done, result := .ok, detail := 0 }
    outputs := s.outputs ++ messageOf s.port.link }

/-- R172: the state once a host command of the given code has ended FAILED: the status says so,
COMMANDS_FAILED counts it, and one message goes out when the link is UP. -/
def failed (code : Word) (result : ResultCode) (detail : Byte) (s : State) : State :=
  { s with
    ctl := { s.ctl with code := code, phase := .failed, result := result, detail := detail }
    counters := { s.counters with commandsFailed := satInc s.counters.commandsFailed }
    outputs := s.outputs ++ messageOf s.port.link }

/-- R171: the host commands with their codes. -/
def hostCommands : List (Instr × Word) :=
  [(.configure, 1), (.start, 2), (.halt, 3), (.learn, 4), (.snapshot, 5), (.clear, 6), (.reset, 7)]

/-- R175, R176: the ten tests of a block in their order, each with the offset of the field it names and whether
the block passes it. -/
def configTests (c0 w l d rounding context sample ring : Nat) : List (Nat × Bool) :=
  [(0, decide (c0 % 32 = 0)),
   (2, decide (512 ≤ w ∧ w ≤ 8192 ∧ w % 32 = 0)),
   (2, decide (c0 + w ≤ 65536)),
   (4, decide (256 ≤ l ∧ l ≤ 32768)),
   (4, decide (l * w ≤ 67108864)),
   (6, decide (1 ≤ d ∧ d ≤ 1024)),
   (8, decide (rounding ≤ 4)),
   (23, decide (context ≤ 2)),
   (24, decide (1 ≤ sample ∧ sample ≤ 3)),
   (32, decide (ring % 4096 = 0))]

/-- R176: `held` is `x` when it lies within a range, and the nearer end of the range otherwise. -/
def HeldTo {α : Type} [LE α] (low high x held : α) : Prop :=
  (low ≤ x ∧ x ≤ high → held = x) ∧ (x ≤ low → held = low) ∧ (high ≤ x → held = high)

/-- R93: the neighbour on a side. -/
def neighbourOn (w : Which) (s : State) : Option Neighbour :=
  match w with
  | .left => s.bus.left
  | .right => s.bus.right

/-- R93: the side whose neighbour a sender is, if it is one. -/
def SideOf (w : Which) (sender : StationNo) (s : State) (n : Neighbour) : Prop :=
  neighbourOn w s = some n ∧ n.number = sender ∧
    (w = .right → ∀ l, s.bus.left = some l → l.number ≠ sender)

/-- R93: the column the facing zone of a side starts at: on the left the neighbour's guard tile, one column
before the span; on the right the first overlap tile, as many columns before the span's end as the overlap has
tiles. -/
def facingStart (w : Which) (s : State) (n : Neighbour) : Nat :=
  match w with
  | .left => s.ctl.cfg.c0 / 32 - 1
  | .right => (s.ctl.cfg.c0 + s.ctl.cfg.w) / 32 - n.overlap

/-- R93: the zone list of a summary that faces a side. -/
def facingCodes (w : Which) (left right : List ZoneCode) : List ZoneCode :=
  match w with
  | .left => right
  | .right => left

/-- R93: a facing zone is well-formed: it has one entry for each overlap tile and one more, and every class
code names a class. -/
def ZoneInForm (n : Neighbour) (codes : List ZoneCode) : Prop :=
  codes.length = n.overlap + 1 ∧ ∀ z ∈ codes, z.cls.toNat ≤ 4

/-- R93: what a stored summary holds of a facing zone in form: each entry's column, class and severity, and
the pressure held to 3. -/
def HoldsZone (z : Summary) (start : Nat) (codes : List ZoneCode) (level : Byte) : Prop :=
  z.pressure = min level.toNat 3 ∧
  z.zone.map (fun e => (e.g, e.cls.code, e.severity)) =
    codes.mapIdx fun i c => (start + i, c.cls.toNat, c.severity.toNat)

/-! ## The transmit queue -/

/-- R115: a HALT or SPAN frame while one of its kind waits in the transmit queue or is being sent. -/
def AlreadyOffered (f : Frame) (b : SpanBus) : Prop :=
  (f.kind = .halt ∨ f.kind = .span) ∧
    ((∃ u ∈ b.queue, u.frame.kind = f.kind) ∨ ∃ g, b.onLine = some g ∧ g.kind = f.kind)

/-- R115: a waiting frame that may give way to another: it is not being sent, and its arbitration value is equal
or higher. -/
def GivesWay (f : Frame) (u : TxFrame) : Prop := u.sending = false ∧ f.arb ≤ u.frame.arb

/-- R112, R114: a frame as it joins the transmit queue. -/
def Fresh (f : Frame) (b : SpanBus) (u : TxFrame) : Prop :=
  u.frame = f ∧ u.errors = 0 ∧ u.sending = false ∧ u.age = b.nextAge

/-- R114, R115: a frame has been offered to the transmit queue, `discards` being BUS_QUEUE_DISCARDS.  A second
HALT or SPAN is not queued and not counted; a queue of fewer than 8 takes the frame; a queue of 8 loses the oldest
frame that may give way, or else the new frame, and counts it; and a queue in the order of R114 stays so. -/
def Offered (f : Frame) (b b' : SpanBus) (discards discards' : Word) : Prop :=
  b' = { b with queue := b'.queue, nextAge := b'.nextAge } ∧
  (AlreadyOffered f b → b'.queue = b.queue ∧ discards' = discards) ∧
  (¬ AlreadyOffered f b → b.queue.length < 8 →
    (∃ u, Fresh f b u ∧ b'.queue.Perm (u :: b.queue)) ∧ discards' = discards) ∧
  (¬ AlreadyOffered f b → 8 ≤ b.queue.length →
    discards' = satInc discards ∧
    ((∀ u ∈ b.queue, ¬ GivesWay f u) → b'.queue = b.queue) ∧
    ((∃ u ∈ b.queue, GivesWay f u) → ∃ old ∈ b.queue, GivesWay f old ∧
      (∀ u ∈ b.queue, GivesWay f u → old.age ≤ u.age) ∧
      ∃ u, Fresh f b u ∧ b'.queue.Perm (u :: b.queue.erase old))) ∧
  (b.queue.Pairwise TxFrame.before → (∀ u ∈ b.queue, u.age < b.nextAge) →
    b'.queue.Pairwise TxFrame.before)

/-- R128, R179: a local SPLICE or MARK event is shared: its SHARE bit is set, in RUNNING with the bus enabled. -/
def Shares (code : EventCode) (s : State) : Prop :=
  s.ctl.cfg.share.getLsbD code.code = true ∧ s.bus.op = .running ∧ busEnabled s = true

/-- R128, R179: what a local SPLICE or MARK puts on the Span Bus: its ALERT frame when shared, and nothing
otherwise. -/
def SharedAlert (code : EventCode) (k : AlertKind) (start : Nat) (s t : State) : Prop :=
  (Shares code s →
    Offered (HeardFrame.alert s.ctl.station k (BitVec.ofNat 32 start)).frame s.bus t.bus
      s.counters.busQueueDiscards t.counters.busQueueDiscards) ∧
  (¬ Shares code s → t.bus = s.bus ∧ t.counters.busQueueDiscards = s.counters.busQueueDiscards)

/-! ## The test of form (R110) -/

/-- R107, R110: the bytes of a body as numbers, a missing one being 0. -/
def bodyAt (raw : RawFrame) (i : Nat) : Nat := (raw.body.getD i 0).toNat

/-- R110: a received frame whose CRC agrees passes the test of form: its kind is 1 to 5; its body has the Length
its field says, which is the one its kind requires, a SUMMARY's from the counts it carries; an ALERT is of kind 1
or 2; a SPAN's C0 and W are multiples of 32, W within 512 to 8,192. -/
def InForm (raw : RawFrame) : Prop :=
  raw.body.length = raw.length.toNat ∧
  match raw.arbitration.toNat / 16 with
  | 1 | 2 => raw.length.toNat = 0
  | 3 => raw.length.toNat = 5 ∧ (bodyAt raw 0 = 1 ∨ bodyAt raw 0 = 2)
  | 4 => 5 ≤ raw.length.toNat ∧ raw.length.toNat = 5 + 2 * (bodyAt raw 3 + bodyAt raw 4)
  | 5 => raw.length.toNat = 6 ∧ (256 * bodyAt raw 0 + bodyAt raw 1) % 32 = 0 ∧
      (256 * bodyAt raw 2 + bodyAt raw 3) % 32 = 0 ∧ 512 ≤ 256 * bodyAt raw 2 + bodyAt raw 3 ∧
      256 * bodyAt raw 2 + bodyAt raw 3 ≤ 8192
  | _ => False

/-! ## Events -/

/-- R151, R179: the output queue after local events without a line number of their own have been raised in turn,
each with its code and data. -/
def queueAfterEvents : List (EventCode × Word) → State → List Rec
  | [], s => s.port.queue
  | e :: es, s =>
    queueAfterEvents es
      { s with port := { s.port with queue := queueAfterEvent e.1 s.intake.nextLine e.2 s } }

/-! ## The blanking window list -/

/-- R28: a window and a stretch of lines overlap or adjoin. -/
def Reaches (start stop : Nat) (w : Window) : Prop := w.start ≤ stop + 1 ∧ start ≤ w.stop + 1

/-- R28: the stretch from `start` to `stop` has been entered in a window list: the list is in form, its lines are
those it had and those of the stretch, and a window has started when one it took in had. -/
def Entered (start stop : Nat) (ws ws' : List Window) : Prop :=
  WindowsCanonical ws' ∧
  (∀ m, blankedAt m ws' = true ↔ blankedAt m ws = true ∨ (start ≤ m ∧ m ≤ stop)) ∧
  (∀ v ∈ ws', v.started = true ↔
    ∃ w ∈ ws, w.started = true ∧ v.start ≤ w.start ∧ w.stop ≤ v.stop)

/-- R27 to R29: a window has been requested from `first` to `last` when next line is `next`; `late` and `forced`
are SPLICE_WINDOWS_LATE and SPLICE_WINDOWS_FORCED.  A request that ends below next line is late; one clipped to
start beyond the last line of a run is discarded without count; any other is entered, and one that finds 4 windows
and reaches none is entered together with the last of them and the lines between, and counted. -/
def Requested (first last next : Nat) (ws ws' : List Window) (late late' forced forced' : Word) : Prop :=
  ∀ start stop, start = max first next → stop = min last 4294967295 →
    (last < next → ws' = ws ∧ late' = satInc late ∧ forced' = forced) ∧
    (next ≤ last → late' = late) ∧
    (next ≤ last → 4294967295 < start → ws' = ws ∧ forced' = forced) ∧
    (next ≤ last → start ≤ 4294967295 → (∃ w ∈ ws, Reaches start stop w) ∨ ws.length < 4 →
      Entered start stop ws ws' ∧ forced' = forced) ∧
    (next ≤ last → start ≤ 4294967295 → (∀ w ∈ ws, ¬ Reaches start stop w) → ws.length = 4 →
      ∃ z, ws.getLast? = some z ∧ Entered (min z.start start) (max z.stop stop) ws ws' ∧
        forced' = satInc forced)

/-! ## The neighbour table -/

/-- R123: a candidate that raises SPAN_CONFLICT: its span and the station's are not disjoint, and one contains the
other or the overlap is of more than 8 tiles. -/
def InConflict (cfg : StationConfig) (h : Heard) : Prop :=
  cfg.c0 < h.c0 + h.w ∧ h.c0 < cfg.c0 + cfg.w ∧
    ((h.c0 ≤ cfg.c0 ∧ cfg.c0 + cfg.w ≤ h.c0 + h.w) ∨ (cfg.c0 ≤ h.c0 ∧ h.c0 + h.w ≤ cfg.c0 + cfg.w) ∨
      (h.c0 < cfg.c0 ∧ h.c0 + h.w < cfg.c0 + cfg.w ∧ 8 < (h.c0 + h.w - cfg.c0) / 32) ∨
      (cfg.c0 < h.c0 ∧ cfg.c0 + cfg.w < h.c0 + h.w ∧ 8 < (cfg.c0 + cfg.w - h.c0) / 32))

/-- R122, R123: the neighbours chosen from a heard-station list.  The left neighbour is, of the heard stations with
this station's fingerprint that overlap its span on the left by 1 to 8 tiles, the one of the greatest C0, then of
the greatest overlap, then of the lowest number, and there is none when there is no such station; the right
neighbour is the one of the least C0, then likewise. -/
def NeighboursChosen (cfg : StationConfig) (heard : List Heard) (left right : Option Neighbour) : Prop :=
  (left = none ↔
    ∀ h ∈ heard, h.fingerprint = fingerprint cfg.d cfg.l → ¬ OverlapsLeft cfg h) ∧
  (right = none ↔
    ∀ h ∈ heard, h.fingerprint = fingerprint cfg.d cfg.l → ¬ OverlapsRight cfg h) ∧
  (∀ x, left = some x →
    ∃ h ∈ heard, h.fingerprint = fingerprint cfg.d cfg.l ∧ OverlapsLeft cfg h ∧
      x = { number := h.number, c0 := h.c0, w := h.w, overlap := (h.c0 + h.w - cfg.c0) / 32 } ∧
      ∀ y ∈ heard, y.fingerprint = fingerprint cfg.d cfg.l → OverlapsLeft cfg y →
        y.c0 < h.c0 ∨ (y.c0 = h.c0 ∧
          ((y.c0 + y.w - cfg.c0) / 32 < x.overlap ∨
            ((y.c0 + y.w - cfg.c0) / 32 = x.overlap ∧ h.number.toNat ≤ y.number.toNat)))) ∧
  (∀ x, right = some x →
    ∃ h ∈ heard, h.fingerprint = fingerprint cfg.d cfg.l ∧ OverlapsRight cfg h ∧
      x = { number := h.number, c0 := h.c0, w := h.w, overlap := (cfg.c0 + cfg.w - h.c0) / 32 } ∧
      ∀ y ∈ heard, y.fingerprint = fingerprint cfg.d cfg.l → OverlapsRight cfg y →
        h.c0 < y.c0 ∨ (y.c0 = h.c0 ∧
          ((cfg.c0 + cfg.w - y.c0) / 32 < x.overlap ∨
            ((cfg.c0 + cfg.w - y.c0) / 32 = x.overlap ∧ h.number.toNat ≤ y.number.toNat))))

/-- R122, R123: the records queued once the neighbour table has been built: FINGERPRINT_MISMATCH for every heard
station of another fingerprint, in increasing number, and then SPAN_CONFLICT for every conflicting candidate, in
increasing number. -/
def NeighbourEvents (s : State) (q : List Rec) : Prop :=
  ∃ mismatched conflicting : List Heard,
    (mismatched.Pairwise fun a b => a.number.toNat < b.number.toNat) ∧
    (conflicting.Pairwise fun a b => a.number.toNat < b.number.toNat) ∧
    (∀ h, h ∈ mismatched ↔
      h ∈ s.bus.heard ∧ h.fingerprint ≠ fingerprint s.ctl.cfg.d s.ctl.cfg.l) ∧
    (∀ h, h ∈ conflicting ↔
      h ∈ s.bus.heard ∧ h.fingerprint = fingerprint s.ctl.cfg.d s.ctl.cfg.l ∧ InConflict s.ctl.cfg h) ∧
    q = queueAfterEvents
      (mismatched.map (fun h => (.fingerprintMismatch,
          BitVec.ofNat 32 (h.number.toNat + 65536 * h.fingerprint.toNat))) ++
        conflicting.map fun h => (.spanConflict, BitVec.ofNat 32 h.number.toNat)) s

/-! ## The offers of a close -/

/-- R151, R153: of TILE records offered in turn to a queue with `free` bytes free, each is taken when it fits in
what is then free, and dropped otherwise. -/
def TakenInTurn : Nat → List TileRec → List TileRec → List TileRec → Prop
  | _, [], taken, dropped => taken = [] ∧ dropped = []
  | free, r :: rs, taken, dropped =>
    (32 + r.payload.length ≤ free → ∃ more, taken = r :: more ∧
      TakenInTurn (free - (32 + r.payload.length)) rs more dropped) ∧
    (free < 32 + r.payload.length → ∃ more, dropped = r :: more ∧ TakenInTurn free rs taken more)

/-- The records among what a close does, in their order. -/
def offersOf (acts : List TileAction) : List TileRec :=
  acts.filterMap fun a =>
    match a with
    | .offer r => some r
    | _ => none

/-- R143: how many records of a reason are suppressed. -/
def suppressedFor (why : Reason) (acts : List TileAction) : Nat :=
  (acts.filter fun a => decide (a = .suppress why)).length

/-- R153: how many records of a reason are among those dropped. -/
def droppedFor (why : Reason) (dropped : List TileRec) : Nat :=
  (dropped.filter fun r => decide (r.reason = why)).length

/-- R153: a drop count grown by `n`, saturating at 65,535. -/
def satAdd16 (h : Half) (n : Nat) : Half := BitVec.ofNat 16 (min (h.toNat + n) 65535)

/-- R143, R148, R151, R153, R160: what a close does about some tile slots has been done in turn, from `s` to `t`:
each suppressed record is counted by its reason, each record offered is taken when it fits and otherwise dropped and
counted; a record that comes to the head may retire the open grant by space. -/
def ActionsDone (acts : List TileAction) (taken dropped : List TileRec) (s t : State) : Prop :=
  TakenInTurn (2097152 - fill s) (offersOf acts) taken dropped ∧
  t = { s with
    port := { s.port with
      queue := s.port.queue ++ taken.map Rec.tile
      coreDrops := satAdd16 s.port.coreDrops (droppedFor .core dropped)
      contextDrops := satAdd16 s.port.contextDrops (droppedFor .context dropped)
      sampleDrops := satAdd16 s.port.sampleDrops (droppedFor .sample dropped)
      grant := t.port.grant
      nextSeq := t.port.nextSeq }
    counters := { s.counters with
      tileCoreDropped := satAdd s.counters.tileCoreDropped (droppedFor .core dropped)
      tileContextDropped := satAdd s.counters.tileContextDropped (droppedFor .context dropped)
      tileSampleDropped := satAdd s.counters.tileSampleDropped (droppedFor .sample dropped)
      contextSuppressed := satAdd s.counters.contextSuppressed (suppressedFor .context acts)
      sampleSuppressed := satAdd s.counters.sampleSuppressed (suppressedFor .sample acts) }
    outputs := t.outputs } ∧
  SpaceTested s t

/-- R151, R154, R160: the BAND record `b` has been offered, from `s` to `t`: taken when its 32 bytes fit, with the
drop counts and the bands unreported, which it sets to 0, and otherwise counted. -/
def BandOffered (b : BandRec) (s t : State) : Prop :=
  (queueSize s.port.queue + 32 ≤ 2097152 →
    t = { s with
      port := { s.port with
        queue := s.port.queue ++ [.band { b with
          coreDrops := s.port.coreDrops, contextDrops := s.port.contextDrops,
          sampleDrops := s.port.sampleDrops, unreported := s.port.unreported }]
        coreDrops := 0, contextDrops := 0, sampleDrops := 0, unreported := 0
        grant := t.port.grant
        nextSeq := t.port.nextSeq }
      outputs := t.outputs }) ∧
  (2097152 < queueSize s.port.queue + 32 →
    t = { s with
      port := { s.port with unreported := satInc16 s.port.unreported }
      counters := { s.counters with bandRecordsDropped := satInc s.counters.bandRecordsDropped } }) ∧
  SpaceTested s t

/-- R148, R149, R151: every offer of a sequence has been made, from `s` to `t`. -/
def OffersMade (o : Offering) (s t : State) : Prop :=
  ∃ (taken dropped : List TileRec) (u : State), ActionsDone o.actions taken dropped s u ∧
    BandOffered { o.band with queued := o.taken + taken.length } u t

/-- R148, R151: `n` of the tile slots of a sequence have been dealt with, from `s` to `t`, and the rest of it, with the
BAND record, has still to come. -/
def OffersBegun (n : Nat) (o : Offering) (s t : State) : Prop :=
  ∃ (taken dropped : List TileRec) (u : State), ActionsDone (o.actions.take n) taken dropped s u ∧
    t = { u with
      port := { u.port with
        offering := some { o with actions := o.actions.drop n, taken := o.taken + taken.length } } }

/-! ## Scoring and the summary of a band -/

/-- R152: the pressure level of a fill, by the table of its boundaries. -/
def LevelOf (f level : Nat) : Prop :=
  (f < 524288 ∧ level = 0) ∨ (524288 ≤ f ∧ f < 1048576 ∧ level = 1) ∨
    (1048576 ≤ f ∧ f < 1572864 ∧ level = 2) ∨ (1572864 ≤ f ∧ level = 3)

/-- R92: the zone list a station sends of some slots: class code and severity of each as scored. -/
def ZoneSent (slots : List Slot) (zone : List ZoneCode) : Prop :=
  zone.length = slots.length ∧
  ∀ (i : Nat) (slot : Slot) (res : TileResult), slots[i]? = some slot → slot.result = some res →
    zone[i]? = some { cls := BitVec.ofNat 8 res.cls.code, severity := BitVec.ofNat 8 res.severity }

/-- R91, R92, R127: the summary of the scored entry `e` has been handed on, from `s` to `t`: its low 16 bits of the
band, the announced pressure, and for each neighbour the overlap tiles with the guard tile beyond them. -/
def SummaryHandedOn (e : Entry) (level : Nat) (s t : State) : Prop :=
  ∃ left right : List ZoneCode,
    (s.bus.left = none → left = []) ∧ (s.bus.right = none → right = []) ∧
    (∀ n, s.bus.left = some n → ZoneSent (e.slots.take (n.overlap + 1)) left) ∧
    (∀ n, s.bus.right = some n →
      ZoneSent (e.slots.drop (e.slots.length - (n.overlap + 1))) right) ∧
    Offered (HeardFrame.summary s.ctl.station (BitVec.ofNat 16 e.band) (BitVec.ofNat 8 level)
      left right).frame s.bus t.bus s.counters.busQueueDiscards t.counters.busQueueDiscards

/-! ## The closing test -/

/-- R98 (a) for one side: there is no neighbour, or both statuses are RECEIVED. -/
def BothReceived (n : Option Neighbour) (a b : Side) : Prop :=
  n = none ∨ ((∃ z, a = .received z) ∧ ∃ z, b = .received z)

/-- R98: an entry closes: it is SCORED, no entry of the band below is open, and (a), (b) or (c) holds. -/
def MayClose (s : State) (e : Entry) : Prop :=
  e.state = .scored ∧ (∀ x ∈ s.table.entries, x.band + 1 ≠ e.band) ∧
  ((∃ x, findEntry (e.band + 1) s = some x ∧ x.state = .scored ∧
      BothReceived s.bus.left e.left x.left ∧ BothReceived s.bus.right e.right x.right) ∨
    (∃ x ∈ s.table.entries, x.state = .scored ∧ e.band + s.ctl.cfg.hs ≤ x.band) ∨
    s.bus.op = .stopping)

/-- R98, R151: a closing test from `s` to `t`: the entries listed close one after another, each by the close of
statement BandCloses and at a moment when it may, until none may, or until other commands fall into a close: the
closes after it wait for it. -/
def ClosesInTurn : State → List Entry → State → Prop
  | s, [], t => t = s ∧ (s.port.offering ≠ none ∨ ∀ e ∈ s.table.entries, ¬ MayClose s e)
  | s, e :: es, t =>
    s.port.offering = none ∧ e ∈ s.table.entries ∧ MayClose s e ∧ ClosesInTurn (closeEntry e s) es t

/-- R131, R151: a close that other commands fell into has made what it had still to offer, and the closes that waited
for it are made, from `s` to `t`, with no other command among them. -/
def ClosesEnded (s t : State) : Prop :=
  (s.port.offering = none → t = s) ∧
  ∀ o, s.port.offering = some o → ∃ (u v : State) (closed : List Entry),
    OffersMade o { s with port := { s.port with offering := none }, overlap := [] } u ∧
    ClosesInTurn u closed v ∧ (closed.Pairwise fun a b => a.band < b.band) ∧ v.port.offering = none ∧
    t = { v with overlap := s.overlap }

/-! ## The scoring of a band -/

/-- R74, R75, R91, R92, R98: a band has been scored, from `s` to `t`; `f` is its entry before and `g` after.  Every
slot gets the results of statement TileScores from its accumulators, which it keeps, against the one reference state
of that moment; the pressure level of that moment is the announced pressure; the entry is SCORED and otherwise as it
was.  With a neighbour and in RUNNING the summary is handed on and the summary-sent flag set, and otherwise neither.
The closing test follows: entries close in turn, in increasing order.  The closes before it that other commands fell
into, or that waited for one, are made first, in `a` (R131). -/
def BandScored (f g : Entry) (s t : State) : Prop :=
  ∃ (level : Nat) (a v : State) (closed : List Entry),
    ClosesEnded s a ∧ LevelOf (fill a) level ∧
    g = { f with
      slots := f.slots.map fun x =>
        { x with result := some (scoreSlot s.ctl.cfg (decide (s.ref.state = .ready)) x) }
      announced := some level
      state := .scored
      summarySent := decide (s.bus.op = .running ∧ (s.bus.left ≠ none ∨ s.bus.right ≠ none)) } ∧
    v = { a with
      table := { a.table with
        entries := a.table.entries.map fun x => if x.band = f.band then g else x }
      bus := v.bus
      counters := { a.counters with busQueueDiscards := v.counters.busQueueDiscards } } ∧
    (g.summarySent = true → SummaryHandedOn g level a v) ∧
    (g.summarySent = false → v.bus = a.bus ∧ v.counters = a.counters) ∧
    ClosesInTurn v closed t ∧ closed.Pairwise fun a b => a.band < b.band

/-! ## A line event through the station -/

/-- R20, R21, R30: a line event of a line, with the flags its blanking windows give it, has gone through the tracker
in the state that intake hands on, and left `record`, its events behind the records queued. -/
def LineTracked (line : Nat) (position : Word) (arrived : Bool) (s t : State) (record : LineRecord) : Prop :=
  ∃ (ev : LineEvent) (u : State),
    ev.line = line ∧ ev.position = position ∧ ev.arrived = arrived ∧
    ev.blanked = blankedAt line s.intake.windows ∧
    (ev.windowStart = true ↔ ∃ w ∈ s.intake.windows, w.started = false ∧ w.start ≤ line ∧ line ≤ w.stop) ∧
    u.tracker = s.tracker ∧ u.ctl = s.ctl ∧ u.port = s.port ∧ u.bus = s.bus ∧
    record = (trackLine ev u).2 ∧ t.tracker = (trackLine ev u).1.tracker ∧
    t.port = (trackLine ev u).1.port ∧
    ∃ events, (∀ r ∈ events, ∃ x, r = .event x) ∧ t.port.queue = s.port.queue ++ events

/-- R23, R71, R90: the entry that the line event for row 0 of a band creates, before the event writes its row:
FILLING, its rows ABSENT over the pixel store of the FREE entry it takes, its slots empty, nothing announced or sent,
and each side NONE, or the status of the summary that waits for the band in the side's early-summary list. -/
def EntryCreated (band : Nat) (s : State) (e : Entry) : Prop :=
  e.band = band ∧ e.state = .filling ∧ e.announced = none ∧ e.summarySent = false ∧
  e.rows = (List.range 32).map (fun k =>
    { state := .absent, registered := false, pixels := (s.table.free.headD []).getD k [] }) ∧
  e.slots = List.replicate (s.ctl.cfg.w / 32)
    { inspectable := 0, pixelSum := 0, glare := 0, compared := 0, sumAbs := 0, sumSigned := 0, peak := 0,
      result := none } ∧
  ∀ w, e.side w =
    match (s.table.early w).find? fun y => decide (y.band = band) with
    | none => .none
    | some y =>
      match y.summary with
      | none => .mismatched
      | some z => .received z

/-- R19, R22, R24, R50, R146: an entry `e` has had the row of a line written, and is `f`; `px` are the pixels of an
arrival.  The row has the row state of the event, the registered flag of the line record and, for an arrival, W
pixels, cut or padded with 0, over its store; row 0 keeps the reference index, repeat number and mode of its record.
Of the slots nothing is said. -/
def RowWritten (line : Nat) (px : Option (List Byte)) (s : State) (record : LineRecord) (e f : Entry) : Prop :=
  f = { e with
    rows := f.rows
    row0 := if line % 32 = 0 then
        { refLine := record.index, repeatNo := record.repeatNo, mode := record.mode }
      else e.row0
    slots := f.slots } ∧
  f.rows.length = e.rows.length ∧ (∀ j, j ≠ line % 32 → f.rows[j]? = e.rows[j]?) ∧
  ∀ old, e.rows[line % 32]? = some old → f.rows[line % 32]? = some
    { state :=
        match px with
        | none => .absent
        | some p =>
          if min p.length 65535 ≠ s.ctl.cfg.w then .damaged
          else if blankedAt line s.intake.windows = true then .blanked else .present
      registered := record.index.isSome
      pixels :=
        match px with
        | none => old.pixels
        | some p =>
          p.take s.ctl.cfg.w ++ List.replicate (s.ctl.cfg.w - p.length) 0 ++ old.pixels.drop s.ctl.cfg.w }

/-- R59 to R62, R67, R72, R73: the controller and the scorer have taken a record, from `s` to `t`; the entry of its
band has the slots `slots` before and is `f` after.  The reference, the DRAM and the slots are what takeRecord, of
statements LearningContribution and TileAccumulators, leaves of them. -/
def RecordTaken (record : LineRecord) (slots : List Slot) (f : Entry) (s t : State) : Prop :=
  ∃ v : State, v.ref = s.ref ∧ v.dram = s.dram ∧ v.ctl = s.ctl ∧
    findEntry f.band v = some { f with slots := slots } ∧
    findEntry f.band (takeRecord record v) = some f ∧
    t.ref = (takeRecord record v).ref ∧ t.dram = (takeRecord record v).dram

/-- R20 to R24, R50, R67, R72, R90: the line event of a stamp, ARRIVED with the pixels `px` or MISSED, has gone
through intake, tracker, controller and scorer, from `s` to `t`, and its band is still to be scored; `f` is the band's
entry then.  Row 0 creates the entry and takes what waits for its band out of the early-summary lists; any other row
finds it; every other entry stays as it was, as do the carry map, the bus and the configuration.  The windows the
line lies in are marked started and those it ends leave the list (R30), and the line counts as blanked when one holds
it, and as arrived or missed (R21, R31). -/
def LineTaken (st : Stamp) (px : Option (List Byte)) (s t : State) (f : Entry) : Prop :=
  ∃ (e : Entry) (record : LineRecord),
    (st.line % 32 = 0 → EntryCreated (st.line / 32) s e) ∧
    (st.line % 32 ≠ 0 → findEntry (st.line / 32) s = some e) ∧
    LineTracked st.line st.position px.isSome s t record ∧
    RowWritten st.line px s record e f ∧ RecordTaken record e.slots f s t ∧
    f.band = st.line / 32 ∧ findEntry f.band t = some f ∧
    (∀ b, b ≠ f.band → findEntry b t = findEntry b s) ∧
    t.table.entries.map (·.band) =
      s.table.entries.map (·.band) ++ (if st.line % 32 = 0 then [f.band] else []) ∧
    (st.line % 32 ≠ 0 → t.table = { s.table with entries := t.table.entries }) ∧
    (st.line % 32 = 0 → t.table = { s.table with
      entries := t.table.entries
      free := s.table.free.tail
      leftEarly := s.table.leftEarly.filter fun y => y.band ≠ f.band
      rightEarly := s.table.rightEarly.filter fun y => y.band ≠ f.band }) ∧
    t.intake.nextLine = st.line + 1 ∧
    t.intake.windows = (s.intake.windows.map fun w =>
      if w.start ≤ st.line ∧ st.line ≤ w.stop then { w with started := true } else w).filter
        (fun w => st.line < w.stop) ∧
    (px = none → t.intake.buffer = s.intake.buffer ∧ t.intake.count = s.intake.count) ∧
    t.counters.linesBlanked = (if blankedAt st.line s.intake.windows = true then satInc s.counters.linesBlanked
      else s.counters.linesBlanked) ∧
    t.counters.linesMissed = (if px.isSome then s.counters.linesMissed else satInc s.counters.linesMissed) ∧
    t.counters.linesArrived = (if px.isSome then satInc s.counters.linesArrived else s.counters.linesArrived) ∧
    t.bus = s.bus ∧ t.ctl = s.ctl

/-- The same line event with what row 31 then does: its band is scored (R91). -/
def LineThrough (st : Stamp) (px : Option (List Byte)) (s t : State) : Prop :=
  ∃ (u : State) (f : Entry), LineTaken st px s u f ∧
    (st.line % 32 ≠ 31 → t = u) ∧ (st.line % 32 = 31 → ∃ g, BandScored f g u t)

/-! ## The end of the run -/

/-- R14: stamps are retired as missed lines, oldest first, each line event taken in the usual way and with no close
before it under way. -/
def LinesRetired : List Stamp → State → State → Prop
  | [], s, t => t = s
  | st :: sts, s, t => s.port.offering = none ∧ ∃ u, LineThrough st none s u ∧ LinesRetired sts u t

/-- R14, R102: what the entry to STOPPING does to the bands, from `s` with the stamps `stamps` to `t`, or what is left
of it once the close it waited for has made its offers: the SCORED entries close in increasing order; the stamps are
retired; and the entry then still FILLING is scored, and closes.  All of it is done, or as much as comes before a close
that other commands fall into, which the stamps not yet retired, `rest`, wait for. -/
def BandsEnd (stamps : List Stamp) (s t : State) : Prop :=
  ∃ (closed : List Entry) (now rest : List Stamp) (u v : State),
    stamps = now ++ rest ∧
    ClosesInTurn s closed u ∧ (closed.Pairwise fun a b => a.band < b.band) ∧
    LinesRetired now u v ∧
    (∀ o, v.port.offering = some o →
      t = { v with port := { v.port with offering := some { o with retired := rest } } }) ∧
    (v.port.offering = none → rest = [] ∧
      ((∀ f ∈ v.table.entries, f.state ≠ .filling) → t = v) ∧
      ∀ f ∈ v.table.entries, f.state = .filling → ∃ g, g.summarySent = false ∧ BandScored f g v t)

/-- R14, R102, R126, R162: a run has ended, from `s` to `t`; `q`, `g` and `out` are the records queued, the open grant
and what has been put out at the entry to STOPPING.  Every pending stamp is retired as a missed line and every band
closed, as BandsEnd says of the state `a` of the entry and `z` of its end; or, where other commands fall into a close,
as many as come before it, the stamps `rest` waiting.  With a band open, a stamp pending, a record queued or an offer
to come the station is in STOPPING, with records queued or to come.  With none it is in IDLE: then the open grant has
been retired at halt, with its completion entry, and RUN_ENDED raised on an empty queue. -/
def RunEnds (q : List Rec) (g : Option OpenGrant) (out : List Output) (s t : State) : Prop :=
  t.encoder = { s.encoder with stamps := [] } ∧
  (∃ now rest : List Stamp, s.encoder.stamps = now ++ rest ∧
    t.intake.nextLine + rest.length = s.encoder.lineCounter ∧
    t.counters.linesMissed = satAdd s.counters.linesMissed now.length ∧
    (∀ o, t.port.offering = some o → o.retired = rest) ∧
    (t.port.offering = none → rest = [] ∧ t.table.entries = [])) ∧
  (s.overlap = [] → s.port.offering = none → t.port.offering = none) ∧
  t.intake.buffer = s.intake.buffer ∧ t.counters.linesArrived = s.counters.linesArrived ∧
  ((t.bus.op = .stopping ∧ (t.port.queue ≠ [] ∨ t.port.offering ≠ none) ∧ ∃ more, t.port.queue = q ++ more) ∨
    (t.bus.op = .idle ∧ t.bus.queue = [] ∧ t.port.grant = none ∧ t.port.offering = none ∧ q = [] ∧
      t.port.nextSeq = (if g = none then s.port.nextSeq else s.port.nextSeq + 1) ∧
      t.outputs = out ++
        (match g with
          | none => []
          | some x =>
            .hostWrite (s.ctl.cfg.ring + 32 * ((s.port.nextSeq - 1).toNat % 256))
                (completionBytes s.port.nextSeq x .byHalt) ::
              if completionInterrupts s = true then messageOf s.port.link else []) ∧
      t.port.queue = queueAfterEvent .runEnded s.encoder.lineCounter
        (BitVec.ofNat 32 ((s.encoder.lineCounter + 31) / 32))
        { s with port := { s.port with queue := [] } })) ∧
  (t.bus.op = .idle ↔
    q = [] ∧ s.table.entries = [] ∧ s.encoder.stamps = [] ∧ s.port.offering = none) ∧
  (∃ a z : State,
    a.encoder = { s.encoder with stamps := [] } ∧ a.intake = s.intake ∧ a.tracker = s.tracker ∧
    a.ref = s.ref ∧ a.table = s.table ∧ a.dram = s.dram ∧ a.ctl.cfg = s.ctl.cfg ∧
    a.ctl.station = s.ctl.station ∧ a.bus.op = .stopping ∧ a.bus.left = s.bus.left ∧
    a.bus.right = s.bus.right ∧ a.port.queue = q ∧ a.port.grant = g ∧ a.port.offering = s.port.offering ∧
    a.overlap = s.overlap ∧ a.outputs = out ∧
    BandsEnd s.encoder.stamps a z ∧
    t.intake = z.intake ∧ t.tracker = z.tracker ∧ t.ref = z.ref ∧ t.table = z.table ∧ t.dram = z.dram ∧
    (t.bus.op = .stopping → t.port = z.port ∧ t.counters = z.counters ∧ t.outputs = z.outputs)) ∧
  t.bus.left = s.bus.left ∧ t.bus.right = s.bus.right ∧ t.ctl.cfg = s.ctl.cfg ∧
  t.powerCycles = s.powerCycles ∧ t.pending = s.pending

/-! ## The close of a band -/

/-- R100: how a side of a closing band stands. -/
def Stands (n : Neighbour) (side : Side) (sent : Bool) (v : SideView) : Prop :=
  v.neighbour = n ∧ (v.agreed = true ↔ (∃ z, side = .received z) ∧ sent = true) ∧
    ∀ z, v.summary = some z ↔ side = .received z

/-- R133: the side an own tile column is an overlap tile of, if it is one; no tile is one on both sides. -/
def OverlapSideOf (s : State) (e : Entry) (g : Nat) (v : Option SideView) : Prop :=
  (∀ n, s.bus.left = some n → g < s.ctl.cfg.c0 / 32 + n.overlap →
    ∃ x, v = some x ∧ Stands n e.left e.summarySent x) ∧
  (∀ n, s.bus.right = some n → (s.ctl.cfg.c0 + s.ctl.cfg.w) / 32 ≤ g + n.overlap →
    (∀ m, s.bus.left = some m → s.ctl.cfg.c0 / 32 + m.overlap ≤ g) →
    ∃ x, v = some x ∧ Stands n e.right e.summarySent x) ∧
  ((∀ n, s.bus.left = some n → s.ctl.cfg.c0 / 32 + n.overlap ≤ g) →
    (∀ n, s.bus.right = some n → g + n.overlap < (s.ctl.cfg.c0 + s.ctl.cfg.w) / 32) → v = none)

/-- R138: a column that some station classed HIT in a band's entry: in an own slot as scored, or in a RECEIVED
facing zone. -/
def ClassedHit (cfg : StationConfig) (e : Entry) (g : Nat) : Prop :=
  (∃ (i : Nat) (slot : Slot) (res : TileResult), e.slots[i]? = some slot ∧ slot.result = some res ∧
    res.cls = .hit ∧ g = cfg.c0 / 32 + i) ∨
  ∃ side ∈ [e.left, e.right], ∃ z, side = .received z ∧ ∃ x ∈ z.zone, x.cls = .hit ∧ x.g = g

/-- R138: a pair of the hit set at the close of `e`: from the carry map of the band before, from the band itself,
or from the band after it when that is open. -/
def InHitSet (s : State) (e : Entry) (b g : Nat) : Prop :=
  (s.table.carryBand = some b ∧ b + 1 = e.band ∧ g ∈ s.table.carryCols) ∨
  (b = e.band ∧ ClassedHit s.ctl.cfg e g) ∨
  (b = e.band + 1 ∧ ∃ next, findEntry (e.band + 1) s = some next ∧ ClassedHit s.ctl.cfg next g)

/-- R138: a tile column of the closing band has a promotion source: another pair of the hit set, within 1 in band
and in column. -/
def Promoted (s : State) (e : Entry) (g : Nat) : Prop :=
  ∃ b' g', InHitSet s e b' g' ∧ natDist b' e.band ≤ 1 ∧ natDist g' g ≤ 1 ∧ (b', g') ≠ (e.band, g)

/-- R141: the closing band is a sample band. -/
def Sampled (s : State) (e : Entry) : Prop := s.ctl.cfg.ps ≠ 0 ∧ e.band % s.ctl.cfg.ps = 0

/-- R139 to R141: the reason an own tile of the closing band is given, if any. -/
def ReasonIs (s : State) (e : Entry) (g : Nat) (cls : TileClass) (st : Standing) :
    Option Reason → Prop
  | some .core => st.core = true
  | some .context =>
    st.core = false ∧ st.elsewhere = false ∧ cls ≠ .void ∧ st.home = true ∧ Promoted s e g
  | some .sample =>
    st.core = false ∧ st.elsewhere = false ∧ cls ≠ .void ∧ st.home = true ∧ ¬ Promoted s e g ∧
      Sampled s e
  | none =>
    st.core = false ∧ (st.elsewhere = true ∨ cls = .void ∨ st.home = false ∨
      (¬ Promoted s e g ∧ ¬ Sampled s e))

/-- R143: the table of the degrade ladder: the fidelity of a record, or nothing when it is suppressed.  (R142
admits no STAMP as context fidelity; the model leaves one as it is.) -/
def degrade (context sample : Fidelity) : Reason → Nat → Option Fidelity
  | .core, _ => some .full
  | .context, 0 | .context, 1 => some context
  | .context, 2 =>
    some (match context with
      | .full => .half
      | .half => .quarter
      | .quarter => .quarter
      | .stamp => .stamp)
  | .context, _ => none
  | .sample, 0 => some sample
  | .sample, 1 => some .stamp
  | .sample, _ => none

/-- R144: a row has usable pixels. -/
def UsableRow (r : Row) : Prop := r.state = .present ∨ r.state = .blanked

/-- R144: the usable pixels of the block of rows `n * i` to `n * i + n − 1` and tile columns `n * j` to
`n * j + n − 1` of tile slot `t`. -/
def blockPixels (rows : List Row) (t n i j : Nat) : List Byte :=
  (((rows.drop (n * i)).take n).filter fun r => r.state = .present ∨ r.state = .blanked).flatMap
    fun r => (r.pixels.drop (32 * t + n * j)).take n

/-- R144: a payload of the means of blocks of `n` by `n` pixels. -/
def Reduced (mode : Rounding) (n t : Nat) (rows : List Row) (payload : List Byte) : Prop :=
  payload.length = (32 / n) * (32 / n) ∧
  ∀ i j, i < 32 / n → j < 32 / n → ∃ v : Byte, payload[i * (32 / n) + j]? = some v ∧
    (blockPixels rows t n i j = [] → v = 0) ∧
    (blockPixels rows t n i j ≠ [] →
      RoundsTo mode ((blockPixels rows t n i j).map (·.toNat)).sum (blockPixels rows t n i j).length
        v.toNat)

/-- R144: the payload of tile slot `t` at a fidelity. -/
def PayloadIs (mode : Rounding) (f : Fidelity) (t : Nat) (rows : List Row) (payload : List Byte) : Prop :=
  match f with
  | .full => payload = rows.flatMap fun r =>
      if r.state = .present ∨ r.state = .blanked then (r.pixels.drop (32 * t)).take 32
      else List.replicate 32 0
  | .half => Reduced mode 2 t rows payload
  | .quarter => Reduced mode 4 t rows payload
  | .stamp => payload = []

/-- R145: some group of `n` rows has no usable pixels. -/
def EmptyGroup (n : Nat) (rows : List Row) : Prop :=
  ∃ i, i < 32 / n ∧ ∀ k r, n * i ≤ k → k < n * i + n → rows[k]? = some r → ¬ UsableRow r

/-- R145: the PARTIAL flag. -/
def PartialIs (f : Fidelity) (rows : List Row) (flag : Bool) : Prop :=
  match f with
  | .full => flag = true ↔ EmptyGroup 1 rows
  | .half => flag = true ↔ EmptyGroup 2 rows
  | .quarter => flag = true ↔ EmptyGroup 4 rows
  | .stamp => flag = false

/-- R146, R147: the TILE record of slot `t`. -/
def TileRecordIs (s : State) (e : Entry) (t : Nat) (slot : Slot) (res : TileResult) (st : Standing)
    (why : Reason) (f : Fidelity) (r : TileRec) : Prop :=
  PartialIs f e.rows r.partialRows ∧ PayloadIs s.ctl.cfg.rounding f t e.rows r.payload ∧
  r =
    { fidelity := f
      reason := why
      unilateral := st.unilateral
      handover := st.handover && decide (why ≠ .core)
      partialRows := r.partialRows
      clipped := res.clipped
      station := s.ctl.station
      cls := res.cls
      g := s.ctl.cfg.c0 / 32 + t
      band := e.band
      repeatNo := e.row0.repeatNo
      refLine := e.row0.refLine
      mean := res.mean
      mad := res.mad
      shift := res.shift
      peak := res.peak
      glare := res.glare
      usable := e.rows.map fun x => decide (x.state = .present ∨ x.state = .blanked)
      payload := r.payload
      inspectable := slot.inspectable
      compared := slot.compared }

/-- R133 to R143: what the close of `e` at pressure level `level` does about slot `t`: nothing, a suppressed record,
or a record offered.  The standing of an overlap tile is that of statement OverlapAgreement. -/
def Decided (s : State) (e : Entry) (level t : Nat) (slot : Slot) (act : TileAction) : Prop :=
  (slot.result = none → act = .nothing) ∧
  ∀ res, slot.result = some res → ∃ v st why, OverlapSideOf s e (s.ctl.cfg.c0 / 32 + t) v ∧
    st = standingOf s.ctl.cfg
      { station := s.ctl.station, cls := res.cls, severity := res.severity,
        pressure := e.announced.getD 0 } v (s.ctl.cfg.c0 / 32 + t) ∧
    ReasonIs s e (s.ctl.cfg.c0 / 32 + t) res.cls st why ∧
    (why = none → act = .nothing) ∧
    ∀ w, why = some w →
      (degrade s.ctl.cfg.contextFidelity s.ctl.cfg.sampleFidelity w level = none → act = .suppress w) ∧
      ∀ f, degrade s.ctl.cfg.contextFidelity s.ctl.cfg.sampleFidelity w level = some f →
        ∃ r, act = .offer r ∧ TileRecordIs s e t slot res st w f r

/-- R100: a side's status as the close leaves it and the BAND record carries it. -/
def closedStatus (n : Option Neighbour) (side : Side) : SideStatus :=
  match side with
  | .none => if n.isSome then .absent else .none
  | .received _ => .received
  | .absent => .absent
  | .mismatched => .mismatched

/-- R86, R149: how many slots are in a class. -/
def countIn (c : TileClass) (slots : List Slot) : Nat :=
  (slots.filter fun x => decide (x.cls? = some c)).length

/-! ## Codes and layouts (R142, R149, R168, R169, R178) -/

/-- R142: the fidelities by code. -/
def fidelityCodes : List (Fidelity × Nat) := [(.full, 0), (.half, 1), (.quarter, 2), (.stamp, 3)]

/-- R142: the reasons by code. -/
def reasonCodes : List (Reason × Nat) := [(.core, 1), (.context, 2), (.sample, 3)]

/-- R107: the tile classes by code. -/
def classCodes : List (TileClass × Nat) := [(.void, 0), (.blind, 1), (.unref, 2), (.quiet, 3), (.hit, 4)]

/-- R149, R169: the phase modes by code. -/
def modeCodes : List (PhaseMode × Nat) := [(.seeking, 0), (.locked, 1), (.coasting, 2), (.lost, 3)]

/-- R149: the side statuses by code. -/
def statusCodes : List (SideStatus × Nat) := [(.none, 0), (.received, 1), (.absent, 2), (.mismatched, 3)]

/-- R178: the events by code. -/
def eventCodes : List (EventCode × Nat) :=
  [(.splice, 1), (.mark, 2), (.locked, 3), (.coasting, 4), (.lost, 5), (.stepClamped, 6), (.referenceReady, 7),
   (.spanConflict, 8), (.fingerprintMismatch, 9), (.duplicateStation, 10), (.lateForRun, 11),
   (.busTrouble, 12), (.runStarted, 13), (.runEnded, 14)]

/-- R168: the flag bits of a completion entry. -/
def retireCodes : List (RetireFlag × Nat) := [(.bySpace, 1), (.byTimer, 2), (.byHalt, 4)]

/-- R169: the operating states by code. -/
def opCodes : List (OpState × Nat) :=
  [(.unconfigured, 0), (.idle, 1), (.enrolling, 2), (.armed, 3), (.running, 4), (.stopping, 5)]

/-- R169: the reference states by code. -/
def referenceCodes : List (RefState × Nat) := [(.empty, 0), (.learning, 1), (.finalising, 2), (.ready, 3)]

/-- R171: the result codes. -/
def resultCodes : List (ResultCode × Nat) :=
  [(.none, 0), (.ok, 1), (.unknownCommand, 2), (.wrongState, 3), (.badArgument, 4), (.configInvalid, 5),
   (.linkLost, 6)]

/-- R169: the grant statuses by code. -/
def grantCodes : List (GrantStatus × Nat) := [(.accepted, 0), (.invalid, 1), (.full, 2), (.state, 3)]

/-- R169: the command phase by code. -/
def PhaseIs (p : CmdPhase) (n : Nat) : Prop :=
  (p = .ready ∧ n = 0) ∨ ((∃ w, p = .busy w) ∧ n = 1) ∨ (p = .done ∧ n = 2) ∨ (p = .failed ∧ n = 3)

/-- R168, R169: the number that `n` bytes from an offset upward hold, the low byte first. -/
def numberAt (byteAt : Nat → Byte) (offset : Nat) : Nat → Nat
  | 0 => 0
  | n + 1 => (byteAt offset).toNat + 256 * numberAt byteAt (offset + 1) n

/-- R168, R169: fields, each of an offset, a number of bytes and a value, of which it holds the low bytes. -/
def HoldsFields (byteAt : Nat → Byte) (fields : List (Nat × Nat × Nat)) : Prop :=
  ∀ o n v, (o, n, v) ∈ fields → numberAt byteAt o n = v % 256 ^ n

/-- The byte of a record at an offset. -/
def byteOf (bytes : List Byte) (offset : Nat) : Byte := bytes.getD offset 0

/-- R168: the layout of a TILE record. -/
def TileLayout (x : TileRec) (bytes : List Byte) : Prop :=
  ∃ fidelity reason cls, (x.fidelity, fidelity) ∈ fidelityCodes ∧ (x.reason, reason) ∈ reasonCodes ∧
    (x.cls, cls) ∈ classCodes ∧ bytes.length = 32 + x.payload.length ∧ bytes.drop 32 = x.payload ∧
    HoldsFields (byteOf bytes)
      [(0, 1, 1), (1, 1, fidelity), (2, 1, reason), (4, 1, x.station.toNat), (5, 1, cls), (6, 2, x.g),
       (8, 4, x.band), (12, 4, x.repeatNo.toNat), (16, 2, x.refLine.getD 65535), (18, 1, x.mean),
       (19, 1, x.mad), (20, 1, (x.shift % 256).toNat), (21, 1, x.peak), (22, 2, x.glare),
       (28, 2, x.payload.length), (30, 1, x.inspectable), (31, 1, x.compared)] ∧
    (byteOf bytes 3).getLsbD 0 = x.unilateral ∧ (byteOf bytes 3).getLsbD 1 = x.handover ∧
    (byteOf bytes 3).getLsbD 2 = x.partialRows ∧ (byteOf bytes 3).getLsbD 3 = x.clipped ∧
    (∀ i, 4 ≤ i → (byteOf bytes 3).getLsbD i = false) ∧
    ∀ k, k < 32 → (numberAt (byteOf bytes) 24 4).testBit k = x.usable.getD k false

/-- R168: the layout of a BAND record. -/
def BandLayout (x : BandRec) (bytes : List Byte) : Prop :=
  ∃ mode left right, (x.mode, mode) ∈ modeCodes ∧ (x.left, left) ∈ statusCodes ∧
    (x.right, right) ∈ statusCodes ∧ bytes.length = 32 ∧
    HoldsFields (byteOf bytes)
      [(0, 1, 2), (1, 1, x.station.toNat), (2, 1, mode + 16 * x.pressure), (3, 1, left + 16 * right),
       (4, 4, x.band), (8, 4, x.repeatNo.toNat), (12, 2, x.voids), (14, 2, x.blinds), (16, 2, x.unrefs),
       (18, 2, x.quiets), (20, 2, x.hits), (22, 2, x.queued), (24, 2, x.coreDrops.toNat),
       (26, 2, x.contextDrops.toNat), (28, 2, x.sampleDrops.toNat), (30, 2, x.unreported.toNat)]

/-- R168: the layout of an EVENT record. -/
def EventLayout (x : EventRec) (bytes : List Byte) : Prop :=
  ∃ code, (x.code, code) ∈ eventCodes ∧ bytes.length = 16 ∧
    HoldsFields (byteOf bytes)
      [(0, 1, 3), (1, 1, code), (2, 1, x.origin.toNat), (3, 1, if x.peer = true then 1 else 0),
       (4, 4, x.line.toNat), (8, 4, x.data.toNat), (12, 4, 0)]

/-- R168: the layout of a record. -/
def RecordLayout : Rec → List Byte → Prop
  | .tile x => TileLayout x
  | .band x => BandLayout x
  | .event x => EventLayout x

/-- R163, R168: the layout of the completion entry of a grant. -/
def CompletionLayout (seq : Word) (g : OpenGrant) (flag : RetireFlag) (bytes : List Byte) : Prop :=
  ∃ code, (flag, code) ∈ retireCodes ∧ bytes.length = 32 ∧
    HoldsFields (byteOf bytes)
      [(0, 4, seq.toNat), (4, 4, g.grant.tag.toNat), (8, 4, g.used), (12, 4, g.records),
       (16, 4, g.firstBand.getD 4294967295), (20, 4, g.lastBand.getD 4294967295), (24, 1, code), (25, 7, 0)]

/-- R169, R170: what the host reads in the groups of the window below the configuration in force. -/
def WindowShows (s : State) : Prop :=
  ∃ op reference mode level phase result status, (s.bus.op, op) ∈ opCodes ∧
    (s.ref.state, reference) ∈ referenceCodes ∧ (s.tracker.mode, mode) ∈ modeCodes ∧
    LevelOf (fill s) level ∧ PhaseIs s.ctl.phase phase ∧ (s.ctl.result, result) ∈ resultCodes ∧
    (s.port.grantStatus, status) ∈ grantCodes ∧
    HoldsFields (windowRead s)
      [(0x00, 2, 0x4D42), (0x02, 2, 0x2416), (0x04, 1, 1), (0x05, 1, s.ctl.station.toNat),
       (0x08, 1, op), (0x09, 1, reference), (0x0A, 1, mode), (0x0B, 1, level),
       (0x0C, 1, if s.port.link = .up then 1 else 0),
       (0x10, 1, phase), (0x11, 1, result), (0x12, 1, s.ctl.detail.toNat),
       (0x13, 1, if s.ctl.commandLost = true then 1 else 0),
       (0x20, 8, s.ctl.argAddress.toNat), (0x28, 4, s.ctl.argLength.toNat), (0x2C, 4, s.ctl.code.toNat),
       (0x40, 8, s.ctl.grantAddress.toNat), (0x48, 4, s.ctl.grantLength.toNat),
       (0x4C, 4, s.ctl.grantTag.toNat), (0x50, 1, status)]

/-! ## The whole station -/

/-- Everything above together. -/
def Sound (s : State) : Prop :=
  StampsOk s ∧ WindowsOk s ∧ MarksOk s ∧ PhaseOk s ∧ DramOk s ∧ TxQueueOk s ∧ HeardOk s ∧ EarlyOk s ∧
  RunOk s ∧ OfferingOk s ∧ FillOk s ∧ GrantsOk s

end Sys2Proof.Machine
end

