-- ==== Sys2Proof/Certificates/Slice0/Obligations.lean ====
section
/-! DEFINITION. The statements for the provers, chapter by chapter of the manual. -/

section
open Sys2Proof Sys2Proof.Machine

/-! ## The queue of commands, reset and power -/

/-- Every step carries out the command at the front of the queue on the state with the queue's rest.  With no command
waiting, a close that other commands fell into deals with its next tile slot, or offers its BAND record after the
last (R148, R151); what waited for it follows: the closes that may come, and in STOPPING, in a state that a run can
reach, the stamps still to be retired and the scoring of the entry still FILLING (R98, R102).  With no offer to come
1 ms passes: the enrollment timer, in ENROLLING, and then the open grant's flush timer each count down, and one that
reaches 0 does what its expiry command does.  The queue, the tick on an empty queue, the order of the two timers, and
offers made with no command waiting, are the model's choice (log entries 2 and 29). -/
def Obligations.StepRunsFrontCommand : Prop :=
  ∀ s : State,
    (∀ c rest, s.pending = c :: rest → step s = exec c { s with pending := rest }) ∧
    (∀ o, s.pending = [] → s.port.offering = some o →
      ∃ t : State, step s = .next t ∧
        (o.actions = [] →
          ∃ u : State, OffersMade o { s with port := { s.port with offering := none } } u ∧
            (s.bus.op ≠ .stopping → ∃ closed : List Entry, ClosesInTurn u closed t) ∧
            (s.bus.op = .stopping → RunOk s → BandsEnd o.retired u t)) ∧
        (o.actions ≠ [] → OffersBegun 1 o s t)) ∧
    (s.pending = [] → s.port.offering = none →
      ∃ u : State,
        (s.bus.op = .enrolling → (∃ n, s.bus.timer = some n ∧ n ≤ 1) →
          exec .enrollmentWindowExpiry s = .next u) ∧
        ((s.bus.op = .enrolling → ∀ n, s.bus.timer = some n → 2 ≤ n) →
          u = { s with bus := { s.bus with
            timer := if s.bus.op = .enrolling then s.bus.timer.map (· - 1) else s.bus.timer } }) ∧
        ((∃ g, u.port.grant = some g ∧ g.timer ≤ 1) → step s = exec .grantFlushTimerExpiry u) ∧
        ((∀ g, u.port.grant = some g → 2 ≤ g.timer) →
          step s = .next { u with port := { u.port with
            grant := u.port.grant.map fun g => { g with timer := g.timer - 1 } } }))

/-- The state right after reset, block by block, as the chapters' tables of resets give it (R16, R32, R54, R70, R105,
R130, R167, R183).  The station number 0 and the input levels 00 are the model's choice (log entry 1), as are the 0
of the command code field (log entry 24) and the fields of the model's own: the outputs so far, the two indices of
free values, the queue of commands, the offers of a close to come and the closes that commands fall into, the age of
the next frame and the pixel stores of the FREE entries (log entries 2, 3, 4, 8, 28, 29, 32 and 33). -/
def Obligations.ResetValues : Prop :=
  State.reset.encoder =
    { pair := ⟨false, false⟩, e := 0, high := 0, epoch := 0, dividerPhase := 0, lineCounter := 0,
      lineLimit := false, lastLine := 0, lastPosition := 0, stamps := [] } ∧
  State.reset.intake = { buffer := [], count := 0, nextLine := 0, windows := [] } ∧
  State.reset.tracker =
    { mode := .seeking, p := 0, step := 65536, repeatNo := 0, wrapPending := false, sinceWrap := 0,
      coasts := 0, prevAccepted := false, sinceStart := 0, line := 0, marks := [],
      lastTaken := none } ∧
  State.reset.ref =
    { state := .empty, counts := [], shortLines := 0, touched := 0, learned := 0, depth := 1,
      endingLine := 0, written := 0, filled := 0 } ∧
  State.reset.table =
    { entries := [], leftEarly := [], rightEarly := [], carryBand := none, carryCols := [],
      free := List.replicate 8 [] } ∧
  State.reset.bus =
    { op := .unconfigured, idle := 0, reception := none, queue := [], nextAge := 0, onLine := none,
      heard := [], left := none, right := none, timer := none, dupReported := false } ∧
  State.reset.port =
    { queue := [], coreDrops := 0, contextDrops := 0, sampleDrops := 0, unreported := 0,
      offering := none, fifo := [], grant := none, nextSeq := 1, link := .down, grantStatus := .accepted } ∧
  State.reset.ctl =
    { station := 0, cfg := .zero, argAddress := 0, argLength := 0, code := 0, grantAddress := 0,
      grantLength := 0, grantTag := 0, phase := .ready, result := .none, detail := 0,
      commandLost := false } ∧
  StationConfig.zero.bytes = List.replicate 256 0 ∧
  (∀ k, State.reset.counters.get k = 0) ∧
  State.reset.dram = [] ∧ State.reset.outputs = [] ∧ State.reset.powerCycles = 0 ∧
  State.reset.draws = 0 ∧ State.reset.pending = [] ∧ State.reset.overlap = []

/-- POWER_ON sets every block as after reset, with the station number latched from the straps and the accepted
channel pair at the input levels, whatever went before (R16, R183).  An accepted RESET does the same but keeps the
station number, the accepted channel pair, which is what the inputs show, the link state and the DRAM, leaves the
command phase DONE with OK, and sends one interrupt message when the link is UP (R184).  The rest is the model's
choice: what the station has put out stays put out, and the commands and overlaps that wait, wait on (log entries 2,
3, 8 and 29); the command code field reads 0 (log entry 24); the index of free values drawn is kept (log entry 4);
the age of the next frame is 0 again (log entry 28); and the pixel stores of the FREE entries are forgotten (log
entry 32, unsafe). -/
def Obligations.PowerOnAndReset : Prop :=
  (∀ (n : StationNo) (p : ChannelPair) (s : State),
    exec (.powerOn n p) s = .next { State.reset with
      encoder := { State.reset.encoder with pair := p }
      ctl := { State.reset.ctl with station := n }
      outputs := s.outputs
      powerCycles := s.powerCycles + 1
      draws := s.draws
      pending := s.pending
      overlap := s.overlap }) ∧
  (∀ s : State, Unoccupied s →
    exec .reset s = .next { State.reset with
      encoder := { State.reset.encoder with pair := s.encoder.pair }
      port := { State.reset.port with link := s.port.link }
      ctl := { State.reset.ctl with station := s.ctl.station, phase := .done, result := .ok }
      dram := s.dram
      outputs := s.outputs ++ messageOf s.port.link
      powerCycles := s.powerCycles
      draws := s.draws
      pending := s.pending
      overlap := s.overlap })

/-! ## Encoder and Trigger Unit -/

/-- R2: a change of both channels at once leaves E unchanged, makes the new pair the accepted pair, counts
ENCODER_GLITCHES, saturating, in every operating state, and does nothing else. -/
def Obligations.EncoderGlitch : Prop :=
  ∀ (p : ChannelPair) (s : State), p.a ≠ s.encoder.pair.a → p.b ≠ s.encoder.pair.b →
    exec (.encoderStep p) s = .next { s with
      encoder := { s.encoder with pair := p }
      counters := { s.counters with encoderGlitches := satInc s.counters.encoderGlitches } }

/-- ENCODER_STEP that issues no trigger, with all it changes (R1, R3, R7): inputs that show the accepted pair again
(no change, the model's choice of log entry 10); a reverse step, counted in RUNNING alone; a forward step outside
RUNNING or at or below H; and a forward advance that does not complete D, or that completes it while the line limit
flag is set. -/
def Obligations.EncoderStepWithoutTrigger : Prop :=
  ∀ (p : ChannelPair) (s : State),
    (p = s.encoder.pair → exec (.encoderStep p) s = .next s) ∧
    ((p, s.encoder.pair) ∈ forwardCycle →
      exec (.encoderStep p) s = .next { s with
        encoder := { s.encoder with pair := p, e := s.encoder.e - 1 }
        counters := { s.counters with
          reverseSteps := if s.bus.op = .running then satInc s.counters.reverseSteps
            else s.counters.reverseSteps } }) ∧
    ((s.encoder.pair, p) ∈ forwardCycle → ¬ (s.bus.op = .running ∧ s.encoder.e = s.encoder.high) →
      exec (.encoderStep p) s = .next { s with
        encoder := { s.encoder with pair := p, e := s.encoder.e + 1 } }) ∧
    ((s.encoder.pair, p) ∈ forwardCycle → s.bus.op = .running → s.encoder.e = s.encoder.high →
      s.encoder.dividerPhase + 1 ≠ s.ctl.cfg.d →
      exec (.encoderStep p) s = .next { s with
        encoder := { s.encoder with
          pair := p, e := s.encoder.e + 1, high := s.encoder.e + 1,
          dividerPhase := s.encoder.dividerPhase + 1 } }) ∧
    ((s.encoder.pair, p) ∈ forwardCycle → s.bus.op = .running → s.encoder.e = s.encoder.high →
      s.encoder.dividerPhase + 1 = s.ctl.cfg.d → s.encoder.lineLimit = true →
      exec (.encoderStep p) s = .next { s with
        encoder := { s.encoder with
          pair := p, e := s.encoder.e + 1, high := s.encoder.e + 1, dividerPhase := 0 } })

/-- A forward advance that completes D, the line limit flag clear and fewer than 4 stamps pending: one pulse, a stamp
with the line counter and E, the last trigger, the line counter and LINES_TRIGGERED, and nothing else; the trigger
for line 4,294,967,295 sets the line limit flag (R7, R8). -/
def Obligations.EncoderTrigger : Prop :=
  ∀ (p : ChannelPair) (s : State), (s.encoder.pair, p) ∈ forwardCycle → s.bus.op = .running →
    s.encoder.e = s.encoder.high → s.encoder.dividerPhase + 1 = s.ctl.cfg.d →
    s.encoder.lineLimit = false → s.encoder.stamps.length < 4 →
    exec (.encoderStep p) s = .next { s with
      encoder :=
        { pair := p
          e := s.encoder.e + 1
          high := s.encoder.e + 1
          epoch := s.encoder.epoch
          dividerPhase := 0
          lineCounter := s.encoder.lineCounter + 1
          lineLimit := decide (s.encoder.lineCounter = 4294967295)
          lastLine := s.encoder.lineCounter
          lastPosition := s.encoder.e + 1
          stamps := s.encoder.stamps ++ [⟨s.encoder.lineCounter, s.encoder.e + 1⟩] }
      counters := { s.counters with linesTriggered := satInc s.counters.linesTriggered }
      outputs := s.outputs ++ [.linePulse] }

/-- A trigger that finds 4 stamps drops the oldest, whose line gets the MISSED line event before it appends its own
(R12, R20); the pulse is the first thing the step puts out.  The line event goes through the station as LineThrough
says, with the trigger's effect on the unit beside it: the windows the line lies in are marked started, those it ends
leave the list, and a blanked line is counted in LINES_BLANKED (R21, R30, R31); the missed row is ABSENT, its
registered flag is the record's, and its store keeps the pixels an earlier band left there; row 0 creates its band's
entry, in row 31 the band is scored; the record is taken as takeRecord takes it (R21 to R24, R50, R59 to R62, R67,
R71 to R73, R90, R91, R146).  Which FREE entry row 0 takes, and what its store holds, is the model's choice (log
entries 32 and 33), and so is which closes other commands fall into (log entry 29). -/
def Obligations.EncoderTriggerDropsOldest : Prop :=
  ∀ (p : ChannelPair) (s : State) (oldest : Stamp) (rest : List Stamp),
    (s.encoder.pair, p) ∈ forwardCycle → s.bus.op = .running → s.encoder.e = s.encoder.high →
    s.encoder.dividerPhase + 1 = s.ctl.cfg.d → s.encoder.lineLimit = false →
    s.encoder.stamps = oldest :: rest → 3 ≤ rest.length →
    ∃ t more, exec (.encoderStep p) s = .next t ∧
      t.encoder =
        { pair := p
          e := s.encoder.e + 1
          high := s.encoder.e + 1
          epoch := s.encoder.epoch
          dividerPhase := 0
          lineCounter := s.encoder.lineCounter + 1
          lineLimit := decide (s.encoder.lineCounter = 4294967295)
          lastLine := s.encoder.lineCounter
          lastPosition := s.encoder.e + 1
          stamps := rest ++ [⟨s.encoder.lineCounter, s.encoder.e + 1⟩] } ∧
      t.counters.linesTriggered = satInc s.counters.linesTriggered ∧
      t.counters.stampOverflows = satInc s.counters.stampOverflows ∧
      t.counters.linesMissed = satInc s.counters.linesMissed ∧
      t.counters.linesArrived = s.counters.linesArrived ∧
      t.intake.nextLine = oldest.line + 1 ∧ t.tracker.line = oldest.line + 1 ∧
      t.outputs = s.outputs ++ .linePulse :: more ∧
      ((oldest.line % 32 = 0 → findEntry (oldest.line / 32) s = none) →
        (oldest.line % 32 ≠ 0 → ∃ e, findEntry (oldest.line / 32) s = some e) →
        (oldest.line % 32 = 31 → RunOk s) →
        ∃ u, LineThrough oldest none s u ∧
          t = { u with
            encoder := t.encoder
            counters := { u.counters with linesTriggered := t.counters.linesTriggered } }) ∧
      t.ctl = s.ctl ∧ t.bus.op = s.bus.op ∧ t.pending = s.pending

/-! ## Line Intake Unit -/

/-- LINE_ARRIVAL.  With no stamp pending the line is discarded and counted in LINES_UNSOLICITED (R18); that nothing
else changes, LINES_DAMAGED not rising when its count differs from W, is the model's choice (log entry 34).
Otherwise it takes the oldest stamp: the line event is ARRIVED, counted as damaged when its pixel count is not W and
as blanked when its line lies within a window; the windows it starts are marked and those it ends removed; next line
and the tracker line move past it (R17 to R21, R30, R50).  What the line buffer holds afterwards, and its count of 0
after an unsolicited line, is DEDUCED (log entry 27). -/
def Obligations.LineArrival : Prop :=
  ∀ (px : List Byte) (s : State),
    (s.encoder.stamps = [] →
      exec (.lineArrival px) s = .next { s with
        intake := { s.intake with buffer := [], count := 0 }
        counters := { s.counters with linesUnsolicited := satInc s.counters.linesUnsolicited } }) ∧
    (∀ oldest rest, s.encoder.stamps = oldest :: rest →
      ∃ t, exec (.lineArrival px) s = .next t ∧
        t.encoder = { s.encoder with stamps := rest } ∧
        t.intake =
          { buffer := px.take 8192
            count := min px.length 65535
            nextLine := oldest.line + 1
            windows := (s.intake.windows.map fun w =>
                if w.start ≤ oldest.line ∧ oldest.line ≤ w.stop then { w with started := true }
                else w).filter fun w => oldest.line < w.stop } ∧
        t.tracker.line = oldest.line + 1 ∧
        t.counters.linesArrived = satInc s.counters.linesArrived ∧
        t.counters.linesDamaged = (if min px.length 65535 = s.ctl.cfg.w then s.counters.linesDamaged
          else satInc s.counters.linesDamaged) ∧
        t.counters.linesBlanked = (if blankedAt oldest.line s.intake.windows = true then
          satInc s.counters.linesBlanked else s.counters.linesBlanked) ∧
        t.counters.linesMissed = s.counters.linesMissed ∧
        t.counters.linesUnsolicited = s.counters.linesUnsolicited ∧
        t.ctl = s.ctl ∧ t.bus.op = s.bus.op ∧ t.powerCycles = s.powerCycles ∧ t.draws = s.draws ∧
        t.pending = s.pending)

/-- What an arrival of any row but row 31 does to its band and to the blocks its record reaches.  Row 0 creates the
band's entry over the pixel store of a FREE entry: FILLING, its rows ABSENT, its slots at 0 and without results,
nothing announced or sent, each side NONE or as the summary that waits for the band makes it, which leaves its list
(R23, R71, R90).  The row is written: the row state of R22, W pixels cut or padded with 0 as R19 states, the
registered flag of R47; row 0 keeps the reference index, repeat number and mode of its line record; every other row
and every other entry is as it was (R22 to R24, R50, R146).  The slots, the reference and the DRAM become what
takeRecord makes of them for that record and that row (R59 to R62, R67, R72, R73).  Which FREE entry is taken, and
what a store holds that nothing has been written to, are the model's choices (log entries 32 and 33). -/
def Obligations.ArrivalWritesItsRow : Prop :=
  ∀ (px : List Byte) (s : State) (oldest : Stamp) (rest : List Stamp),
    s.encoder.stamps = oldest :: rest → oldest.line % 32 ≠ 31 →
    (oldest.line % 32 = 0 → findEntry (oldest.line / 32) s = none) →
    (oldest.line % 32 ≠ 0 → ∃ e, findEntry (oldest.line / 32) s = some e) →
    ∃ t f, exec (.lineArrival px) s = .next t ∧ LineTaken oldest (some px) s t f ∧
      (∀ r, f.rows[oldest.line % 32]? = some r →
        (r.registered = true ↔ (t.tracker.mode = .locked ∨ t.tracker.mode = .coasting) ∧
          blankedAt oldest.line s.intake.windows = false))

/-- In a run, the line event of row 31 scores its band, whether the row arrived or was missed because a trigger found
4 stamps (R12, R91): the line event goes through the station first, its windows and counts with it, as for any row
(R21, R30, R31); then every slot gets the results of TileScores from its accumulators, which it keeps, row 31's
record among them, against the one reference state of that moment; the entry, its rows and sides as they were,
becomes SCORED with the pressure level of that moment, after the line's own events, as its announced pressure; with a
neighbour its summary is handed on and the flag set, and otherwise the flag is clear.  The closing test follows at
once: earlier bands close in increasing order, each when it may and until none may, those before that waited for
other commands made first, and a close that other commands fall into now letting those after it wait (R131; log entry
29); this one waits in the table, and no entry is FILLING until the next row 0 (R75, R91, R92, R98, R99, R127). -/
def Obligations.LastRowScoresItsBand : Prop :=
  ∀ (c : Instr) (px : Option (List Byte)) (s : State) (oldest : Stamp) (rest : List Stamp), RunOk s →
    s.bus.op = .running → s.encoder.stamps = oldest :: rest → oldest.line % 32 = 31 →
    (∃ p, c = .lineArrival p ∧ px = some p) ∨
      (∃ pair, c = .encoderStep pair ∧ px = none ∧ (s.encoder.pair, pair) ∈ forwardCycle ∧
        s.encoder.e = s.encoder.high ∧ s.encoder.dividerPhase + 1 = s.ctl.cfg.d ∧
        s.encoder.lineLimit = false ∧ 3 ≤ rest.length) →
    ∃ (t u v : State) (f g : Entry), exec c s = .next t ∧
      LineTaken oldest px s u f ∧ BandScored f g u v ∧
      t = { v with
        encoder := t.encoder
        counters := { v.counters with linesTriggered := t.counters.linesTriggered } } ∧
      g ∈ t.table.entries ∧ g.band = oldest.line / 32 ∧ (∀ x ∈ t.table.entries, x.state = .scored) ∧
      ∃ more, t.port.queue = u.port.queue ++ more ∧ ∀ r ∈ more, ∀ x, r ≠ .event x

/-- LOCAL_SPLICE.  Outside RUNNING, and when the start line lies beyond the last line a run can have, nothing
happens.  Otherwise a window of Sb lines is requested from the start line on: late, clipped, merged, entered or
forced, exactly the lines that these give being blanked afterwards, with the counts of a late and of a forced one
(R25, R27 to R29); SPLICE is raised, its record taken or counted as dropped, the open grant retired by space when a
record that comes to the head does not fit it (R151, R155, R160, R179), and shared as an ALERT frame when its SHARE
bit is set (R128, R179); the blocks that take no part stay as they were. -/
def Obligations.LocalSplice : Prop :=
  ∀ s : State,
    (s.bus.op ≠ .running → exec .localSplice s = .next s) ∧
    (4294967295 < s.encoder.lastLine + s.ctl.cfg.soff → exec .localSplice s = .next s) ∧
    (WindowsOk s → s.bus.op = .running → ∀ start, start = s.encoder.lastLine + s.ctl.cfg.soff →
      start ≤ 4294967295 →
      ∃ t, exec .localSplice s = .next t ∧
        Requested start (start + s.ctl.cfg.sb - 1) s.intake.nextLine s.intake.windows t.intake.windows
          s.counters.spliceWindowsLate t.counters.spliceWindowsLate
          s.counters.spliceWindowsForced t.counters.spliceWindowsForced ∧
        WindowsCanonical t.intake.windows ∧
        t.intake = { s.intake with windows := t.intake.windows } ∧
        EventRaised .splice start s.encoder.lastPosition s t ∧
        SharedAlert .splice .splice start s t ∧
        t.encoder = s.encoder ∧ t.tracker = s.tracker ∧ t.ref = s.ref ∧ t.table = s.table ∧
        t.ctl = s.ctl ∧ t.dram = s.dram ∧ t.bus.op = s.bus.op ∧ t.pending = s.pending)

/-- LOCAL_MARK.  Outside RUNNING nothing happens; a start line beyond the last line a run can have is counted in
MARKS_DISCARDED with nothing else done.  Otherwise the start line is offered to the mark queue: a stale, blanked,
duplicate or full mark is counted in MARKS_DISCARDED and changes nothing else of the tracker; any other is inserted,
and a list in start-line order stays so (R35, R37).  MARK is raised, its record taken or counted as dropped (R151,
R155, R160), and shared as an ALERT frame when its SHARE bit is set (R128, R179). -/
def Obligations.LocalMark : Prop :=
  ∀ s : State,
    (s.bus.op ≠ .running → exec .localMark s = .next s) ∧
    (s.bus.op = .running → 4294967295 < s.encoder.lastLine + s.ctl.cfg.moff →
      exec .localMark s = .next { s with
        counters := { s.counters with marksDiscarded := satInc s.counters.marksDiscarded } }) ∧
    (s.bus.op = .running → ∀ start, start = s.encoder.lastLine + s.ctl.cfg.moff →
      start ≤ 4294967295 →
      ∃ t, exec .localMark s = .next t ∧
        (Discarded start s →
          t.tracker = s.tracker ∧
          t.counters.marksDiscarded = satInc s.counters.marksDiscarded) ∧
        (¬ Discarded start s →
          t.tracker = { s.tracker with marks := t.tracker.marks } ∧
          t.tracker.marks.Perm ({ start := start, source := .own } :: s.tracker.marks) ∧
          (s.tracker.marks.Pairwise (fun a b => a.start ≤ b.start) →
            t.tracker.marks.Pairwise fun a b => a.start ≤ b.start) ∧
          t.counters.marksDiscarded = s.counters.marksDiscarded) ∧
        EventRaised .mark start s.encoder.lastPosition s t ∧
        SharedAlert .mark .mark start s t ∧
        t.encoder = s.encoder ∧ t.intake = s.intake ∧ t.ref = s.ref ∧ t.table = s.table ∧
        t.ctl = s.ctl ∧ t.dram = s.dram ∧ t.bus.op = s.bus.op ∧ t.pending = s.pending)

/-! ## Span Bus Controller: the line -/

/-- LINE_IDLE: a station that follows no frame, its bus enabled, takes the line to be idle; any other is unchanged.
FRAME_TRANSMIT_START: at an idle line the head frame of the queue is started, and its start bit ends the idle; where
no frame may be started nothing happens, the model's choice of log entry 11 (R106, R111).  That the idle count is met
at 0 and 11 alone is the model's choice of log entry 19. -/
def Obligations.LineIdleAndTransmitStart : Prop :=
  ∀ s : State,
    (busEnabled s = true → s.bus.reception = none →
      exec .lineIdle s = .next { s with bus := { s.bus with idle := 11 } }) ∧
    (busEnabled s = false ∨ s.bus.reception ≠ none → exec .lineIdle s = .next s) ∧
    (∀ head rest, s.bus.queue = head :: rest → busEnabled s = true → s.bus.idle = 11 →
      s.bus.reception = none → s.bus.onLine = none →
      exec .frameTransmitStart s = .next { s with
        bus := { s.bus with
          idle := 0
          reception := some []
          onLine := some head.frame
          queue := { head with sending := true } :: rest } }) ∧
    (s.bus.queue = [] ∨ busEnabled s = false ∨ s.bus.idle ≠ 11 ∨ s.bus.reception ≠ none ∨
        s.bus.onLine ≠ none →
      exec .frameTransmitStart s = .next s)

/-- ARBITRATION_LOST at an arbitration bit sent recessive: the loss is counted, the frame stays in the queue with its
bit errors as they were, and the station follows the rest of the frame from the bits it has sent and the dominant one
it read (R111).  Where no such bit was sent nothing happens (log entry 11). -/
def Obligations.ArbitrationLost : Prop :=
  ∀ (s : State) (n : Nat),
    (s.bus.onLine = none → exec (.arbitrationLost n) s = .next s) ∧
    (∀ f, s.bus.onLine = some f →
      (n < 8 → (BitVec.ofNat 8 f.arb).getLsbD (7 - n) = true →
        exec (.arbitrationLost n) s = .next { s with
          bus := { s.bus with
            onLine := none
            reception := some (f.bits.take n ++ [false])
            queue := s.bus.queue.map fun t => { t with sending := false } }
          counters := { s.counters with
            busArbitrationLosses := satInc s.counters.busArbitrationLosses } }) ∧
      (8 ≤ n ∨ (BitVec.ofNat 8 f.arb).getLsbD (7 - n) = false →
        exec (.arbitrationLost n) s = .next s))

/-- BIT_ERROR at a bit of the length, body or CRC of the frame being sent: it is counted for the station and for the
frame, which stays in the queue while it has had fewer than 8, and the station follows the rest of the frame; the
eighth drops it, counted in BUS_FRAMES_DROPPED, and BUS_TROUBLE is raised with the next line and the frame's
arbitration value (R112, R178).  A frame that a stand-down has cleared from the queue leaves only the station's count
(log entry 13); at any other bit, or with no frame on the line, nothing happens (log entry 11). -/
def Obligations.BitError : Prop :=
  ∀ (s : State) (n : Nat),
    (s.bus.onLine = none → exec (.bitError n) s = .next s) ∧
    (∀ f, s.bus.onLine = some f →
      (n < 8 ∨ 32 + 8 * f.body.length ≤ n → exec (.bitError n) s = .next s) ∧
      (8 ≤ n → n < 32 + 8 * f.body.length →
        (∀ before t after, s.bus.queue = before ++ t :: after → t.sending = true → t.errors < 7 →
          (∀ u ∈ before ++ after, u.sending = false) →
          exec (.bitError n) s = .next { s with
            bus := { s.bus with
              onLine := none
              reception := some (f.bits.take n ++ [!(f.bits.getD n false)])
              queue := before ++ { t with errors := t.errors + 1, sending := false } :: after }
            counters := { s.counters with busBitErrors := satInc s.counters.busBitErrors } }) ∧
        (∀ before t after, s.bus.queue = before ++ t :: after → t.sending = true → t.errors = 7 →
          (∀ u ∈ before ++ after, u.sending = false) →
          ∃ r, exec (.bitError n) s = .next r ∧
            r.bus = { s.bus with
              onLine := none
              reception := some (f.bits.take n ++ [!(f.bits.getD n false)])
              queue := before ++ after } ∧
            r.counters.busBitErrors = satInc s.counters.busBitErrors ∧
            r.counters.busFramesDropped = satInc s.counters.busFramesDropped ∧
            r.port.queue = queueAfterEvent .busTrouble s.intake.nextLine (BitVec.ofNat 32 f.arb) s ∧
            r.port.fifo = s.port.fifo ∧ r.port.link = s.port.link ∧
            r.encoder = s.encoder ∧ r.intake = s.intake ∧ r.tracker = s.tracker ∧ r.ref = s.ref ∧
            r.table = s.table ∧ r.ctl = s.ctl ∧ r.dram = s.dram ∧ r.pending = s.pending) ∧
        ((∀ u ∈ s.bus.queue, u.sending = false) →
          exec (.bitError n) s = .next { s with
            bus := { s.bus with
              onLine := none
              reception := some (f.bits.take n ++ [!(f.bits.getD n false)]) }
            counters := { s.counters with busBitErrors := satInc s.counters.busBitErrors } })))

/-- A frame the station follows to its end whose CRC does not agree, or that fails a case of the test of form, is
counted in BUS_FRAMES_BAD and has no other effect than the end of any frame; bits that pass both are the frame they
spell; one the station does not follow leaves the idle count at 0; with the bus disabled nothing happens (R106, R108,
R110).  That a frame is one command at its end, and what a command with operands out of form does, are the model's
choices of log entries 18 and 19. -/
def Obligations.FramesDiscarded : Prop :=
  ∀ (s : State) (c : Instr),
    ((∃ raw, c = .badFrame raw ∧
        (crc16 (raw.arbitration :: raw.length :: raw.body) ≠ raw.crc ∨ ¬ InForm raw)) ∨
      (∃ h : HeardFrame, c = h.command ∧ h.wellFormed = false) →
      follows s = true →
      exec c s = .next { s with
        bus := { s.bus with
          idle := 0
          reception := none
          onLine := none
          queue := s.bus.queue.map fun t => { t with sending := false } }
        counters := { s.counters with busFramesBad := satInc s.counters.busFramesBad } }) ∧
    (∀ raw, c = .badFrame raw → InForm raw →
      crc16 (raw.arbitration :: raw.length :: raw.body) = raw.crc →
      ∃ h : HeardFrame, h.raw = raw ∧ h.wellFormed = true ∧ exec c s = exec h.command s) ∧
    ((∃ raw, c = .badFrame raw) ∨ (∃ h : HeardFrame, c = h.command) →
      (busEnabled s = true → follows s = false →
        exec c s = .next { s with bus := { s.bus with idle := 0 } }) ∧
      (busEnabled s = false → exec c s = .next s))

/-- What the table of R117 gives no effect: a peer's frame in the operating states its row ignores it in; an echo of
an ALERT, SUMMARY or SPAN, which leaves the queue; a SUMMARY of a sender that is no neighbour; a frame of this
station's own number in UNCONFIGURED or IDLE (R113).  Nothing but the end of the frame happens.  That a frame is one
command at its end, and an echo the frame being sent, are the model's choices (log entries 19 and 20). -/
def Obligations.FramesWithoutEffect : Prop :=
  ∀ (s : State) (h : HeardFrame),
    (FromPeer h s → ignoresPeer h s.bus.op → exec h.command s = .next (frameEnded s)) ∧
    (OwnEcho h s → ignoresEcho h s.bus.op → exec h.command s = .next (echoEnded s)) ∧
    (OwnNumber h s → s.bus.op = .unconfigured ∨ s.bus.op = .idle →
      exec h.command s = .next (frameEnded s)) ∧
    (∀ n m p l r, h = .summary n m p l r → FromPeer h s → inRun s →
      (∀ x, s.bus.left = some x → x.number ≠ n) → (∀ x, s.bus.right = some x → x.number ≠ n) →
      exec h.command s = .next (frameEnded s))

/-! ## The end of the run and standing down -/

/-- The end of a run: a HALT frame, from a peer or the station's own echo, and with the bus disabled the HALT
command, in RUNNING.  In STOPPING, in this order, the SCORED entries close in increasing band order; every pending
stamp is retired as a missed line, whose line event goes through intake, with its windows and counts (R30, R31),
tracker, controller and scorer as LineThrough says; and the entry then still FILLING is scored, its summary-sent flag
clear, and closes (R14, R74, R102).  A close that other commands fall into lets what comes after it wait (log entry
29).  The station is in IDLE at once only when no band was open, no stamp pending, no record queued and no offer of a
close to come: RUN_ENDED is then raised on the empty queue with the next line and the number of bands closed, the
open grant retired at halt with its completion entry.  Otherwise it is in STOPPING, with records queued behind those
that waited, or still to be offered (R117, R125, R126, R162, R163).  The HALT command ends DONE with OK (R172, R173).
That the end of STOPPING is tested once, after the whole entry, is DEDUCED (log entry 23); an event's line number
that four bytes cannot hold is a free value (log entry 5); the frame's end and echo, the code field, and which FREE
entry a missed row 0 takes over what store, are the model's choices (log entries 19, 20, 24, 32 and 33). -/
def Obligations.HaltEndsRun : Prop :=
  ∀ (s : State) (c : Instr), RunOk s → s.bus.op = .running →
    ((∃ n base, c = .haltFrame n ∧ Taken (.halt n) s base) ∨
      (c = .halt ∧ busEnabled s = false ∧ Unoccupied s)) →
    ∃ t, exec c s = .next (if c = .halt then succeeded 3 t else t) ∧
      RunEnds s.port.queue s.port.grant s.outputs s t ∧ t.ctl = s.ctl

/-- R121, R125: a station in ENROLLING or ARMED stands down: at a HALT frame and at the HALT command with nothing
else done, and at a peer's SUMMARY and at a frame of its own number with the event that R121 and R113 name.  The code
field is log entry 24's; that a frame is one command at its end is the model's choice (log entries 19 and 20). -/
def Obligations.StandDowns : Prop :=
  ∀ s : State, s.bus.op = .enrolling ∨ s.bus.op = .armed →
    (∀ n base, Taken (.halt n) s base → exec (.haltFrame n) s = .next (stoodDown base)) ∧
    (Unoccupied s → exec .halt s = .next (succeeded 3 (stoodDown s))) ∧
    (∀ h, (∃ n m p l r, h = HeardFrame.summary n m p l r ∧ FromPeer h s) ∨ OwnNumber h s →
      ∃ t, exec h.command s = .next t ∧ t.bus = (stoodDown (frameEnded s)).bus ∧
        t.port.queue =
          (if h.sender = s.ctl.station then
            queueAfterEvent .duplicateStation s.intake.nextLine (BitVec.ofNat 32 h.frame.arb) s
          else
            queueAfterEvent .lateForRun s.intake.nextLine (BitVec.ofNat 32 h.sender.toNat) s) ∧
        t.encoder = s.encoder ∧ t.intake = s.intake ∧ t.tracker = s.tracker ∧ t.ref = s.ref ∧
        t.table = s.table ∧ t.ctl = s.ctl ∧ t.dram = s.dram ∧ t.pending = s.pending)

/-! ## The epoch -/

/-- A RUN frame, from a peer or the station's own echo, in ENROLLING or ARMED starts the run: every block takes up
its run state of the epoch, and RUN_STARTED is raised last, with line 0 and the epoch.  In ENROLLING the neighbour
table is built first from the heard list as it stands, with its events; in ARMED it stands (R5, R32, R53, R105, R116,
R122 to R124).  That a frame is one command at its end, and an echo the frame being sent, are the model's choices
(log entries 19 and 20). -/
def Obligations.RunFrameTakesEpoch : Prop :=
  ∀ (s base : State) (n : StationNo), s.bus.op = .enrolling ∨ s.bus.op = .armed →
    Taken (.run n) s base →
    ∃ t, exec (.runFrame n) s = .next t ∧
      t.encoder =
        { pair := s.encoder.pair
          e := s.encoder.e
          high := s.encoder.e
          epoch := s.encoder.e
          dividerPhase := 0
          lineCounter := 0
          lineLimit := false
          lastLine := 0
          lastPosition := s.encoder.e
          stamps := [] } ∧
      t.intake = { s.intake with nextLine := 0, windows := [] } ∧
      t.tracker =
        { mode := .seeking, p := 0, step := 65536, repeatNo := 0, wrapPending := false,
          sinceWrap := 0, coasts := 0, prevAccepted := false, sinceStart := 0, line := 0, marks := [],
          lastTaken := none } ∧
      t.table = { s.table with leftEarly := [], rightEarly := [], carryBand := none, carryCols := [] } ∧
      t.bus.op = .running ∧ t.bus.idle = 0 ∧ t.bus.reception = none ∧ t.bus.onLine = none ∧
      t.bus.timer = none ∧ t.bus.dupReported = false ∧ t.bus.heard = s.bus.heard ∧
      t.bus.queue =
        base.bus.queue.filter (fun u => u.frame.kind != .span && u.frame.kind != .run) ∧
      (s.bus.op = .armed → t.bus.left = s.bus.left ∧ t.bus.right = s.bus.right ∧
        t.port.queue = queueAfterEvent .runStarted 0 s.encoder.e s) ∧
      (s.bus.op = .enrolling → HeardOk s →
        NeighboursChosen s.ctl.cfg s.bus.heard t.bus.left t.bus.right ∧
        ∃ q, NeighbourEvents s q ∧
          t.port.queue = queueAfterEvent .runStarted 0 s.encoder.e
            { s with port := { s.port with queue := q } }) ∧
      t.ref = s.ref ∧ t.ctl = s.ctl ∧ t.dram = s.dram ∧ t.pending = s.pending

/-! ## Alerts and summaries -/

/-- A peer's ALERT in RUNNING or STOPPING, routed by the peer routing byte: with REPORT set an EVENT record with the
sender as origin is offered first, and counted in EVENT_RECORDS_DROPPED when it does not fit (R151, R155, R160); with
ACT set a SPLICE requests a window as a local one does, but from the start line it carries and with this station's
own length and no offset, and a MARK is offered to the mark queue (R26 to R29, R36, R37, R180).  That a frame is one
command at its end, and an echo the frame being sent, are the model's choices (log entries 19 and 20). -/
def Obligations.AlertFrame : Prop :=
  ∀ (s : State) (n : StationNo) (k : AlertKind) (line : Word), inRun s →
    FromPeer (.alert n k line) s →
    ∃ t, exec (.alertFrame n k line) s = .next t ∧
      t.port.queue =
        (if peerReports k s = true ∧ 16 + fill s ≤ capacity then
          s.port.queue ++ [.event { code := match k with
                                            | .splice => .splice
                                            | .mark => .mark
                                    origin := n, peer := true, line := line, data := 0 }]
        else s.port.queue) ∧
      t.counters.eventRecordsDropped =
        (if peerReports k s = true ∧ capacity < 16 + fill s then satInc s.counters.eventRecordsDropped
        else s.counters.eventRecordsDropped) ∧
      t.port = { s.port with
        queue := t.port.queue, grant := t.port.grant, nextSeq := t.port.nextSeq } ∧
      SpaceTested s t ∧
      (peerActs k s = false → t.intake = s.intake ∧ t.tracker = s.tracker) ∧
      (peerActs k s = true → k = .mark → t.intake = s.intake ∧
        (Discarded line.toNat s → t.tracker = s.tracker ∧
          t.counters.marksDiscarded = satInc s.counters.marksDiscarded) ∧
        (¬ Discarded line.toNat s →
          t.tracker = { s.tracker with marks := t.tracker.marks } ∧
          t.tracker.marks.Perm ({ start := line.toNat, source := .peer n } :: s.tracker.marks) ∧
          t.counters.marksDiscarded = s.counters.marksDiscarded)) ∧
      (peerActs k s = true → k = .splice → WindowsOk s → t.tracker = s.tracker ∧
        Requested line.toNat (line.toNat + s.ctl.cfg.sb - 1) s.intake.nextLine s.intake.windows
          t.intake.windows s.counters.spliceWindowsLate t.counters.spliceWindowsLate
          s.counters.spliceWindowsForced t.counters.spliceWindowsForced ∧
        WindowsCanonical t.intake.windows ∧ t.intake = { s.intake with windows := t.intake.windows }) ∧
      t.bus = (frameEnded s).bus ∧ t.encoder = s.encoder ∧ t.ref = s.ref ∧ t.table = s.table ∧
      t.ctl = s.ctl ∧ t.dram = s.dram ∧ t.pending = s.pending

/-- A SUMMARY of a neighbour whose band has an open entry with that side NONE is attached to it: RECEIVED with the
facing zone's columns, classes, severities and pressure when the zone is in form, and MISMATCHED, with nothing else
of the table changed, when it is not; a RECEIVED side is followed by the closing test, in which entries close one
after another, each when it may and until none may, in a run in increasing order (R93 to R95, R98, R99).  In STOPPING
that is an entry still FILLING: the SCORED ones close in one event that no summary comes into (R102).  That a frame
is one command at its end, and an echo the frame being sent, are the model's choices (log entries 19 and 20), as is
which closes other commands fall into, those after it waiting (log entry 29). -/
def Obligations.SummaryAttached : Prop :=
  ∀ (s : State) (w : Which) (x : Neighbour) (n : StationNo) (m : Half) (p : Byte)
    (l r : List ZoneCode) (band : Nat) (e : Entry),
    inRun s → FromPeer (.summary n m p l r) s → SideOf w n s x →
    resolveBand (s.intake.nextLine / 32) m.toNat = some band → findEntry band s = some e →
    e.side w = .none → s.bus.op = .running ∨ e.state = .filling →
    ∃ t, exec (.summaryFrame n m p l r) s = .next t ∧
      (ZoneInForm x (facingCodes w l r) →
        ∃ z, HoldsZone z (facingStart w s x) (facingCodes w l r) p ∧
          (findEntry band t = some (e.setSide w (.received z)) ∨ findEntry band t = none) ∧
          (e.state = .filling → (s.table.entries.map (·.band)).Nodup →
            findEntry band t = some (e.setSide w (.received z))) ∧
          ∃ closed : List Entry, ClosesInTurn { frameEnded s with
              table := { s.table with
                entries := s.table.entries.map fun y =>
                  if y.band = band then y.setSide w (.received z) else y } } closed t ∧
            (RunOk s → closed.Pairwise fun a b => a.band < b.band)) ∧
      (¬ ZoneInForm x (facingCodes w l r) →
        t = { frameEnded s with
          table := { s.table with
            entries := s.table.entries.map fun y =>
              if y.band = band then y.setSide w .mismatched else y } }) ∧
      t.counters.summariesLate = s.counters.summariesLate ∧
      t.table.leftEarly = s.table.leftEarly ∧ t.table.rightEarly = s.table.rightEarly ∧
      t.encoder = s.encoder ∧ t.intake = s.intake ∧ t.tracker = s.tracker ∧ t.ref = s.ref ∧
      t.bus = (frameEnded s).bus ∧ t.ctl = s.ctl ∧ t.dram = s.dram ∧ t.pending = s.pending

/-- A SUMMARY of a neighbour that finds no side to set.  A side that is not NONE ignores it.  In STOPPING an entry
that is SCORED closes with the entry to STOPPING, in one event: the summary finds it closed and is late (R97, R102),
where other commands fall into those closes (log entry 29).  With no open entry it is late below the current band,
counted and discarded, and early from the current band on: a band already in the side's list ignores it, and any
other enters the list, from which, when it then holds five, the lowest band is lost and counted (R95 to R97).  That a
frame is one command at its end, and an echo the frame being sent, are the model's choices (log entries 19 and 20).
-/
def Obligations.SummaryNotAttached : Prop :=
  ∀ (s : State) (w : Which) (x : Neighbour) (n : StationNo) (m : Half) (p : Byte)
    (l r : List ZoneCode),
    inRun s → FromPeer (.summary n m p l r) s → SideOf w n s x →
    (∀ band e, resolveBand (s.intake.nextLine / 32) m.toNat = some band →
      findEntry band s = some e → e.side w ≠ .none →
      s.bus.op = .running ∨ e.state = .filling →
      exec (.summaryFrame n m p l r) s = .next (frameEnded s)) ∧
    (∀ band e, resolveBand (s.intake.nextLine / 32) m.toNat = some band →
      findEntry band s = some e → s.bus.op = .stopping → e.state = .scored →
      exec (.summaryFrame n m p l r) s = .next { frameEnded s with
        counters := { s.counters with summariesLate := satInc s.counters.summariesLate } }) ∧
    (∀ band, resolveBand (s.intake.nextLine / 32) m.toNat = some band → findEntry band s = none →
      (band < s.intake.nextLine / 32 →
        exec (.summaryFrame n m p l r) s = .next { frameEnded s with
          counters := { s.counters with summariesLate := satInc s.counters.summariesLate } }) ∧
      (s.intake.nextLine / 32 ≤ band →
        ((∃ y ∈ s.table.early w, y.band = band) →
          exec (.summaryFrame n m p l r) s = .next (frameEnded s)) ∧
        ((∀ y ∈ s.table.early w, y.band ≠ band) → EarlyListOk (s.table.early w) →
          ∃ t y, exec (.summaryFrame n m p l r) s = .next t ∧ y.band = band ∧
            (ZoneInForm x (facingCodes w l r) →
              ∃ z, y.summary = some z ∧ HoldsZone z (facingStart w s x) (facingCodes w l r) p) ∧
            (¬ ZoneInForm x (facingCodes w l r) → y.summary = none) ∧
            EarlyListOk (t.table.early w) ∧
            t.table = s.table.setEarly w (t.table.early w) ∧
            ((s.table.early w).length < 4 →
              (t.table.early w).Perm (y :: s.table.early w) ∧ t.counters = s.counters) ∧
            ((s.table.early w).length = 4 →
              (∃ lost, (lost :: t.table.early w).Perm (y :: s.table.early w) ∧
                ∀ v ∈ t.table.early w, lost.band < v.band) ∧
              t.counters = { s.counters with
                summariesEarlyLost := satInc s.counters.summariesEarlyLost }) ∧
            t.bus = (frameEnded s).bus ∧ t.port = s.port ∧ t.intake = s.intake ∧
            t.encoder = s.encoder ∧ t.tracker = s.tracker ∧ t.ref = s.ref ∧ t.ctl = s.ctl ∧
            t.dram = s.dram ∧ t.pending = s.pending)))

/-- The band a SUMMARY names.  Its 16 bits name the one band with those low bits within 32,768 below to 32,767 above
the current band, which is that of the next line; with d the difference modulo 65,536 it is the current band plus d
when d is at most 32,767, and 65,536 less otherwise (R94).  A summary whose band would lie below 0 is late: it is
counted in SUMMARIES_LATE and discarded (R94, R97).  That clause speaks of the SUMMARY frame as one command, its echo
being the frame that is being sent, which is the model's choice (log entries 19 and 20). -/
def Obligations.ResolveBand : Prop :=
  (∀ current m : Nat, m < 65536 →
    (∀ b : Nat, resolveBand current m = some b ↔
      b % 65536 = m ∧ current ≤ b + 32768 ∧ b ≤ current + 32767) ∧
    (∀ d : Nat, d < 65536 → (current + d) % 65536 = m →
      (d ≤ 32767 → resolveBand current m = some (current + d)) ∧
      (32767 < d → 65536 ≤ current + d → resolveBand current m = some (current + d - 65536)) ∧
      (32767 < d → current + d < 65536 → resolveBand current m = none))) ∧
  (∀ (s : State) (w : Which) (x : Neighbour) (n : StationNo) (m : Half) (p : Byte)
    (l r : List ZoneCode),
    inRun s → FromPeer (.summary n m p l r) s → SideOf w n s x →
    resolveBand (s.intake.nextLine / 32) m.toNat = none →
    exec (.summaryFrame n m p l r) s = .next { frameEnded s with
      counters := { s.counters with summariesLate := satInc s.counters.summariesLate } })

/-! ## Enrollment and the neighbour table -/

/-- A peer's SPAN in ENROLLING.  From a station already heard it changes nothing; from any other it joins the
heard-station list, the enrollment timer is set back to 50, and the station's own SPAN is queued again unless one
waits or is being sent, a full queue dealing with it as R115 states (R115, R119).  The age of a queued frame, and
that a frame is one command at its end, are the model's (log entries 19, 20 and 28). -/
def Obligations.SpanFrame : Prop :=
  ∀ (s : State) (n : StationNo) (c0 w fp : Half), s.bus.op = .enrolling →
    FromPeer (.span n c0 w fp) s →
    ((∃ h ∈ s.bus.heard, h.number = n) →
      exec (.spanFrame n c0 w fp) s = .next (frameEnded s)) ∧
    ((∀ h ∈ s.bus.heard, h.number ≠ n) →
      ∃ t, exec (.spanFrame n c0 w fp) s = .next t ∧
        t.bus.heard = s.bus.heard ++
          [{ number := n, c0 := c0.toNat, w := w.toNat, fingerprint := fp }] ∧
        t.bus.timer = some 50 ∧ t.bus.op = .enrolling ∧
        t.bus.idle = 0 ∧ t.bus.reception = none ∧ t.bus.onLine = none ∧
        t.bus.left = s.bus.left ∧ t.bus.right = s.bus.right ∧
        Offered (spanFrameOf s)
          { (frameEnded s).bus with
            heard := s.bus.heard ++ [{ number := n, c0 := c0.toNat, w := w.toNat, fingerprint := fp }]
            timer := some 50 }
          t.bus s.counters.busQueueDiscards t.counters.busQueueDiscards ∧
        ((∃ u ∈ s.bus.queue, u.frame.kind = .span) →
          t.bus.queue = (frameEnded s).bus.queue) ∧
        ((∀ u ∈ s.bus.queue, u.frame.kind ≠ .span) → s.bus.queue.length < 8 →
          ∃ u, u.frame = spanFrameOf s ∧ u.errors = 0 ∧ u.sending = false ∧
            t.bus.queue.Perm (u :: (frameEnded s).bus.queue)) ∧
        t.encoder = s.encoder ∧ t.intake = s.intake ∧ t.tracker = s.tracker ∧ t.ref = s.ref ∧
        t.table = s.table ∧ t.port = s.port ∧ t.ctl = s.ctl ∧ t.dram = s.dram ∧
        t.pending = s.pending)

/-- A frame of this station's own number, not its echo, in RUNNING or STOPPING: DUPLICATE_STATION is raised with the
frame's arbitration value the first time in a run and not again; a HALT in RUNNING then ends the run as any HALT does
(RunEnds), behind that record, the open grant being as the invariant GrantsOk says, so that the record never retires
it; and no other frame has a further effect (R113, R125, R160).  That a frame is one command at its end, and an echo
the frame being sent, are the model's choices (log entries 19 and 20), as are which FREE entry a missed row 0 takes
and which closes other commands fall into (log entries 29, 32 and 33); that the end of STOPPING is tested once, after
the whole entry, is DEDUCED (log entry 23), and an event's line number that four bytes cannot hold is a free value
(log entry 5). -/
def Obligations.DuplicateStation : Prop :=
  ∀ (s : State) (h : HeardFrame) (q : List Rec), inRun s → OwnNumber h s →
    q = (if s.bus.dupReported = true then s.port.queue
      else queueAfterEvent .duplicateStation s.intake.nextLine (BitVec.ofNat 32 h.frame.arb) s) →
    ∃ t, exec h.command s = .next t ∧
      ((∀ n, h ≠ .halt n) ∨ s.bus.op = .stopping →
        t.bus = { (frameEnded s).bus with dupReported := true } ∧ t.port.queue = q ∧
        t.encoder = s.encoder ∧ t.intake = s.intake ∧ t.tracker = s.tracker ∧ t.ref = s.ref ∧
        t.table = s.table ∧ t.ctl = s.ctl ∧ t.dram = s.dram ∧ t.pending = s.pending) ∧
      ((∃ n, h = .halt n) → s.bus.op = .running → RunOk s → GrantsOk s →
        RunEnds q s.port.grant s.outputs s t ∧ t.bus.dupReported = true ∧
        (∃ more, t.port.queue = q ++ more) ∧ t.ctl = s.ctl)

/-- ENROLLMENT_WINDOW_EXPIRY in ENROLLING: the station goes to ARMED, its timer stopped, with a RUN frame offered to
the transmit queue, which deals with it as R115 states when it is full; with no station heard it has no neighbour and
raises no event (R115, R120).  In any other state the timer does not run and nothing happens (log entry 11); the
expiry as one command, whatever ticks were left, is the model's choice (log entry 17). -/
def Obligations.EnrollmentWindowExpiry : Prop :=
  ∀ s : State,
    (s.bus.op ≠ .enrolling → exec .enrollmentWindowExpiry s = .next s) ∧
    (s.bus.op = .enrolling →
      ∃ t, exec .enrollmentWindowExpiry s = .next t ∧ t.bus.op = .armed ∧ t.bus.timer = none ∧
        t.bus.heard = s.bus.heard ∧ t.bus.idle = s.bus.idle ∧ t.bus.reception = s.bus.reception ∧
        t.bus.onLine = s.bus.onLine ∧ t.bus.dupReported = s.bus.dupReported ∧
        Offered { kind := .run, sender := s.ctl.station, body := [] }
          { s.bus with left := t.bus.left, right := t.bus.right, op := .armed, timer := none } t.bus
          s.counters.busQueueDiscards t.counters.busQueueDiscards ∧
        (s.bus.heard = [] → t.bus.left = none ∧ t.bus.right = none ∧ t.port = s.port) ∧
        t.encoder = s.encoder ∧ t.intake = s.intake ∧ t.tracker = s.tracker ∧ t.ref = s.ref ∧
        t.table = s.table ∧ t.ctl = s.ctl ∧ t.dram = s.dram ∧ t.pending = s.pending)

/-- The neighbour table that the expiry builds.  The left neighbour is, of the heard stations with this station's
fingerprint that overlap its span on the left by 1 to 8 tiles, the one of the greatest C0, then of the greatest
overlap, then of the lowest number, and there is none when there is no such station; the right neighbour is the one
of the least C0, then likewise.  FINGERPRINT_MISMATCH is raised for every heard station of another fingerprint, in
increasing number, and then SPAN_CONFLICT for every candidate whose span contains this station's, lies within it or
overlaps it by more than 8 tiles, in increasing number (R122, R123).  The expiry as one command, whatever ticks were
left, is the model's choice (log entry 17). -/
def Obligations.NeighbourTable : Prop :=
  ∀ (s t : State), s.bus.op = .enrolling → HeardOk s →
    exec .enrollmentWindowExpiry s = .next t →
    NeighboursChosen s.ctl.cfg s.bus.heard t.bus.left t.bus.right ∧ NeighbourEvents s t.port.queue

/-! ## Station Control: CONFIGURE -/

/-- An accepted CONFIGURE, in UNCONFIGURED or IDLE with an address that is a multiple of 4 and a length of 256 or
more, sets the phase to BUSY, clears COMMAND_LOST and starts to read the block at the address; nothing else changes
until the block has arrived (R171, R172, R174).  That the code field then reads 1 is the model's choice (log entry
24). -/
def Obligations.ConfigureAccepted : Prop :=
  ∀ s : State, Unoccupied s → s.bus.op = .unconfigured ∨ s.bus.op = .idle →
    s.ctl.argAddress.toNat % 4 = 0 → 256 ≤ s.ctl.argLength.toNat →
    exec .configure s = .next { s with
      ctl := { s.ctl with
        code := 1, commandLost := false, phase := .busy (.configure s.ctl.argAddress) }
      outputs := s.outputs ++ [.blockRead s.ctl.argAddress.toNat] }

/-- R175, R176: the ten tests in their order, the first that fails naming its field; and the clamps of a block that
passes all ten, which raise no event, are not counted, and whose clamped fields are what the host reads back (R170).
The ranges of the tests are those of the table of R175.  That flags, combination, the report and share words, peer
routing and the threshold settings are held whole, with the bits that R175 ignores as the block gives them, is
DEDUCED (log entry 9). -/
def Obligations.ConfigValidation : Prop :=
  ∀ (b : BitVec 2048) (c0 w l d : Nat), c0 = blockNat16 b 0 → w = blockNat16 b 2 →
    l = blockNat16 b 4 → d = blockNat16 b 6 →
    (∀ o, validate b = .refused o ↔
      (configTests c0 w l d (blockByte b 8).toNat (blockByte b 23).toNat (blockByte b 24).toNat
        (blockNat64 b 32)).find? (fun x => !x.2) = some (o, false)) ∧
    ((∀ o, validate b ≠ .refused o) → ∃ cfg, validate b = .accepted cfg ∧
      cfg.c0 = c0 ∧ cfg.w = w ∧ cfg.l = l ∧ cfg.d = d ∧ cfg.rounding.code = (blockByte b 8).toNat ∧
      cfg.flags = blockByte b 9 ∧ cfg.moff = blockNat16 b 14 ∧ cfg.soff = blockNat16 b 16 ∧
      cfg.combination = blockByte b 22 ∧ cfg.contextFidelity.code = (blockByte b 23).toNat ∧
      cfg.sampleFidelity.code = (blockByte b 24).toNat ∧ cfg.ps = blockNat16 b 26 ∧
      cfg.ring = blockNat64 b 32 ∧ cfg.report = blockHalf b 58 ∧ cfg.share = blockHalf b 60 ∧
      cfg.peerRouting = blockByte b 62 ∧
      cfg.wc = min (blockNat16 b 12) (min 1023 (l / 4)) ∧
      ((blockByte b 10).toNat = 0 → cfg.k = 1) ∧
      ((blockByte b 10).toNat ≠ 0 → cfg.k ∈ [1, 2, 4, 8, 16] ∧ cfg.k ≤ (blockByte b 10).toNat ∧
        ∀ k ∈ [1, 2, 4, 8, 16], k ≤ (blockByte b 10).toNat → k ≤ cfg.k) ∧
      HeldTo 2 6 (blockByte b 11).toNat cfg.hs ∧ HeldTo 1 4096 (blockNat16 b 18) cfg.sb ∧
      HeldTo 0 1024 (blockNat16 b 20) cfg.glareLimit ∧ HeldTo 1 1000 (blockNat16 b 28) cfg.flush ∧
      (∀ o t, (o, t) ∈ [(40, cfg.mad), (46, cfg.shift), (52, cfg.peak)] →
        t.setting = blockByte b o ∧ HeldTo (-512) 511 (blockHalf b (o + 2)).toInt t.overAt ∧
        HeldTo (-512) 511 (blockHalf b (o + 4)).toInt t.underAt)) ∧
    (∀ (s : State) (a : BitVec 64) (cfg : StationConfig), s.ctl.phase = .busy (.configure a) →
      validate b = .accepted cfg →
      ∃ t, exec (.configureReadDone b) s = .next t ∧ t.ctl.cfg = cfg ∧ t.counters = s.counters ∧
        t.port.queue = s.port.queue ∧
        (∀ i ∈ [10, 11, 12, 13, 18, 19, 20, 21, 28, 29, 42, 43, 44, 45, 48, 49, 50, 51, 54, 55, 56, 57],
          windowRead t (256 + i) = cfg.bytes.getD i 0))

/-- CONFIGURE_READ_DONE while the block of a CONFIGURE is being read.  A block that fails a test leaves the
configuration in force and ends the command FAILED with CONFIG_INVALID, the detail naming the field, and
COMMANDS_FAILED counting it (R172, R174; the counting is DEDUCED, log entry 14).  An accepted block comes into force:
the open grant is retired at halt, at the old ring address and with the old sequence, and the grants are forgotten
(R166; that the old block's completion interrupt enable decides its message is the model's choice, log entry 36), the
reference is emptied when C0, W or L changes (R69, R70; that the finalisation progress stays is DEDUCED, log entry
15), the frame in reception is abandoned when the bus is turned off and the idle count starts anew when it is turned
on (R106), and the station is in IDLE.  With no block being read nothing happens (log entry 11). -/
def Obligations.ConfigureReadDone : Prop :=
  ∀ (s : State) (b : BitVec 2048),
    ((∀ a, s.ctl.phase ≠ .busy (.configure a)) → exec (.configureReadDone b) s = .next s) ∧
    (∀ a, s.ctl.phase = .busy (.configure a) →
      (∀ o, validate b = .refused o → exec (.configureReadDone b) s = .next { s with
        ctl := s.ctl.ended .failed .configInvalid (BitVec.ofNat 8 o)
        counters := { s.counters with commandsFailed := satInc s.counters.commandsFailed }
        outputs := s.outputs ++ messageOf s.port.link }) ∧
      (∀ new, validate b = .accepted new →
        ∃ t, exec (.configureReadDone b) s = .next t ∧
          t.ctl = { s.ctl.ended .done .ok 0 with cfg := new } ∧
          t.port = { s.port with
            fifo := [], grant := none, nextSeq := 1, grantStatus := .accepted } ∧
          t.outputs = s.outputs ++
            (match s.port.grant with
              | none => []
              | some g =>
                .hostWrite (s.ctl.cfg.ring + 32 * ((s.port.nextSeq - 1).toNat % 256))
                    (completionBytes s.port.nextSeq g .byHalt) ::
                  if completionInterrupts s = true then messageOf s.port.link else []) ++
            messageOf s.port.link ∧
          t.ref = (if s.ctl.cfg.c0 = new.c0 ∧ s.ctl.cfg.w = new.w ∧ s.ctl.cfg.l = new.l then s.ref
            else { s.ref with
              state := .empty, counts := List.replicate new.l 0, shortLines := 0, touched := 0,
              learned := 0, depth := 1, endingLine := 0 }) ∧
          t.bus = { s.bus with
            op := .idle
            idle := if busEnabled s = false ∧ busEnabled t = true then 0 else s.bus.idle
            reception := if busEnabled s = true ∧ busEnabled t = false then none
              else s.bus.reception
            onLine := if busEnabled s = true ∧ busEnabled t = false then none else s.bus.onLine } ∧
          t.encoder = s.encoder ∧ t.intake = s.intake ∧ t.tracker = s.tracker ∧
          t.table = s.table ∧ t.counters = s.counters ∧ t.dram = s.dram ∧
          t.pending = s.pending))

/-! ## Station Control: the other commands -/

/-- START in IDLE.  With the bus enabled and none of its own SPAN frames on the line: the station goes to ENROLLING
with the timer at 50, no station heard, no neighbour, and its SPAN frame alone in the transmit queue (R118); a SPAN
of its own still on the line stands for the frame (R115).  With the bus disabled the station takes the epoch and goes
to RUNNING with no neighbour, and RUN_STARTED is raised with line 0 and the epoch (R6).  The case of a SPAN still on
the line is DEDUCED, and the age of a frame the model's own (log entry 28); the code field is log entry 24's. -/
def Obligations.StartCommand : Prop :=
  ∀ s : State, Unoccupied s → s.bus.op = .idle →
    (busEnabled s = true → (∀ f, s.bus.onLine = some f → f.kind ≠ .span) →
      exec .start s = .next (succeeded 2 { s with
        bus := { s.bus with
          op := .enrolling
          heard := []
          left := none
          right := none
          timer := some 50
          queue := [{ frame := (HeardFrame.span s.ctl.station (BitVec.ofNat 16 s.ctl.cfg.c0)
                        (BitVec.ofNat 16 s.ctl.cfg.w) (fingerprint s.ctl.cfg.d s.ctl.cfg.l)).frame
                      errors := 0, sending := false, age := s.bus.nextAge }]
          nextAge := s.bus.nextAge + 1 } })) ∧
    (busEnabled s = true → (∃ f, s.bus.onLine = some f ∧ f.kind = .span) →
      exec .start s = .next (succeeded 2 { s with
        bus := { s.bus with
          op := .enrolling, heard := [], left := none, right := none, timer := some 50,
          queue := [] } })) ∧
    (busEnabled s = false →
      ∃ t, exec .start s = .next t ∧
        t.encoder = { s.encoder with
          high := s.encoder.e
          epoch := s.encoder.e
          dividerPhase := 0
          lineCounter := 0
          lineLimit := false
          lastLine := 0
          lastPosition := s.encoder.e
          stamps := [] } ∧
        t.intake = { s.intake with nextLine := 0, windows := [] } ∧
        t.tracker = State.reset.tracker ∧
        t.table = { s.table with leftEarly := [], rightEarly := [], carryBand := none, carryCols := [] } ∧
        t.bus = { s.bus with
          op := .running
          heard := []
          left := none
          right := none
          timer := none
          dupReported := false
          queue := s.bus.queue.filter fun u => u.frame.kind != .span && u.frame.kind != .run } ∧
        t.port.queue = queueAfterEvent .runStarted 0 s.encoder.e s ∧
        t.ctl = { s.ctl.ended .done .ok 0 with code := 2, commandLost := false } ∧
        t.ref = s.ref ∧ t.dram = s.dram ∧ t.pending = s.pending)

/-- HALT where no run ends by it: in UNCONFIGURED, IDLE and STOPPING it ends DONE and changes nothing else; in
RUNNING with the bus enabled it queues a HALT frame, and the run goes on until the frame comes back; one that waits
or is being sent stands for it, and a full queue deals with it as R115 states (R115, R125).  The ages of frames and
the code field are the model's (log entries 24 and 28). -/
def Obligations.HaltCommand : Prop :=
  ∀ s : State, Unoccupied s →
    (s.bus.op = .unconfigured ∨ s.bus.op = .idle ∨ s.bus.op = .stopping →
      exec .halt s = .next (succeeded 3 s)) ∧
    (s.bus.op = .running → busEnabled s = true →
      ((∃ u ∈ s.bus.queue, u.frame.kind = .halt) ∨ (∃ f, s.bus.onLine = some f ∧ f.kind = .halt) →
        exec .halt s = .next (succeeded 3 s)) ∧
      ∃ bus discards,
        Offered { kind := .halt, sender := s.ctl.station, body := [] } s.bus bus
          s.counters.busQueueDiscards discards ∧
        exec .halt s = .next (succeeded 3 { s with
          bus := bus, counters := { s.counters with busQueueDiscards := discards } }))

/-- LEARN, once a configuration is in force, starts a learning pass in every reference state: every count of the
table is 0, the short-line count is L, the depth in force is the K in force, and neither DRAM region is touched (R57,
R58, R70; that the finalisation progress stays is DEDUCED, log entry 15).  CLEAR sets every counter and both
accumulators to 0 in every operating state (R173).  The code field is log entry 24's. -/
def Obligations.LearnAndClear : Prop :=
  ∀ s : State, Unoccupied s →
    (s.bus.op ≠ .unconfigured → exec .learn s = .next (succeeded 4 { s with
      ref := { s.ref with
        state := .learning
        counts := List.replicate s.ctl.cfg.l 0
        shortLines := s.ctl.cfg.l
        touched := 0
        learned := 0
        depth := s.ctl.cfg.k } })) ∧
    (∃ c : Counters, (∀ k, c.get k = 0) ∧
      exec .clear s = .next (succeeded 6 { s with counters := c }))

/-- SNAPSHOT.  Accepted, it captures the 32 words in the order of R177 and changes nothing else but the command
status; when its last write has been issued, the 128 bytes stand in host memory from the address up, each word low
byte first, and the command has ended DONE.  With no SNAPSHOT in flight SNAPSHOT_WRITE_DONE does nothing (log entry
11); the code field is log entry 24's.  That the 128 bytes are put out as one write, at SNAPSHOT_WRITE_DONE and
behind all that was put out before, is the model's choice (log entry 35). -/
def Obligations.Snapshot : Prop :=
  ∀ s : State,
    (Unoccupied s → s.ctl.argAddress.toNat % 4 = 0 → 128 ≤ s.ctl.argLength.toNat →
      exec .snapshot s = .next { s with
        ctl := { s.ctl with
          code := 5
          commandLost := false
          phase := .busy (.snapshot s.ctl.argAddress (snapshotTable s.counters)) } }) ∧
    (∀ a, ∀ words : List Word, s.ctl.phase = .busy (.snapshot a words) →
      exec .snapshotWriteDone s = .next { s with
        ctl := s.ctl.ended .done .ok 0
        outputs := s.outputs ++
          .hostWrite a.toNat (words.flatMap fun (w : Word) =>
            [w.setWidth 8, (w >>> 8).setWidth 8, (w >>> 16).setWidth 8, (w >>> 24).setWidth 8]) ::
          messageOf s.port.link }) ∧
    ((∀ a words, s.ctl.phase ≠ .busy (.snapshot a words)) →
      exec .snapshotWriteDone s = .next s)

/-- A command code turned away changes the command status and its counter alone (R171, R172).  While a command is in
flight it is discarded, COMMAND_LOST is set and COMMANDS_LOST counts it; otherwise it fails, COMMANDS_FAILED counts
it and one message goes out: a code other than 1 to 7 with the code, up to 255, as the detail; CONFIGURE, START and
LEARN in a state that does not accept them with the state's code as the detail; CONFIGURE and SNAPSHOT whose
arguments fail.  That the code field shows a code turned away is the model's choice (log entry 24). -/
def Obligations.CommandsTurnedAway : Prop :=
  ∀ s : State,
    (¬ Unoccupied s → ∀ c code, (c, code) ∈ hostCommands ∨
        (∃ w : Word, c = .unknownCommand w ∧ code = w) →
      exec c s = .next { s with
        ctl := { s.ctl with code := code, commandLost := true }
        counters := { s.counters with commandsLost := satInc s.counters.commandsLost } }) ∧
    (Unoccupied s → ∀ w : Word, w.toNat = 0 ∨ 8 ≤ w.toNat →
      exec (.unknownCommand w) s = .next
        (failed w .unknownCommand (BitVec.ofNat 8 (min w.toNat 255)) s)) ∧
    (Unoccupied s → s.bus.op ≠ .unconfigured → s.bus.op ≠ .idle →
      exec .configure s = .next (failed 1 .wrongState (BitVec.ofNat 8 s.bus.op.code) s)) ∧
    (Unoccupied s → s.bus.op ≠ .idle →
      exec .start s = .next (failed 2 .wrongState (BitVec.ofNat 8 s.bus.op.code) s)) ∧
    (Unoccupied s → s.bus.op = .unconfigured →
      exec .learn s = .next (failed 4 .wrongState 0 s)) ∧
    (Unoccupied s → s.bus.op = .unconfigured ∨ s.bus.op = .idle →
      s.ctl.argAddress.toNat % 4 ≠ 0 ∨ s.ctl.argLength.toNat < 256 →
      exec .configure s = .next (failed 1 .badArgument 0 s)) ∧
    (Unoccupied s → s.ctl.argAddress.toNat % 4 ≠ 0 ∨ s.ctl.argLength.toNat < 128 →
      exec .snapshot s = .next (failed 5 .badArgument 0 s))

/-- What the host reads in the window: the identification, live status, command status and slot, grant port and grant
status at their offsets, and the configuration in force.  WINDOW_WRITE: a byte written to the argument address or
length, or to the grant address or length, is the byte the host then reads there, and every other byte of the window
reads as before; nothing but those four fields changes (R169, R170).  A byte written to the code or the tag by this
command has no effect, and an offset that no field has reads as a free value: the model's choices of log entries 6
and 26; the code and the tag as read are log entry 24's. -/
def Obligations.WindowWrite : Prop :=
  (∀ s : State, WindowShows s ∧ ∀ i, i < 256 → windowRead s (256 + i) = s.ctl.cfg.bytes.getD i 0) ∧
  ∀ (s : State) (offset : Nat) (data : List Byte),
    ∃ t, exec (.windowWrite offset data) s = .next t ∧
      t = { s with
        ctl := { s.ctl with
          argAddress := t.ctl.argAddress
          argLength := t.ctl.argLength
          grantAddress := t.ctl.grantAddress
          grantLength := t.ctl.grantLength } } ∧
      ∀ i, windowRead t i =
        if (32 ≤ i ∧ i < 44) ∨ (64 ≤ i ∧ i < 76) then
          if offset ≤ i then (data[i - offset]?).getD (windowRead s i) else windowRead s i
        else windowRead s i

/-! ## Output Queue and Host Port -/

/-- GRANT_SUBMIT: the tests in their order, STATE in UNCONFIGURED, INVALID for an address or a length out of form,
FULL with 32 grants waiting, and ACCEPTED, when alone the grant joins the tail of the FIFO; nothing else but the tag
changes (R156, R157).  That the tag field shows a refused tag is the model's choice (log entry 24). -/
def Obligations.GrantSubmit : Prop :=
  ∀ (s : State) (tag : Word) (inForm : Prop),
    (inForm ↔ 256 ∣ s.ctl.grantAddress.toNat ∧ 256 ∣ s.ctl.grantLength.toNat ∧
      4096 ≤ s.ctl.grantLength.toNat ∧ s.ctl.grantLength.toNat ≤ 1048576 ∧
      s.ctl.grantAddress.toNat + s.ctl.grantLength.toNat ≤ 2 ^ 64) →
    ∃ result fifo, exec (.grantSubmit tag) s = .next { s with
        ctl := { s.ctl with grantTag := tag }
        port := { s.port with grantStatus := result, fifo := fifo } } ∧
      (s.bus.op = .unconfigured → result = .state ∧ fifo = s.port.fifo) ∧
      (s.bus.op ≠ .unconfigured → ¬ inForm → result = .invalid ∧ fifo = s.port.fifo) ∧
      (s.bus.op ≠ .unconfigured → inForm → 32 ≤ s.port.fifo.length →
        result = .full ∧ fifo = s.port.fifo) ∧
      (s.bus.op ≠ .unconfigured → inForm → s.port.fifo.length < 32 →
        result = .accepted ∧ fifo = s.port.fifo ++
          [{ address := s.ctl.grantAddress, length := s.ctl.grantLength, tag := tag }])

/-- RECORD_WRITE, and GRANT_OPEN with the write it makes at once.  The head record goes to host memory at the grant's
address plus its bytes used, and leaves the queue; the grant's bytes and records grow, its last band and, once, its
first band follow the record's band; and when the next head record does not fit, or fewer than 16 bytes are left, the
grant is retired by space, its completion entry in the ring after the record (R158 to R160, R163, R164).  Where the
rule's conditions do not hold nothing happens (log entry 11).  In STOPPING this holds of every record but the last
with no band open and no offer to come (log entry 29), whose write ends the run and has a statement of its own.  The
bytes of a record and of a completion entry hold their fields at the offsets of R168. -/
def Obligations.RecordsWritten : Prop :=
  (∀ r : Rec, RecordLayout r r.bytes) ∧
  (∀ (seq : Word) (g : OpenGrant) (flag : RetireFlag),
    CompletionLayout seq g flag (completionBytes seq g flag)) ∧
  ∀ (s : State) (c : Instr) (r : Rec) (rest : List Rec) (g : OpenGrant) (fifo : List Grant),
    (c = .recordWrite → s.port.queue = [] ∨ s.port.grant = none ∨ s.port.link = .down ∨
        (∃ x o, s.port.queue.head? = some x ∧ s.port.grant = some o ∧
          o.grant.length.toNat < o.used + x.size) →
      exec c s = .next s) ∧
    (c = .grantOpen → s.port.queue = [] ∨ s.port.grant ≠ none ∨ s.port.fifo = [] ∨
        s.port.link = .down →
      exec c s = .next s) ∧
    (s.bus.op ≠ .stopping ∨ s.table.entries ≠ [] ∨ rest ≠ [] ∨ s.port.offering ≠ none →
      s.port.queue = r :: rest → s.port.link = .up →
      (c = .recordWrite ∧ s.port.grant = some g ∧ g.used + r.size ≤ g.grant.length.toNat ∧
          fifo = s.port.fifo) ∨
        (c = .grantOpen ∧ s.port.grant = none ∧ s.port.fifo = g.grant :: fifo ∧ g.used = 0 ∧
          g.records = 0 ∧ g.firstBand = none ∧ g.lastBand = none ∧ g.timer = s.ctl.cfg.flush) →
      ∃ o : OpenGrant, o.grant = g.grant ∧ o.used = g.used + r.size ∧ o.records = g.records + 1 ∧
        o.timer = g.timer ∧
        (∀ b, r.band? = some b → o.lastBand = some b ∧ o.firstBand = some (g.firstBand.getD b)) ∧
        (r.band? = none → o.lastBand = g.lastBand ∧ o.firstBand = g.firstBand) ∧
        (g.grant.length.toNat < o.used + 16 ∨
            (∃ x, rest.head? = some x ∧ g.grant.length.toNat < o.used + x.size) →
          exec c s = .next { s with
            port := { s.port with
              queue := rest, fifo := fifo, grant := none, nextSeq := s.port.nextSeq + 1 }
            outputs := s.outputs ++
              .hostWrite (g.grant.address.toNat + g.used) r.bytes ::
              .hostWrite (s.ctl.cfg.ring + 32 * ((s.port.nextSeq - 1).toNat % 256))
                (completionBytes s.port.nextSeq o .bySpace) ::
              if completionInterrupts s = true then [.interrupt] else [] }) ∧
        (o.used + 16 ≤ g.grant.length.toNat →
          (∀ x, rest.head? = some x → o.used + x.size ≤ g.grant.length.toNat) →
          exec c s = .next { s with
            port := { s.port with queue := rest, fifo := fifo, grant := some o }
            outputs := s.outputs ++
              [.hostWrite (g.grant.address.toNat + g.used) r.bytes] }))

/-- GRANT_FLUSH_TIMER_EXPIRY with a grant open: the grant is retired by timer, with its completion entry in the slot
of its sequence number and a message when completion interrupts are enabled (R161, R163, R181).  In STOPPING with no
band open, no offer to come (log entry 29) and no record queued the station then returns to IDLE, its transmit queue
cleared and RUN_ENDED raised (R116, R126).  With no grant open nothing happens (log entry 11); the expiry as one
command, whatever ticks were left, is the model's choice (log entry 17); an event's line number that four bytes
cannot hold is a free value (log entry 5). -/
def Obligations.GrantFlush : Prop :=
  ∀ s : State,
    (s.port.grant = none → exec .grantFlushTimerExpiry s = .next s) ∧
    (∀ g outputs, s.port.grant = some g →
      outputs = s.outputs ++
        .hostWrite (s.ctl.cfg.ring + 32 * ((s.port.nextSeq - 1).toNat % 256))
          (completionBytes s.port.nextSeq g .byTimer) ::
        (if completionInterrupts s = true then messageOf s.port.link else []) →
      (s.bus.op ≠ .stopping ∨ s.table.entries ≠ [] ∨ s.port.queue ≠ [] ∨ s.port.offering ≠ none →
        exec .grantFlushTimerExpiry s = .next { s with
          port := { s.port with grant := none, nextSeq := s.port.nextSeq + 1 }
          outputs := outputs }) ∧
      (s.bus.op = .stopping → s.table.entries = [] → s.port.queue = [] → s.port.offering = none →
        exec .grantFlushTimerExpiry s = .next { s with
          bus := { s.bus with op := .idle, queue := [] }
          port := { s.port with
            grant := none
            nextSeq := s.port.nextSeq + 1
            queue := queueAfterEvent .runEnded s.intake.nextLine
              (BitVec.ofNat 32 ((s.intake.nextLine + 31) / 32)) s }
          outputs := outputs }))

/-- The end of STOPPING: the write of the last record with no band open and no offer of a close to come (log entry
29), by RECORD_WRITE or by the GRANT_OPEN that opens its grant, retires the open grant, by space when fewer than 16
bytes are left and at halt otherwise, and returns the station to IDLE, its transmit queue cleared, RUN_ENDED raised
with the next line and the number of bands closed, the next line divided by 32 and rounded up (R116, R126, R158 to
R160, R162).  An event's line number that four bytes cannot hold is a free value (log entry 5). -/
def Obligations.LastRecordEndsRun : Prop :=
  ∀ (s : State) (c : Instr) (r : Rec) (g : OpenGrant) (fifo : List Grant),
    s.bus.op = .stopping → s.table.entries = [] → s.port.offering = none → s.port.queue = [r] →
    s.port.link = .up →
    (c = .recordWrite ∧ s.port.grant = some g ∧ g.used + r.size ≤ g.grant.length.toNat ∧
        fifo = s.port.fifo) ∨
      (c = .grantOpen ∧ s.port.grant = none ∧ s.port.fifo = g.grant :: fifo ∧ g.used = 0 ∧
        g.records = 0 ∧ g.firstBand = none ∧ g.lastBand = none ∧ g.timer = s.ctl.cfg.flush) →
    ∃ o flag, o.grant = g.grant ∧ o.used = g.used + r.size ∧ o.records = g.records + 1 ∧
      o.timer = g.timer ∧
      (∀ b, r.band? = some b → o.lastBand = some b ∧ o.firstBand = some (g.firstBand.getD b)) ∧
      (r.band? = none → o.lastBand = g.lastBand ∧ o.firstBand = g.firstBand) ∧
      flag = (if g.grant.length.toNat < o.used + 16 then .bySpace else .byHalt) ∧
      exec c s = .next { s with
        bus := { s.bus with op := .idle, queue := [] }
        port := { s.port with
          fifo := fifo
          grant := none
          nextSeq := s.port.nextSeq + 1
          queue := queueAfterEvent .runEnded s.intake.nextLine
            (BitVec.ofNat 32 ((s.intake.nextLine + 31) / 32))
            { s with port := { s.port with queue := [] } } }
        outputs := s.outputs ++
          .hostWrite (g.grant.address.toNat + g.used) r.bytes ::
          .hostWrite (s.ctl.cfg.ring + 32 * ((s.port.nextSeq - 1).toNat % 256))
            (completionBytes s.port.nextSeq o flag) ::
          (if completionInterrupts s = true then [.interrupt] else []) }

/-- LINK_UP sets the link state and nothing else.  LINK_LOSS empties the grant FIFO and discards the open grant
without a completion entry; a command in flight ends FAILED with LINK_LOST and is counted, its message not sent; and
the operating state is taken as for HALT: with the bus disabled a run ends as RunEnds says, its bands closed and its
stamps retired as at a HALT frame (R14, R102, R125, R165, R182).  The order of the three parts, and that the end of
STOPPING is tested once, after them, is DEDUCED (log entries 21 and 23); what part of an abandoned snapshot had been
issued is a free value (log entry 4); that it is put out as one write at the loss, and which FREE entry a missed row
0 takes, are the model's choices (log entries 32, 33 and 35).  In STOPPING with no band open, no offer to come (log
entry 29) and no record queued the station returns to IDLE and RUN_ENDED is raised (R126); an event's line number
that four bytes cannot hold is a free value (log entry 5). -/
def Obligations.LinkLossAndUp : Prop :=
  ∀ s : State,
    exec .linkUp s = .next { s with port := { s.port with link := .up } } ∧
    ∃ t, exec .linkLoss s = .next t ∧
      t.port.link = .down ∧ t.port.fifo = [] ∧ t.port.grant = none ∧
      t.port.nextSeq = s.port.nextSeq ∧ t.port.grantStatus = s.port.grantStatus ∧
      (Unoccupied s → t.ctl = s.ctl ∧ t.outputs = s.outputs ∧
        t.counters.commandsFailed = s.counters.commandsFailed) ∧
      (∀ w, s.ctl.phase = .busy w → t.ctl = s.ctl.ended .failed .linkLost 0 ∧
        t.counters.commandsFailed = satInc s.counters.commandsFailed) ∧
      (∀ a, s.ctl.phase = .busy (.configure a) → t.outputs = s.outputs) ∧
      (∀ a words, s.ctl.phase = .busy (.snapshot a words) →
        ∃ n, n ≤ words.length ∧ t.outputs = s.outputs ++ [.hostWrite a.toNat (wordBytes (words.take n))]) ∧
      (s.bus.op = .unconfigured ∨ s.bus.op = .idle → t.bus = s.bus ∧ t.port.queue = s.port.queue) ∧
      (s.bus.op = .enrolling ∨ s.bus.op = .armed → t.bus = (stoodDown s).bus) ∧
      (s.bus.op = .running → busEnabled s = true → t.port.queue = s.port.queue ∧
        Offered { kind := .halt, sender := s.ctl.station, body := [] } s.bus t.bus
          s.counters.busQueueDiscards t.counters.busQueueDiscards) ∧
      (s.bus.op = .running → busEnabled s = false → RunOk s → RunEnds s.port.queue none t.outputs s t) ∧
      (s.bus.op = .stopping → s.table.entries = [] → s.port.offering = none →
        (s.port.queue = [] → t.bus = { s.bus with op := .idle, queue := [] } ∧
          t.port.queue = queueAfterEvent .runEnded s.intake.nextLine
            (BitVec.ofNat 32 ((s.intake.nextLine + 31) / 32)) s) ∧
        (s.port.queue ≠ [] → t.bus = s.bus ∧ t.port.queue = s.port.queue)) ∧
      (s.bus.op = .stopping → s.table.entries ≠ [] ∨ s.port.offering ≠ none →
        t.bus = s.bus ∧ t.port.queue = s.port.queue) ∧
      t.ctl.cfg = s.ctl.cfg ∧ t.pending = s.pending

/-! ## Reference Memory Controller -/

/-- FINALISE_LINE writes one reference line and counts it: of the line to be written next, m first, then those below
m, then those above it, m being the lowest counted line, a line with a count of 1 or more becomes its accumulated
words divided by the count, in the station's rounding mode, and any other becomes a copy of line m, when it is below
m, and otherwise of the line just below it, and counts as filled.  No other byte of the DRAM changes.  The write of
the last line makes the reference READY and raises REFERENCE_READY with the ending line and the lines filled (R64,
R65).  The byte order of an accumulated word is the model's choice (log entry 7).  In any other reference state
nothing happens (log entry 11); in FINALISING with no counted line, which R62 never enters and R64 gives no step for,
the model stops (log entry 16). -/
def Obligations.FinaliseLine : Prop :=
  ∀ s : State,
    (s.ref.state ≠ .finalising → exec .finaliseLine s = .next s) ∧
    (s.ref.state = .finalising → (∀ i, i < s.ctl.cfg.l → s.ref.counts.getD i 0 = 0) →
      exec .finaliseLine s = .fault .finaliseNothing) ∧
    (∀ m r, DramOk s → s.ref.state = .finalising → m < s.ctl.cfg.l →
      (∀ i, i < m → s.ref.counts.getD i 0 = 0) → 1 ≤ s.ref.counts.getD m 0 →
      s.ref.written < s.ctl.cfg.l →
      r = (if s.ref.written = 0 then m else if s.ref.written ≤ m then s.ref.written - 1
        else s.ref.written) →
      ∃ t, exec .finaliseLine s = .next t ∧
        (1 ≤ s.ref.counts.getD r 0 → ∀ j, j < s.ctl.cfg.w → ∃ n : Int,
          RoundsTo s.ctl.cfg.rounding
            ((dramByte s (67108864 + 2 * (r * s.ctl.cfg.w + j))).toNat +
              256 * (dramByte s (67108864 + 2 * (r * s.ctl.cfg.w + j) + 1)).toNat : Nat)
            (s.ref.counts.getD r 0) n ∧
          0 ≤ n ∧ dramByte t (r * s.ctl.cfg.w + j) = BitVec.ofNat 8 n.toNat) ∧
        (s.ref.counts.getD r 0 = 0 → ∀ j, j < s.ctl.cfg.w →
          dramByte t (r * s.ctl.cfg.w + j) =
            dramByte s ((if r < m then m else r - 1) * s.ctl.cfg.w + j)) ∧
        (∀ a, a < r * s.ctl.cfg.w ∨ (r + 1) * s.ctl.cfg.w ≤ a → dramByte t a = dramByte s a) ∧
        t.ref = { s.ref with
          written := s.ref.written + 1
          filled := if s.ref.counts.getD r 0 = 0 then s.ref.filled + 1 else s.ref.filled
          state := if s.ref.written + 1 = s.ctl.cfg.l then .ready else .finalising } ∧
        t.port.queue = (if s.ref.written + 1 = s.ctl.cfg.l then
            queueAfterEvent .referenceReady s.ref.endingLine (BitVec.ofNat 32 t.ref.filled) s
          else s.port.queue) ∧
        t.encoder = s.encoder ∧ t.intake = s.intake ∧ t.tracker = s.tracker ∧ t.table = s.table ∧
        t.bus = s.bus ∧ t.ctl = s.ctl ∧ t.pending = s.pending)

/-- What a line record does to the accumulator: it contributes in LEARNING when it is LOCKED, its row is PRESENT and
its reference line has a count below 255, and changes nothing otherwise (R59).  A contribution writes its W pixels
over the row's words when the count is 0 and adds them otherwise, then counts: no other byte of the DRAM changes
(R60).  A repeat-end notice is taken before its record: in LEARNING it counts a learned repeat, and with no short
line, or with 4 times the depth learned and a line touched, learning ends on the mark's line, finalisation at its
start; in any other state it has no effect (R61, R62).  The byte order of a word is the model's choice (log entry 7).
-/
def Obligations.LearningContribution : Prop :=
  ∀ (s : State) (rec : LineRecord) (row : Row),
    ((s.ref.state ≠ .learning ∨ rec.mode ≠ .locked ∨ row.state ≠ .present ∨
        (∀ r, rec.index = some r → 255 ≤ s.ref.counts.getD r 0)) →
      learnFrom rec row s = s) ∧
    (∀ r c, DramOk s → s.ref.state = .learning → rec.mode = .locked → row.state = .present →
      rec.index = some r → r < s.ctl.cfg.l → r < s.ref.counts.length → c = s.ref.counts.getD r 0 →
      c < 255 → s.ctl.cfg.w ≤ row.pixels.length →
      ∃ t, t = learnFrom rec row s ∧
        (∀ j, j < s.ctl.cfg.w →
          ((dramByte t (67108864 + 2 * (r * s.ctl.cfg.w + j))).toNat +
              256 * (dramByte t (67108864 + 2 * (r * s.ctl.cfg.w + j) + 1)).toNat) =
            ((if c = 0 then 0 else
                (dramByte s (67108864 + 2 * (r * s.ctl.cfg.w + j))).toNat +
                  256 * (dramByte s (67108864 + 2 * (r * s.ctl.cfg.w + j) + 1)).toNat) +
              (row.pixels.getD j 0).toNat) % 65536) ∧
        (∀ a, a < 67108864 + 2 * (r * s.ctl.cfg.w) ∨ 67108864 + 2 * ((r + 1) * s.ctl.cfg.w) ≤ a →
          dramByte t a = dramByte s a) ∧
        t.ref = { s.ref with
          counts := s.ref.counts.set r (c + 1)
          touched := if c = 0 then s.ref.touched + 1 else s.ref.touched
          shortLines := if c + 1 = s.ref.depth then s.ref.shortLines - 1 else s.ref.shortLines } ∧
        t = { s with dram := t.dram, ref := t.ref }) ∧
    (takeRecord rec s =
      takeRecord { rec with repeatEnd := false }
        (if rec.repeatEnd = true then repeatEnd rec.line s else s)) ∧
    (∀ line learned, learned = satInc s.ref.learned →
      (s.ref.state ≠ .learning → repeatEnd line s = s) ∧
      (s.ref.state = .learning →
        s.ref.shortLines = 0 ∨ (4 * s.ref.depth ≤ learned.toNat ∧ 1 ≤ s.ref.touched) →
        repeatEnd line s = { s with
          ref := { s.ref with
            learned := learned, state := .finalising, endingLine := line, written := 0,
            filled := 0 } }) ∧
      (s.ref.state = .learning → s.ref.shortLines ≠ 0 →
        learned.toNat < 4 * s.ref.depth ∨ s.ref.touched = 0 →
        repeatEnd line s = { s with ref := { s.ref with learned := learned } }))

/-! ## Registration Tracker -/

/-- A line event through the tracker.  LOCKED or COASTING, not blanked, with no window starting, no coast and no mark
due, it is registered: its reference index is the phase in lines, rounded in the station's mode, an index of L
becoming 0; the phase then grows by the step, and one that reaches L wraps.  In general: a window start returns the
tracker to SEEKING; the line counts towards the repeat and, a wrap pending, towards a coast, which at Wc + 1 lines
goes to COASTING or, the fourth, to LOST, with its event; of the marks due the first is acted on as MarkTested says,
the rest are discarded, and on a blanked line all are; the record carries the line event, and the index, repeat
number and mode after its mark and before the advance, and a repeat-end notice when the mark is accepted with the
previous start accepted; an unregistered line moves the tracker line alone (R38 to R41, R47 to R50, R61). -/
def Obligations.RegisteredLine : Prop :=
  (∀ (s : State) (ev : LineEvent),
    s.tracker.mode = .locked ∨ s.tracker.mode = .coasting →
    ev.blanked = false → ev.windowStart = false →
    (s.tracker.wrapPending = true → s.tracker.sinceWrap < s.ctl.cfg.wc) →
    (∀ m, s.tracker.marks.head? = some m → ev.line < m.start) →
    ∃ (q : Int) (full : Nat), RoundsTo s.ctl.cfg.rounding s.tracker.p 65536 q ∧ 0 ≤ q ∧
      full = 65536 * s.ctl.cfg.l ∧
      (trackLine ev s).2 =
        { line := ev.line
          arrived := ev.arrived
          damaged := ev.damaged
          pixels := ev.pixels
          position := ev.position
          blanked := ev.blanked
          index := some (if q.toNat < s.ctl.cfg.l then q.toNat else 0)
          repeatNo := s.tracker.repeatNo
          mode := s.tracker.mode
          repeatEnd := false } ∧
      (s.tracker.p + s.tracker.step < full →
        (trackLine ev s).1 = { s with
          tracker := { s.tracker with
            p := s.tracker.p + s.tracker.step
            sinceStart := satInc s.tracker.sinceStart
            sinceWrap := if s.tracker.wrapPending = true then s.tracker.sinceWrap + 1
              else s.tracker.sinceWrap
            line := ev.line + 1 } }) ∧
      (full ≤ s.tracker.p + s.tracker.step →
        (trackLine ev s).1 = { s with
          tracker := { s.tracker with
            p := s.tracker.p + s.tracker.step - full
            repeatNo := satInc s.tracker.repeatNo
            wrapPending := true
            sinceWrap := 0
            sinceStart := satInc s.tracker.sinceStart
            line := ev.line + 1 } })) ∧
  ∀ (s : State) (ev : LineEvent) (k : Tracker) (code : EventCode) (due rest : List MarkEntry),
    k = (if ev.windowStart = true then
        { s.tracker with
          mode := .seeking, wrapPending := false, prevAccepted := false, sinceWrap := 0, coasts := 0 }
      else s.tracker) →
    code = (if k.coasts + 1 < 4 then .coasting else .lost) →
    s.tracker.marks = due ++ rest → (∀ m ∈ due, m.start ≤ ev.line) →
    (∀ m, rest.head? = some m → ev.line < m.start) →
    ∃ (u v : State) (q e r : Int) (record : LineRecord) (registered : Bool),
      (k.wrapPending = true → s.ctl.cfg.wc ≤ k.sinceWrap →
        u.tracker = { k with
          sinceStart := satInc k.sinceStart
          sinceWrap := k.sinceWrap + 1
          wrapPending := false
          prevAccepted := false
          coasts := k.coasts + 1
          mode := if k.coasts + 1 < 4 then .coasting else .lost } ∧
        EventRaised code ev.line ev.position s u ∧ u.bus = s.bus ∧
        u.encoder = s.encoder ∧ u.ref = s.ref ∧ u.table = s.table ∧ u.intake = s.intake ∧
        u.ctl = s.ctl ∧ u.dram = s.dram ∧ u.pending = s.pending ∧
        u.counters = { s.counters with eventRecordsDropped := u.counters.eventRecordsDropped }) ∧
      (k.wrapPending = false ∨ k.sinceWrap < s.ctl.cfg.wc →
        u = { s with
          tracker := { k with
            sinceStart := satInc k.sinceStart
            sinceWrap := if k.wrapPending = true then k.sinceWrap + 1 else k.sinceWrap } }) ∧
      (due = [] → v = u ∧ record.repeatEnd = false) ∧
      (∀ last w, due.getLast? = some last →
        w = { u with
          tracker := { u.tracker with marks := rest, lastTaken := some last.start }
          counters := { u.counters with
            marksDiscarded := satAdd u.counters.marksDiscarded (due.length - 1) } } →
        (ev.blanked = true → v = { w with
          counters := { w.counters with marksDiscarded := satInc w.counters.marksDiscarded } }) ∧
        (ev.blanked = false → v = actOnMark ev w)) ∧
      RoundsTo s.ctl.cfg.rounding u.tracker.p 65536 q ∧
      e = (if u.tracker.wrapPending = true then q else q - s.ctl.cfg.l) ∧
      (due ≠ [] → (record.repeatEnd = true ↔ ev.blanked = false ∧
        (u.tracker.mode = .locked ∨ u.tracker.mode = .coasting) ∧ e.natAbs ≤ s.ctl.cfg.wc ∧
        u.tracker.prevAccepted = true)) ∧
      (registered = true ↔
        (v.tracker.mode = .locked ∨ v.tracker.mode = .coasting) ∧ ev.blanked = false) ∧
      RoundsTo s.ctl.cfg.rounding v.tracker.p 65536 r ∧ 0 ≤ r ∧
      record =
        { line := ev.line
          arrived := ev.arrived
          damaged := ev.damaged
          pixels := ev.pixels
          position := ev.position
          blanked := ev.blanked
          index := if registered = true then some (if r.toNat < s.ctl.cfg.l then r.toNat else 0)
            else none
          repeatNo := v.tracker.repeatNo
          mode := v.tracker.mode
          repeatEnd := record.repeatEnd } ∧
      (trackLine ev s).2 = record ∧
      (registered = false →
        (trackLine ev s).1 = { v with tracker := { v.tracker with line := ev.line + 1 } }) ∧
      (registered = true → v.tracker.p + v.tracker.step < 65536 * s.ctl.cfg.l →
        (trackLine ev s).1 = { v with
          tracker := { v.tracker with
            p := v.tracker.p + v.tracker.step, line := ev.line + 1 } }) ∧
      (registered = true → 65536 * s.ctl.cfg.l ≤ v.tracker.p + v.tracker.step →
        (trackLine ev s).1 = { v with
          tracker := { v.tracker with
            p := v.tracker.p + v.tracker.step - 65536 * s.ctl.cfg.l
            repeatNo := satInc v.tracker.repeatNo
            wrapPending := true
            sinceWrap := 0
            line := ev.line + 1 } })

/-- A mark acted on.  In SEEKING or LOST it is acquired without a test.  In LOCKED or COASTING its offset is the
rounded phase when a predicted wrap is pending and the rounded phase less L when none is: within the capture window
the mark is accepted, its offset going to its accumulator, the phase to 0, the step, when the repeat began at an
acquired or accepted mark, to L × 65,536 / N held to 49,152 to 81,920, and an early mark raising the repeat number; a
step held raises STEP_CLAMPED, and a mark accepted in COASTING then LOCKED, a record that does not fit being counted
(R151, R155, R160); beyond it the mark is rejected, which increments MARKS_REJECTED and changes nothing else (R42 to
R46). -/
def Obligations.MarkTested : Prop :=
  ∀ (s : State) (ev : LineEvent),
    (s.tracker.mode = .seeking ∨ s.tracker.mode = .lost →
      (actOnMark ev s).tracker = { s.tracker with
        p := 0, repeatNo := satInc s.tracker.repeatNo, mode := .locked, coasts := 0,
        wrapPending := false, prevAccepted := true, sinceStart := 0 } ∧
      (actOnMark ev s).counters.marksAccepted = satInc s.counters.marksAccepted ∧
      (actOnMark ev s).counters.stretch = s.counters.stretch ∧
      (actOnMark ev s).counters.shrink = s.counters.shrink ∧
      EventRaised .locked ev.line ev.position s (actOnMark ev s)) ∧
    (s.tracker.mode = .locked ∨ s.tracker.mode = .coasting →
      ∃ (q e : Int), RoundsTo s.ctl.cfg.rounding s.tracker.p 65536 q ∧ 0 ≤ q ∧
        e = (if s.tracker.wrapPending = true then q else q - s.ctl.cfg.l) ∧
        (s.ctl.cfg.wc < e.natAbs →
          actOnMark ev s = { s with
            counters := { s.counters with marksRejected := satInc s.counters.marksRejected } }) ∧
        (e.natAbs ≤ s.ctl.cfg.wc →
          (actOnMark ev s).tracker = { s.tracker with
            p := 0
            repeatNo := if s.tracker.wrapPending = true then s.tracker.repeatNo
              else satInc s.tracker.repeatNo
            mode := .locked
            coasts := 0
            wrapPending := false
            prevAccepted := true
            sinceStart := 0
            step := (actOnMark ev s).tracker.step } ∧
          (s.tracker.prevAccepted = false → (actOnMark ev s).tracker.step = s.tracker.step) ∧
          (s.tracker.prevAccepted = true → s.tracker.sinceStart ≠ 0 →
            ∃ (n : Int) (u : State),
              RoundsTo s.ctl.cfg.rounding (s.ctl.cfg.l * 65536) s.tracker.sinceStart.toNat n ∧
              HeldTo 49152 81920 n (actOnMark ev s).tracker.step ∧ u.ctl = s.ctl ∧
              EventRaisedIf (n < 49152 ∨ 81920 < n) .stepClamped ev.line ev.position s u ∧
              EventRaisedIf (s.tracker.mode = .coasting) .locked ev.line ev.position u
                (actOnMark ev s)) ∧
          (actOnMark ev s).counters.stretch =
            (if 0 < e then satAdd s.counters.stretch e.toNat else s.counters.stretch) ∧
          (actOnMark ev s).counters.shrink =
            (if e < 0 then satAdd s.counters.shrink (-e).toNat else s.counters.shrink) ∧
          (actOnMark ev s).counters.marksAccepted = satInc s.counters.marksAccepted ∧
          (actOnMark ev s).counters.marksRejected = s.counters.marksRejected ∧
          (s.tracker.prevAccepted = false →
            EventRaisedIf (s.tracker.mode = .coasting) .locked ev.line ev.position s
              (actOnMark ev s))))

/-! ## Rounding and scoring -/

/-- The division site: for every mode, numerator and positive denominator, the integer given is one the mode chooses
from the exact quotient by the words of its row in the table, and the only one (R33). -/
def Obligations.RoundedDivision : Prop :=
  ∀ (mode : Rounding) (a : Int) (b : Nat), 0 < b →
    RoundsTo mode a b (roundDiv mode a b) ∧ ∀ n, RoundsTo mode a b n → n = roundDiv mode a b

/-- The results of a scored tile.  MAD is the sum of magnitudes over the compared pixels, rounded, within 0 to 255,
and 0 with no compared row (R76); MEAN is the pixel sum over the inspectable pixels likewise (R79); SHIFT the rounded
mean difference held to a signed byte (R77); PEAK and glare stand as they are (R78); the class is the first of VOID,
BLIND, UNREF, HIT and QUIET whose condition holds (R80 to R84); and the severity is PEAK for HIT and QUIET and 0 for
the rest (R85). -/
def Obligations.TileScores : Prop :=
  ∀ (cfg : StationConfig) (ready : Bool) (s : Slot) (x : TileResult), x = scoreSlot cfg ready s →
    (s.compared = 0 → x.mad = 0 ∧ x.shift = 0 ∧ x.clipped = false) ∧
    (1 ≤ s.compared → RoundsTo cfg.rounding s.sumAbs (s.compared * 32) x.mad ∧
      (s.sumAbs ≤ 255 * (s.compared * 32) → x.mad ≤ 255) ∧
      ∃ n, RoundsTo cfg.rounding s.sumSigned (s.compared * 32) n ∧ HeldTo (-128) 127 n x.shift ∧
        (x.clipped = true ↔ n < -128 ∨ 127 < n)) ∧
    (s.inspectable = 0 → x.mean = 0) ∧
    (1 ≤ s.inspectable → RoundsTo cfg.rounding s.pixelSum (s.inspectable * 32) x.mean) ∧
    x.peak = s.peak ∧ x.glare = s.glare ∧
    (x.cls = .void ↔ s.inspectable < 16) ∧
    (x.cls = .blind ↔ 16 ≤ s.inspectable ∧ cfg.glareLimit < s.glare) ∧
    (x.cls = .unref ↔ 16 ≤ s.inspectable ∧ s.glare ≤ cfg.glareLimit ∧
      (s.compared < 16 ∨ ready = false)) ∧
    (x.cls = .hit ↔ 16 ≤ s.inspectable ∧ s.glare ≤ cfg.glareLimit ∧ 16 ≤ s.compared ∧
      ready = true ∧ ∃ measures : List (Threshold × Int),
        measures = [(cfg.mad, (x.mad : Int)), (cfg.shift, x.shift), (cfg.peak, (x.peak : Int))] ∧
        (cfg.combination.getLsbD 0 = false →
          ∃ m ∈ measures, m.1.setting.getLsbD 0 = true ∧ InArea m.1 m.2) ∧
        (cfg.combination.getLsbD 0 = true →
          (∃ m ∈ measures, m.1.setting.getLsbD 0 = true) ∧
          ∀ m ∈ measures, m.1.setting.getLsbD 0 = true → InArea m.1 m.2)) ∧
    (x.severity = if x.cls = .hit ∨ x.cls = .quiet then x.peak else 0)

/-- What a line record adds to the tile slots of its band.  A row that is PRESENT adds its 32 pixels of each tile to
the inspectable rows, the pixel sum and the glare count; when the reference is READY and the row registered, the
image line of the record's index is served with it, and its 32 differences go to the compared rows, the sums and the
peak; any other row adds nothing.  No other slot, row or entry changes; the reference and the DRAM are what
learnFrom, of statement LearningContribution, makes of them (R59, R67, R71 to R73).  A DRAM byte never written reads
as a free value (log entry 3). -/
def Obligations.TileAccumulators : Prop :=
  ∀ (s : State) (rec : LineRecord) (e : Entry) (row : Row), rec.repeatEnd = false →
    findEntry (rec.line / 32) s = some e → e.rows[rec.line % 32]? = some row →
    32 * e.slots.length ≤ s.ctl.cfg.w →
    ∃ t slots, t = takeRecord rec s ∧
      findEntry (rec.line / 32) t = some { e with slots := slots } ∧
      (∀ b, b ≠ rec.line / 32 → findEntry b t = findEntry b s) ∧
      slots.length = e.slots.length ∧
      (∀ (i : Nat) slot, e.slots[i]? = some slot →
        ∃ (new : Slot) (px q : List Byte) (ds : List Int), slots[i]? = some new ∧
          px = (row.pixels.drop (32 * i)).take 32 ∧
          (row.state ≠ .present → new = slot) ∧
          (row.state = .present →
            s.ref.state ≠ .ready ∨ row.registered = false ∨ rec.index = none →
            new = { slot with
              inspectable := slot.inspectable + 1
              pixelSum := slot.pixelSum + (px.map (·.toNat)).sum
              glare := slot.glare + (px.filter fun p => p = 0 ∨ p = 255).length }) ∧
          (∀ r, row.state = .present → s.ref.state = .ready → row.registered = true →
            rec.index = some r →
            q = (List.range 32).map (fun j => dramByte s (r * s.ctl.cfg.w + 32 * i + j)) ∧
            ds = List.zipWith (fun p x => (p.toNat : Int) - (x.toNat : Int)) px q ∧
            new = { slot with
              inspectable := slot.inspectable + 1
              pixelSum := slot.pixelSum + (px.map (·.toNat)).sum
              glare := slot.glare + (px.filter fun p => p = 0 ∨ p = 255).length
              compared := slot.compared + 1
              sumAbs := slot.sumAbs + (ds.map (·.natAbs)).sum
              sumSigned := slot.sumSigned + ds.sum
              peak := new.peak } ∧
            slot.peak ≤ new.peak ∧ (∀ d ∈ ds, d.natAbs ≤ new.peak) ∧
            (new.peak = slot.peak ∨ ∃ d ∈ ds, d.natAbs = new.peak))) ∧
      t = { s with
        table := { s.table with entries := t.table.entries }
        ref := (learnFrom rec row s).ref
        dram := (learnFrom rec row s).dram }

/-! ## Closing and steering -/

/-- The close of an entry.  A side with a neighbour and no summary becomes ABSENT; the pressure level is read once;
in increasing column every own tile gets the reason, fidelity, payload, flags and record that R133 to R147 give it, a
suppressed one is counted, and one offered is taken when it fits and otherwise dropped and counted; the BAND record
is offered last, with the counts by class, the records taken, and the drop counts and bands unreported, which it sets
to 0, and one that does not fit is counted; a record that comes to the head of the queue and does not fit the open
grant retires it by space, with its completion entry, next sequence and message.  Where other commands fall into the
close, the slots before the first of them are dealt with, and the rest of the offers is still to come, the closes of
the same event waiting for it (R131, R151).  The carry map becomes the band with the columns classed HIT; the entry
is free, its pixel store kept; no other block changes (R24, R100, R101, R132, R148, R149, R151, R153, R154, R160,
R163, R181).  Which place the FREE entry takes is the model's choice (log entry 33), and so is a facing zone that
does not name a column (log entry 12), and that the field overlap says which closes other commands fall into (log
entry 29). -/
def Obligations.BandCloses : Prop :=
  ∀ (s : State) (e : Entry),
    ∃ (v t : State) (level : Nat) (o : Offering),
      t = closeEntry e s ∧ LevelOf (fill s) level ∧
      o.actions.length = e.slots.length ∧
      (∀ (i : Nat) slot act, e.slots[i]? = some slot → o.actions[i]? = some act →
        Decided s e level i slot act) ∧
      o.taken = 0 ∧ o.retired = [] ∧
      o.band =
        { station := s.ctl.station
          mode := e.row0.mode
          pressure := level
          left := closedStatus s.bus.left e.left
          right := closedStatus s.bus.right e.right
          band := e.band
          repeatNo := e.row0.repeatNo
          voids := countIn .void e.slots
          blinds := countIn .blind e.slots
          unrefs := countIn .unref e.slots
          quiets := countIn .quiet e.slots
          hits := countIn .hit e.slots
          queued := 0
          coreDrops := 0
          contextDrops := 0
          sampleDrops := 0
          unreported := 0 } ∧
      (s.overlap = [] → OffersMade o s v) ∧
      (∀ n later, s.overlap = n :: later → OffersBegun n o { s with overlap := later } v) ∧
      t = { v with
        table := { s.table with
          entries := s.table.entries.filter fun x => x.band ≠ e.band
          carryBand := some e.band
          carryCols := t.table.carryCols
          free := s.table.free ++ [e.rows.map (·.pixels)] } } ∧
      t.table.carryCols.Pairwise (· < ·) ∧
      (∀ g ∈ t.table.carryCols, ClassedHit s.ctl.cfg e g) ∧
      (∀ g, ClassedHit s.ctl.cfg e g → s.ctl.cfg.c0 / 32 ≤ g + 1 →
        g ≤ (s.ctl.cfg.c0 + s.ctl.cfg.w) / 32 → g ∈ t.table.carryCols)

/-- Two stations that hold each other as neighbour, both sides agreed, decide an overlap tile alike from the same two
verdicts.  They name the same base home, the one whose span centre is nearer the tile's, of equals the lower number;
home passes from it when it is blind and the other is not, and otherwise when its announced pressure is 2 or more and
the other's lower; exactly one is home; and the core forwarder, the only one that classes the tile HIT or of two the
one before in severity, pressure and number, is one of them, or none, for both (R134 to R136).  An ordinary tile, and
an overlap tile on a unilateral side, is home here and core here when its own class is HIT; the unilateral one
carries UNILATERAL and is held elsewhere when the zone received classes it HIT (R133, R137, R139). -/
def Obligations.OverlapAgreement : Prop :=
  (∀ (cx cy : StationConfig) (vx vy : Verdict) (zx zy : Summary) (overlap g : Nat) (sx sy : Standing),
    vx.station ≠ vy.station →
    zoneAt zx g = some { g := g, cls := vx.cls, severity := vx.severity } → zx.pressure = vx.pressure →
    zoneAt zy g = some { g := g, cls := vy.cls, severity := vy.severity } → zy.pressure = vy.pressure →
    sx = standingOf cx vx (some
      { neighbour := asNeighbour vy.station cy overlap, agreed := true, summary := some zy }) g →
    sy = standingOf cy vy (some
      { neighbour := asNeighbour vx.station cx overlap, agreed := true, summary := some zx }) g →
    ∃ xIsBase passes : Bool,
      (xIsBase = true ↔
        natDist (cx.c0 + cx.w / 2) (32 * g + 16) < natDist (cy.c0 + cy.w / 2) (32 * g + 16) ∨
        (natDist (cx.c0 + cx.w / 2) (32 * g + 16) = natDist (cy.c0 + cy.w / 2) (32 * g + 16) ∧
          vx.station.toNat < vy.station.toNat)) ∧
      isBaseHome vx.station cx (asNeighbour vy.station cy overlap) g = xIsBase ∧
      isBaseHome vy.station cy (asNeighbour vx.station cx overlap) g = !xIsBase ∧
      (∀ b o : Verdict, b = (if xIsBase = true then vx else vy) → o = (if xIsBase = true then vy else vx) →
        (passes = true ↔
          ((b.cls = .blind ∨ b.cls = .void) ∧ o.cls ≠ .blind ∧ o.cls ≠ .void) ∨
          (2 ≤ b.pressure ∧ o.pressure < b.pressure))) ∧
      (sx.home = true ↔ xIsBase ≠ passes) ∧ (sy.home = true ↔ xIsBase = passes) ∧
      (sx.handover = true ↔ sx.home = true ∧ passes = true) ∧
      (sy.handover = true ↔ sy.home = true ∧ passes = true) ∧
      sx.unilateral = false ∧ sy.unilateral = false ∧
      (sx.core = true ↔ vx.cls = .hit ∧ (vy.cls ≠ .hit ∨ vy.severity < vx.severity ∨
        (vx.severity = vy.severity ∧ (vx.pressure < vy.pressure ∨
          (vx.pressure = vy.pressure ∧ vx.station.toNat < vy.station.toNat))))) ∧
      (sx.core = true ↔ sy.elsewhere = true) ∧ (sy.core = true ↔ sx.elsewhere = true) ∧
      (vx.cls = .hit ∨ vy.cls = .hit ↔ sx.core = true ∨ sy.core = true) ∧
      ¬ (sx.core = true ∧ sy.core = true)) ∧
  ∀ (cfg : StationConfig) (own : Verdict) (g : Nat),
    standingOf cfg own none g =
      { core := decide (own.cls = .hit), elsewhere := false, home := true, handover := false,
        unilateral := false } ∧
    ∀ (v : SideView) (x : Standing), v.agreed = false → x = standingOf cfg own (some v) g →
      (x.core = true ↔ own.cls = .hit) ∧ x.home = true ∧ x.handover = false ∧ x.unilateral = true ∧
      (x.elsewhere = true ↔ ∃ z y, v.summary = some z ∧ zoneAt z g = some y ∧ y.cls = .hit)

/-! ## Decode and encode agree -/

/-- R107 to R110: whatever a frame says, its fields as they come off the line, with the CRC the sender computes, are
read back as what it says: no field of any of the five kinds is dropped. -/
def Obligations.FrameRoundTrip : Prop :=
  ∀ h : HeardFrame, h.wellFormed = true → readFrame h.raw = some h

/-- R170, R175, R176: the 256 bytes the host reads back, given again as a block, are accepted as the configuration in
force, clamps and all.  That the ignored bits are held and read back as given, on which the equality rests, is
DEDUCED and unsafe (log entry 9). -/
def Obligations.ConfigRoundTrip : Prop :=
  ∀ (b : BitVec 2048) (cfg : StationConfig), validate b = .accepted cfg →
    cfg.bytes.length = 256 ∧ validate (blockOf cfg.bytes) = .accepted cfg

/-! ## What every step keeps -/

/-- R8, R10, R28: the stamps stay at most 4, with consecutive line numbers ending below the line counter, which never
passes 4,294,967,296 and is there exactly when the line limit flag is set; and the blanking windows stay at most 4,
in increasing order, no two overlapping or adjoining. -/
def Obligations.StepKeepsStampsAndWindows : Prop :=
  ∀ s t : State, StampsOk s → WindowsOk s → step s = .next t → StampsOk t ∧ WindowsOk t

/-- R37, R45, R48: the mark queue stays in order, during a run with its marks floor(L / 4) lines apart, the step
stays within 49,152 to 81,920, and during a run the phase stays below L × 65,536. -/
def Obligations.StepKeepsTracker : Prop :=
  ∀ s t : State, MarksOk s → PhaseOk s → step s = .next t → MarksOk t ∧ PhaseOk t

/-- The DRAM stays in its canonical form, inside its 256 MiB (R55). -/
def Obligations.StepKeepsDram : Prop :=
  ∀ s t : State, DramOk s → step s = .next t → DramOk t

/-- R96, R114: the transmit queue stays at most 8 frames, by arbitration value and then by age, and the early-summary
lists stay at most 4 each, in strictly increasing band; and the heard-station list keeps one entry for each number
(R119). -/
def Obligations.StepKeepsQueues : Prop :=
  (∀ s t : State, TxQueueOk s → EarlyOk s → step s = .next t → TxQueueOk t ∧ EarlyOk t) ∧
  ∀ s t : State, HeardOk s → step s = .next t → HeardOk t

/-- R20, R89, R99, R102, R103: the order of line numbers, stamps and open bands holds on, and the entries not FREE
never exceed Hs + 1, while in STOPPING what waits for a close waits in that order; and a run does not end while
offers of a close are to come (R126, R131; log entry 29). -/
def Obligations.StepKeepsRun : Prop :=
  ∀ s t : State, RunOk s → step s = .next t →
    RunOk t ∧ (t.bus.op = .running → t.table.entries.length ≤ t.ctl.cfg.hs + 1) ∧
      (OfferingOk s → OfferingOk t)

/-- R151, R157, R160: the fill never exceeds the capacity of the output queue, and the grants stay in form and in
number, no open grant being left due to be retired by space. -/
def Obligations.StepKeepsPort : Prop :=
  ∀ s t : State, FillOk s → GrantsOk s → step s = .next t → FillOk t ∧ GrantsOk t

/-- The state after reset is sound: every invariant above holds of it. -/
def Obligations.ResetIsSound : Prop := Sound State.reset

end
end

