-- ==== Sys2Proof/Laws/State.lean ====
section
/-! SUPPORT. One lemma per field per update of `State`, true by `rfl`: no later proof unfolds an update. -/

namespace Sys2Proof.Machine

variable (s : State)

section
variable (f : Encoder → Encoder)

@[simp] theorem State.updEncoder_encoder : (s.updEncoder f).encoder = f s.encoder := rfl
@[simp] theorem State.updEncoder_intake : (s.updEncoder f).intake = s.intake := rfl
@[simp] theorem State.updEncoder_tracker : (s.updEncoder f).tracker = s.tracker := rfl
@[simp] theorem State.updEncoder_ref : (s.updEncoder f).ref = s.ref := rfl
@[simp] theorem State.updEncoder_table : (s.updEncoder f).table = s.table := rfl
@[simp] theorem State.updEncoder_bus : (s.updEncoder f).bus = s.bus := rfl
@[simp] theorem State.updEncoder_port : (s.updEncoder f).port = s.port := rfl
@[simp] theorem State.updEncoder_ctl : (s.updEncoder f).ctl = s.ctl := rfl
@[simp] theorem State.updEncoder_counters : (s.updEncoder f).counters = s.counters := rfl
@[simp] theorem State.updEncoder_dram : (s.updEncoder f).dram = s.dram := rfl
@[simp] theorem State.updEncoder_outputs : (s.updEncoder f).outputs = s.outputs := rfl
@[simp] theorem State.updEncoder_powerCycles : (s.updEncoder f).powerCycles = s.powerCycles := rfl
@[simp] theorem State.updEncoder_draws : (s.updEncoder f).draws = s.draws := rfl
@[simp] theorem State.updEncoder_pending : (s.updEncoder f).pending = s.pending := rfl
@[simp] theorem State.updEncoder_overlap : (s.updEncoder f).overlap = s.overlap := rfl
end

section
variable (f : Intake → Intake)

@[simp] theorem State.updIntake_encoder : (s.updIntake f).encoder = s.encoder := rfl
@[simp] theorem State.updIntake_intake : (s.updIntake f).intake = f s.intake := rfl
@[simp] theorem State.updIntake_tracker : (s.updIntake f).tracker = s.tracker := rfl
@[simp] theorem State.updIntake_ref : (s.updIntake f).ref = s.ref := rfl
@[simp] theorem State.updIntake_table : (s.updIntake f).table = s.table := rfl
@[simp] theorem State.updIntake_bus : (s.updIntake f).bus = s.bus := rfl
@[simp] theorem State.updIntake_port : (s.updIntake f).port = s.port := rfl
@[simp] theorem State.updIntake_ctl : (s.updIntake f).ctl = s.ctl := rfl
@[simp] theorem State.updIntake_counters : (s.updIntake f).counters = s.counters := rfl
@[simp] theorem State.updIntake_dram : (s.updIntake f).dram = s.dram := rfl
@[simp] theorem State.updIntake_outputs : (s.updIntake f).outputs = s.outputs := rfl
@[simp] theorem State.updIntake_powerCycles : (s.updIntake f).powerCycles = s.powerCycles := rfl
@[simp] theorem State.updIntake_draws : (s.updIntake f).draws = s.draws := rfl
@[simp] theorem State.updIntake_pending : (s.updIntake f).pending = s.pending := rfl
@[simp] theorem State.updIntake_overlap : (s.updIntake f).overlap = s.overlap := rfl
end

section
variable (f : Tracker → Tracker)

@[simp] theorem State.updTracker_encoder : (s.updTracker f).encoder = s.encoder := rfl
@[simp] theorem State.updTracker_intake : (s.updTracker f).intake = s.intake := rfl
@[simp] theorem State.updTracker_tracker : (s.updTracker f).tracker = f s.tracker := rfl
@[simp] theorem State.updTracker_ref : (s.updTracker f).ref = s.ref := rfl
@[simp] theorem State.updTracker_table : (s.updTracker f).table = s.table := rfl
@[simp] theorem State.updTracker_bus : (s.updTracker f).bus = s.bus := rfl
@[simp] theorem State.updTracker_port : (s.updTracker f).port = s.port := rfl
@[simp] theorem State.updTracker_ctl : (s.updTracker f).ctl = s.ctl := rfl
@[simp] theorem State.updTracker_counters : (s.updTracker f).counters = s.counters := rfl
@[simp] theorem State.updTracker_dram : (s.updTracker f).dram = s.dram := rfl
@[simp] theorem State.updTracker_outputs : (s.updTracker f).outputs = s.outputs := rfl
@[simp] theorem State.updTracker_powerCycles : (s.updTracker f).powerCycles = s.powerCycles := rfl
@[simp] theorem State.updTracker_draws : (s.updTracker f).draws = s.draws := rfl
@[simp] theorem State.updTracker_pending : (s.updTracker f).pending = s.pending := rfl
@[simp] theorem State.updTracker_overlap : (s.updTracker f).overlap = s.overlap := rfl
end

section
variable (f : RefCtl → RefCtl)

@[simp] theorem State.updRef_encoder : (s.updRef f).encoder = s.encoder := rfl
@[simp] theorem State.updRef_intake : (s.updRef f).intake = s.intake := rfl
@[simp] theorem State.updRef_tracker : (s.updRef f).tracker = s.tracker := rfl
@[simp] theorem State.updRef_ref : (s.updRef f).ref = f s.ref := rfl
@[simp] theorem State.updRef_table : (s.updRef f).table = s.table := rfl
@[simp] theorem State.updRef_bus : (s.updRef f).bus = s.bus := rfl
@[simp] theorem State.updRef_port : (s.updRef f).port = s.port := rfl
@[simp] theorem State.updRef_ctl : (s.updRef f).ctl = s.ctl := rfl
@[simp] theorem State.updRef_counters : (s.updRef f).counters = s.counters := rfl
@[simp] theorem State.updRef_dram : (s.updRef f).dram = s.dram := rfl
@[simp] theorem State.updRef_outputs : (s.updRef f).outputs = s.outputs := rfl
@[simp] theorem State.updRef_powerCycles : (s.updRef f).powerCycles = s.powerCycles := rfl
@[simp] theorem State.updRef_draws : (s.updRef f).draws = s.draws := rfl
@[simp] theorem State.updRef_pending : (s.updRef f).pending = s.pending := rfl
@[simp] theorem State.updRef_overlap : (s.updRef f).overlap = s.overlap := rfl
end

section
variable (f : BandTable → BandTable)

@[simp] theorem State.updTable_encoder : (s.updTable f).encoder = s.encoder := rfl
@[simp] theorem State.updTable_intake : (s.updTable f).intake = s.intake := rfl
@[simp] theorem State.updTable_tracker : (s.updTable f).tracker = s.tracker := rfl
@[simp] theorem State.updTable_ref : (s.updTable f).ref = s.ref := rfl
@[simp] theorem State.updTable_table : (s.updTable f).table = f s.table := rfl
@[simp] theorem State.updTable_bus : (s.updTable f).bus = s.bus := rfl
@[simp] theorem State.updTable_port : (s.updTable f).port = s.port := rfl
@[simp] theorem State.updTable_ctl : (s.updTable f).ctl = s.ctl := rfl
@[simp] theorem State.updTable_counters : (s.updTable f).counters = s.counters := rfl
@[simp] theorem State.updTable_dram : (s.updTable f).dram = s.dram := rfl
@[simp] theorem State.updTable_outputs : (s.updTable f).outputs = s.outputs := rfl
@[simp] theorem State.updTable_powerCycles : (s.updTable f).powerCycles = s.powerCycles := rfl
@[simp] theorem State.updTable_draws : (s.updTable f).draws = s.draws := rfl
@[simp] theorem State.updTable_pending : (s.updTable f).pending = s.pending := rfl
@[simp] theorem State.updTable_overlap : (s.updTable f).overlap = s.overlap := rfl
end

section
variable (f : SpanBus → SpanBus)

@[simp] theorem State.updBus_encoder : (s.updBus f).encoder = s.encoder := rfl
@[simp] theorem State.updBus_intake : (s.updBus f).intake = s.intake := rfl
@[simp] theorem State.updBus_tracker : (s.updBus f).tracker = s.tracker := rfl
@[simp] theorem State.updBus_ref : (s.updBus f).ref = s.ref := rfl
@[simp] theorem State.updBus_table : (s.updBus f).table = s.table := rfl
@[simp] theorem State.updBus_bus : (s.updBus f).bus = f s.bus := rfl
@[simp] theorem State.updBus_port : (s.updBus f).port = s.port := rfl
@[simp] theorem State.updBus_ctl : (s.updBus f).ctl = s.ctl := rfl
@[simp] theorem State.updBus_counters : (s.updBus f).counters = s.counters := rfl
@[simp] theorem State.updBus_dram : (s.updBus f).dram = s.dram := rfl
@[simp] theorem State.updBus_outputs : (s.updBus f).outputs = s.outputs := rfl
@[simp] theorem State.updBus_powerCycles : (s.updBus f).powerCycles = s.powerCycles := rfl
@[simp] theorem State.updBus_draws : (s.updBus f).draws = s.draws := rfl
@[simp] theorem State.updBus_pending : (s.updBus f).pending = s.pending := rfl
@[simp] theorem State.updBus_overlap : (s.updBus f).overlap = s.overlap := rfl
end

section
variable (f : Port → Port)

@[simp] theorem State.updPort_encoder : (s.updPort f).encoder = s.encoder := rfl
@[simp] theorem State.updPort_intake : (s.updPort f).intake = s.intake := rfl
@[simp] theorem State.updPort_tracker : (s.updPort f).tracker = s.tracker := rfl
@[simp] theorem State.updPort_ref : (s.updPort f).ref = s.ref := rfl
@[simp] theorem State.updPort_table : (s.updPort f).table = s.table := rfl
@[simp] theorem State.updPort_bus : (s.updPort f).bus = s.bus := rfl
@[simp] theorem State.updPort_port : (s.updPort f).port = f s.port := rfl
@[simp] theorem State.updPort_ctl : (s.updPort f).ctl = s.ctl := rfl
@[simp] theorem State.updPort_counters : (s.updPort f).counters = s.counters := rfl
@[simp] theorem State.updPort_dram : (s.updPort f).dram = s.dram := rfl
@[simp] theorem State.updPort_outputs : (s.updPort f).outputs = s.outputs := rfl
@[simp] theorem State.updPort_powerCycles : (s.updPort f).powerCycles = s.powerCycles := rfl
@[simp] theorem State.updPort_draws : (s.updPort f).draws = s.draws := rfl
@[simp] theorem State.updPort_pending : (s.updPort f).pending = s.pending := rfl
@[simp] theorem State.updPort_overlap : (s.updPort f).overlap = s.overlap := rfl
end

section
variable (f : Control → Control)

@[simp] theorem State.updCtl_encoder : (s.updCtl f).encoder = s.encoder := rfl
@[simp] theorem State.updCtl_intake : (s.updCtl f).intake = s.intake := rfl
@[simp] theorem State.updCtl_tracker : (s.updCtl f).tracker = s.tracker := rfl
@[simp] theorem State.updCtl_ref : (s.updCtl f).ref = s.ref := rfl
@[simp] theorem State.updCtl_table : (s.updCtl f).table = s.table := rfl
@[simp] theorem State.updCtl_bus : (s.updCtl f).bus = s.bus := rfl
@[simp] theorem State.updCtl_port : (s.updCtl f).port = s.port := rfl
@[simp] theorem State.updCtl_ctl : (s.updCtl f).ctl = f s.ctl := rfl
@[simp] theorem State.updCtl_counters : (s.updCtl f).counters = s.counters := rfl
@[simp] theorem State.updCtl_dram : (s.updCtl f).dram = s.dram := rfl
@[simp] theorem State.updCtl_outputs : (s.updCtl f).outputs = s.outputs := rfl
@[simp] theorem State.updCtl_powerCycles : (s.updCtl f).powerCycles = s.powerCycles := rfl
@[simp] theorem State.updCtl_draws : (s.updCtl f).draws = s.draws := rfl
@[simp] theorem State.updCtl_pending : (s.updCtl f).pending = s.pending := rfl
@[simp] theorem State.updCtl_overlap : (s.updCtl f).overlap = s.overlap := rfl
end

section
variable (f : Counters → Counters)

@[simp] theorem State.updCounters_encoder : (s.updCounters f).encoder = s.encoder := rfl
@[simp] theorem State.updCounters_intake : (s.updCounters f).intake = s.intake := rfl
@[simp] theorem State.updCounters_tracker : (s.updCounters f).tracker = s.tracker := rfl
@[simp] theorem State.updCounters_ref : (s.updCounters f).ref = s.ref := rfl
@[simp] theorem State.updCounters_table : (s.updCounters f).table = s.table := rfl
@[simp] theorem State.updCounters_bus : (s.updCounters f).bus = s.bus := rfl
@[simp] theorem State.updCounters_port : (s.updCounters f).port = s.port := rfl
@[simp] theorem State.updCounters_ctl : (s.updCounters f).ctl = s.ctl := rfl
@[simp] theorem State.updCounters_counters : (s.updCounters f).counters = f s.counters := rfl
@[simp] theorem State.updCounters_dram : (s.updCounters f).dram = s.dram := rfl
@[simp] theorem State.updCounters_outputs : (s.updCounters f).outputs = s.outputs := rfl
@[simp] theorem State.updCounters_powerCycles : (s.updCounters f).powerCycles = s.powerCycles := rfl
@[simp] theorem State.updCounters_draws : (s.updCounters f).draws = s.draws := rfl
@[simp] theorem State.updCounters_pending : (s.updCounters f).pending = s.pending := rfl
@[simp] theorem State.updCounters_overlap : (s.updCounters f).overlap = s.overlap := rfl
end

section
variable (f : List Host.Cell → List Host.Cell)

@[simp] theorem State.updDram_encoder : (s.updDram f).encoder = s.encoder := rfl
@[simp] theorem State.updDram_intake : (s.updDram f).intake = s.intake := rfl
@[simp] theorem State.updDram_tracker : (s.updDram f).tracker = s.tracker := rfl
@[simp] theorem State.updDram_ref : (s.updDram f).ref = s.ref := rfl
@[simp] theorem State.updDram_table : (s.updDram f).table = s.table := rfl
@[simp] theorem State.updDram_bus : (s.updDram f).bus = s.bus := rfl
@[simp] theorem State.updDram_port : (s.updDram f).port = s.port := rfl
@[simp] theorem State.updDram_ctl : (s.updDram f).ctl = s.ctl := rfl
@[simp] theorem State.updDram_counters : (s.updDram f).counters = s.counters := rfl
@[simp] theorem State.updDram_dram : (s.updDram f).dram = f s.dram := rfl
@[simp] theorem State.updDram_outputs : (s.updDram f).outputs = s.outputs := rfl
@[simp] theorem State.updDram_powerCycles : (s.updDram f).powerCycles = s.powerCycles := rfl
@[simp] theorem State.updDram_draws : (s.updDram f).draws = s.draws := rfl
@[simp] theorem State.updDram_pending : (s.updDram f).pending = s.pending := rfl
@[simp] theorem State.updDram_overlap : (s.updDram f).overlap = s.overlap := rfl
end

section
variable (f : List Output → List Output)

@[simp] theorem State.updOutputs_encoder : (s.updOutputs f).encoder = s.encoder := rfl
@[simp] theorem State.updOutputs_intake : (s.updOutputs f).intake = s.intake := rfl
@[simp] theorem State.updOutputs_tracker : (s.updOutputs f).tracker = s.tracker := rfl
@[simp] theorem State.updOutputs_ref : (s.updOutputs f).ref = s.ref := rfl
@[simp] theorem State.updOutputs_table : (s.updOutputs f).table = s.table := rfl
@[simp] theorem State.updOutputs_bus : (s.updOutputs f).bus = s.bus := rfl
@[simp] theorem State.updOutputs_port : (s.updOutputs f).port = s.port := rfl
@[simp] theorem State.updOutputs_ctl : (s.updOutputs f).ctl = s.ctl := rfl
@[simp] theorem State.updOutputs_counters : (s.updOutputs f).counters = s.counters := rfl
@[simp] theorem State.updOutputs_dram : (s.updOutputs f).dram = s.dram := rfl
@[simp] theorem State.updOutputs_outputs : (s.updOutputs f).outputs = f s.outputs := rfl
@[simp] theorem State.updOutputs_powerCycles : (s.updOutputs f).powerCycles = s.powerCycles := rfl
@[simp] theorem State.updOutputs_draws : (s.updOutputs f).draws = s.draws := rfl
@[simp] theorem State.updOutputs_pending : (s.updOutputs f).pending = s.pending := rfl
@[simp] theorem State.updOutputs_overlap : (s.updOutputs f).overlap = s.overlap := rfl
end

section
variable (f : Nat → Nat)

@[simp] theorem State.updPowerCycles_encoder : (s.updPowerCycles f).encoder = s.encoder := rfl
@[simp] theorem State.updPowerCycles_intake : (s.updPowerCycles f).intake = s.intake := rfl
@[simp] theorem State.updPowerCycles_tracker : (s.updPowerCycles f).tracker = s.tracker := rfl
@[simp] theorem State.updPowerCycles_ref : (s.updPowerCycles f).ref = s.ref := rfl
@[simp] theorem State.updPowerCycles_table : (s.updPowerCycles f).table = s.table := rfl
@[simp] theorem State.updPowerCycles_bus : (s.updPowerCycles f).bus = s.bus := rfl
@[simp] theorem State.updPowerCycles_port : (s.updPowerCycles f).port = s.port := rfl
@[simp] theorem State.updPowerCycles_ctl : (s.updPowerCycles f).ctl = s.ctl := rfl
@[simp] theorem State.updPowerCycles_counters : (s.updPowerCycles f).counters = s.counters := rfl
@[simp] theorem State.updPowerCycles_dram : (s.updPowerCycles f).dram = s.dram := rfl
@[simp] theorem State.updPowerCycles_outputs : (s.updPowerCycles f).outputs = s.outputs := rfl
@[simp] theorem State.updPowerCycles_powerCycles : (s.updPowerCycles f).powerCycles = f s.powerCycles := rfl
@[simp] theorem State.updPowerCycles_draws : (s.updPowerCycles f).draws = s.draws := rfl
@[simp] theorem State.updPowerCycles_pending : (s.updPowerCycles f).pending = s.pending := rfl
@[simp] theorem State.updPowerCycles_overlap : (s.updPowerCycles f).overlap = s.overlap := rfl
end

section
variable (f : Nat → Nat)

@[simp] theorem State.updDraws_encoder : (s.updDraws f).encoder = s.encoder := rfl
@[simp] theorem State.updDraws_intake : (s.updDraws f).intake = s.intake := rfl
@[simp] theorem State.updDraws_tracker : (s.updDraws f).tracker = s.tracker := rfl
@[simp] theorem State.updDraws_ref : (s.updDraws f).ref = s.ref := rfl
@[simp] theorem State.updDraws_table : (s.updDraws f).table = s.table := rfl
@[simp] theorem State.updDraws_bus : (s.updDraws f).bus = s.bus := rfl
@[simp] theorem State.updDraws_port : (s.updDraws f).port = s.port := rfl
@[simp] theorem State.updDraws_ctl : (s.updDraws f).ctl = s.ctl := rfl
@[simp] theorem State.updDraws_counters : (s.updDraws f).counters = s.counters := rfl
@[simp] theorem State.updDraws_dram : (s.updDraws f).dram = s.dram := rfl
@[simp] theorem State.updDraws_outputs : (s.updDraws f).outputs = s.outputs := rfl
@[simp] theorem State.updDraws_powerCycles : (s.updDraws f).powerCycles = s.powerCycles := rfl
@[simp] theorem State.updDraws_draws : (s.updDraws f).draws = f s.draws := rfl
@[simp] theorem State.updDraws_pending : (s.updDraws f).pending = s.pending := rfl
@[simp] theorem State.updDraws_overlap : (s.updDraws f).overlap = s.overlap := rfl
end

section
variable (f : List Instr → List Instr)

@[simp] theorem State.updPending_encoder : (s.updPending f).encoder = s.encoder := rfl
@[simp] theorem State.updPending_intake : (s.updPending f).intake = s.intake := rfl
@[simp] theorem State.updPending_tracker : (s.updPending f).tracker = s.tracker := rfl
@[simp] theorem State.updPending_ref : (s.updPending f).ref = s.ref := rfl
@[simp] theorem State.updPending_table : (s.updPending f).table = s.table := rfl
@[simp] theorem State.updPending_bus : (s.updPending f).bus = s.bus := rfl
@[simp] theorem State.updPending_port : (s.updPending f).port = s.port := rfl
@[simp] theorem State.updPending_ctl : (s.updPending f).ctl = s.ctl := rfl
@[simp] theorem State.updPending_counters : (s.updPending f).counters = s.counters := rfl
@[simp] theorem State.updPending_dram : (s.updPending f).dram = s.dram := rfl
@[simp] theorem State.updPending_outputs : (s.updPending f).outputs = s.outputs := rfl
@[simp] theorem State.updPending_powerCycles : (s.updPending f).powerCycles = s.powerCycles := rfl
@[simp] theorem State.updPending_draws : (s.updPending f).draws = s.draws := rfl
@[simp] theorem State.updPending_pending : (s.updPending f).pending = f s.pending := rfl
@[simp] theorem State.updPending_overlap : (s.updPending f).overlap = s.overlap := rfl
end

section
variable (f : List Nat → List Nat)

@[simp] theorem State.updOverlap_encoder : (s.updOverlap f).encoder = s.encoder := rfl
@[simp] theorem State.updOverlap_intake : (s.updOverlap f).intake = s.intake := rfl
@[simp] theorem State.updOverlap_tracker : (s.updOverlap f).tracker = s.tracker := rfl
@[simp] theorem State.updOverlap_ref : (s.updOverlap f).ref = s.ref := rfl
@[simp] theorem State.updOverlap_table : (s.updOverlap f).table = s.table := rfl
@[simp] theorem State.updOverlap_bus : (s.updOverlap f).bus = s.bus := rfl
@[simp] theorem State.updOverlap_port : (s.updOverlap f).port = s.port := rfl
@[simp] theorem State.updOverlap_ctl : (s.updOverlap f).ctl = s.ctl := rfl
@[simp] theorem State.updOverlap_counters : (s.updOverlap f).counters = s.counters := rfl
@[simp] theorem State.updOverlap_dram : (s.updOverlap f).dram = s.dram := rfl
@[simp] theorem State.updOverlap_outputs : (s.updOverlap f).outputs = s.outputs := rfl
@[simp] theorem State.updOverlap_powerCycles : (s.updOverlap f).powerCycles = s.powerCycles := rfl
@[simp] theorem State.updOverlap_draws : (s.updOverlap f).draws = s.draws := rfl
@[simp] theorem State.updOverlap_pending : (s.updOverlap f).pending = s.pending := rfl
@[simp] theorem State.updOverlap_overlap : (s.updOverlap f).overlap = f s.overlap := rfl
end

end Sys2Proof.Machine
end

