-- ==== Sys2Proof/Laws/Frames.lean ====
section
/-! SUPPORT. The frame of every shared operation: one lemma for each block of the state that the operation
leaves as it was, so that no later proof unfolds an operation to see that. -/

namespace Sys2Proof.Machine

variable (s : State)

/-! ## Ops -/

@[simp] theorem addTo_encoder (k : Counter) (n : Nat) : (addTo k n s).encoder = s.encoder := by
  rfl
@[simp] theorem addTo_intake (k : Counter) (n : Nat) : (addTo k n s).intake = s.intake := by
  rfl
@[simp] theorem addTo_tracker (k : Counter) (n : Nat) : (addTo k n s).tracker = s.tracker := by
  rfl
@[simp] theorem addTo_ref (k : Counter) (n : Nat) : (addTo k n s).ref = s.ref := by
  rfl
@[simp] theorem addTo_table (k : Counter) (n : Nat) : (addTo k n s).table = s.table := by
  rfl
@[simp] theorem addTo_bus (k : Counter) (n : Nat) : (addTo k n s).bus = s.bus := by
  rfl
@[simp] theorem addTo_port (k : Counter) (n : Nat) : (addTo k n s).port = s.port := by
  rfl
@[simp] theorem addTo_ctl (k : Counter) (n : Nat) : (addTo k n s).ctl = s.ctl := by
  rfl
@[simp] theorem addTo_dram (k : Counter) (n : Nat) : (addTo k n s).dram = s.dram := by
  rfl
@[simp] theorem addTo_outputs (k : Counter) (n : Nat) : (addTo k n s).outputs = s.outputs := by
  rfl
@[simp] theorem addTo_powerCycles (k : Counter) (n : Nat) : (addTo k n s).powerCycles = s.powerCycles := by
  rfl
@[simp] theorem addTo_draws (k : Counter) (n : Nat) : (addTo k n s).draws = s.draws := by
  rfl
@[simp] theorem addTo_pending (k : Counter) (n : Nat) : (addTo k n s).pending = s.pending := by
  rfl
@[simp] theorem addTo_overlap (k : Counter) (n : Nat) : (addTo k n s).overlap = s.overlap := by
  rfl

@[simp] theorem bump_encoder (k : Counter) : (bump k s).encoder = s.encoder := by
  rfl
@[simp] theorem bump_intake (k : Counter) : (bump k s).intake = s.intake := by
  rfl
@[simp] theorem bump_tracker (k : Counter) : (bump k s).tracker = s.tracker := by
  rfl
@[simp] theorem bump_ref (k : Counter) : (bump k s).ref = s.ref := by
  rfl
@[simp] theorem bump_table (k : Counter) : (bump k s).table = s.table := by
  rfl
@[simp] theorem bump_bus (k : Counter) : (bump k s).bus = s.bus := by
  rfl
@[simp] theorem bump_port (k : Counter) : (bump k s).port = s.port := by
  rfl
@[simp] theorem bump_ctl (k : Counter) : (bump k s).ctl = s.ctl := by
  rfl
@[simp] theorem bump_dram (k : Counter) : (bump k s).dram = s.dram := by
  rfl
@[simp] theorem bump_outputs (k : Counter) : (bump k s).outputs = s.outputs := by
  rfl
@[simp] theorem bump_powerCycles (k : Counter) : (bump k s).powerCycles = s.powerCycles := by
  rfl
@[simp] theorem bump_draws (k : Counter) : (bump k s).draws = s.draws := by
  rfl
@[simp] theorem bump_pending (k : Counter) : (bump k s).pending = s.pending := by
  rfl
@[simp] theorem bump_overlap (k : Counter) : (bump k s).overlap = s.overlap := by
  rfl

@[simp] theorem emit_encoder (o : Output) : (emit o s).encoder = s.encoder := by
  rfl
@[simp] theorem emit_intake (o : Output) : (emit o s).intake = s.intake := by
  rfl
@[simp] theorem emit_tracker (o : Output) : (emit o s).tracker = s.tracker := by
  rfl
@[simp] theorem emit_ref (o : Output) : (emit o s).ref = s.ref := by
  rfl
@[simp] theorem emit_table (o : Output) : (emit o s).table = s.table := by
  rfl
@[simp] theorem emit_bus (o : Output) : (emit o s).bus = s.bus := by
  rfl
@[simp] theorem emit_port (o : Output) : (emit o s).port = s.port := by
  rfl
@[simp] theorem emit_ctl (o : Output) : (emit o s).ctl = s.ctl := by
  rfl
@[simp] theorem emit_counters (o : Output) : (emit o s).counters = s.counters := by
  rfl
@[simp] theorem emit_dram (o : Output) : (emit o s).dram = s.dram := by
  rfl
@[simp] theorem emit_powerCycles (o : Output) : (emit o s).powerCycles = s.powerCycles := by
  rfl
@[simp] theorem emit_draws (o : Output) : (emit o s).draws = s.draws := by
  rfl
@[simp] theorem emit_pending (o : Output) : (emit o s).pending = s.pending := by
  rfl
@[simp] theorem emit_overlap (o : Output) : (emit o s).overlap = s.overlap := by
  rfl

@[simp] theorem attention_encoder : (attention s).encoder = s.encoder := by
  unfold attention; split <;> simp
@[simp] theorem attention_intake : (attention s).intake = s.intake := by
  unfold attention; split <;> simp
@[simp] theorem attention_tracker : (attention s).tracker = s.tracker := by
  unfold attention; split <;> simp
@[simp] theorem attention_ref : (attention s).ref = s.ref := by
  unfold attention; split <;> simp
@[simp] theorem attention_table : (attention s).table = s.table := by
  unfold attention; split <;> simp
@[simp] theorem attention_bus : (attention s).bus = s.bus := by
  unfold attention; split <;> simp
@[simp] theorem attention_port : (attention s).port = s.port := by
  unfold attention; split <;> simp
@[simp] theorem attention_ctl : (attention s).ctl = s.ctl := by
  unfold attention; split <;> simp
@[simp] theorem attention_counters : (attention s).counters = s.counters := by
  unfold attention; split <;> simp
@[simp] theorem attention_dram : (attention s).dram = s.dram := by
  unfold attention; split <;> simp
@[simp] theorem attention_powerCycles : (attention s).powerCycles = s.powerCycles := by
  unfold attention; split <;> simp
@[simp] theorem attention_draws : (attention s).draws = s.draws := by
  unfold attention; split <;> simp
@[simp] theorem attention_pending : (attention s).pending = s.pending := by
  unfold attention; split <;> simp
@[simp] theorem attention_overlap : (attention s).overlap = s.overlap := by
  unfold attention; split <;> simp

@[simp] theorem dramWrite_encoder (a : Nat) (bytes : List Byte) : (dramWrite a bytes s).encoder = s.encoder := by
  rfl
@[simp] theorem dramWrite_intake (a : Nat) (bytes : List Byte) : (dramWrite a bytes s).intake = s.intake := by
  rfl
@[simp] theorem dramWrite_tracker (a : Nat) (bytes : List Byte) : (dramWrite a bytes s).tracker = s.tracker := by
  rfl
@[simp] theorem dramWrite_ref (a : Nat) (bytes : List Byte) : (dramWrite a bytes s).ref = s.ref := by
  rfl
@[simp] theorem dramWrite_table (a : Nat) (bytes : List Byte) : (dramWrite a bytes s).table = s.table := by
  rfl
@[simp] theorem dramWrite_bus (a : Nat) (bytes : List Byte) : (dramWrite a bytes s).bus = s.bus := by
  rfl
@[simp] theorem dramWrite_port (a : Nat) (bytes : List Byte) : (dramWrite a bytes s).port = s.port := by
  rfl
@[simp] theorem dramWrite_ctl (a : Nat) (bytes : List Byte) : (dramWrite a bytes s).ctl = s.ctl := by
  rfl
@[simp] theorem dramWrite_counters (a : Nat) (bytes : List Byte) : (dramWrite a bytes s).counters = s.counters := by
  rfl
@[simp] theorem dramWrite_outputs (a : Nat) (bytes : List Byte) : (dramWrite a bytes s).outputs = s.outputs := by
  rfl
@[simp] theorem dramWrite_powerCycles (a : Nat) (bytes : List Byte) : (dramWrite a bytes s).powerCycles = s.powerCycles := by
  rfl
@[simp] theorem dramWrite_draws (a : Nat) (bytes : List Byte) : (dramWrite a bytes s).draws = s.draws := by
  rfl
@[simp] theorem dramWrite_pending (a : Nat) (bytes : List Byte) : (dramWrite a bytes s).pending = s.pending := by
  rfl
@[simp] theorem dramWrite_overlap (a : Nat) (bytes : List Byte) : (dramWrite a bytes s).overlap = s.overlap := by
  rfl

/-! ## Delivery -/

@[simp] theorem retireGrant_encoder (flag : RetireFlag) : (retireGrant flag s).encoder = s.encoder := by
  simp only [retireGrant]; (repeat' split) <;> simp
@[simp] theorem retireGrant_intake (flag : RetireFlag) : (retireGrant flag s).intake = s.intake := by
  simp only [retireGrant]; (repeat' split) <;> simp
@[simp] theorem retireGrant_tracker (flag : RetireFlag) : (retireGrant flag s).tracker = s.tracker := by
  simp only [retireGrant]; (repeat' split) <;> simp
@[simp] theorem retireGrant_ref (flag : RetireFlag) : (retireGrant flag s).ref = s.ref := by
  simp only [retireGrant]; (repeat' split) <;> simp
@[simp] theorem retireGrant_table (flag : RetireFlag) : (retireGrant flag s).table = s.table := by
  simp only [retireGrant]; (repeat' split) <;> simp
@[simp] theorem retireGrant_bus (flag : RetireFlag) : (retireGrant flag s).bus = s.bus := by
  simp only [retireGrant]; (repeat' split) <;> simp
@[simp] theorem retireGrant_ctl (flag : RetireFlag) : (retireGrant flag s).ctl = s.ctl := by
  simp only [retireGrant]; (repeat' split) <;> simp
@[simp] theorem retireGrant_counters (flag : RetireFlag) : (retireGrant flag s).counters = s.counters := by
  simp only [retireGrant]; (repeat' split) <;> simp
@[simp] theorem retireGrant_dram (flag : RetireFlag) : (retireGrant flag s).dram = s.dram := by
  simp only [retireGrant]; (repeat' split) <;> simp
@[simp] theorem retireGrant_powerCycles (flag : RetireFlag) : (retireGrant flag s).powerCycles = s.powerCycles := by
  simp only [retireGrant]; (repeat' split) <;> simp
@[simp] theorem retireGrant_draws (flag : RetireFlag) : (retireGrant flag s).draws = s.draws := by
  simp only [retireGrant]; (repeat' split) <;> simp
@[simp] theorem retireGrant_pending (flag : RetireFlag) : (retireGrant flag s).pending = s.pending := by
  simp only [retireGrant]; (repeat' split) <;> simp
@[simp] theorem retireGrant_overlap (flag : RetireFlag) : (retireGrant flag s).overlap = s.overlap := by
  simp only [retireGrant]; (repeat' split) <;> simp

@[simp] theorem spaceTest_encoder : (spaceTest s).encoder = s.encoder := by
  unfold spaceTest; split <;> simp
@[simp] theorem spaceTest_intake : (spaceTest s).intake = s.intake := by
  unfold spaceTest; split <;> simp
@[simp] theorem spaceTest_tracker : (spaceTest s).tracker = s.tracker := by
  unfold spaceTest; split <;> simp
@[simp] theorem spaceTest_ref : (spaceTest s).ref = s.ref := by
  unfold spaceTest; split <;> simp
@[simp] theorem spaceTest_table : (spaceTest s).table = s.table := by
  unfold spaceTest; split <;> simp
@[simp] theorem spaceTest_bus : (spaceTest s).bus = s.bus := by
  unfold spaceTest; split <;> simp
@[simp] theorem spaceTest_ctl : (spaceTest s).ctl = s.ctl := by
  unfold spaceTest; split <;> simp
@[simp] theorem spaceTest_counters : (spaceTest s).counters = s.counters := by
  unfold spaceTest; split <;> simp
@[simp] theorem spaceTest_dram : (spaceTest s).dram = s.dram := by
  unfold spaceTest; split <;> simp
@[simp] theorem spaceTest_powerCycles : (spaceTest s).powerCycles = s.powerCycles := by
  unfold spaceTest; split <;> simp
@[simp] theorem spaceTest_draws : (spaceTest s).draws = s.draws := by
  unfold spaceTest; split <;> simp
@[simp] theorem spaceTest_pending : (spaceTest s).pending = s.pending := by
  unfold spaceTest; split <;> simp
@[simp] theorem spaceTest_overlap : (spaceTest s).overlap = s.overlap := by
  unfold spaceTest; split <;> simp

@[simp] theorem joinQueue_encoder (r : Rec) : (joinQueue r s).encoder = s.encoder := by
  simp [joinQueue]
@[simp] theorem joinQueue_intake (r : Rec) : (joinQueue r s).intake = s.intake := by
  simp [joinQueue]
@[simp] theorem joinQueue_tracker (r : Rec) : (joinQueue r s).tracker = s.tracker := by
  simp [joinQueue]
@[simp] theorem joinQueue_ref (r : Rec) : (joinQueue r s).ref = s.ref := by
  simp [joinQueue]
@[simp] theorem joinQueue_table (r : Rec) : (joinQueue r s).table = s.table := by
  simp [joinQueue]
@[simp] theorem joinQueue_bus (r : Rec) : (joinQueue r s).bus = s.bus := by
  simp [joinQueue]
@[simp] theorem joinQueue_ctl (r : Rec) : (joinQueue r s).ctl = s.ctl := by
  simp [joinQueue]
@[simp] theorem joinQueue_counters (r : Rec) : (joinQueue r s).counters = s.counters := by
  simp [joinQueue]
@[simp] theorem joinQueue_dram (r : Rec) : (joinQueue r s).dram = s.dram := by
  simp [joinQueue]
@[simp] theorem joinQueue_powerCycles (r : Rec) : (joinQueue r s).powerCycles = s.powerCycles := by
  simp [joinQueue]
@[simp] theorem joinQueue_draws (r : Rec) : (joinQueue r s).draws = s.draws := by
  simp [joinQueue]
@[simp] theorem joinQueue_pending (r : Rec) : (joinQueue r s).pending = s.pending := by
  simp [joinQueue]
@[simp] theorem joinQueue_overlap (r : Rec) : (joinQueue r s).overlap = s.overlap := by
  simp [joinQueue]

@[simp] theorem offerEvent_encoder (e : EventRec) : (offerEvent e s).encoder = s.encoder := by
  unfold offerEvent; split <;> simp
@[simp] theorem offerEvent_intake (e : EventRec) : (offerEvent e s).intake = s.intake := by
  unfold offerEvent; split <;> simp
@[simp] theorem offerEvent_tracker (e : EventRec) : (offerEvent e s).tracker = s.tracker := by
  unfold offerEvent; split <;> simp
@[simp] theorem offerEvent_ref (e : EventRec) : (offerEvent e s).ref = s.ref := by
  unfold offerEvent; split <;> simp
@[simp] theorem offerEvent_table (e : EventRec) : (offerEvent e s).table = s.table := by
  unfold offerEvent; split <;> simp
@[simp] theorem offerEvent_bus (e : EventRec) : (offerEvent e s).bus = s.bus := by
  unfold offerEvent; split <;> simp
@[simp] theorem offerEvent_ctl (e : EventRec) : (offerEvent e s).ctl = s.ctl := by
  unfold offerEvent; split <;> simp
@[simp] theorem offerEvent_dram (e : EventRec) : (offerEvent e s).dram = s.dram := by
  unfold offerEvent; split <;> simp
@[simp] theorem offerEvent_powerCycles (e : EventRec) : (offerEvent e s).powerCycles = s.powerCycles := by
  unfold offerEvent; split <;> simp
@[simp] theorem offerEvent_draws (e : EventRec) : (offerEvent e s).draws = s.draws := by
  unfold offerEvent; split <;> simp
@[simp] theorem offerEvent_pending (e : EventRec) : (offerEvent e s).pending = s.pending := by
  unfold offerEvent; split <;> simp
@[simp] theorem offerEvent_overlap (e : EventRec) : (offerEvent e s).overlap = s.overlap := by
  unfold offerEvent; split <;> simp

@[simp] theorem dropTile_encoder (r : Reason) : (dropTile r s).encoder = s.encoder := by
  unfold dropTile; split <;> simp
@[simp] theorem dropTile_intake (r : Reason) : (dropTile r s).intake = s.intake := by
  unfold dropTile; split <;> simp
@[simp] theorem dropTile_tracker (r : Reason) : (dropTile r s).tracker = s.tracker := by
  unfold dropTile; split <;> simp
@[simp] theorem dropTile_ref (r : Reason) : (dropTile r s).ref = s.ref := by
  unfold dropTile; split <;> simp
@[simp] theorem dropTile_table (r : Reason) : (dropTile r s).table = s.table := by
  unfold dropTile; split <;> simp
@[simp] theorem dropTile_bus (r : Reason) : (dropTile r s).bus = s.bus := by
  unfold dropTile; split <;> simp
@[simp] theorem dropTile_ctl (r : Reason) : (dropTile r s).ctl = s.ctl := by
  unfold dropTile; split <;> simp
@[simp] theorem dropTile_dram (r : Reason) : (dropTile r s).dram = s.dram := by
  unfold dropTile; split <;> simp
@[simp] theorem dropTile_outputs (r : Reason) : (dropTile r s).outputs = s.outputs := by
  unfold dropTile; split <;> simp
@[simp] theorem dropTile_powerCycles (r : Reason) : (dropTile r s).powerCycles = s.powerCycles := by
  unfold dropTile; split <;> simp
@[simp] theorem dropTile_draws (r : Reason) : (dropTile r s).draws = s.draws := by
  unfold dropTile; split <;> simp
@[simp] theorem dropTile_pending (r : Reason) : (dropTile r s).pending = s.pending := by
  unfold dropTile; split <;> simp
@[simp] theorem dropTile_overlap (r : Reason) : (dropTile r s).overlap = s.overlap := by
  unfold dropTile; split <;> simp

@[simp] theorem offerTile_encoder (t : TileRec) : (offerTile t s).encoder = s.encoder := by
  unfold offerTile; split <;> simp
@[simp] theorem offerTile_intake (t : TileRec) : (offerTile t s).intake = s.intake := by
  unfold offerTile; split <;> simp
@[simp] theorem offerTile_tracker (t : TileRec) : (offerTile t s).tracker = s.tracker := by
  unfold offerTile; split <;> simp
@[simp] theorem offerTile_ref (t : TileRec) : (offerTile t s).ref = s.ref := by
  unfold offerTile; split <;> simp
@[simp] theorem offerTile_table (t : TileRec) : (offerTile t s).table = s.table := by
  unfold offerTile; split <;> simp
@[simp] theorem offerTile_bus (t : TileRec) : (offerTile t s).bus = s.bus := by
  unfold offerTile; split <;> simp
@[simp] theorem offerTile_ctl (t : TileRec) : (offerTile t s).ctl = s.ctl := by
  unfold offerTile; split <;> simp
@[simp] theorem offerTile_dram (t : TileRec) : (offerTile t s).dram = s.dram := by
  unfold offerTile; split <;> simp
@[simp] theorem offerTile_powerCycles (t : TileRec) : (offerTile t s).powerCycles = s.powerCycles := by
  unfold offerTile; split <;> simp
@[simp] theorem offerTile_draws (t : TileRec) : (offerTile t s).draws = s.draws := by
  unfold offerTile; split <;> simp
@[simp] theorem offerTile_pending (t : TileRec) : (offerTile t s).pending = s.pending := by
  unfold offerTile; split <;> simp
@[simp] theorem offerTile_overlap (t : TileRec) : (offerTile t s).overlap = s.overlap := by
  unfold offerTile; split <;> simp

@[simp] theorem offerBand_encoder (b : BandRec) : (offerBand b s).encoder = s.encoder := by
  unfold offerBand; split <;> simp
@[simp] theorem offerBand_intake (b : BandRec) : (offerBand b s).intake = s.intake := by
  unfold offerBand; split <;> simp
@[simp] theorem offerBand_tracker (b : BandRec) : (offerBand b s).tracker = s.tracker := by
  unfold offerBand; split <;> simp
@[simp] theorem offerBand_ref (b : BandRec) : (offerBand b s).ref = s.ref := by
  unfold offerBand; split <;> simp
@[simp] theorem offerBand_table (b : BandRec) : (offerBand b s).table = s.table := by
  unfold offerBand; split <;> simp
@[simp] theorem offerBand_bus (b : BandRec) : (offerBand b s).bus = s.bus := by
  unfold offerBand; split <;> simp
@[simp] theorem offerBand_ctl (b : BandRec) : (offerBand b s).ctl = s.ctl := by
  unfold offerBand; split <;> simp
@[simp] theorem offerBand_dram (b : BandRec) : (offerBand b s).dram = s.dram := by
  unfold offerBand; split <;> simp
@[simp] theorem offerBand_powerCycles (b : BandRec) : (offerBand b s).powerCycles = s.powerCycles := by
  unfold offerBand; split <;> simp
@[simp] theorem offerBand_draws (b : BandRec) : (offerBand b s).draws = s.draws := by
  unfold offerBand; split <;> simp
@[simp] theorem offerBand_pending (b : BandRec) : (offerBand b s).pending = s.pending := by
  unfold offerBand; split <;> simp
@[simp] theorem offerBand_overlap (b : BandRec) : (offerBand b s).overlap = s.overlap := by
  unfold offerBand; split <;> simp

@[simp] theorem writeHead_encoder (g : OpenGrant) (r : Rec) : (writeHead g r s).encoder = s.encoder := by
  simp [writeHead]
@[simp] theorem writeHead_intake (g : OpenGrant) (r : Rec) : (writeHead g r s).intake = s.intake := by
  simp [writeHead]
@[simp] theorem writeHead_tracker (g : OpenGrant) (r : Rec) : (writeHead g r s).tracker = s.tracker := by
  simp [writeHead]
@[simp] theorem writeHead_ref (g : OpenGrant) (r : Rec) : (writeHead g r s).ref = s.ref := by
  simp [writeHead]
@[simp] theorem writeHead_table (g : OpenGrant) (r : Rec) : (writeHead g r s).table = s.table := by
  simp [writeHead]
@[simp] theorem writeHead_bus (g : OpenGrant) (r : Rec) : (writeHead g r s).bus = s.bus := by
  simp [writeHead]
@[simp] theorem writeHead_ctl (g : OpenGrant) (r : Rec) : (writeHead g r s).ctl = s.ctl := by
  simp [writeHead]
@[simp] theorem writeHead_counters (g : OpenGrant) (r : Rec) : (writeHead g r s).counters = s.counters := by
  simp [writeHead]
@[simp] theorem writeHead_dram (g : OpenGrant) (r : Rec) : (writeHead g r s).dram = s.dram := by
  simp [writeHead]
@[simp] theorem writeHead_powerCycles (g : OpenGrant) (r : Rec) : (writeHead g r s).powerCycles = s.powerCycles := by
  simp [writeHead]
@[simp] theorem writeHead_draws (g : OpenGrant) (r : Rec) : (writeHead g r s).draws = s.draws := by
  simp [writeHead]
@[simp] theorem writeHead_pending (g : OpenGrant) (r : Rec) : (writeHead g r s).pending = s.pending := by
  simp [writeHead]
@[simp] theorem writeHead_overlap (g : OpenGrant) (r : Rec) : (writeHead g r s).overlap = s.overlap := by
  simp [writeHead]

/-! ## Bus and Events -/

@[simp] theorem setTxQueue_encoder (q : List TxFrame) : (setTxQueue q s).encoder = s.encoder := by
  rfl
@[simp] theorem setTxQueue_intake (q : List TxFrame) : (setTxQueue q s).intake = s.intake := by
  rfl
@[simp] theorem setTxQueue_tracker (q : List TxFrame) : (setTxQueue q s).tracker = s.tracker := by
  rfl
@[simp] theorem setTxQueue_ref (q : List TxFrame) : (setTxQueue q s).ref = s.ref := by
  rfl
@[simp] theorem setTxQueue_table (q : List TxFrame) : (setTxQueue q s).table = s.table := by
  rfl
@[simp] theorem setTxQueue_port (q : List TxFrame) : (setTxQueue q s).port = s.port := by
  rfl
@[simp] theorem setTxQueue_ctl (q : List TxFrame) : (setTxQueue q s).ctl = s.ctl := by
  rfl
@[simp] theorem setTxQueue_counters (q : List TxFrame) : (setTxQueue q s).counters = s.counters := by
  rfl
@[simp] theorem setTxQueue_dram (q : List TxFrame) : (setTxQueue q s).dram = s.dram := by
  rfl
@[simp] theorem setTxQueue_outputs (q : List TxFrame) : (setTxQueue q s).outputs = s.outputs := by
  rfl
@[simp] theorem setTxQueue_powerCycles (q : List TxFrame) : (setTxQueue q s).powerCycles = s.powerCycles := by
  rfl
@[simp] theorem setTxQueue_draws (q : List TxFrame) : (setTxQueue q s).draws = s.draws := by
  rfl
@[simp] theorem setTxQueue_pending (q : List TxFrame) : (setTxQueue q s).pending = s.pending := by
  rfl
@[simp] theorem setTxQueue_overlap (q : List TxFrame) : (setTxQueue q s).overlap = s.overlap := by
  rfl

@[simp] theorem offerFrame_encoder (f : Frame) : (offerFrame f s).encoder = s.encoder := by
  simp only [offerFrame]; (repeat' split) <;> simp
@[simp] theorem offerFrame_intake (f : Frame) : (offerFrame f s).intake = s.intake := by
  simp only [offerFrame]; (repeat' split) <;> simp
@[simp] theorem offerFrame_tracker (f : Frame) : (offerFrame f s).tracker = s.tracker := by
  simp only [offerFrame]; (repeat' split) <;> simp
@[simp] theorem offerFrame_ref (f : Frame) : (offerFrame f s).ref = s.ref := by
  simp only [offerFrame]; (repeat' split) <;> simp
@[simp] theorem offerFrame_table (f : Frame) : (offerFrame f s).table = s.table := by
  simp only [offerFrame]; (repeat' split) <;> simp
@[simp] theorem offerFrame_port (f : Frame) : (offerFrame f s).port = s.port := by
  simp only [offerFrame]; (repeat' split) <;> simp
@[simp] theorem offerFrame_ctl (f : Frame) : (offerFrame f s).ctl = s.ctl := by
  simp only [offerFrame]; (repeat' split) <;> simp
@[simp] theorem offerFrame_dram (f : Frame) : (offerFrame f s).dram = s.dram := by
  simp only [offerFrame]; (repeat' split) <;> simp
@[simp] theorem offerFrame_outputs (f : Frame) : (offerFrame f s).outputs = s.outputs := by
  simp only [offerFrame]; (repeat' split) <;> simp
@[simp] theorem offerFrame_powerCycles (f : Frame) : (offerFrame f s).powerCycles = s.powerCycles := by
  simp only [offerFrame]; (repeat' split) <;> simp
@[simp] theorem offerFrame_draws (f : Frame) : (offerFrame f s).draws = s.draws := by
  simp only [offerFrame]; (repeat' split) <;> simp
@[simp] theorem offerFrame_pending (f : Frame) : (offerFrame f s).pending = s.pending := by
  simp only [offerFrame]; (repeat' split) <;> simp
@[simp] theorem offerFrame_overlap (f : Frame) : (offerFrame f s).overlap = s.overlap := by
  simp only [offerFrame]; (repeat' split) <;> simp

@[simp] theorem reportLocal_encoder (code : EventCode) (line : Nat) (data : Word) : (reportLocal code line data s).encoder = s.encoder := by
  unfold reportLocal; split <;> simp
@[simp] theorem reportLocal_intake (code : EventCode) (line : Nat) (data : Word) : (reportLocal code line data s).intake = s.intake := by
  unfold reportLocal; split <;> simp
@[simp] theorem reportLocal_tracker (code : EventCode) (line : Nat) (data : Word) : (reportLocal code line data s).tracker = s.tracker := by
  unfold reportLocal; split <;> simp
@[simp] theorem reportLocal_ref (code : EventCode) (line : Nat) (data : Word) : (reportLocal code line data s).ref = s.ref := by
  unfold reportLocal; split <;> simp
@[simp] theorem reportLocal_table (code : EventCode) (line : Nat) (data : Word) : (reportLocal code line data s).table = s.table := by
  unfold reportLocal; split <;> simp
@[simp] theorem reportLocal_bus (code : EventCode) (line : Nat) (data : Word) : (reportLocal code line data s).bus = s.bus := by
  unfold reportLocal; split <;> simp
@[simp] theorem reportLocal_ctl (code : EventCode) (line : Nat) (data : Word) : (reportLocal code line data s).ctl = s.ctl := by
  unfold reportLocal; split <;> simp
@[simp] theorem reportLocal_dram (code : EventCode) (line : Nat) (data : Word) : (reportLocal code line data s).dram = s.dram := by
  unfold reportLocal; split <;> simp
@[simp] theorem reportLocal_powerCycles (code : EventCode) (line : Nat) (data : Word) : (reportLocal code line data s).powerCycles = s.powerCycles := by
  unfold reportLocal; split <;> simp
@[simp] theorem reportLocal_draws (code : EventCode) (line : Nat) (data : Word) : (reportLocal code line data s).draws = s.draws := by
  unfold reportLocal; split <;> simp
@[simp] theorem reportLocal_pending (code : EventCode) (line : Nat) (data : Word) : (reportLocal code line data s).pending = s.pending := by
  unfold reportLocal; split <;> simp
@[simp] theorem reportLocal_overlap (code : EventCode) (line : Nat) (data : Word) : (reportLocal code line data s).overlap = s.overlap := by
  unfold reportLocal; split <;> simp

@[simp] theorem shareLocal_encoder (code : EventCode) (line : Nat) : (shareLocal code line s).encoder = s.encoder := by
  simp only [shareLocal]; (repeat' split) <;> simp
@[simp] theorem shareLocal_intake (code : EventCode) (line : Nat) : (shareLocal code line s).intake = s.intake := by
  simp only [shareLocal]; (repeat' split) <;> simp
@[simp] theorem shareLocal_tracker (code : EventCode) (line : Nat) : (shareLocal code line s).tracker = s.tracker := by
  simp only [shareLocal]; (repeat' split) <;> simp
@[simp] theorem shareLocal_ref (code : EventCode) (line : Nat) : (shareLocal code line s).ref = s.ref := by
  simp only [shareLocal]; (repeat' split) <;> simp
@[simp] theorem shareLocal_table (code : EventCode) (line : Nat) : (shareLocal code line s).table = s.table := by
  simp only [shareLocal]; (repeat' split) <;> simp
@[simp] theorem shareLocal_port (code : EventCode) (line : Nat) : (shareLocal code line s).port = s.port := by
  simp only [shareLocal]; (repeat' split) <;> simp
@[simp] theorem shareLocal_ctl (code : EventCode) (line : Nat) : (shareLocal code line s).ctl = s.ctl := by
  simp only [shareLocal]; (repeat' split) <;> simp
@[simp] theorem shareLocal_dram (code : EventCode) (line : Nat) : (shareLocal code line s).dram = s.dram := by
  simp only [shareLocal]; (repeat' split) <;> simp
@[simp] theorem shareLocal_outputs (code : EventCode) (line : Nat) : (shareLocal code line s).outputs = s.outputs := by
  simp only [shareLocal]; (repeat' split) <;> simp
@[simp] theorem shareLocal_powerCycles (code : EventCode) (line : Nat) : (shareLocal code line s).powerCycles = s.powerCycles := by
  simp only [shareLocal]; (repeat' split) <;> simp
@[simp] theorem shareLocal_draws (code : EventCode) (line : Nat) : (shareLocal code line s).draws = s.draws := by
  simp only [shareLocal]; (repeat' split) <;> simp
@[simp] theorem shareLocal_pending (code : EventCode) (line : Nat) : (shareLocal code line s).pending = s.pending := by
  simp only [shareLocal]; (repeat' split) <;> simp
@[simp] theorem shareLocal_overlap (code : EventCode) (line : Nat) : (shareLocal code line s).overlap = s.overlap := by
  simp only [shareLocal]; (repeat' split) <;> simp

@[simp] theorem raise_encoder (code : EventCode) (line : Nat) (data : Word) : (raise code line data s).encoder = s.encoder := by
  simp [raise]
@[simp] theorem raise_intake (code : EventCode) (line : Nat) (data : Word) : (raise code line data s).intake = s.intake := by
  simp [raise]
@[simp] theorem raise_tracker (code : EventCode) (line : Nat) (data : Word) : (raise code line data s).tracker = s.tracker := by
  simp [raise]
@[simp] theorem raise_ref (code : EventCode) (line : Nat) (data : Word) : (raise code line data s).ref = s.ref := by
  simp [raise]
@[simp] theorem raise_table (code : EventCode) (line : Nat) (data : Word) : (raise code line data s).table = s.table := by
  simp [raise]
@[simp] theorem raise_ctl (code : EventCode) (line : Nat) (data : Word) : (raise code line data s).ctl = s.ctl := by
  simp [raise]
@[simp] theorem raise_dram (code : EventCode) (line : Nat) (data : Word) : (raise code line data s).dram = s.dram := by
  simp [raise]
@[simp] theorem raise_powerCycles (code : EventCode) (line : Nat) (data : Word) : (raise code line data s).powerCycles = s.powerCycles := by
  simp [raise]
@[simp] theorem raise_draws (code : EventCode) (line : Nat) (data : Word) : (raise code line data s).draws = s.draws := by
  simp [raise]
@[simp] theorem raise_pending (code : EventCode) (line : Nat) (data : Word) : (raise code line data s).pending = s.pending := by
  simp [raise]
@[simp] theorem raise_overlap (code : EventCode) (line : Nat) (data : Word) : (raise code line data s).overlap = s.overlap := by
  simp [raise]

@[simp] theorem raiseNow_encoder (code : EventCode) (data : Word) : (raiseNow code data s).encoder = s.encoder := by
  simp [raiseNow]
@[simp] theorem raiseNow_intake (code : EventCode) (data : Word) : (raiseNow code data s).intake = s.intake := by
  simp [raiseNow]
@[simp] theorem raiseNow_tracker (code : EventCode) (data : Word) : (raiseNow code data s).tracker = s.tracker := by
  simp [raiseNow]
@[simp] theorem raiseNow_ref (code : EventCode) (data : Word) : (raiseNow code data s).ref = s.ref := by
  simp [raiseNow]
@[simp] theorem raiseNow_table (code : EventCode) (data : Word) : (raiseNow code data s).table = s.table := by
  simp [raiseNow]
@[simp] theorem raiseNow_ctl (code : EventCode) (data : Word) : (raiseNow code data s).ctl = s.ctl := by
  simp [raiseNow]
@[simp] theorem raiseNow_dram (code : EventCode) (data : Word) : (raiseNow code data s).dram = s.dram := by
  simp [raiseNow]
@[simp] theorem raiseNow_powerCycles (code : EventCode) (data : Word) : (raiseNow code data s).powerCycles = s.powerCycles := by
  simp [raiseNow]
@[simp] theorem raiseNow_draws (code : EventCode) (data : Word) : (raiseNow code data s).draws = s.draws := by
  simp [raiseNow]
@[simp] theorem raiseNow_pending (code : EventCode) (data : Word) : (raiseNow code data s).pending = s.pending := by
  simp [raiseNow]
@[simp] theorem raiseNow_overlap (code : EventCode) (data : Word) : (raiseNow code data s).overlap = s.overlap := by
  simp [raiseNow]

/-! ## Windows -/

@[simp] theorem setWindows_encoder (ws : List Window) : (setWindows ws s).encoder = s.encoder := by
  rfl
@[simp] theorem setWindows_tracker (ws : List Window) : (setWindows ws s).tracker = s.tracker := by
  rfl
@[simp] theorem setWindows_ref (ws : List Window) : (setWindows ws s).ref = s.ref := by
  rfl
@[simp] theorem setWindows_table (ws : List Window) : (setWindows ws s).table = s.table := by
  rfl
@[simp] theorem setWindows_bus (ws : List Window) : (setWindows ws s).bus = s.bus := by
  rfl
@[simp] theorem setWindows_port (ws : List Window) : (setWindows ws s).port = s.port := by
  rfl
@[simp] theorem setWindows_ctl (ws : List Window) : (setWindows ws s).ctl = s.ctl := by
  rfl
@[simp] theorem setWindows_counters (ws : List Window) : (setWindows ws s).counters = s.counters := by
  rfl
@[simp] theorem setWindows_dram (ws : List Window) : (setWindows ws s).dram = s.dram := by
  rfl
@[simp] theorem setWindows_outputs (ws : List Window) : (setWindows ws s).outputs = s.outputs := by
  rfl
@[simp] theorem setWindows_powerCycles (ws : List Window) : (setWindows ws s).powerCycles = s.powerCycles := by
  rfl
@[simp] theorem setWindows_draws (ws : List Window) : (setWindows ws s).draws = s.draws := by
  rfl
@[simp] theorem setWindows_pending (ws : List Window) : (setWindows ws s).pending = s.pending := by
  rfl
@[simp] theorem setWindows_overlap (ws : List Window) : (setWindows ws s).overlap = s.overlap := by
  rfl

@[simp] theorem enterWindow_encoder (w : Window) : (enterWindow w s).encoder = s.encoder := by
  simp only [enterWindow]; (repeat' split) <;> simp
@[simp] theorem enterWindow_tracker (w : Window) : (enterWindow w s).tracker = s.tracker := by
  simp only [enterWindow]; (repeat' split) <;> simp
@[simp] theorem enterWindow_ref (w : Window) : (enterWindow w s).ref = s.ref := by
  simp only [enterWindow]; (repeat' split) <;> simp
@[simp] theorem enterWindow_table (w : Window) : (enterWindow w s).table = s.table := by
  simp only [enterWindow]; (repeat' split) <;> simp
@[simp] theorem enterWindow_bus (w : Window) : (enterWindow w s).bus = s.bus := by
  simp only [enterWindow]; (repeat' split) <;> simp
@[simp] theorem enterWindow_port (w : Window) : (enterWindow w s).port = s.port := by
  simp only [enterWindow]; (repeat' split) <;> simp
@[simp] theorem enterWindow_ctl (w : Window) : (enterWindow w s).ctl = s.ctl := by
  simp only [enterWindow]; (repeat' split) <;> simp
@[simp] theorem enterWindow_dram (w : Window) : (enterWindow w s).dram = s.dram := by
  simp only [enterWindow]; (repeat' split) <;> simp
@[simp] theorem enterWindow_outputs (w : Window) : (enterWindow w s).outputs = s.outputs := by
  simp only [enterWindow]; (repeat' split) <;> simp
@[simp] theorem enterWindow_powerCycles (w : Window) : (enterWindow w s).powerCycles = s.powerCycles := by
  simp only [enterWindow]; (repeat' split) <;> simp
@[simp] theorem enterWindow_draws (w : Window) : (enterWindow w s).draws = s.draws := by
  simp only [enterWindow]; (repeat' split) <;> simp
@[simp] theorem enterWindow_pending (w : Window) : (enterWindow w s).pending = s.pending := by
  simp only [enterWindow]; (repeat' split) <;> simp
@[simp] theorem enterWindow_overlap (w : Window) : (enterWindow w s).overlap = s.overlap := by
  simp only [enterWindow]; (repeat' split) <;> simp

@[simp] theorem requestWindow_encoder (first last : Nat) : (requestWindow first last s).encoder = s.encoder := by
  simp only [requestWindow]; (repeat' split) <;> simp
@[simp] theorem requestWindow_tracker (first last : Nat) : (requestWindow first last s).tracker = s.tracker := by
  simp only [requestWindow]; (repeat' split) <;> simp
@[simp] theorem requestWindow_ref (first last : Nat) : (requestWindow first last s).ref = s.ref := by
  simp only [requestWindow]; (repeat' split) <;> simp
@[simp] theorem requestWindow_table (first last : Nat) : (requestWindow first last s).table = s.table := by
  simp only [requestWindow]; (repeat' split) <;> simp
@[simp] theorem requestWindow_bus (first last : Nat) : (requestWindow first last s).bus = s.bus := by
  simp only [requestWindow]; (repeat' split) <;> simp
@[simp] theorem requestWindow_port (first last : Nat) : (requestWindow first last s).port = s.port := by
  simp only [requestWindow]; (repeat' split) <;> simp
@[simp] theorem requestWindow_ctl (first last : Nat) : (requestWindow first last s).ctl = s.ctl := by
  simp only [requestWindow]; (repeat' split) <;> simp
@[simp] theorem requestWindow_dram (first last : Nat) : (requestWindow first last s).dram = s.dram := by
  simp only [requestWindow]; (repeat' split) <;> simp
@[simp] theorem requestWindow_outputs (first last : Nat) : (requestWindow first last s).outputs = s.outputs := by
  simp only [requestWindow]; (repeat' split) <;> simp
@[simp] theorem requestWindow_powerCycles (first last : Nat) : (requestWindow first last s).powerCycles = s.powerCycles := by
  simp only [requestWindow]; (repeat' split) <;> simp
@[simp] theorem requestWindow_draws (first last : Nat) : (requestWindow first last s).draws = s.draws := by
  simp only [requestWindow]; (repeat' split) <;> simp
@[simp] theorem requestWindow_pending (first last : Nat) : (requestWindow first last s).pending = s.pending := by
  simp only [requestWindow]; (repeat' split) <;> simp
@[simp] theorem requestWindow_overlap (first last : Nat) : (requestWindow first last s).overlap = s.overlap := by
  simp only [requestWindow]; (repeat' split) <;> simp

/-! ## Registration -/

@[simp] theorem offerMark_encoder (start : Nat) (source : MarkSource) : (offerMark start source s).encoder = s.encoder := by
  unfold offerMark; split <;> simp
@[simp] theorem offerMark_intake (start : Nat) (source : MarkSource) : (offerMark start source s).intake = s.intake := by
  unfold offerMark; split <;> simp
@[simp] theorem offerMark_ref (start : Nat) (source : MarkSource) : (offerMark start source s).ref = s.ref := by
  unfold offerMark; split <;> simp
@[simp] theorem offerMark_table (start : Nat) (source : MarkSource) : (offerMark start source s).table = s.table := by
  unfold offerMark; split <;> simp
@[simp] theorem offerMark_bus (start : Nat) (source : MarkSource) : (offerMark start source s).bus = s.bus := by
  unfold offerMark; split <;> simp
@[simp] theorem offerMark_port (start : Nat) (source : MarkSource) : (offerMark start source s).port = s.port := by
  unfold offerMark; split <;> simp
@[simp] theorem offerMark_ctl (start : Nat) (source : MarkSource) : (offerMark start source s).ctl = s.ctl := by
  unfold offerMark; split <;> simp
@[simp] theorem offerMark_dram (start : Nat) (source : MarkSource) : (offerMark start source s).dram = s.dram := by
  unfold offerMark; split <;> simp
@[simp] theorem offerMark_outputs (start : Nat) (source : MarkSource) : (offerMark start source s).outputs = s.outputs := by
  unfold offerMark; split <;> simp
@[simp] theorem offerMark_powerCycles (start : Nat) (source : MarkSource) : (offerMark start source s).powerCycles = s.powerCycles := by
  unfold offerMark; split <;> simp
@[simp] theorem offerMark_draws (start : Nat) (source : MarkSource) : (offerMark start source s).draws = s.draws := by
  unfold offerMark; split <;> simp
@[simp] theorem offerMark_pending (start : Nat) (source : MarkSource) : (offerMark start source s).pending = s.pending := by
  unfold offerMark; split <;> simp
@[simp] theorem offerMark_overlap (start : Nat) (source : MarkSource) : (offerMark start source s).overlap = s.overlap := by
  unfold offerMark; split <;> simp

@[simp] theorem reseek_encoder : (reseek s).encoder = s.encoder := by
  rfl
@[simp] theorem reseek_intake : (reseek s).intake = s.intake := by
  rfl
@[simp] theorem reseek_ref : (reseek s).ref = s.ref := by
  rfl
@[simp] theorem reseek_table : (reseek s).table = s.table := by
  rfl
@[simp] theorem reseek_bus : (reseek s).bus = s.bus := by
  rfl
@[simp] theorem reseek_port : (reseek s).port = s.port := by
  rfl
@[simp] theorem reseek_ctl : (reseek s).ctl = s.ctl := by
  rfl
@[simp] theorem reseek_counters : (reseek s).counters = s.counters := by
  rfl
@[simp] theorem reseek_dram : (reseek s).dram = s.dram := by
  rfl
@[simp] theorem reseek_outputs : (reseek s).outputs = s.outputs := by
  rfl
@[simp] theorem reseek_powerCycles : (reseek s).powerCycles = s.powerCycles := by
  rfl
@[simp] theorem reseek_draws : (reseek s).draws = s.draws := by
  rfl
@[simp] theorem reseek_pending : (reseek s).pending = s.pending := by
  rfl
@[simp] theorem reseek_overlap : (reseek s).overlap = s.overlap := by
  rfl

@[simp] theorem coast_encoder (ev : LineEvent) : (coast ev s).encoder = s.encoder := by
  simp [coast]
@[simp] theorem coast_intake (ev : LineEvent) : (coast ev s).intake = s.intake := by
  simp [coast]
@[simp] theorem coast_ref (ev : LineEvent) : (coast ev s).ref = s.ref := by
  simp [coast]
@[simp] theorem coast_table (ev : LineEvent) : (coast ev s).table = s.table := by
  simp [coast]
@[simp] theorem coast_ctl (ev : LineEvent) : (coast ev s).ctl = s.ctl := by
  simp [coast]
@[simp] theorem coast_dram (ev : LineEvent) : (coast ev s).dram = s.dram := by
  simp [coast]
@[simp] theorem coast_powerCycles (ev : LineEvent) : (coast ev s).powerCycles = s.powerCycles := by
  simp [coast]
@[simp] theorem coast_draws (ev : LineEvent) : (coast ev s).draws = s.draws := by
  simp [coast]
@[simp] theorem coast_pending (ev : LineEvent) : (coast ev s).pending = s.pending := by
  simp [coast]
@[simp] theorem coast_overlap (ev : LineEvent) : (coast ev s).overlap = s.overlap := by
  simp [coast]

@[simp] theorem countLine_encoder (ev : LineEvent) : (countLine ev s).encoder = s.encoder := by
  unfold countLine; split <;> simp
@[simp] theorem countLine_intake (ev : LineEvent) : (countLine ev s).intake = s.intake := by
  unfold countLine; split <;> simp
@[simp] theorem countLine_ref (ev : LineEvent) : (countLine ev s).ref = s.ref := by
  unfold countLine; split <;> simp
@[simp] theorem countLine_table (ev : LineEvent) : (countLine ev s).table = s.table := by
  unfold countLine; split <;> simp
@[simp] theorem countLine_ctl (ev : LineEvent) : (countLine ev s).ctl = s.ctl := by
  unfold countLine; split <;> simp
@[simp] theorem countLine_dram (ev : LineEvent) : (countLine ev s).dram = s.dram := by
  unfold countLine; split <;> simp
@[simp] theorem countLine_powerCycles (ev : LineEvent) : (countLine ev s).powerCycles = s.powerCycles := by
  unfold countLine; split <;> simp
@[simp] theorem countLine_draws (ev : LineEvent) : (countLine ev s).draws = s.draws := by
  unfold countLine; split <;> simp
@[simp] theorem countLine_pending (ev : LineEvent) : (countLine ev s).pending = s.pending := by
  unfold countLine; split <;> simp
@[simp] theorem countLine_overlap (ev : LineEvent) : (countLine ev s).overlap = s.overlap := by
  unfold countLine; split <;> simp

@[simp] theorem lockOn_encoder : (lockOn s).encoder = s.encoder := by
  rfl
@[simp] theorem lockOn_intake : (lockOn s).intake = s.intake := by
  rfl
@[simp] theorem lockOn_ref : (lockOn s).ref = s.ref := by
  rfl
@[simp] theorem lockOn_table : (lockOn s).table = s.table := by
  rfl
@[simp] theorem lockOn_bus : (lockOn s).bus = s.bus := by
  rfl
@[simp] theorem lockOn_port : (lockOn s).port = s.port := by
  rfl
@[simp] theorem lockOn_ctl : (lockOn s).ctl = s.ctl := by
  rfl
@[simp] theorem lockOn_dram : (lockOn s).dram = s.dram := by
  rfl
@[simp] theorem lockOn_outputs : (lockOn s).outputs = s.outputs := by
  rfl
@[simp] theorem lockOn_powerCycles : (lockOn s).powerCycles = s.powerCycles := by
  rfl
@[simp] theorem lockOn_draws : (lockOn s).draws = s.draws := by
  rfl
@[simp] theorem lockOn_pending : (lockOn s).pending = s.pending := by
  rfl
@[simp] theorem lockOn_overlap : (lockOn s).overlap = s.overlap := by
  rfl

@[simp] theorem nextRepeat_encoder : (nextRepeat s).encoder = s.encoder := by
  rfl
@[simp] theorem nextRepeat_intake : (nextRepeat s).intake = s.intake := by
  rfl
@[simp] theorem nextRepeat_ref : (nextRepeat s).ref = s.ref := by
  rfl
@[simp] theorem nextRepeat_table : (nextRepeat s).table = s.table := by
  rfl
@[simp] theorem nextRepeat_bus : (nextRepeat s).bus = s.bus := by
  rfl
@[simp] theorem nextRepeat_port : (nextRepeat s).port = s.port := by
  rfl
@[simp] theorem nextRepeat_ctl : (nextRepeat s).ctl = s.ctl := by
  rfl
@[simp] theorem nextRepeat_counters : (nextRepeat s).counters = s.counters := by
  rfl
@[simp] theorem nextRepeat_dram : (nextRepeat s).dram = s.dram := by
  rfl
@[simp] theorem nextRepeat_outputs : (nextRepeat s).outputs = s.outputs := by
  rfl
@[simp] theorem nextRepeat_powerCycles : (nextRepeat s).powerCycles = s.powerCycles := by
  rfl
@[simp] theorem nextRepeat_draws : (nextRepeat s).draws = s.draws := by
  rfl
@[simp] theorem nextRepeat_pending : (nextRepeat s).pending = s.pending := by
  rfl
@[simp] theorem nextRepeat_overlap : (nextRepeat s).overlap = s.overlap := by
  rfl

@[simp] theorem acquireMark_encoder (ev : LineEvent) : (acquireMark ev s).encoder = s.encoder := by
  simp [acquireMark]
@[simp] theorem acquireMark_intake (ev : LineEvent) : (acquireMark ev s).intake = s.intake := by
  simp [acquireMark]
@[simp] theorem acquireMark_ref (ev : LineEvent) : (acquireMark ev s).ref = s.ref := by
  simp [acquireMark]
@[simp] theorem acquireMark_table (ev : LineEvent) : (acquireMark ev s).table = s.table := by
  simp [acquireMark]
@[simp] theorem acquireMark_ctl (ev : LineEvent) : (acquireMark ev s).ctl = s.ctl := by
  simp [acquireMark]
@[simp] theorem acquireMark_dram (ev : LineEvent) : (acquireMark ev s).dram = s.dram := by
  simp [acquireMark]
@[simp] theorem acquireMark_powerCycles (ev : LineEvent) : (acquireMark ev s).powerCycles = s.powerCycles := by
  simp [acquireMark]
@[simp] theorem acquireMark_draws (ev : LineEvent) : (acquireMark ev s).draws = s.draws := by
  simp [acquireMark]
@[simp] theorem acquireMark_pending (ev : LineEvent) : (acquireMark ev s).pending = s.pending := by
  simp [acquireMark]
@[simp] theorem acquireMark_overlap (ev : LineEvent) : (acquireMark ev s).overlap = s.overlap := by
  simp [acquireMark]

@[simp] theorem updateStep_encoder (ev : LineEvent) : (updateStep ev s).encoder = s.encoder := by
  simp only [updateStep]; split <;> simp
@[simp] theorem updateStep_intake (ev : LineEvent) : (updateStep ev s).intake = s.intake := by
  simp only [updateStep]; split <;> simp
@[simp] theorem updateStep_ref (ev : LineEvent) : (updateStep ev s).ref = s.ref := by
  simp only [updateStep]; split <;> simp
@[simp] theorem updateStep_table (ev : LineEvent) : (updateStep ev s).table = s.table := by
  simp only [updateStep]; split <;> simp
@[simp] theorem updateStep_ctl (ev : LineEvent) : (updateStep ev s).ctl = s.ctl := by
  simp only [updateStep]; split <;> simp
@[simp] theorem updateStep_dram (ev : LineEvent) : (updateStep ev s).dram = s.dram := by
  simp only [updateStep]; split <;> simp
@[simp] theorem updateStep_powerCycles (ev : LineEvent) : (updateStep ev s).powerCycles = s.powerCycles := by
  simp only [updateStep]; split <;> simp
@[simp] theorem updateStep_draws (ev : LineEvent) : (updateStep ev s).draws = s.draws := by
  simp only [updateStep]; split <;> simp
@[simp] theorem updateStep_pending (ev : LineEvent) : (updateStep ev s).pending = s.pending := by
  simp only [updateStep]; split <;> simp
@[simp] theorem updateStep_overlap (ev : LineEvent) : (updateStep ev s).overlap = s.overlap := by
  simp only [updateStep]; split <;> simp

@[simp] theorem addOffset_encoder (e : Int) : (addOffset e s).encoder = s.encoder := by
  simp only [addOffset]; (repeat' split) <;> simp
@[simp] theorem addOffset_intake (e : Int) : (addOffset e s).intake = s.intake := by
  simp only [addOffset]; (repeat' split) <;> simp
@[simp] theorem addOffset_tracker (e : Int) : (addOffset e s).tracker = s.tracker := by
  simp only [addOffset]; (repeat' split) <;> simp
@[simp] theorem addOffset_ref (e : Int) : (addOffset e s).ref = s.ref := by
  simp only [addOffset]; (repeat' split) <;> simp
@[simp] theorem addOffset_table (e : Int) : (addOffset e s).table = s.table := by
  simp only [addOffset]; (repeat' split) <;> simp
@[simp] theorem addOffset_bus (e : Int) : (addOffset e s).bus = s.bus := by
  simp only [addOffset]; (repeat' split) <;> simp
@[simp] theorem addOffset_port (e : Int) : (addOffset e s).port = s.port := by
  simp only [addOffset]; (repeat' split) <;> simp
@[simp] theorem addOffset_ctl (e : Int) : (addOffset e s).ctl = s.ctl := by
  simp only [addOffset]; (repeat' split) <;> simp
@[simp] theorem addOffset_dram (e : Int) : (addOffset e s).dram = s.dram := by
  simp only [addOffset]; (repeat' split) <;> simp
@[simp] theorem addOffset_outputs (e : Int) : (addOffset e s).outputs = s.outputs := by
  simp only [addOffset]; (repeat' split) <;> simp
@[simp] theorem addOffset_powerCycles (e : Int) : (addOffset e s).powerCycles = s.powerCycles := by
  simp only [addOffset]; (repeat' split) <;> simp
@[simp] theorem addOffset_draws (e : Int) : (addOffset e s).draws = s.draws := by
  simp only [addOffset]; (repeat' split) <;> simp
@[simp] theorem addOffset_pending (e : Int) : (addOffset e s).pending = s.pending := by
  simp only [addOffset]; (repeat' split) <;> simp
@[simp] theorem addOffset_overlap (e : Int) : (addOffset e s).overlap = s.overlap := by
  simp only [addOffset]; (repeat' split) <;> simp

@[simp] theorem acceptMark_encoder (ev : LineEvent) : (acceptMark ev s).encoder = s.encoder := by
  simp only [acceptMark]; (repeat' split) <;> simp
@[simp] theorem acceptMark_intake (ev : LineEvent) : (acceptMark ev s).intake = s.intake := by
  simp only [acceptMark]; (repeat' split) <;> simp
@[simp] theorem acceptMark_ref (ev : LineEvent) : (acceptMark ev s).ref = s.ref := by
  simp only [acceptMark]; (repeat' split) <;> simp
@[simp] theorem acceptMark_table (ev : LineEvent) : (acceptMark ev s).table = s.table := by
  simp only [acceptMark]; (repeat' split) <;> simp
@[simp] theorem acceptMark_ctl (ev : LineEvent) : (acceptMark ev s).ctl = s.ctl := by
  simp only [acceptMark]; (repeat' split) <;> simp
@[simp] theorem acceptMark_dram (ev : LineEvent) : (acceptMark ev s).dram = s.dram := by
  simp only [acceptMark]; (repeat' split) <;> simp
@[simp] theorem acceptMark_powerCycles (ev : LineEvent) : (acceptMark ev s).powerCycles = s.powerCycles := by
  simp only [acceptMark]; (repeat' split) <;> simp
@[simp] theorem acceptMark_draws (ev : LineEvent) : (acceptMark ev s).draws = s.draws := by
  simp only [acceptMark]; (repeat' split) <;> simp
@[simp] theorem acceptMark_pending (ev : LineEvent) : (acceptMark ev s).pending = s.pending := by
  simp only [acceptMark]; (repeat' split) <;> simp
@[simp] theorem acceptMark_overlap (ev : LineEvent) : (acceptMark ev s).overlap = s.overlap := by
  simp only [acceptMark]; (repeat' split) <;> simp

@[simp] theorem actOnMark_encoder (ev : LineEvent) : (actOnMark ev s).encoder = s.encoder := by
  simp only [actOnMark]; (repeat' split) <;> simp
@[simp] theorem actOnMark_intake (ev : LineEvent) : (actOnMark ev s).intake = s.intake := by
  simp only [actOnMark]; (repeat' split) <;> simp
@[simp] theorem actOnMark_ref (ev : LineEvent) : (actOnMark ev s).ref = s.ref := by
  simp only [actOnMark]; (repeat' split) <;> simp
@[simp] theorem actOnMark_table (ev : LineEvent) : (actOnMark ev s).table = s.table := by
  simp only [actOnMark]; (repeat' split) <;> simp
@[simp] theorem actOnMark_ctl (ev : LineEvent) : (actOnMark ev s).ctl = s.ctl := by
  simp only [actOnMark]; (repeat' split) <;> simp
@[simp] theorem actOnMark_dram (ev : LineEvent) : (actOnMark ev s).dram = s.dram := by
  simp only [actOnMark]; (repeat' split) <;> simp
@[simp] theorem actOnMark_powerCycles (ev : LineEvent) : (actOnMark ev s).powerCycles = s.powerCycles := by
  simp only [actOnMark]; (repeat' split) <;> simp
@[simp] theorem actOnMark_draws (ev : LineEvent) : (actOnMark ev s).draws = s.draws := by
  simp only [actOnMark]; (repeat' split) <;> simp
@[simp] theorem actOnMark_pending (ev : LineEvent) : (actOnMark ev s).pending = s.pending := by
  simp only [actOnMark]; (repeat' split) <;> simp
@[simp] theorem actOnMark_overlap (ev : LineEvent) : (actOnMark ev s).overlap = s.overlap := by
  simp only [actOnMark]; (repeat' split) <;> simp

@[simp] theorem takeDue_encoder (line : Nat) : (takeDue line s).encoder = s.encoder := by
  simp only [takeDue]; split <;> simp
@[simp] theorem takeDue_intake (line : Nat) : (takeDue line s).intake = s.intake := by
  simp only [takeDue]; split <;> simp
@[simp] theorem takeDue_ref (line : Nat) : (takeDue line s).ref = s.ref := by
  simp only [takeDue]; split <;> simp
@[simp] theorem takeDue_table (line : Nat) : (takeDue line s).table = s.table := by
  simp only [takeDue]; split <;> simp
@[simp] theorem takeDue_bus (line : Nat) : (takeDue line s).bus = s.bus := by
  simp only [takeDue]; split <;> simp
@[simp] theorem takeDue_port (line : Nat) : (takeDue line s).port = s.port := by
  simp only [takeDue]; split <;> simp
@[simp] theorem takeDue_ctl (line : Nat) : (takeDue line s).ctl = s.ctl := by
  simp only [takeDue]; split <;> simp
@[simp] theorem takeDue_dram (line : Nat) : (takeDue line s).dram = s.dram := by
  simp only [takeDue]; split <;> simp
@[simp] theorem takeDue_outputs (line : Nat) : (takeDue line s).outputs = s.outputs := by
  simp only [takeDue]; split <;> simp
@[simp] theorem takeDue_powerCycles (line : Nat) : (takeDue line s).powerCycles = s.powerCycles := by
  simp only [takeDue]; split <;> simp
@[simp] theorem takeDue_draws (line : Nat) : (takeDue line s).draws = s.draws := by
  simp only [takeDue]; split <;> simp
@[simp] theorem takeDue_pending (line : Nat) : (takeDue line s).pending = s.pending := by
  simp only [takeDue]; split <;> simp
@[simp] theorem takeDue_overlap (line : Nat) : (takeDue line s).overlap = s.overlap := by
  simp only [takeDue]; split <;> simp

@[simp] theorem takeMarks_encoder (ev : LineEvent) : (takeMarks ev s).encoder = s.encoder := by
  simp only [takeMarks]; (repeat' split) <;> simp
@[simp] theorem takeMarks_intake (ev : LineEvent) : (takeMarks ev s).intake = s.intake := by
  simp only [takeMarks]; (repeat' split) <;> simp
@[simp] theorem takeMarks_ref (ev : LineEvent) : (takeMarks ev s).ref = s.ref := by
  simp only [takeMarks]; (repeat' split) <;> simp
@[simp] theorem takeMarks_table (ev : LineEvent) : (takeMarks ev s).table = s.table := by
  simp only [takeMarks]; (repeat' split) <;> simp
@[simp] theorem takeMarks_ctl (ev : LineEvent) : (takeMarks ev s).ctl = s.ctl := by
  simp only [takeMarks]; (repeat' split) <;> simp
@[simp] theorem takeMarks_dram (ev : LineEvent) : (takeMarks ev s).dram = s.dram := by
  simp only [takeMarks]; (repeat' split) <;> simp
@[simp] theorem takeMarks_powerCycles (ev : LineEvent) : (takeMarks ev s).powerCycles = s.powerCycles := by
  simp only [takeMarks]; (repeat' split) <;> simp
@[simp] theorem takeMarks_draws (ev : LineEvent) : (takeMarks ev s).draws = s.draws := by
  simp only [takeMarks]; (repeat' split) <;> simp
@[simp] theorem takeMarks_pending (ev : LineEvent) : (takeMarks ev s).pending = s.pending := by
  simp only [takeMarks]; (repeat' split) <;> simp
@[simp] theorem takeMarks_overlap (ev : LineEvent) : (takeMarks ev s).overlap = s.overlap := by
  simp only [takeMarks]; (repeat' split) <;> simp

@[simp] theorem advancePhase_encoder : (advancePhase s).encoder = s.encoder := by
  rfl
@[simp] theorem advancePhase_intake : (advancePhase s).intake = s.intake := by
  rfl
@[simp] theorem advancePhase_ref : (advancePhase s).ref = s.ref := by
  rfl
@[simp] theorem advancePhase_table : (advancePhase s).table = s.table := by
  rfl
@[simp] theorem advancePhase_bus : (advancePhase s).bus = s.bus := by
  rfl
@[simp] theorem advancePhase_port : (advancePhase s).port = s.port := by
  rfl
@[simp] theorem advancePhase_ctl : (advancePhase s).ctl = s.ctl := by
  rfl
@[simp] theorem advancePhase_counters : (advancePhase s).counters = s.counters := by
  rfl
@[simp] theorem advancePhase_dram : (advancePhase s).dram = s.dram := by
  rfl
@[simp] theorem advancePhase_outputs : (advancePhase s).outputs = s.outputs := by
  rfl
@[simp] theorem advancePhase_powerCycles : (advancePhase s).powerCycles = s.powerCycles := by
  rfl
@[simp] theorem advancePhase_draws : (advancePhase s).draws = s.draws := by
  rfl
@[simp] theorem advancePhase_pending : (advancePhase s).pending = s.pending := by
  rfl
@[simp] theorem advancePhase_overlap : (advancePhase s).overlap = s.overlap := by
  rfl

@[simp] theorem beforeMarks_encoder (ev : LineEvent) : (beforeMarks ev s).encoder = s.encoder := by
  unfold beforeMarks; split <;> simp
@[simp] theorem beforeMarks_intake (ev : LineEvent) : (beforeMarks ev s).intake = s.intake := by
  unfold beforeMarks; split <;> simp
@[simp] theorem beforeMarks_ref (ev : LineEvent) : (beforeMarks ev s).ref = s.ref := by
  unfold beforeMarks; split <;> simp
@[simp] theorem beforeMarks_table (ev : LineEvent) : (beforeMarks ev s).table = s.table := by
  unfold beforeMarks; split <;> simp
@[simp] theorem beforeMarks_ctl (ev : LineEvent) : (beforeMarks ev s).ctl = s.ctl := by
  unfold beforeMarks; split <;> simp
@[simp] theorem beforeMarks_dram (ev : LineEvent) : (beforeMarks ev s).dram = s.dram := by
  unfold beforeMarks; split <;> simp
@[simp] theorem beforeMarks_powerCycles (ev : LineEvent) : (beforeMarks ev s).powerCycles = s.powerCycles := by
  unfold beforeMarks; split <;> simp
@[simp] theorem beforeMarks_draws (ev : LineEvent) : (beforeMarks ev s).draws = s.draws := by
  unfold beforeMarks; split <;> simp
@[simp] theorem beforeMarks_pending (ev : LineEvent) : (beforeMarks ev s).pending = s.pending := by
  unfold beforeMarks; split <;> simp
@[simp] theorem beforeMarks_overlap (ev : LineEvent) : (beforeMarks ev s).overlap = s.overlap := by
  unfold beforeMarks; split <;> simp

@[simp] theorem afterRecord_encoder (ev : LineEvent) : (afterRecord ev s).encoder = s.encoder := by
  unfold afterRecord; split <;> simp
@[simp] theorem afterRecord_intake (ev : LineEvent) : (afterRecord ev s).intake = s.intake := by
  unfold afterRecord; split <;> simp
@[simp] theorem afterRecord_ref (ev : LineEvent) : (afterRecord ev s).ref = s.ref := by
  unfold afterRecord; split <;> simp
@[simp] theorem afterRecord_table (ev : LineEvent) : (afterRecord ev s).table = s.table := by
  unfold afterRecord; split <;> simp
@[simp] theorem afterRecord_bus (ev : LineEvent) : (afterRecord ev s).bus = s.bus := by
  unfold afterRecord; split <;> simp
@[simp] theorem afterRecord_port (ev : LineEvent) : (afterRecord ev s).port = s.port := by
  unfold afterRecord; split <;> simp
@[simp] theorem afterRecord_ctl (ev : LineEvent) : (afterRecord ev s).ctl = s.ctl := by
  unfold afterRecord; split <;> simp
@[simp] theorem afterRecord_counters (ev : LineEvent) : (afterRecord ev s).counters = s.counters := by
  unfold afterRecord; split <;> simp
@[simp] theorem afterRecord_dram (ev : LineEvent) : (afterRecord ev s).dram = s.dram := by
  unfold afterRecord; split <;> simp
@[simp] theorem afterRecord_outputs (ev : LineEvent) : (afterRecord ev s).outputs = s.outputs := by
  unfold afterRecord; split <;> simp
@[simp] theorem afterRecord_powerCycles (ev : LineEvent) : (afterRecord ev s).powerCycles = s.powerCycles := by
  unfold afterRecord; split <;> simp
@[simp] theorem afterRecord_draws (ev : LineEvent) : (afterRecord ev s).draws = s.draws := by
  unfold afterRecord; split <;> simp
@[simp] theorem afterRecord_pending (ev : LineEvent) : (afterRecord ev s).pending = s.pending := by
  unfold afterRecord; split <;> simp
@[simp] theorem afterRecord_overlap (ev : LineEvent) : (afterRecord ev s).overlap = s.overlap := by
  unfold afterRecord; split <;> simp

@[simp] theorem trackLine_encoder (ev : LineEvent) : (trackLine ev s).1.encoder = s.encoder := by
  simp [trackLine]
@[simp] theorem trackLine_intake (ev : LineEvent) : (trackLine ev s).1.intake = s.intake := by
  simp [trackLine]
@[simp] theorem trackLine_ref (ev : LineEvent) : (trackLine ev s).1.ref = s.ref := by
  simp [trackLine]
@[simp] theorem trackLine_table (ev : LineEvent) : (trackLine ev s).1.table = s.table := by
  simp [trackLine]
@[simp] theorem trackLine_ctl (ev : LineEvent) : (trackLine ev s).1.ctl = s.ctl := by
  simp [trackLine]
@[simp] theorem trackLine_dram (ev : LineEvent) : (trackLine ev s).1.dram = s.dram := by
  simp [trackLine]
@[simp] theorem trackLine_powerCycles (ev : LineEvent) : (trackLine ev s).1.powerCycles = s.powerCycles := by
  simp [trackLine]
@[simp] theorem trackLine_draws (ev : LineEvent) : (trackLine ev s).1.draws = s.draws := by
  simp [trackLine]
@[simp] theorem trackLine_pending (ev : LineEvent) : (trackLine ev s).1.pending = s.pending := by
  simp [trackLine]
@[simp] theorem trackLine_overlap (ev : LineEvent) : (trackLine ev s).1.overlap = s.overlap := by
  simp [trackLine]

/-! ## Reference -/

@[simp] theorem writeSums_encoder (r : Nat) (sums : List Nat) : (writeSums r sums s).encoder = s.encoder := by
  rfl
@[simp] theorem writeSums_intake (r : Nat) (sums : List Nat) : (writeSums r sums s).intake = s.intake := by
  rfl
@[simp] theorem writeSums_tracker (r : Nat) (sums : List Nat) : (writeSums r sums s).tracker = s.tracker := by
  rfl
@[simp] theorem writeSums_ref (r : Nat) (sums : List Nat) : (writeSums r sums s).ref = s.ref := by
  rfl
@[simp] theorem writeSums_table (r : Nat) (sums : List Nat) : (writeSums r sums s).table = s.table := by
  rfl
@[simp] theorem writeSums_bus (r : Nat) (sums : List Nat) : (writeSums r sums s).bus = s.bus := by
  rfl
@[simp] theorem writeSums_port (r : Nat) (sums : List Nat) : (writeSums r sums s).port = s.port := by
  rfl
@[simp] theorem writeSums_ctl (r : Nat) (sums : List Nat) : (writeSums r sums s).ctl = s.ctl := by
  rfl
@[simp] theorem writeSums_counters (r : Nat) (sums : List Nat) : (writeSums r sums s).counters = s.counters := by
  rfl
@[simp] theorem writeSums_outputs (r : Nat) (sums : List Nat) : (writeSums r sums s).outputs = s.outputs := by
  rfl
@[simp] theorem writeSums_powerCycles (r : Nat) (sums : List Nat) : (writeSums r sums s).powerCycles = s.powerCycles := by
  rfl
@[simp] theorem writeSums_draws (r : Nat) (sums : List Nat) : (writeSums r sums s).draws = s.draws := by
  rfl
@[simp] theorem writeSums_pending (r : Nat) (sums : List Nat) : (writeSums r sums s).pending = s.pending := by
  rfl
@[simp] theorem writeSums_overlap (r : Nat) (sums : List Nat) : (writeSums r sums s).overlap = s.overlap := by
  rfl

@[simp] theorem writeImage_encoder (r : Nat) (pixels : List Byte) : (writeImage r pixels s).encoder = s.encoder := by
  rfl
@[simp] theorem writeImage_intake (r : Nat) (pixels : List Byte) : (writeImage r pixels s).intake = s.intake := by
  rfl
@[simp] theorem writeImage_tracker (r : Nat) (pixels : List Byte) : (writeImage r pixels s).tracker = s.tracker := by
  rfl
@[simp] theorem writeImage_ref (r : Nat) (pixels : List Byte) : (writeImage r pixels s).ref = s.ref := by
  rfl
@[simp] theorem writeImage_table (r : Nat) (pixels : List Byte) : (writeImage r pixels s).table = s.table := by
  rfl
@[simp] theorem writeImage_bus (r : Nat) (pixels : List Byte) : (writeImage r pixels s).bus = s.bus := by
  rfl
@[simp] theorem writeImage_port (r : Nat) (pixels : List Byte) : (writeImage r pixels s).port = s.port := by
  rfl
@[simp] theorem writeImage_ctl (r : Nat) (pixels : List Byte) : (writeImage r pixels s).ctl = s.ctl := by
  rfl
@[simp] theorem writeImage_counters (r : Nat) (pixels : List Byte) : (writeImage r pixels s).counters = s.counters := by
  rfl
@[simp] theorem writeImage_outputs (r : Nat) (pixels : List Byte) : (writeImage r pixels s).outputs = s.outputs := by
  rfl
@[simp] theorem writeImage_powerCycles (r : Nat) (pixels : List Byte) : (writeImage r pixels s).powerCycles = s.powerCycles := by
  rfl
@[simp] theorem writeImage_draws (r : Nat) (pixels : List Byte) : (writeImage r pixels s).draws = s.draws := by
  rfl
@[simp] theorem writeImage_pending (r : Nat) (pixels : List Byte) : (writeImage r pixels s).pending = s.pending := by
  rfl
@[simp] theorem writeImage_overlap (r : Nat) (pixels : List Byte) : (writeImage r pixels s).overlap = s.overlap := by
  rfl

@[simp] theorem startLearning_encoder : (startLearning s).encoder = s.encoder := by
  rfl
@[simp] theorem startLearning_intake : (startLearning s).intake = s.intake := by
  rfl
@[simp] theorem startLearning_tracker : (startLearning s).tracker = s.tracker := by
  rfl
@[simp] theorem startLearning_table : (startLearning s).table = s.table := by
  rfl
@[simp] theorem startLearning_bus : (startLearning s).bus = s.bus := by
  rfl
@[simp] theorem startLearning_port : (startLearning s).port = s.port := by
  rfl
@[simp] theorem startLearning_ctl : (startLearning s).ctl = s.ctl := by
  rfl
@[simp] theorem startLearning_counters : (startLearning s).counters = s.counters := by
  rfl
@[simp] theorem startLearning_dram : (startLearning s).dram = s.dram := by
  rfl
@[simp] theorem startLearning_outputs : (startLearning s).outputs = s.outputs := by
  rfl
@[simp] theorem startLearning_powerCycles : (startLearning s).powerCycles = s.powerCycles := by
  rfl
@[simp] theorem startLearning_draws : (startLearning s).draws = s.draws := by
  rfl
@[simp] theorem startLearning_pending : (startLearning s).pending = s.pending := by
  rfl
@[simp] theorem startLearning_overlap : (startLearning s).overlap = s.overlap := by
  rfl

@[simp] theorem repeatEnd_encoder (line : Nat) : (repeatEnd line s).encoder = s.encoder := by
  unfold repeatEnd; split <;> simp
@[simp] theorem repeatEnd_intake (line : Nat) : (repeatEnd line s).intake = s.intake := by
  unfold repeatEnd; split <;> simp
@[simp] theorem repeatEnd_tracker (line : Nat) : (repeatEnd line s).tracker = s.tracker := by
  unfold repeatEnd; split <;> simp
@[simp] theorem repeatEnd_table (line : Nat) : (repeatEnd line s).table = s.table := by
  unfold repeatEnd; split <;> simp
@[simp] theorem repeatEnd_bus (line : Nat) : (repeatEnd line s).bus = s.bus := by
  unfold repeatEnd; split <;> simp
@[simp] theorem repeatEnd_port (line : Nat) : (repeatEnd line s).port = s.port := by
  unfold repeatEnd; split <;> simp
@[simp] theorem repeatEnd_ctl (line : Nat) : (repeatEnd line s).ctl = s.ctl := by
  unfold repeatEnd; split <;> simp
@[simp] theorem repeatEnd_counters (line : Nat) : (repeatEnd line s).counters = s.counters := by
  unfold repeatEnd; split <;> simp
@[simp] theorem repeatEnd_dram (line : Nat) : (repeatEnd line s).dram = s.dram := by
  unfold repeatEnd; split <;> simp
@[simp] theorem repeatEnd_outputs (line : Nat) : (repeatEnd line s).outputs = s.outputs := by
  unfold repeatEnd; split <;> simp
@[simp] theorem repeatEnd_powerCycles (line : Nat) : (repeatEnd line s).powerCycles = s.powerCycles := by
  unfold repeatEnd; split <;> simp
@[simp] theorem repeatEnd_draws (line : Nat) : (repeatEnd line s).draws = s.draws := by
  unfold repeatEnd; split <;> simp
@[simp] theorem repeatEnd_pending (line : Nat) : (repeatEnd line s).pending = s.pending := by
  unfold repeatEnd; split <;> simp
@[simp] theorem repeatEnd_overlap (line : Nat) : (repeatEnd line s).overlap = s.overlap := by
  unfold repeatEnd; split <;> simp

@[simp] theorem contribute_encoder (r : Nat) (pixels : List Byte) : (contribute r pixels s).encoder = s.encoder := by
  rfl
@[simp] theorem contribute_intake (r : Nat) (pixels : List Byte) : (contribute r pixels s).intake = s.intake := by
  rfl
@[simp] theorem contribute_tracker (r : Nat) (pixels : List Byte) : (contribute r pixels s).tracker = s.tracker := by
  rfl
@[simp] theorem contribute_table (r : Nat) (pixels : List Byte) : (contribute r pixels s).table = s.table := by
  rfl
@[simp] theorem contribute_bus (r : Nat) (pixels : List Byte) : (contribute r pixels s).bus = s.bus := by
  rfl
@[simp] theorem contribute_port (r : Nat) (pixels : List Byte) : (contribute r pixels s).port = s.port := by
  rfl
@[simp] theorem contribute_ctl (r : Nat) (pixels : List Byte) : (contribute r pixels s).ctl = s.ctl := by
  rfl
@[simp] theorem contribute_counters (r : Nat) (pixels : List Byte) : (contribute r pixels s).counters = s.counters := by
  rfl
@[simp] theorem contribute_outputs (r : Nat) (pixels : List Byte) : (contribute r pixels s).outputs = s.outputs := by
  rfl
@[simp] theorem contribute_powerCycles (r : Nat) (pixels : List Byte) : (contribute r pixels s).powerCycles = s.powerCycles := by
  rfl
@[simp] theorem contribute_draws (r : Nat) (pixels : List Byte) : (contribute r pixels s).draws = s.draws := by
  rfl
@[simp] theorem contribute_pending (r : Nat) (pixels : List Byte) : (contribute r pixels s).pending = s.pending := by
  rfl
@[simp] theorem contribute_overlap (r : Nat) (pixels : List Byte) : (contribute r pixels s).overlap = s.overlap := by
  rfl

@[simp] theorem learnFrom_encoder (rec : LineRecord) (row : Row) : (learnFrom rec row s).encoder = s.encoder := by
  unfold learnFrom; split <;> simp
@[simp] theorem learnFrom_intake (rec : LineRecord) (row : Row) : (learnFrom rec row s).intake = s.intake := by
  unfold learnFrom; split <;> simp
@[simp] theorem learnFrom_tracker (rec : LineRecord) (row : Row) : (learnFrom rec row s).tracker = s.tracker := by
  unfold learnFrom; split <;> simp
@[simp] theorem learnFrom_table (rec : LineRecord) (row : Row) : (learnFrom rec row s).table = s.table := by
  unfold learnFrom; split <;> simp
@[simp] theorem learnFrom_bus (rec : LineRecord) (row : Row) : (learnFrom rec row s).bus = s.bus := by
  unfold learnFrom; split <;> simp
@[simp] theorem learnFrom_port (rec : LineRecord) (row : Row) : (learnFrom rec row s).port = s.port := by
  unfold learnFrom; split <;> simp
@[simp] theorem learnFrom_ctl (rec : LineRecord) (row : Row) : (learnFrom rec row s).ctl = s.ctl := by
  unfold learnFrom; split <;> simp
@[simp] theorem learnFrom_counters (rec : LineRecord) (row : Row) : (learnFrom rec row s).counters = s.counters := by
  unfold learnFrom; split <;> simp
@[simp] theorem learnFrom_outputs (rec : LineRecord) (row : Row) : (learnFrom rec row s).outputs = s.outputs := by
  unfold learnFrom; split <;> simp
@[simp] theorem learnFrom_powerCycles (rec : LineRecord) (row : Row) : (learnFrom rec row s).powerCycles = s.powerCycles := by
  unfold learnFrom; split <;> simp
@[simp] theorem learnFrom_draws (rec : LineRecord) (row : Row) : (learnFrom rec row s).draws = s.draws := by
  unfold learnFrom; split <;> simp
@[simp] theorem learnFrom_pending (rec : LineRecord) (row : Row) : (learnFrom rec row s).pending = s.pending := by
  unfold learnFrom; split <;> simp
@[simp] theorem learnFrom_overlap (rec : LineRecord) (row : Row) : (learnFrom rec row s).overlap = s.overlap := by
  unfold learnFrom; split <;> simp

@[simp] theorem finaliseRow_encoder (m r : Nat) : (finaliseRow m r s).encoder = s.encoder := by
  unfold finaliseRow; split <;> simp
@[simp] theorem finaliseRow_intake (m r : Nat) : (finaliseRow m r s).intake = s.intake := by
  unfold finaliseRow; split <;> simp
@[simp] theorem finaliseRow_tracker (m r : Nat) : (finaliseRow m r s).tracker = s.tracker := by
  unfold finaliseRow; split <;> simp
@[simp] theorem finaliseRow_table (m r : Nat) : (finaliseRow m r s).table = s.table := by
  unfold finaliseRow; split <;> simp
@[simp] theorem finaliseRow_bus (m r : Nat) : (finaliseRow m r s).bus = s.bus := by
  unfold finaliseRow; split <;> simp
@[simp] theorem finaliseRow_port (m r : Nat) : (finaliseRow m r s).port = s.port := by
  unfold finaliseRow; split <;> simp
@[simp] theorem finaliseRow_ctl (m r : Nat) : (finaliseRow m r s).ctl = s.ctl := by
  unfold finaliseRow; split <;> simp
@[simp] theorem finaliseRow_counters (m r : Nat) : (finaliseRow m r s).counters = s.counters := by
  unfold finaliseRow; split <;> simp
@[simp] theorem finaliseRow_outputs (m r : Nat) : (finaliseRow m r s).outputs = s.outputs := by
  unfold finaliseRow; split <;> simp
@[simp] theorem finaliseRow_powerCycles (m r : Nat) : (finaliseRow m r s).powerCycles = s.powerCycles := by
  unfold finaliseRow; split <;> simp
@[simp] theorem finaliseRow_draws (m r : Nat) : (finaliseRow m r s).draws = s.draws := by
  unfold finaliseRow; split <;> simp
@[simp] theorem finaliseRow_pending (m r : Nat) : (finaliseRow m r s).pending = s.pending := by
  unfold finaliseRow; split <;> simp
@[simp] theorem finaliseRow_overlap (m r : Nat) : (finaliseRow m r s).overlap = s.overlap := by
  unfold finaliseRow; split <;> simp

@[simp] theorem finaliseEnd_encoder : (finaliseEnd s).encoder = s.encoder := by
  unfold finaliseEnd; split <;> simp
@[simp] theorem finaliseEnd_intake : (finaliseEnd s).intake = s.intake := by
  unfold finaliseEnd; split <;> simp
@[simp] theorem finaliseEnd_tracker : (finaliseEnd s).tracker = s.tracker := by
  unfold finaliseEnd; split <;> simp
@[simp] theorem finaliseEnd_table : (finaliseEnd s).table = s.table := by
  unfold finaliseEnd; split <;> simp
@[simp] theorem finaliseEnd_ctl : (finaliseEnd s).ctl = s.ctl := by
  unfold finaliseEnd; split <;> simp
@[simp] theorem finaliseEnd_dram : (finaliseEnd s).dram = s.dram := by
  unfold finaliseEnd; split <;> simp
@[simp] theorem finaliseEnd_powerCycles : (finaliseEnd s).powerCycles = s.powerCycles := by
  unfold finaliseEnd; split <;> simp
@[simp] theorem finaliseEnd_draws : (finaliseEnd s).draws = s.draws := by
  unfold finaliseEnd; split <;> simp
@[simp] theorem finaliseEnd_pending : (finaliseEnd s).pending = s.pending := by
  unfold finaliseEnd; split <;> simp
@[simp] theorem finaliseEnd_overlap : (finaliseEnd s).overlap = s.overlap := by
  unfold finaliseEnd; split <;> simp

@[simp] theorem finaliseStep_encoder (m : Nat) : (finaliseStep m s).encoder = s.encoder := by
  unfold finaliseStep; split <;> simp
@[simp] theorem finaliseStep_intake (m : Nat) : (finaliseStep m s).intake = s.intake := by
  unfold finaliseStep; split <;> simp
@[simp] theorem finaliseStep_tracker (m : Nat) : (finaliseStep m s).tracker = s.tracker := by
  unfold finaliseStep; split <;> simp
@[simp] theorem finaliseStep_table (m : Nat) : (finaliseStep m s).table = s.table := by
  unfold finaliseStep; split <;> simp
@[simp] theorem finaliseStep_ctl (m : Nat) : (finaliseStep m s).ctl = s.ctl := by
  unfold finaliseStep; split <;> simp
@[simp] theorem finaliseStep_powerCycles (m : Nat) : (finaliseStep m s).powerCycles = s.powerCycles := by
  unfold finaliseStep; split <;> simp
@[simp] theorem finaliseStep_draws (m : Nat) : (finaliseStep m s).draws = s.draws := by
  unfold finaliseStep; split <;> simp
@[simp] theorem finaliseStep_pending (m : Nat) : (finaliseStep m s).pending = s.pending := by
  unfold finaliseStep; split <;> simp
@[simp] theorem finaliseStep_overlap (m : Nat) : (finaliseStep m s).overlap = s.overlap := by
  unfold finaliseStep; split <;> simp

/-! ## Steering -/

@[simp] theorem countSuppressed_encoder (why : Reason) : (countSuppressed why s).encoder = s.encoder := by
  unfold countSuppressed; split <;> simp
@[simp] theorem countSuppressed_intake (why : Reason) : (countSuppressed why s).intake = s.intake := by
  unfold countSuppressed; split <;> simp
@[simp] theorem countSuppressed_tracker (why : Reason) : (countSuppressed why s).tracker = s.tracker := by
  unfold countSuppressed; split <;> simp
@[simp] theorem countSuppressed_ref (why : Reason) : (countSuppressed why s).ref = s.ref := by
  unfold countSuppressed; split <;> simp
@[simp] theorem countSuppressed_table (why : Reason) : (countSuppressed why s).table = s.table := by
  unfold countSuppressed; split <;> simp
@[simp] theorem countSuppressed_bus (why : Reason) : (countSuppressed why s).bus = s.bus := by
  unfold countSuppressed; split <;> simp
@[simp] theorem countSuppressed_port (why : Reason) : (countSuppressed why s).port = s.port := by
  unfold countSuppressed; split <;> simp
@[simp] theorem countSuppressed_ctl (why : Reason) : (countSuppressed why s).ctl = s.ctl := by
  unfold countSuppressed; split <;> simp
@[simp] theorem countSuppressed_dram (why : Reason) : (countSuppressed why s).dram = s.dram := by
  unfold countSuppressed; split <;> simp
@[simp] theorem countSuppressed_outputs (why : Reason) : (countSuppressed why s).outputs = s.outputs := by
  unfold countSuppressed; split <;> simp
@[simp] theorem countSuppressed_powerCycles (why : Reason) : (countSuppressed why s).powerCycles = s.powerCycles := by
  unfold countSuppressed; split <;> simp
@[simp] theorem countSuppressed_draws (why : Reason) : (countSuppressed why s).draws = s.draws := by
  unfold countSuppressed; split <;> simp
@[simp] theorem countSuppressed_pending (why : Reason) : (countSuppressed why s).pending = s.pending := by
  unfold countSuppressed; split <;> simp
@[simp] theorem countSuppressed_overlap (why : Reason) : (countSuppressed why s).overlap = s.overlap := by
  unfold countSuppressed; split <;> simp

@[simp] theorem applyAction_encoder (a : TileAction) (x : State × Nat) : (applyAction a x).1.encoder = x.1.encoder := by
  unfold applyAction; split <;> simp
@[simp] theorem applyAction_intake (a : TileAction) (x : State × Nat) : (applyAction a x).1.intake = x.1.intake := by
  unfold applyAction; split <;> simp
@[simp] theorem applyAction_tracker (a : TileAction) (x : State × Nat) : (applyAction a x).1.tracker = x.1.tracker := by
  unfold applyAction; split <;> simp
@[simp] theorem applyAction_ref (a : TileAction) (x : State × Nat) : (applyAction a x).1.ref = x.1.ref := by
  unfold applyAction; split <;> simp
@[simp] theorem applyAction_table (a : TileAction) (x : State × Nat) : (applyAction a x).1.table = x.1.table := by
  unfold applyAction; split <;> simp
@[simp] theorem applyAction_bus (a : TileAction) (x : State × Nat) : (applyAction a x).1.bus = x.1.bus := by
  unfold applyAction; split <;> simp
@[simp] theorem applyAction_ctl (a : TileAction) (x : State × Nat) : (applyAction a x).1.ctl = x.1.ctl := by
  unfold applyAction; split <;> simp
@[simp] theorem applyAction_dram (a : TileAction) (x : State × Nat) : (applyAction a x).1.dram = x.1.dram := by
  unfold applyAction; split <;> simp
@[simp] theorem applyAction_powerCycles (a : TileAction) (x : State × Nat) : (applyAction a x).1.powerCycles = x.1.powerCycles := by
  unfold applyAction; split <;> simp
@[simp] theorem applyAction_draws (a : TileAction) (x : State × Nat) : (applyAction a x).1.draws = x.1.draws := by
  unfold applyAction; split <;> simp
@[simp] theorem applyAction_pending (a : TileAction) (x : State × Nat) : (applyAction a x).1.pending = x.1.pending := by
  unfold applyAction; split <;> simp
@[simp] theorem applyAction_overlap (a : TileAction) (x : State × Nat) : (applyAction a x).1.overlap = x.1.overlap := by
  unfold applyAction; split <;> simp

@[simp] theorem applyActions_encoder (acts : List TileAction) (x : State × Nat) :
    (applyActions acts x).1.encoder = x.1.encoder := by
  induction acts generalizing x with
  | nil => rfl
  | cons a as ih => simp [applyActions, ih]
@[simp] theorem applyActions_intake (acts : List TileAction) (x : State × Nat) :
    (applyActions acts x).1.intake = x.1.intake := by
  induction acts generalizing x with
  | nil => rfl
  | cons a as ih => simp [applyActions, ih]
@[simp] theorem applyActions_tracker (acts : List TileAction) (x : State × Nat) :
    (applyActions acts x).1.tracker = x.1.tracker := by
  induction acts generalizing x with
  | nil => rfl
  | cons a as ih => simp [applyActions, ih]
@[simp] theorem applyActions_ref (acts : List TileAction) (x : State × Nat) :
    (applyActions acts x).1.ref = x.1.ref := by
  induction acts generalizing x with
  | nil => rfl
  | cons a as ih => simp [applyActions, ih]
@[simp] theorem applyActions_table (acts : List TileAction) (x : State × Nat) :
    (applyActions acts x).1.table = x.1.table := by
  induction acts generalizing x with
  | nil => rfl
  | cons a as ih => simp [applyActions, ih]
@[simp] theorem applyActions_bus (acts : List TileAction) (x : State × Nat) :
    (applyActions acts x).1.bus = x.1.bus := by
  induction acts generalizing x with
  | nil => rfl
  | cons a as ih => simp [applyActions, ih]
@[simp] theorem applyActions_ctl (acts : List TileAction) (x : State × Nat) :
    (applyActions acts x).1.ctl = x.1.ctl := by
  induction acts generalizing x with
  | nil => rfl
  | cons a as ih => simp [applyActions, ih]
@[simp] theorem applyActions_dram (acts : List TileAction) (x : State × Nat) :
    (applyActions acts x).1.dram = x.1.dram := by
  induction acts generalizing x with
  | nil => rfl
  | cons a as ih => simp [applyActions, ih]
@[simp] theorem applyActions_powerCycles (acts : List TileAction) (x : State × Nat) :
    (applyActions acts x).1.powerCycles = x.1.powerCycles := by
  induction acts generalizing x with
  | nil => rfl
  | cons a as ih => simp [applyActions, ih]
@[simp] theorem applyActions_draws (acts : List TileAction) (x : State × Nat) :
    (applyActions acts x).1.draws = x.1.draws := by
  induction acts generalizing x with
  | nil => rfl
  | cons a as ih => simp [applyActions, ih]
@[simp] theorem applyActions_pending (acts : List TileAction) (x : State × Nat) :
    (applyActions acts x).1.pending = x.1.pending := by
  induction acts generalizing x with
  | nil => rfl
  | cons a as ih => simp [applyActions, ih]
@[simp] theorem applyActions_overlap (acts : List TileAction) (x : State × Nat) :
    (applyActions acts x).1.overlap = x.1.overlap := by
  induction acts generalizing x with
  | nil => rfl
  | cons a as ih => simp [applyActions, ih]

@[simp] theorem offerRest_encoder (o : Offering) : (offerRest o s).encoder = s.encoder := by
  simp [offerRest]
@[simp] theorem offerRest_intake (o : Offering) : (offerRest o s).intake = s.intake := by
  simp [offerRest]
@[simp] theorem offerRest_tracker (o : Offering) : (offerRest o s).tracker = s.tracker := by
  simp [offerRest]
@[simp] theorem offerRest_ref (o : Offering) : (offerRest o s).ref = s.ref := by
  simp [offerRest]
@[simp] theorem offerRest_table (o : Offering) : (offerRest o s).table = s.table := by
  simp [offerRest]
@[simp] theorem offerRest_bus (o : Offering) : (offerRest o s).bus = s.bus := by
  simp [offerRest]
@[simp] theorem offerRest_ctl (o : Offering) : (offerRest o s).ctl = s.ctl := by
  simp [offerRest]
@[simp] theorem offerRest_dram (o : Offering) : (offerRest o s).dram = s.dram := by
  simp [offerRest]
@[simp] theorem offerRest_powerCycles (o : Offering) : (offerRest o s).powerCycles = s.powerCycles := by
  simp [offerRest]
@[simp] theorem offerRest_draws (o : Offering) : (offerRest o s).draws = s.draws := by
  simp [offerRest]
@[simp] theorem offerRest_pending (o : Offering) : (offerRest o s).pending = s.pending := by
  simp [offerRest]
@[simp] theorem offerRest_overlap (o : Offering) : (offerRest o s).overlap = s.overlap := by
  simp [offerRest]

@[simp] theorem offerSome_encoder (n : Nat) (o : Offering) : (offerSome n o s).encoder = s.encoder := by
  simp [offerSome]
@[simp] theorem offerSome_intake (n : Nat) (o : Offering) : (offerSome n o s).intake = s.intake := by
  simp [offerSome]
@[simp] theorem offerSome_tracker (n : Nat) (o : Offering) : (offerSome n o s).tracker = s.tracker := by
  simp [offerSome]
@[simp] theorem offerSome_ref (n : Nat) (o : Offering) : (offerSome n o s).ref = s.ref := by
  simp [offerSome]
@[simp] theorem offerSome_table (n : Nat) (o : Offering) : (offerSome n o s).table = s.table := by
  simp [offerSome]
@[simp] theorem offerSome_bus (n : Nat) (o : Offering) : (offerSome n o s).bus = s.bus := by
  simp [offerSome]
@[simp] theorem offerSome_ctl (n : Nat) (o : Offering) : (offerSome n o s).ctl = s.ctl := by
  simp [offerSome]
@[simp] theorem offerSome_dram (n : Nat) (o : Offering) : (offerSome n o s).dram = s.dram := by
  simp [offerSome]
@[simp] theorem offerSome_powerCycles (n : Nat) (o : Offering) : (offerSome n o s).powerCycles = s.powerCycles := by
  simp [offerSome]
@[simp] theorem offerSome_draws (n : Nat) (o : Offering) : (offerSome n o s).draws = s.draws := by
  simp [offerSome]
@[simp] theorem offerSome_pending (n : Nat) (o : Offering) : (offerSome n o s).pending = s.pending := by
  simp [offerSome]
@[simp] theorem offerSome_overlap (n : Nat) (o : Offering) : (offerSome n o s).overlap = s.overlap := by
  simp [offerSome]

@[simp] theorem endOffers_encoder (o : Offering) : (endOffers o s).encoder = s.encoder := by
  simp [endOffers]
@[simp] theorem endOffers_intake (o : Offering) : (endOffers o s).intake = s.intake := by
  simp [endOffers]
@[simp] theorem endOffers_tracker (o : Offering) : (endOffers o s).tracker = s.tracker := by
  simp [endOffers]
@[simp] theorem endOffers_ref (o : Offering) : (endOffers o s).ref = s.ref := by
  simp [endOffers]
@[simp] theorem endOffers_table (o : Offering) : (endOffers o s).table = s.table := by
  simp [endOffers]
@[simp] theorem endOffers_bus (o : Offering) : (endOffers o s).bus = s.bus := by
  simp [endOffers]
@[simp] theorem endOffers_ctl (o : Offering) : (endOffers o s).ctl = s.ctl := by
  simp [endOffers]
@[simp] theorem endOffers_dram (o : Offering) : (endOffers o s).dram = s.dram := by
  simp [endOffers]
@[simp] theorem endOffers_powerCycles (o : Offering) : (endOffers o s).powerCycles = s.powerCycles := by
  simp [endOffers]
@[simp] theorem endOffers_draws (o : Offering) : (endOffers o s).draws = s.draws := by
  simp [endOffers]
@[simp] theorem endOffers_pending (o : Offering) : (endOffers o s).pending = s.pending := by
  simp [endOffers]
@[simp] theorem endOffers_overlap (o : Offering) : (endOffers o s).overlap = s.overlap := by
  simp [endOffers]

@[simp] theorem steer_encoder (v : CloseView) : (steer v s).encoder = s.encoder := by
  unfold steer; split <;> simp
@[simp] theorem steer_intake (v : CloseView) : (steer v s).intake = s.intake := by
  unfold steer; split <;> simp
@[simp] theorem steer_tracker (v : CloseView) : (steer v s).tracker = s.tracker := by
  unfold steer; split <;> simp
@[simp] theorem steer_ref (v : CloseView) : (steer v s).ref = s.ref := by
  unfold steer; split <;> simp
@[simp] theorem steer_table (v : CloseView) : (steer v s).table = s.table := by
  unfold steer; split <;> simp
@[simp] theorem steer_bus (v : CloseView) : (steer v s).bus = s.bus := by
  unfold steer; split <;> simp
@[simp] theorem steer_ctl (v : CloseView) : (steer v s).ctl = s.ctl := by
  unfold steer; split <;> simp
@[simp] theorem steer_dram (v : CloseView) : (steer v s).dram = s.dram := by
  unfold steer; split <;> simp
@[simp] theorem steer_powerCycles (v : CloseView) : (steer v s).powerCycles = s.powerCycles := by
  unfold steer; split <;> simp
@[simp] theorem steer_draws (v : CloseView) : (steer v s).draws = s.draws := by
  unfold steer; split <;> simp
@[simp] theorem steer_pending (v : CloseView) : (steer v s).pending = s.pending := by
  unfold steer; split <;> simp

/-! ## Bands -/

@[simp] theorem updEntry_encoder (band : Nat) (f : Entry → Entry) : (updEntry band f s).encoder = s.encoder := by
  rfl
@[simp] theorem updEntry_intake (band : Nat) (f : Entry → Entry) : (updEntry band f s).intake = s.intake := by
  rfl
@[simp] theorem updEntry_tracker (band : Nat) (f : Entry → Entry) : (updEntry band f s).tracker = s.tracker := by
  rfl
@[simp] theorem updEntry_ref (band : Nat) (f : Entry → Entry) : (updEntry band f s).ref = s.ref := by
  rfl
@[simp] theorem updEntry_bus (band : Nat) (f : Entry → Entry) : (updEntry band f s).bus = s.bus := by
  rfl
@[simp] theorem updEntry_port (band : Nat) (f : Entry → Entry) : (updEntry band f s).port = s.port := by
  rfl
@[simp] theorem updEntry_ctl (band : Nat) (f : Entry → Entry) : (updEntry band f s).ctl = s.ctl := by
  rfl
@[simp] theorem updEntry_counters (band : Nat) (f : Entry → Entry) : (updEntry band f s).counters = s.counters := by
  rfl
@[simp] theorem updEntry_dram (band : Nat) (f : Entry → Entry) : (updEntry band f s).dram = s.dram := by
  rfl
@[simp] theorem updEntry_outputs (band : Nat) (f : Entry → Entry) : (updEntry band f s).outputs = s.outputs := by
  rfl
@[simp] theorem updEntry_powerCycles (band : Nat) (f : Entry → Entry) : (updEntry band f s).powerCycles = s.powerCycles := by
  rfl
@[simp] theorem updEntry_draws (band : Nat) (f : Entry → Entry) : (updEntry band f s).draws = s.draws := by
  rfl
@[simp] theorem updEntry_pending (band : Nat) (f : Entry → Entry) : (updEntry band f s).pending = s.pending := by
  rfl
@[simp] theorem updEntry_overlap (band : Nat) (f : Entry → Entry) : (updEntry band f s).overlap = s.overlap := by
  rfl

@[simp] theorem createEntry_encoder (band : Nat) : (createEntry band s).encoder = s.encoder := by
  rfl
@[simp] theorem createEntry_intake (band : Nat) : (createEntry band s).intake = s.intake := by
  rfl
@[simp] theorem createEntry_tracker (band : Nat) : (createEntry band s).tracker = s.tracker := by
  rfl
@[simp] theorem createEntry_ref (band : Nat) : (createEntry band s).ref = s.ref := by
  rfl
@[simp] theorem createEntry_bus (band : Nat) : (createEntry band s).bus = s.bus := by
  rfl
@[simp] theorem createEntry_port (band : Nat) : (createEntry band s).port = s.port := by
  rfl
@[simp] theorem createEntry_ctl (band : Nat) : (createEntry band s).ctl = s.ctl := by
  rfl
@[simp] theorem createEntry_counters (band : Nat) : (createEntry band s).counters = s.counters := by
  rfl
@[simp] theorem createEntry_dram (band : Nat) : (createEntry band s).dram = s.dram := by
  rfl
@[simp] theorem createEntry_outputs (band : Nat) : (createEntry band s).outputs = s.outputs := by
  rfl
@[simp] theorem createEntry_powerCycles (band : Nat) : (createEntry band s).powerCycles = s.powerCycles := by
  rfl
@[simp] theorem createEntry_draws (band : Nat) : (createEntry band s).draws = s.draws := by
  rfl
@[simp] theorem createEntry_pending (band : Nat) : (createEntry band s).pending = s.pending := by
  rfl
@[simp] theorem createEntry_overlap (band : Nat) : (createEntry band s).overlap = s.overlap := by
  rfl

@[simp] theorem closeEntry_encoder (e : Entry) : (closeEntry e s).encoder = s.encoder := by
  simp [closeEntry]
@[simp] theorem closeEntry_intake (e : Entry) : (closeEntry e s).intake = s.intake := by
  simp [closeEntry]
@[simp] theorem closeEntry_tracker (e : Entry) : (closeEntry e s).tracker = s.tracker := by
  simp [closeEntry]
@[simp] theorem closeEntry_ref (e : Entry) : (closeEntry e s).ref = s.ref := by
  simp [closeEntry]
@[simp] theorem closeEntry_bus (e : Entry) : (closeEntry e s).bus = s.bus := by
  simp [closeEntry]
@[simp] theorem closeEntry_ctl (e : Entry) : (closeEntry e s).ctl = s.ctl := by
  simp [closeEntry]
@[simp] theorem closeEntry_dram (e : Entry) : (closeEntry e s).dram = s.dram := by
  simp [closeEntry]
@[simp] theorem closeEntry_powerCycles (e : Entry) : (closeEntry e s).powerCycles = s.powerCycles := by
  simp [closeEntry]
@[simp] theorem closeEntry_draws (e : Entry) : (closeEntry e s).draws = s.draws := by
  simp [closeEntry]
@[simp] theorem closeEntry_pending (e : Entry) : (closeEntry e s).pending = s.pending := by
  simp [closeEntry]

@[simp] theorem closeAll_encoder (fuel : Nat) : (closeAll fuel s).encoder = s.encoder := by
  induction fuel generalizing s with
  | zero => rfl
  | succ n ih => simp only [closeAll]; split <;> simp [ih]
@[simp] theorem closeAll_intake (fuel : Nat) : (closeAll fuel s).intake = s.intake := by
  induction fuel generalizing s with
  | zero => rfl
  | succ n ih => simp only [closeAll]; split <;> simp [ih]
@[simp] theorem closeAll_tracker (fuel : Nat) : (closeAll fuel s).tracker = s.tracker := by
  induction fuel generalizing s with
  | zero => rfl
  | succ n ih => simp only [closeAll]; split <;> simp [ih]
@[simp] theorem closeAll_ref (fuel : Nat) : (closeAll fuel s).ref = s.ref := by
  induction fuel generalizing s with
  | zero => rfl
  | succ n ih => simp only [closeAll]; split <;> simp [ih]
@[simp] theorem closeAll_bus (fuel : Nat) : (closeAll fuel s).bus = s.bus := by
  induction fuel generalizing s with
  | zero => rfl
  | succ n ih => simp only [closeAll]; split <;> simp [ih]
@[simp] theorem closeAll_ctl (fuel : Nat) : (closeAll fuel s).ctl = s.ctl := by
  induction fuel generalizing s with
  | zero => rfl
  | succ n ih => simp only [closeAll]; split <;> simp [ih]
@[simp] theorem closeAll_dram (fuel : Nat) : (closeAll fuel s).dram = s.dram := by
  induction fuel generalizing s with
  | zero => rfl
  | succ n ih => simp only [closeAll]; split <;> simp [ih]
@[simp] theorem closeAll_powerCycles (fuel : Nat) : (closeAll fuel s).powerCycles = s.powerCycles := by
  induction fuel generalizing s with
  | zero => rfl
  | succ n ih => simp only [closeAll]; split <;> simp [ih]
@[simp] theorem closeAll_draws (fuel : Nat) : (closeAll fuel s).draws = s.draws := by
  induction fuel generalizing s with
  | zero => rfl
  | succ n ih => simp only [closeAll]; split <;> simp [ih]
@[simp] theorem closeAll_pending (fuel : Nat) : (closeAll fuel s).pending = s.pending := by
  induction fuel generalizing s with
  | zero => rfl
  | succ n ih => simp only [closeAll]; split <;> simp [ih]

@[simp] theorem closingTest_encoder : (closingTest s).encoder = s.encoder := by
  simp [closingTest]
@[simp] theorem closingTest_intake : (closingTest s).intake = s.intake := by
  simp [closingTest]
@[simp] theorem closingTest_tracker : (closingTest s).tracker = s.tracker := by
  simp [closingTest]
@[simp] theorem closingTest_ref : (closingTest s).ref = s.ref := by
  simp [closingTest]
@[simp] theorem closingTest_bus : (closingTest s).bus = s.bus := by
  simp [closingTest]
@[simp] theorem closingTest_ctl : (closingTest s).ctl = s.ctl := by
  simp [closingTest]
@[simp] theorem closingTest_dram : (closingTest s).dram = s.dram := by
  simp [closingTest]
@[simp] theorem closingTest_powerCycles : (closingTest s).powerCycles = s.powerCycles := by
  simp [closingTest]
@[simp] theorem closingTest_draws : (closingTest s).draws = s.draws := by
  simp [closingTest]
@[simp] theorem closingTest_pending : (closingTest s).pending = s.pending := by
  simp [closingTest]

@[simp] theorem finishCloses_encoder : (finishCloses s).encoder = s.encoder := by
  unfold finishCloses; split <;> simp
@[simp] theorem finishCloses_intake : (finishCloses s).intake = s.intake := by
  unfold finishCloses; split <;> simp
@[simp] theorem finishCloses_tracker : (finishCloses s).tracker = s.tracker := by
  unfold finishCloses; split <;> simp
@[simp] theorem finishCloses_ref : (finishCloses s).ref = s.ref := by
  unfold finishCloses; split <;> simp
@[simp] theorem finishCloses_bus : (finishCloses s).bus = s.bus := by
  unfold finishCloses; split <;> simp
@[simp] theorem finishCloses_ctl : (finishCloses s).ctl = s.ctl := by
  unfold finishCloses; split <;> simp
@[simp] theorem finishCloses_dram : (finishCloses s).dram = s.dram := by
  unfold finishCloses; split <;> simp
@[simp] theorem finishCloses_powerCycles : (finishCloses s).powerCycles = s.powerCycles := by
  unfold finishCloses; split <;> simp
@[simp] theorem finishCloses_draws : (finishCloses s).draws = s.draws := by
  unfold finishCloses; split <;> simp
@[simp] theorem finishCloses_pending : (finishCloses s).pending = s.pending := by
  unfold finishCloses; split <;> simp
@[simp] theorem finishCloses_overlap : (finishCloses s).overlap = s.overlap := by
  unfold finishCloses; split <;> simp

@[simp] theorem scoreEntry_encoder (band : Nat) : (scoreEntry band s).encoder = s.encoder := by
  simp only [scoreEntry]; (repeat' split) <;> simp
@[simp] theorem scoreEntry_intake (band : Nat) : (scoreEntry band s).intake = s.intake := by
  simp only [scoreEntry]; (repeat' split) <;> simp
@[simp] theorem scoreEntry_tracker (band : Nat) : (scoreEntry band s).tracker = s.tracker := by
  simp only [scoreEntry]; (repeat' split) <;> simp
@[simp] theorem scoreEntry_ref (band : Nat) : (scoreEntry band s).ref = s.ref := by
  simp only [scoreEntry]; (repeat' split) <;> simp
@[simp] theorem scoreEntry_ctl (band : Nat) : (scoreEntry band s).ctl = s.ctl := by
  simp only [scoreEntry]; (repeat' split) <;> simp
@[simp] theorem scoreEntry_dram (band : Nat) : (scoreEntry band s).dram = s.dram := by
  simp only [scoreEntry]; (repeat' split) <;> simp
@[simp] theorem scoreEntry_powerCycles (band : Nat) : (scoreEntry band s).powerCycles = s.powerCycles := by
  simp only [scoreEntry]; (repeat' split) <;> simp
@[simp] theorem scoreEntry_draws (band : Nat) : (scoreEntry band s).draws = s.draws := by
  simp only [scoreEntry]; (repeat' split) <;> simp
@[simp] theorem scoreEntry_pending (band : Nat) : (scoreEntry band s).pending = s.pending := by
  simp only [scoreEntry]; (repeat' split) <;> simp

@[simp] theorem scoreBand_encoder (band : Nat) : (scoreBand band s).encoder = s.encoder := by
  simp [scoreBand]
@[simp] theorem scoreBand_intake (band : Nat) : (scoreBand band s).intake = s.intake := by
  simp [scoreBand]
@[simp] theorem scoreBand_tracker (band : Nat) : (scoreBand band s).tracker = s.tracker := by
  simp [scoreBand]
@[simp] theorem scoreBand_ref (band : Nat) : (scoreBand band s).ref = s.ref := by
  simp [scoreBand]
@[simp] theorem scoreBand_ctl (band : Nat) : (scoreBand band s).ctl = s.ctl := by
  simp [scoreBand]
@[simp] theorem scoreBand_dram (band : Nat) : (scoreBand band s).dram = s.dram := by
  simp [scoreBand]
@[simp] theorem scoreBand_powerCycles (band : Nat) : (scoreBand band s).powerCycles = s.powerCycles := by
  simp [scoreBand]
@[simp] theorem scoreBand_draws (band : Nat) : (scoreBand band s).draws = s.draws := by
  simp [scoreBand]
@[simp] theorem scoreBand_pending (band : Nat) : (scoreBand band s).pending = s.pending := by
  simp [scoreBand]

@[simp] theorem attachSummary_encoder (w : Which) (e : Entry) (z : Option Summary) : (attachSummary w e z s).encoder = s.encoder := by
  simp only [attachSummary]; (repeat' split) <;> simp
@[simp] theorem attachSummary_intake (w : Which) (e : Entry) (z : Option Summary) : (attachSummary w e z s).intake = s.intake := by
  simp only [attachSummary]; (repeat' split) <;> simp
@[simp] theorem attachSummary_tracker (w : Which) (e : Entry) (z : Option Summary) : (attachSummary w e z s).tracker = s.tracker := by
  simp only [attachSummary]; (repeat' split) <;> simp
@[simp] theorem attachSummary_ref (w : Which) (e : Entry) (z : Option Summary) : (attachSummary w e z s).ref = s.ref := by
  simp only [attachSummary]; (repeat' split) <;> simp
@[simp] theorem attachSummary_bus (w : Which) (e : Entry) (z : Option Summary) : (attachSummary w e z s).bus = s.bus := by
  simp only [attachSummary]; (repeat' split) <;> simp
@[simp] theorem attachSummary_ctl (w : Which) (e : Entry) (z : Option Summary) : (attachSummary w e z s).ctl = s.ctl := by
  simp only [attachSummary]; (repeat' split) <;> simp
@[simp] theorem attachSummary_dram (w : Which) (e : Entry) (z : Option Summary) : (attachSummary w e z s).dram = s.dram := by
  simp only [attachSummary]; (repeat' split) <;> simp
@[simp] theorem attachSummary_powerCycles (w : Which) (e : Entry) (z : Option Summary) : (attachSummary w e z s).powerCycles = s.powerCycles := by
  simp only [attachSummary]; (repeat' split) <;> simp
@[simp] theorem attachSummary_draws (w : Which) (e : Entry) (z : Option Summary) : (attachSummary w e z s).draws = s.draws := by
  simp only [attachSummary]; (repeat' split) <;> simp
@[simp] theorem attachSummary_pending (w : Which) (e : Entry) (z : Option Summary) : (attachSummary w e z s).pending = s.pending := by
  simp only [attachSummary]; (repeat' split) <;> simp

@[simp] theorem enterEarly_encoder (w : Which) (x : EarlySummary) : (enterEarly w x s).encoder = s.encoder := by
  simp only [enterEarly]; (repeat' split) <;> simp
@[simp] theorem enterEarly_intake (w : Which) (x : EarlySummary) : (enterEarly w x s).intake = s.intake := by
  simp only [enterEarly]; (repeat' split) <;> simp
@[simp] theorem enterEarly_tracker (w : Which) (x : EarlySummary) : (enterEarly w x s).tracker = s.tracker := by
  simp only [enterEarly]; (repeat' split) <;> simp
@[simp] theorem enterEarly_ref (w : Which) (x : EarlySummary) : (enterEarly w x s).ref = s.ref := by
  simp only [enterEarly]; (repeat' split) <;> simp
@[simp] theorem enterEarly_bus (w : Which) (x : EarlySummary) : (enterEarly w x s).bus = s.bus := by
  simp only [enterEarly]; (repeat' split) <;> simp
@[simp] theorem enterEarly_port (w : Which) (x : EarlySummary) : (enterEarly w x s).port = s.port := by
  simp only [enterEarly]; (repeat' split) <;> simp
@[simp] theorem enterEarly_ctl (w : Which) (x : EarlySummary) : (enterEarly w x s).ctl = s.ctl := by
  simp only [enterEarly]; (repeat' split) <;> simp
@[simp] theorem enterEarly_dram (w : Which) (x : EarlySummary) : (enterEarly w x s).dram = s.dram := by
  simp only [enterEarly]; (repeat' split) <;> simp
@[simp] theorem enterEarly_outputs (w : Which) (x : EarlySummary) : (enterEarly w x s).outputs = s.outputs := by
  simp only [enterEarly]; (repeat' split) <;> simp
@[simp] theorem enterEarly_powerCycles (w : Which) (x : EarlySummary) : (enterEarly w x s).powerCycles = s.powerCycles := by
  simp only [enterEarly]; (repeat' split) <;> simp
@[simp] theorem enterEarly_draws (w : Which) (x : EarlySummary) : (enterEarly w x s).draws = s.draws := by
  simp only [enterEarly]; (repeat' split) <;> simp
@[simp] theorem enterEarly_pending (w : Which) (x : EarlySummary) : (enterEarly w x s).pending = s.pending := by
  simp only [enterEarly]; (repeat' split) <;> simp
@[simp] theorem enterEarly_overlap (w : Which) (x : EarlySummary) : (enterEarly w x s).overlap = s.overlap := by
  simp only [enterEarly]; (repeat' split) <;> simp

@[simp] theorem placeAt_encoder (w : Which) (resolved : Option Nat) (z : Option Summary) : (placeAt w resolved z s).encoder = s.encoder := by
  simp only [placeAt]; (repeat' split) <;> simp
@[simp] theorem placeAt_intake (w : Which) (resolved : Option Nat) (z : Option Summary) : (placeAt w resolved z s).intake = s.intake := by
  simp only [placeAt]; (repeat' split) <;> simp
@[simp] theorem placeAt_tracker (w : Which) (resolved : Option Nat) (z : Option Summary) : (placeAt w resolved z s).tracker = s.tracker := by
  simp only [placeAt]; (repeat' split) <;> simp
@[simp] theorem placeAt_ref (w : Which) (resolved : Option Nat) (z : Option Summary) : (placeAt w resolved z s).ref = s.ref := by
  simp only [placeAt]; (repeat' split) <;> simp
@[simp] theorem placeAt_bus (w : Which) (resolved : Option Nat) (z : Option Summary) : (placeAt w resolved z s).bus = s.bus := by
  simp only [placeAt]; (repeat' split) <;> simp
@[simp] theorem placeAt_ctl (w : Which) (resolved : Option Nat) (z : Option Summary) : (placeAt w resolved z s).ctl = s.ctl := by
  simp only [placeAt]; (repeat' split) <;> simp
@[simp] theorem placeAt_dram (w : Which) (resolved : Option Nat) (z : Option Summary) : (placeAt w resolved z s).dram = s.dram := by
  simp only [placeAt]; (repeat' split) <;> simp
@[simp] theorem placeAt_powerCycles (w : Which) (resolved : Option Nat) (z : Option Summary) : (placeAt w resolved z s).powerCycles = s.powerCycles := by
  simp only [placeAt]; (repeat' split) <;> simp
@[simp] theorem placeAt_draws (w : Which) (resolved : Option Nat) (z : Option Summary) : (placeAt w resolved z s).draws = s.draws := by
  simp only [placeAt]; (repeat' split) <;> simp
@[simp] theorem placeAt_pending (w : Which) (resolved : Option Nat) (z : Option Summary) : (placeAt w resolved z s).pending = s.pending := by
  simp only [placeAt]; (repeat' split) <;> simp

@[simp] theorem placeSummary_encoder (w : Which) (m : Nat) (z : Option Summary) : (placeSummary w m z s).encoder = s.encoder := by
  simp [placeSummary]
@[simp] theorem placeSummary_intake (w : Which) (m : Nat) (z : Option Summary) : (placeSummary w m z s).intake = s.intake := by
  simp [placeSummary]
@[simp] theorem placeSummary_tracker (w : Which) (m : Nat) (z : Option Summary) : (placeSummary w m z s).tracker = s.tracker := by
  simp [placeSummary]
@[simp] theorem placeSummary_ref (w : Which) (m : Nat) (z : Option Summary) : (placeSummary w m z s).ref = s.ref := by
  simp [placeSummary]
@[simp] theorem placeSummary_bus (w : Which) (m : Nat) (z : Option Summary) : (placeSummary w m z s).bus = s.bus := by
  simp [placeSummary]
@[simp] theorem placeSummary_ctl (w : Which) (m : Nat) (z : Option Summary) : (placeSummary w m z s).ctl = s.ctl := by
  simp [placeSummary]
@[simp] theorem placeSummary_dram (w : Which) (m : Nat) (z : Option Summary) : (placeSummary w m z s).dram = s.dram := by
  simp [placeSummary]
@[simp] theorem placeSummary_powerCycles (w : Which) (m : Nat) (z : Option Summary) : (placeSummary w m z s).powerCycles = s.powerCycles := by
  simp [placeSummary]
@[simp] theorem placeSummary_draws (w : Which) (m : Nat) (z : Option Summary) : (placeSummary w m z s).draws = s.draws := by
  simp [placeSummary]
@[simp] theorem placeSummary_pending (w : Which) (m : Nat) (z : Option Summary) : (placeSummary w m z s).pending = s.pending := by
  simp [placeSummary]

@[simp] theorem takeSummary_encoder (sender : StationNo) (m : Half) (level : Byte) (left right : List ZoneCode) : (takeSummary sender m level left right s).encoder = s.encoder := by
  unfold takeSummary; split <;> simp
@[simp] theorem takeSummary_intake (sender : StationNo) (m : Half) (level : Byte) (left right : List ZoneCode) : (takeSummary sender m level left right s).intake = s.intake := by
  unfold takeSummary; split <;> simp
@[simp] theorem takeSummary_tracker (sender : StationNo) (m : Half) (level : Byte) (left right : List ZoneCode) : (takeSummary sender m level left right s).tracker = s.tracker := by
  unfold takeSummary; split <;> simp
@[simp] theorem takeSummary_ref (sender : StationNo) (m : Half) (level : Byte) (left right : List ZoneCode) : (takeSummary sender m level left right s).ref = s.ref := by
  unfold takeSummary; split <;> simp
@[simp] theorem takeSummary_bus (sender : StationNo) (m : Half) (level : Byte) (left right : List ZoneCode) : (takeSummary sender m level left right s).bus = s.bus := by
  unfold takeSummary; split <;> simp
@[simp] theorem takeSummary_ctl (sender : StationNo) (m : Half) (level : Byte) (left right : List ZoneCode) : (takeSummary sender m level left right s).ctl = s.ctl := by
  unfold takeSummary; split <;> simp
@[simp] theorem takeSummary_dram (sender : StationNo) (m : Half) (level : Byte) (left right : List ZoneCode) : (takeSummary sender m level left right s).dram = s.dram := by
  unfold takeSummary; split <;> simp
@[simp] theorem takeSummary_powerCycles (sender : StationNo) (m : Half) (level : Byte) (left right : List ZoneCode) : (takeSummary sender m level left right s).powerCycles = s.powerCycles := by
  unfold takeSummary; split <;> simp
@[simp] theorem takeSummary_draws (sender : StationNo) (m : Half) (level : Byte) (left right : List ZoneCode) : (takeSummary sender m level left right s).draws = s.draws := by
  unfold takeSummary; split <;> simp
@[simp] theorem takeSummary_pending (sender : StationNo) (m : Half) (level : Byte) (left right : List ZoneCode) : (takeSummary sender m level left right s).pending = s.pending := by
  unfold takeSummary; split <;> simp

/-! ## Lines -/

@[simp] theorem countEvent_encoder (ev : LineEvent) : (countEvent ev s).encoder = s.encoder := by
  simp only [countEvent]; split <;> simp
@[simp] theorem countEvent_intake (ev : LineEvent) : (countEvent ev s).intake = s.intake := by
  simp only [countEvent]; split <;> simp
@[simp] theorem countEvent_tracker (ev : LineEvent) : (countEvent ev s).tracker = s.tracker := by
  simp only [countEvent]; split <;> simp
@[simp] theorem countEvent_ref (ev : LineEvent) : (countEvent ev s).ref = s.ref := by
  simp only [countEvent]; split <;> simp
@[simp] theorem countEvent_table (ev : LineEvent) : (countEvent ev s).table = s.table := by
  simp only [countEvent]; split <;> simp
@[simp] theorem countEvent_bus (ev : LineEvent) : (countEvent ev s).bus = s.bus := by
  simp only [countEvent]; split <;> simp
@[simp] theorem countEvent_port (ev : LineEvent) : (countEvent ev s).port = s.port := by
  simp only [countEvent]; split <;> simp
@[simp] theorem countEvent_ctl (ev : LineEvent) : (countEvent ev s).ctl = s.ctl := by
  simp only [countEvent]; split <;> simp
@[simp] theorem countEvent_dram (ev : LineEvent) : (countEvent ev s).dram = s.dram := by
  simp only [countEvent]; split <;> simp
@[simp] theorem countEvent_outputs (ev : LineEvent) : (countEvent ev s).outputs = s.outputs := by
  simp only [countEvent]; split <;> simp
@[simp] theorem countEvent_powerCycles (ev : LineEvent) : (countEvent ev s).powerCycles = s.powerCycles := by
  simp only [countEvent]; split <;> simp
@[simp] theorem countEvent_draws (ev : LineEvent) : (countEvent ev s).draws = s.draws := by
  simp only [countEvent]; split <;> simp
@[simp] theorem countEvent_pending (ev : LineEvent) : (countEvent ev s).pending = s.pending := by
  simp only [countEvent]; split <;> simp
@[simp] theorem countEvent_overlap (ev : LineEvent) : (countEvent ev s).overlap = s.overlap := by
  simp only [countEvent]; split <;> simp

@[simp] theorem intakeEvent_encoder (ev : LineEvent) : (intakeEvent ev s).encoder = s.encoder := by
  unfold intakeEvent; split <;> simp
@[simp] theorem intakeEvent_tracker (ev : LineEvent) : (intakeEvent ev s).tracker = s.tracker := by
  unfold intakeEvent; split <;> simp
@[simp] theorem intakeEvent_ref (ev : LineEvent) : (intakeEvent ev s).ref = s.ref := by
  unfold intakeEvent; split <;> simp
@[simp] theorem intakeEvent_bus (ev : LineEvent) : (intakeEvent ev s).bus = s.bus := by
  unfold intakeEvent; split <;> simp
@[simp] theorem intakeEvent_port (ev : LineEvent) : (intakeEvent ev s).port = s.port := by
  unfold intakeEvent; split <;> simp
@[simp] theorem intakeEvent_ctl (ev : LineEvent) : (intakeEvent ev s).ctl = s.ctl := by
  unfold intakeEvent; split <;> simp
@[simp] theorem intakeEvent_dram (ev : LineEvent) : (intakeEvent ev s).dram = s.dram := by
  unfold intakeEvent; split <;> simp
@[simp] theorem intakeEvent_outputs (ev : LineEvent) : (intakeEvent ev s).outputs = s.outputs := by
  unfold intakeEvent; split <;> simp
@[simp] theorem intakeEvent_powerCycles (ev : LineEvent) : (intakeEvent ev s).powerCycles = s.powerCycles := by
  unfold intakeEvent; split <;> simp
@[simp] theorem intakeEvent_draws (ev : LineEvent) : (intakeEvent ev s).draws = s.draws := by
  unfold intakeEvent; split <;> simp
@[simp] theorem intakeEvent_pending (ev : LineEvent) : (intakeEvent ev s).pending = s.pending := by
  unfold intakeEvent; split <;> simp
@[simp] theorem intakeEvent_overlap (ev : LineEvent) : (intakeEvent ev s).overlap = s.overlap := by
  unfold intakeEvent; split <;> simp

@[simp] theorem markRegistered_encoder (rec : LineRecord) : (markRegistered rec s).encoder = s.encoder := by
  rfl
@[simp] theorem markRegistered_intake (rec : LineRecord) : (markRegistered rec s).intake = s.intake := by
  rfl
@[simp] theorem markRegistered_tracker (rec : LineRecord) : (markRegistered rec s).tracker = s.tracker := by
  rfl
@[simp] theorem markRegistered_ref (rec : LineRecord) : (markRegistered rec s).ref = s.ref := by
  rfl
@[simp] theorem markRegistered_bus (rec : LineRecord) : (markRegistered rec s).bus = s.bus := by
  rfl
@[simp] theorem markRegistered_port (rec : LineRecord) : (markRegistered rec s).port = s.port := by
  rfl
@[simp] theorem markRegistered_ctl (rec : LineRecord) : (markRegistered rec s).ctl = s.ctl := by
  rfl
@[simp] theorem markRegistered_counters (rec : LineRecord) : (markRegistered rec s).counters = s.counters := by
  rfl
@[simp] theorem markRegistered_dram (rec : LineRecord) : (markRegistered rec s).dram = s.dram := by
  rfl
@[simp] theorem markRegistered_outputs (rec : LineRecord) : (markRegistered rec s).outputs = s.outputs := by
  rfl
@[simp] theorem markRegistered_powerCycles (rec : LineRecord) : (markRegistered rec s).powerCycles = s.powerCycles := by
  rfl
@[simp] theorem markRegistered_draws (rec : LineRecord) : (markRegistered rec s).draws = s.draws := by
  rfl
@[simp] theorem markRegistered_pending (rec : LineRecord) : (markRegistered rec s).pending = s.pending := by
  rfl
@[simp] theorem markRegistered_overlap (rec : LineRecord) : (markRegistered rec s).overlap = s.overlap := by
  rfl

@[simp] theorem scoreRow_encoder (rec : LineRecord) (row : Row) (served : Option (List Byte)) : (scoreRow rec row served s).encoder = s.encoder := by
  rfl
@[simp] theorem scoreRow_intake (rec : LineRecord) (row : Row) (served : Option (List Byte)) : (scoreRow rec row served s).intake = s.intake := by
  rfl
@[simp] theorem scoreRow_tracker (rec : LineRecord) (row : Row) (served : Option (List Byte)) : (scoreRow rec row served s).tracker = s.tracker := by
  rfl
@[simp] theorem scoreRow_ref (rec : LineRecord) (row : Row) (served : Option (List Byte)) : (scoreRow rec row served s).ref = s.ref := by
  rfl
@[simp] theorem scoreRow_bus (rec : LineRecord) (row : Row) (served : Option (List Byte)) : (scoreRow rec row served s).bus = s.bus := by
  rfl
@[simp] theorem scoreRow_port (rec : LineRecord) (row : Row) (served : Option (List Byte)) : (scoreRow rec row served s).port = s.port := by
  rfl
@[simp] theorem scoreRow_ctl (rec : LineRecord) (row : Row) (served : Option (List Byte)) : (scoreRow rec row served s).ctl = s.ctl := by
  rfl
@[simp] theorem scoreRow_counters (rec : LineRecord) (row : Row) (served : Option (List Byte)) : (scoreRow rec row served s).counters = s.counters := by
  rfl
@[simp] theorem scoreRow_dram (rec : LineRecord) (row : Row) (served : Option (List Byte)) : (scoreRow rec row served s).dram = s.dram := by
  rfl
@[simp] theorem scoreRow_outputs (rec : LineRecord) (row : Row) (served : Option (List Byte)) : (scoreRow rec row served s).outputs = s.outputs := by
  rfl
@[simp] theorem scoreRow_powerCycles (rec : LineRecord) (row : Row) (served : Option (List Byte)) : (scoreRow rec row served s).powerCycles = s.powerCycles := by
  rfl
@[simp] theorem scoreRow_draws (rec : LineRecord) (row : Row) (served : Option (List Byte)) : (scoreRow rec row served s).draws = s.draws := by
  rfl
@[simp] theorem scoreRow_pending (rec : LineRecord) (row : Row) (served : Option (List Byte)) : (scoreRow rec row served s).pending = s.pending := by
  rfl
@[simp] theorem scoreRow_overlap (rec : LineRecord) (row : Row) (served : Option (List Byte)) : (scoreRow rec row served s).overlap = s.overlap := by
  rfl

@[simp] theorem takeRecord_encoder (rec : LineRecord) : (takeRecord rec s).encoder = s.encoder := by
  unfold takeRecord; split <;> simp
@[simp] theorem takeRecord_intake (rec : LineRecord) : (takeRecord rec s).intake = s.intake := by
  unfold takeRecord; split <;> simp
@[simp] theorem takeRecord_tracker (rec : LineRecord) : (takeRecord rec s).tracker = s.tracker := by
  unfold takeRecord; split <;> simp
@[simp] theorem takeRecord_bus (rec : LineRecord) : (takeRecord rec s).bus = s.bus := by
  unfold takeRecord; split <;> simp
@[simp] theorem takeRecord_port (rec : LineRecord) : (takeRecord rec s).port = s.port := by
  unfold takeRecord; split <;> simp
@[simp] theorem takeRecord_ctl (rec : LineRecord) : (takeRecord rec s).ctl = s.ctl := by
  unfold takeRecord; split <;> simp
@[simp] theorem takeRecord_counters (rec : LineRecord) : (takeRecord rec s).counters = s.counters := by
  unfold takeRecord; split <;> simp
@[simp] theorem takeRecord_outputs (rec : LineRecord) : (takeRecord rec s).outputs = s.outputs := by
  unfold takeRecord; split <;> simp
@[simp] theorem takeRecord_powerCycles (rec : LineRecord) : (takeRecord rec s).powerCycles = s.powerCycles := by
  unfold takeRecord; split <;> simp
@[simp] theorem takeRecord_draws (rec : LineRecord) : (takeRecord rec s).draws = s.draws := by
  unfold takeRecord; split <;> simp
@[simp] theorem takeRecord_pending (rec : LineRecord) : (takeRecord rec s).pending = s.pending := by
  unfold takeRecord; split <;> simp
@[simp] theorem takeRecord_overlap (rec : LineRecord) : (takeRecord rec s).overlap = s.overlap := by
  unfold takeRecord; split <;> simp

@[simp] theorem afterRow_encoder (line : Nat) : (afterRow line s).encoder = s.encoder := by
  unfold afterRow; split <;> simp
@[simp] theorem afterRow_intake (line : Nat) : (afterRow line s).intake = s.intake := by
  unfold afterRow; split <;> simp
@[simp] theorem afterRow_tracker (line : Nat) : (afterRow line s).tracker = s.tracker := by
  unfold afterRow; split <;> simp
@[simp] theorem afterRow_ref (line : Nat) : (afterRow line s).ref = s.ref := by
  unfold afterRow; split <;> simp
@[simp] theorem afterRow_ctl (line : Nat) : (afterRow line s).ctl = s.ctl := by
  unfold afterRow; split <;> simp
@[simp] theorem afterRow_dram (line : Nat) : (afterRow line s).dram = s.dram := by
  unfold afterRow; split <;> simp
@[simp] theorem afterRow_powerCycles (line : Nat) : (afterRow line s).powerCycles = s.powerCycles := by
  unfold afterRow; split <;> simp
@[simp] theorem afterRow_draws (line : Nat) : (afterRow line s).draws = s.draws := by
  unfold afterRow; split <;> simp
@[simp] theorem afterRow_pending (line : Nat) : (afterRow line s).pending = s.pending := by
  unfold afterRow; split <;> simp

@[simp] theorem takeLine_encoder (ev : LineEvent) : (takeLine ev s).encoder = s.encoder := by
  simp [takeLine]
@[simp] theorem takeLine_ctl (ev : LineEvent) : (takeLine ev s).ctl = s.ctl := by
  simp [takeLine]
@[simp] theorem takeLine_powerCycles (ev : LineEvent) : (takeLine ev s).powerCycles = s.powerCycles := by
  simp [takeLine]
@[simp] theorem takeLine_draws (ev : LineEvent) : (takeLine ev s).draws = s.draws := by
  simp [takeLine]
@[simp] theorem takeLine_pending (ev : LineEvent) : (takeLine ev s).pending = s.pending := by
  simp [takeLine]

@[simp] theorem missLine_encoder (st : Stamp) : (missLine st s).encoder = s.encoder := by
  simp [missLine]
@[simp] theorem missLine_ctl (st : Stamp) : (missLine st s).ctl = s.ctl := by
  simp [missLine]
@[simp] theorem missLine_powerCycles (st : Stamp) : (missLine st s).powerCycles = s.powerCycles := by
  simp [missLine]
@[simp] theorem missLine_draws (st : Stamp) : (missLine st s).draws = s.draws := by
  simp [missLine]
@[simp] theorem missLine_pending (st : Stamp) : (missLine st s).pending = s.pending := by
  simp [missLine]

@[simp] theorem fillBuffer_encoder (pixels : List Byte) : (fillBuffer pixels s).encoder = s.encoder := by
  rfl
@[simp] theorem fillBuffer_tracker (pixels : List Byte) : (fillBuffer pixels s).tracker = s.tracker := by
  rfl
@[simp] theorem fillBuffer_ref (pixels : List Byte) : (fillBuffer pixels s).ref = s.ref := by
  rfl
@[simp] theorem fillBuffer_table (pixels : List Byte) : (fillBuffer pixels s).table = s.table := by
  rfl
@[simp] theorem fillBuffer_bus (pixels : List Byte) : (fillBuffer pixels s).bus = s.bus := by
  rfl
@[simp] theorem fillBuffer_port (pixels : List Byte) : (fillBuffer pixels s).port = s.port := by
  rfl
@[simp] theorem fillBuffer_ctl (pixels : List Byte) : (fillBuffer pixels s).ctl = s.ctl := by
  rfl
@[simp] theorem fillBuffer_counters (pixels : List Byte) : (fillBuffer pixels s).counters = s.counters := by
  rfl
@[simp] theorem fillBuffer_dram (pixels : List Byte) : (fillBuffer pixels s).dram = s.dram := by
  rfl
@[simp] theorem fillBuffer_outputs (pixels : List Byte) : (fillBuffer pixels s).outputs = s.outputs := by
  rfl
@[simp] theorem fillBuffer_powerCycles (pixels : List Byte) : (fillBuffer pixels s).powerCycles = s.powerCycles := by
  rfl
@[simp] theorem fillBuffer_draws (pixels : List Byte) : (fillBuffer pixels s).draws = s.draws := by
  rfl
@[simp] theorem fillBuffer_pending (pixels : List Byte) : (fillBuffer pixels s).pending = s.pending := by
  rfl
@[simp] theorem fillBuffer_overlap (pixels : List Byte) : (fillBuffer pixels s).overlap = s.overlap := by
  rfl

@[simp] theorem arriveAt_encoder (st : Stamp) (pixels : List Byte) : (arriveAt st pixels s).encoder = s.encoder := by
  simp only [arriveAt]; split <;> simp
@[simp] theorem arriveAt_ctl (st : Stamp) (pixels : List Byte) : (arriveAt st pixels s).ctl = s.ctl := by
  simp only [arriveAt]; split <;> simp
@[simp] theorem arriveAt_powerCycles (st : Stamp) (pixels : List Byte) : (arriveAt st pixels s).powerCycles = s.powerCycles := by
  simp only [arriveAt]; split <;> simp
@[simp] theorem arriveAt_draws (st : Stamp) (pixels : List Byte) : (arriveAt st pixels s).draws = s.draws := by
  simp only [arriveAt]; split <;> simp
@[simp] theorem arriveAt_pending (st : Stamp) (pixels : List Byte) : (arriveAt st pixels s).pending = s.pending := by
  simp only [arriveAt]; split <;> simp

/-! ## Runs -/

@[simp] theorem setOp_encoder (op : OpState) : (setOp op s).encoder = s.encoder := by
  rfl
@[simp] theorem setOp_intake (op : OpState) : (setOp op s).intake = s.intake := by
  rfl
@[simp] theorem setOp_tracker (op : OpState) : (setOp op s).tracker = s.tracker := by
  rfl
@[simp] theorem setOp_ref (op : OpState) : (setOp op s).ref = s.ref := by
  rfl
@[simp] theorem setOp_table (op : OpState) : (setOp op s).table = s.table := by
  rfl
@[simp] theorem setOp_port (op : OpState) : (setOp op s).port = s.port := by
  rfl
@[simp] theorem setOp_ctl (op : OpState) : (setOp op s).ctl = s.ctl := by
  rfl
@[simp] theorem setOp_counters (op : OpState) : (setOp op s).counters = s.counters := by
  rfl
@[simp] theorem setOp_dram (op : OpState) : (setOp op s).dram = s.dram := by
  rfl
@[simp] theorem setOp_outputs (op : OpState) : (setOp op s).outputs = s.outputs := by
  rfl
@[simp] theorem setOp_powerCycles (op : OpState) : (setOp op s).powerCycles = s.powerCycles := by
  rfl
@[simp] theorem setOp_draws (op : OpState) : (setOp op s).draws = s.draws := by
  rfl
@[simp] theorem setOp_pending (op : OpState) : (setOp op s).pending = s.pending := by
  rfl
@[simp] theorem setOp_overlap (op : OpState) : (setOp op s).overlap = s.overlap := by
  rfl

@[simp] theorem haltRetire_encoder : (haltRetire s).encoder = s.encoder := by
  unfold haltRetire; split <;> simp
@[simp] theorem haltRetire_intake : (haltRetire s).intake = s.intake := by
  unfold haltRetire; split <;> simp
@[simp] theorem haltRetire_tracker : (haltRetire s).tracker = s.tracker := by
  unfold haltRetire; split <;> simp
@[simp] theorem haltRetire_ref : (haltRetire s).ref = s.ref := by
  unfold haltRetire; split <;> simp
@[simp] theorem haltRetire_table : (haltRetire s).table = s.table := by
  unfold haltRetire; split <;> simp
@[simp] theorem haltRetire_bus : (haltRetire s).bus = s.bus := by
  unfold haltRetire; split <;> simp
@[simp] theorem haltRetire_ctl : (haltRetire s).ctl = s.ctl := by
  unfold haltRetire; split <;> simp
@[simp] theorem haltRetire_counters : (haltRetire s).counters = s.counters := by
  unfold haltRetire; split <;> simp
@[simp] theorem haltRetire_dram : (haltRetire s).dram = s.dram := by
  unfold haltRetire; split <;> simp
@[simp] theorem haltRetire_powerCycles : (haltRetire s).powerCycles = s.powerCycles := by
  unfold haltRetire; split <;> simp
@[simp] theorem haltRetire_draws : (haltRetire s).draws = s.draws := by
  unfold haltRetire; split <;> simp
@[simp] theorem haltRetire_pending : (haltRetire s).pending = s.pending := by
  unfold haltRetire; split <;> simp
@[simp] theorem haltRetire_overlap : (haltRetire s).overlap = s.overlap := by
  unfold haltRetire; split <;> simp

@[simp] theorem returnToIdle_encoder : (returnToIdle s).encoder = s.encoder := by
  simp [returnToIdle]
@[simp] theorem returnToIdle_intake : (returnToIdle s).intake = s.intake := by
  simp [returnToIdle]
@[simp] theorem returnToIdle_tracker : (returnToIdle s).tracker = s.tracker := by
  simp [returnToIdle]
@[simp] theorem returnToIdle_ref : (returnToIdle s).ref = s.ref := by
  simp [returnToIdle]
@[simp] theorem returnToIdle_table : (returnToIdle s).table = s.table := by
  simp [returnToIdle]
@[simp] theorem returnToIdle_ctl : (returnToIdle s).ctl = s.ctl := by
  simp [returnToIdle]
@[simp] theorem returnToIdle_dram : (returnToIdle s).dram = s.dram := by
  simp [returnToIdle]
@[simp] theorem returnToIdle_powerCycles : (returnToIdle s).powerCycles = s.powerCycles := by
  simp [returnToIdle]
@[simp] theorem returnToIdle_draws : (returnToIdle s).draws = s.draws := by
  simp [returnToIdle]
@[simp] theorem returnToIdle_pending : (returnToIdle s).pending = s.pending := by
  simp [returnToIdle]
@[simp] theorem returnToIdle_overlap : (returnToIdle s).overlap = s.overlap := by
  simp [returnToIdle]

@[simp] theorem settle_encoder : (settle s).encoder = s.encoder := by
  simp only [settle]; split <;> simp
@[simp] theorem settle_intake : (settle s).intake = s.intake := by
  simp only [settle]; split <;> simp
@[simp] theorem settle_tracker : (settle s).tracker = s.tracker := by
  simp only [settle]; split <;> simp
@[simp] theorem settle_ref : (settle s).ref = s.ref := by
  simp only [settle]; split <;> simp
@[simp] theorem settle_table : (settle s).table = s.table := by
  simp only [settle]; split <;> simp
@[simp] theorem settle_ctl : (settle s).ctl = s.ctl := by
  simp only [settle]; split <;> simp
@[simp] theorem settle_dram : (settle s).dram = s.dram := by
  simp only [settle]; split <;> simp
@[simp] theorem settle_powerCycles : (settle s).powerCycles = s.powerCycles := by
  simp only [settle]; split <;> simp
@[simp] theorem settle_draws : (settle s).draws = s.draws := by
  simp only [settle]; split <;> simp
@[simp] theorem settle_pending : (settle s).pending = s.pending := by
  simp only [settle]; split <;> simp
@[simp] theorem settle_overlap : (settle s).overlap = s.overlap := by
  simp only [settle]; split <;> simp

@[simp] theorem scoreFilling_encoder : (scoreFilling s).encoder = s.encoder := by
  unfold scoreFilling; split <;> simp
@[simp] theorem scoreFilling_intake : (scoreFilling s).intake = s.intake := by
  unfold scoreFilling; split <;> simp
@[simp] theorem scoreFilling_tracker : (scoreFilling s).tracker = s.tracker := by
  unfold scoreFilling; split <;> simp
@[simp] theorem scoreFilling_ref : (scoreFilling s).ref = s.ref := by
  unfold scoreFilling; split <;> simp
@[simp] theorem scoreFilling_ctl : (scoreFilling s).ctl = s.ctl := by
  unfold scoreFilling; split <;> simp
@[simp] theorem scoreFilling_dram : (scoreFilling s).dram = s.dram := by
  unfold scoreFilling; split <;> simp
@[simp] theorem scoreFilling_powerCycles : (scoreFilling s).powerCycles = s.powerCycles := by
  unfold scoreFilling; split <;> simp
@[simp] theorem scoreFilling_draws : (scoreFilling s).draws = s.draws := by
  unfold scoreFilling; split <;> simp
@[simp] theorem scoreFilling_pending : (scoreFilling s).pending = s.pending := by
  unfold scoreFilling; split <;> simp

@[simp] theorem keepRetired_encoder (sts : List Stamp) : (keepRetired sts s).encoder = s.encoder := by
  rfl
@[simp] theorem keepRetired_intake (sts : List Stamp) : (keepRetired sts s).intake = s.intake := by
  rfl
@[simp] theorem keepRetired_tracker (sts : List Stamp) : (keepRetired sts s).tracker = s.tracker := by
  rfl
@[simp] theorem keepRetired_ref (sts : List Stamp) : (keepRetired sts s).ref = s.ref := by
  rfl
@[simp] theorem keepRetired_table (sts : List Stamp) : (keepRetired sts s).table = s.table := by
  rfl
@[simp] theorem keepRetired_bus (sts : List Stamp) : (keepRetired sts s).bus = s.bus := by
  rfl
@[simp] theorem keepRetired_ctl (sts : List Stamp) : (keepRetired sts s).ctl = s.ctl := by
  rfl
@[simp] theorem keepRetired_dram (sts : List Stamp) : (keepRetired sts s).dram = s.dram := by
  rfl
@[simp] theorem keepRetired_powerCycles (sts : List Stamp) : (keepRetired sts s).powerCycles = s.powerCycles := by
  rfl
@[simp] theorem keepRetired_draws (sts : List Stamp) : (keepRetired sts s).draws = s.draws := by
  rfl
@[simp] theorem keepRetired_pending (sts : List Stamp) : (keepRetired sts s).pending = s.pending := by
  rfl
@[simp] theorem keepRetired_overlap (sts : List Stamp) : (keepRetired sts s).overlap = s.overlap := by
  rfl
@[simp] theorem keepRetired_counters (sts : List Stamp) : (keepRetired sts s).counters = s.counters := by
  rfl
@[simp] theorem keepRetired_outputs (sts : List Stamp) : (keepRetired sts s).outputs = s.outputs := by
  rfl

@[simp] theorem retireStamps_encoder (sts : List Stamp) : (retireStamps sts s).encoder = s.encoder := by
  induction sts generalizing s with
  | nil => unfold retireStamps; split <;> simp
  | cons st sts ih => unfold retireStamps; split <;> simp [ih]
@[simp] theorem retireStamps_ctl (sts : List Stamp) : (retireStamps sts s).ctl = s.ctl := by
  induction sts generalizing s with
  | nil => unfold retireStamps; split <;> simp
  | cons st sts ih => unfold retireStamps; split <;> simp [ih]
@[simp] theorem retireStamps_powerCycles (sts : List Stamp) : (retireStamps sts s).powerCycles = s.powerCycles := by
  induction sts generalizing s with
  | nil => unfold retireStamps; split <;> simp
  | cons st sts ih => unfold retireStamps; split <;> simp [ih]
@[simp] theorem retireStamps_draws (sts : List Stamp) : (retireStamps sts s).draws = s.draws := by
  induction sts generalizing s with
  | nil => unfold retireStamps; split <;> simp
  | cons st sts ih => unfold retireStamps; split <;> simp [ih]
@[simp] theorem retireStamps_pending (sts : List Stamp) : (retireStamps sts s).pending = s.pending := by
  induction sts generalizing s with
  | nil => unfold retireStamps; split <;> simp
  | cons st sts ih => unfold retireStamps; split <;> simp [ih]

@[simp] theorem emptyStamps_intake : (emptyStamps s).intake = s.intake := by
  rfl
@[simp] theorem emptyStamps_tracker : (emptyStamps s).tracker = s.tracker := by
  rfl
@[simp] theorem emptyStamps_ref : (emptyStamps s).ref = s.ref := by
  rfl
@[simp] theorem emptyStamps_table : (emptyStamps s).table = s.table := by
  rfl
@[simp] theorem emptyStamps_bus : (emptyStamps s).bus = s.bus := by
  rfl
@[simp] theorem emptyStamps_port : (emptyStamps s).port = s.port := by
  rfl
@[simp] theorem emptyStamps_ctl : (emptyStamps s).ctl = s.ctl := by
  rfl
@[simp] theorem emptyStamps_counters : (emptyStamps s).counters = s.counters := by
  rfl
@[simp] theorem emptyStamps_dram : (emptyStamps s).dram = s.dram := by
  rfl
@[simp] theorem emptyStamps_outputs : (emptyStamps s).outputs = s.outputs := by
  rfl
@[simp] theorem emptyStamps_powerCycles : (emptyStamps s).powerCycles = s.powerCycles := by
  rfl
@[simp] theorem emptyStamps_draws : (emptyStamps s).draws = s.draws := by
  rfl
@[simp] theorem emptyStamps_pending : (emptyStamps s).pending = s.pending := by
  rfl
@[simp] theorem emptyStamps_overlap : (emptyStamps s).overlap = s.overlap := by
  rfl

@[simp] theorem windUp_encoder (sts : List Stamp) : (windUp sts s).encoder = s.encoder := by
  unfold windUp; split <;> simp
@[simp] theorem windUp_ctl (sts : List Stamp) : (windUp sts s).ctl = s.ctl := by
  unfold windUp; split <;> simp
@[simp] theorem windUp_powerCycles (sts : List Stamp) : (windUp sts s).powerCycles = s.powerCycles := by
  unfold windUp; split <;> simp
@[simp] theorem windUp_draws (sts : List Stamp) : (windUp sts s).draws = s.draws := by
  unfold windUp; split <;> simp
@[simp] theorem windUp_pending (sts : List Stamp) : (windUp sts s).pending = s.pending := by
  unfold windUp; split <;> simp

@[simp] theorem enterStopping_ctl : (enterStopping s).ctl = s.ctl := by
  simp [enterStopping]
@[simp] theorem enterStopping_powerCycles : (enterStopping s).powerCycles = s.powerCycles := by
  simp [enterStopping]
@[simp] theorem enterStopping_draws : (enterStopping s).draws = s.draws := by
  simp [enterStopping]
@[simp] theorem enterStopping_pending : (enterStopping s).pending = s.pending := by
  simp [enterStopping]

@[simp] theorem nextOffer_encoder : (nextOffer s).encoder = s.encoder := by
  unfold nextOffer; (repeat' split) <;> simp
@[simp] theorem nextOffer_ctl : (nextOffer s).ctl = s.ctl := by
  unfold nextOffer; (repeat' split) <;> simp
@[simp] theorem nextOffer_powerCycles : (nextOffer s).powerCycles = s.powerCycles := by
  unfold nextOffer; (repeat' split) <;> simp
@[simp] theorem nextOffer_draws : (nextOffer s).draws = s.draws := by
  unfold nextOffer; (repeat' split) <;> simp
@[simp] theorem nextOffer_pending : (nextOffer s).pending = s.pending := by
  unfold nextOffer; (repeat' split) <;> simp

@[simp] theorem epochState_ref : (epochState s).ref = s.ref := by
  rfl
@[simp] theorem epochState_port : (epochState s).port = s.port := by
  rfl
@[simp] theorem epochState_ctl : (epochState s).ctl = s.ctl := by
  rfl
@[simp] theorem epochState_counters : (epochState s).counters = s.counters := by
  rfl
@[simp] theorem epochState_dram : (epochState s).dram = s.dram := by
  rfl
@[simp] theorem epochState_outputs : (epochState s).outputs = s.outputs := by
  rfl
@[simp] theorem epochState_powerCycles : (epochState s).powerCycles = s.powerCycles := by
  rfl
@[simp] theorem epochState_draws : (epochState s).draws = s.draws := by
  rfl
@[simp] theorem epochState_pending : (epochState s).pending = s.pending := by
  rfl
@[simp] theorem epochState_overlap : (epochState s).overlap = s.overlap := by
  rfl

@[simp] theorem takeEpoch_ref : (takeEpoch s).ref = s.ref := by
  simp [takeEpoch]
@[simp] theorem takeEpoch_ctl : (takeEpoch s).ctl = s.ctl := by
  simp [takeEpoch]
@[simp] theorem takeEpoch_dram : (takeEpoch s).dram = s.dram := by
  simp [takeEpoch]
@[simp] theorem takeEpoch_powerCycles : (takeEpoch s).powerCycles = s.powerCycles := by
  simp [takeEpoch]
@[simp] theorem takeEpoch_draws : (takeEpoch s).draws = s.draws := by
  simp [takeEpoch]
@[simp] theorem takeEpoch_pending : (takeEpoch s).pending = s.pending := by
  simp [takeEpoch]
@[simp] theorem takeEpoch_overlap : (takeEpoch s).overlap = s.overlap := by
  simp [takeEpoch]

@[simp] theorem standDown_encoder : (standDown s).encoder = s.encoder := by
  rfl
@[simp] theorem standDown_intake : (standDown s).intake = s.intake := by
  rfl
@[simp] theorem standDown_tracker : (standDown s).tracker = s.tracker := by
  rfl
@[simp] theorem standDown_ref : (standDown s).ref = s.ref := by
  rfl
@[simp] theorem standDown_table : (standDown s).table = s.table := by
  rfl
@[simp] theorem standDown_port : (standDown s).port = s.port := by
  rfl
@[simp] theorem standDown_ctl : (standDown s).ctl = s.ctl := by
  rfl
@[simp] theorem standDown_counters : (standDown s).counters = s.counters := by
  rfl
@[simp] theorem standDown_dram : (standDown s).dram = s.dram := by
  rfl
@[simp] theorem standDown_outputs : (standDown s).outputs = s.outputs := by
  rfl
@[simp] theorem standDown_powerCycles : (standDown s).powerCycles = s.powerCycles := by
  rfl
@[simp] theorem standDown_draws : (standDown s).draws = s.draws := by
  rfl
@[simp] theorem standDown_pending : (standDown s).pending = s.pending := by
  rfl
@[simp] theorem standDown_overlap : (standDown s).overlap = s.overlap := by
  rfl

@[simp] theorem raiseMismatch_encoder (h : Heard) : (raiseMismatch h s).encoder = s.encoder := by
  simp [raiseMismatch]
@[simp] theorem raiseMismatch_intake (h : Heard) : (raiseMismatch h s).intake = s.intake := by
  simp [raiseMismatch]
@[simp] theorem raiseMismatch_tracker (h : Heard) : (raiseMismatch h s).tracker = s.tracker := by
  simp [raiseMismatch]
@[simp] theorem raiseMismatch_ref (h : Heard) : (raiseMismatch h s).ref = s.ref := by
  simp [raiseMismatch]
@[simp] theorem raiseMismatch_table (h : Heard) : (raiseMismatch h s).table = s.table := by
  simp [raiseMismatch]
@[simp] theorem raiseMismatch_ctl (h : Heard) : (raiseMismatch h s).ctl = s.ctl := by
  simp [raiseMismatch]
@[simp] theorem raiseMismatch_dram (h : Heard) : (raiseMismatch h s).dram = s.dram := by
  simp [raiseMismatch]
@[simp] theorem raiseMismatch_powerCycles (h : Heard) : (raiseMismatch h s).powerCycles = s.powerCycles := by
  simp [raiseMismatch]
@[simp] theorem raiseMismatch_draws (h : Heard) : (raiseMismatch h s).draws = s.draws := by
  simp [raiseMismatch]
@[simp] theorem raiseMismatch_pending (h : Heard) : (raiseMismatch h s).pending = s.pending := by
  simp [raiseMismatch]
@[simp] theorem raiseMismatch_overlap (h : Heard) : (raiseMismatch h s).overlap = s.overlap := by
  simp [raiseMismatch]

@[simp] theorem raiseConflict_encoder (h : Heard) : (raiseConflict h s).encoder = s.encoder := by
  simp [raiseConflict]
@[simp] theorem raiseConflict_intake (h : Heard) : (raiseConflict h s).intake = s.intake := by
  simp [raiseConflict]
@[simp] theorem raiseConflict_tracker (h : Heard) : (raiseConflict h s).tracker = s.tracker := by
  simp [raiseConflict]
@[simp] theorem raiseConflict_ref (h : Heard) : (raiseConflict h s).ref = s.ref := by
  simp [raiseConflict]
@[simp] theorem raiseConflict_table (h : Heard) : (raiseConflict h s).table = s.table := by
  simp [raiseConflict]
@[simp] theorem raiseConflict_ctl (h : Heard) : (raiseConflict h s).ctl = s.ctl := by
  simp [raiseConflict]
@[simp] theorem raiseConflict_dram (h : Heard) : (raiseConflict h s).dram = s.dram := by
  simp [raiseConflict]
@[simp] theorem raiseConflict_powerCycles (h : Heard) : (raiseConflict h s).powerCycles = s.powerCycles := by
  simp [raiseConflict]
@[simp] theorem raiseConflict_draws (h : Heard) : (raiseConflict h s).draws = s.draws := by
  simp [raiseConflict]
@[simp] theorem raiseConflict_pending (h : Heard) : (raiseConflict h s).pending = s.pending := by
  simp [raiseConflict]
@[simp] theorem raiseConflict_overlap (h : Heard) : (raiseConflict h s).overlap = s.overlap := by
  simp [raiseConflict]

@[simp] theorem foldl_raiseMismatch_encoder (l : List Heard) : (l.foldl (fun t h => raiseMismatch h t) s).encoder = s.encoder := by
  induction l generalizing s with
  | nil => rfl
  | cons h hs ih => simp [ih]
@[simp] theorem foldl_raiseMismatch_intake (l : List Heard) : (l.foldl (fun t h => raiseMismatch h t) s).intake = s.intake := by
  induction l generalizing s with
  | nil => rfl
  | cons h hs ih => simp [ih]
@[simp] theorem foldl_raiseMismatch_tracker (l : List Heard) : (l.foldl (fun t h => raiseMismatch h t) s).tracker = s.tracker := by
  induction l generalizing s with
  | nil => rfl
  | cons h hs ih => simp [ih]
@[simp] theorem foldl_raiseMismatch_ref (l : List Heard) : (l.foldl (fun t h => raiseMismatch h t) s).ref = s.ref := by
  induction l generalizing s with
  | nil => rfl
  | cons h hs ih => simp [ih]
@[simp] theorem foldl_raiseMismatch_table (l : List Heard) : (l.foldl (fun t h => raiseMismatch h t) s).table = s.table := by
  induction l generalizing s with
  | nil => rfl
  | cons h hs ih => simp [ih]
@[simp] theorem foldl_raiseMismatch_ctl (l : List Heard) : (l.foldl (fun t h => raiseMismatch h t) s).ctl = s.ctl := by
  induction l generalizing s with
  | nil => rfl
  | cons h hs ih => simp [ih]
@[simp] theorem foldl_raiseMismatch_dram (l : List Heard) : (l.foldl (fun t h => raiseMismatch h t) s).dram = s.dram := by
  induction l generalizing s with
  | nil => rfl
  | cons h hs ih => simp [ih]
@[simp] theorem foldl_raiseMismatch_powerCycles (l : List Heard) : (l.foldl (fun t h => raiseMismatch h t) s).powerCycles = s.powerCycles := by
  induction l generalizing s with
  | nil => rfl
  | cons h hs ih => simp [ih]
@[simp] theorem foldl_raiseMismatch_draws (l : List Heard) : (l.foldl (fun t h => raiseMismatch h t) s).draws = s.draws := by
  induction l generalizing s with
  | nil => rfl
  | cons h hs ih => simp [ih]
@[simp] theorem foldl_raiseMismatch_pending (l : List Heard) : (l.foldl (fun t h => raiseMismatch h t) s).pending = s.pending := by
  induction l generalizing s with
  | nil => rfl
  | cons h hs ih => simp [ih]
@[simp] theorem foldl_raiseMismatch_overlap (l : List Heard) : (l.foldl (fun t h => raiseMismatch h t) s).overlap = s.overlap := by
  induction l generalizing s with
  | nil => rfl
  | cons h hs ih => simp [ih]

@[simp] theorem foldl_raiseConflict_encoder (l : List Heard) : (l.foldl (fun t h => raiseConflict h t) s).encoder = s.encoder := by
  induction l generalizing s with
  | nil => rfl
  | cons h hs ih => simp [ih]
@[simp] theorem foldl_raiseConflict_intake (l : List Heard) : (l.foldl (fun t h => raiseConflict h t) s).intake = s.intake := by
  induction l generalizing s with
  | nil => rfl
  | cons h hs ih => simp [ih]
@[simp] theorem foldl_raiseConflict_tracker (l : List Heard) : (l.foldl (fun t h => raiseConflict h t) s).tracker = s.tracker := by
  induction l generalizing s with
  | nil => rfl
  | cons h hs ih => simp [ih]
@[simp] theorem foldl_raiseConflict_ref (l : List Heard) : (l.foldl (fun t h => raiseConflict h t) s).ref = s.ref := by
  induction l generalizing s with
  | nil => rfl
  | cons h hs ih => simp [ih]
@[simp] theorem foldl_raiseConflict_table (l : List Heard) : (l.foldl (fun t h => raiseConflict h t) s).table = s.table := by
  induction l generalizing s with
  | nil => rfl
  | cons h hs ih => simp [ih]
@[simp] theorem foldl_raiseConflict_ctl (l : List Heard) : (l.foldl (fun t h => raiseConflict h t) s).ctl = s.ctl := by
  induction l generalizing s with
  | nil => rfl
  | cons h hs ih => simp [ih]
@[simp] theorem foldl_raiseConflict_dram (l : List Heard) : (l.foldl (fun t h => raiseConflict h t) s).dram = s.dram := by
  induction l generalizing s with
  | nil => rfl
  | cons h hs ih => simp [ih]
@[simp] theorem foldl_raiseConflict_powerCycles (l : List Heard) : (l.foldl (fun t h => raiseConflict h t) s).powerCycles = s.powerCycles := by
  induction l generalizing s with
  | nil => rfl
  | cons h hs ih => simp [ih]
@[simp] theorem foldl_raiseConflict_draws (l : List Heard) : (l.foldl (fun t h => raiseConflict h t) s).draws = s.draws := by
  induction l generalizing s with
  | nil => rfl
  | cons h hs ih => simp [ih]
@[simp] theorem foldl_raiseConflict_pending (l : List Heard) : (l.foldl (fun t h => raiseConflict h t) s).pending = s.pending := by
  induction l generalizing s with
  | nil => rfl
  | cons h hs ih => simp [ih]
@[simp] theorem foldl_raiseConflict_overlap (l : List Heard) : (l.foldl (fun t h => raiseConflict h t) s).overlap = s.overlap := by
  induction l generalizing s with
  | nil => rfl
  | cons h hs ih => simp [ih]

@[simp] theorem buildNeighbours_encoder : (buildNeighbours s).encoder = s.encoder := by
  simp [buildNeighbours]
@[simp] theorem buildNeighbours_intake : (buildNeighbours s).intake = s.intake := by
  simp [buildNeighbours]
@[simp] theorem buildNeighbours_tracker : (buildNeighbours s).tracker = s.tracker := by
  simp [buildNeighbours]
@[simp] theorem buildNeighbours_ref : (buildNeighbours s).ref = s.ref := by
  simp [buildNeighbours]
@[simp] theorem buildNeighbours_table : (buildNeighbours s).table = s.table := by
  simp [buildNeighbours]
@[simp] theorem buildNeighbours_ctl : (buildNeighbours s).ctl = s.ctl := by
  simp [buildNeighbours]
@[simp] theorem buildNeighbours_dram : (buildNeighbours s).dram = s.dram := by
  simp [buildNeighbours]
@[simp] theorem buildNeighbours_powerCycles : (buildNeighbours s).powerCycles = s.powerCycles := by
  simp [buildNeighbours]
@[simp] theorem buildNeighbours_draws : (buildNeighbours s).draws = s.draws := by
  simp [buildNeighbours]
@[simp] theorem buildNeighbours_pending : (buildNeighbours s).pending = s.pending := by
  simp [buildNeighbours]
@[simp] theorem buildNeighbours_overlap : (buildNeighbours s).overlap = s.overlap := by
  simp [buildNeighbours]

@[simp] theorem expireWindow_encoder : (expireWindow s).encoder = s.encoder := by
  simp [expireWindow]
@[simp] theorem expireWindow_intake : (expireWindow s).intake = s.intake := by
  simp [expireWindow]
@[simp] theorem expireWindow_tracker : (expireWindow s).tracker = s.tracker := by
  simp [expireWindow]
@[simp] theorem expireWindow_ref : (expireWindow s).ref = s.ref := by
  simp [expireWindow]
@[simp] theorem expireWindow_table : (expireWindow s).table = s.table := by
  simp [expireWindow]
@[simp] theorem expireWindow_ctl : (expireWindow s).ctl = s.ctl := by
  simp [expireWindow]
@[simp] theorem expireWindow_dram : (expireWindow s).dram = s.dram := by
  simp [expireWindow]
@[simp] theorem expireWindow_powerCycles : (expireWindow s).powerCycles = s.powerCycles := by
  simp [expireWindow]
@[simp] theorem expireWindow_draws : (expireWindow s).draws = s.draws := by
  simp [expireWindow]
@[simp] theorem expireWindow_pending : (expireWindow s).pending = s.pending := by
  simp [expireWindow]
@[simp] theorem expireWindow_overlap : (expireWindow s).overlap = s.overlap := by
  simp [expireWindow]

@[simp] theorem beginEnrolling_encoder : (beginEnrolling s).encoder = s.encoder := by
  simp [beginEnrolling]
@[simp] theorem beginEnrolling_intake : (beginEnrolling s).intake = s.intake := by
  simp [beginEnrolling]
@[simp] theorem beginEnrolling_tracker : (beginEnrolling s).tracker = s.tracker := by
  simp [beginEnrolling]
@[simp] theorem beginEnrolling_ref : (beginEnrolling s).ref = s.ref := by
  simp [beginEnrolling]
@[simp] theorem beginEnrolling_table : (beginEnrolling s).table = s.table := by
  simp [beginEnrolling]
@[simp] theorem beginEnrolling_port : (beginEnrolling s).port = s.port := by
  simp [beginEnrolling]
@[simp] theorem beginEnrolling_ctl : (beginEnrolling s).ctl = s.ctl := by
  simp [beginEnrolling]
@[simp] theorem beginEnrolling_dram : (beginEnrolling s).dram = s.dram := by
  simp [beginEnrolling]
@[simp] theorem beginEnrolling_outputs : (beginEnrolling s).outputs = s.outputs := by
  simp [beginEnrolling]
@[simp] theorem beginEnrolling_powerCycles : (beginEnrolling s).powerCycles = s.powerCycles := by
  simp [beginEnrolling]
@[simp] theorem beginEnrolling_draws : (beginEnrolling s).draws = s.draws := by
  simp [beginEnrolling]
@[simp] theorem beginEnrolling_pending : (beginEnrolling s).pending = s.pending := by
  simp [beginEnrolling]
@[simp] theorem beginEnrolling_overlap : (beginEnrolling s).overlap = s.overlap := by
  simp [beginEnrolling]

@[simp] theorem runAlone_ref : (runAlone s).ref = s.ref := by
  simp [runAlone]
@[simp] theorem runAlone_ctl : (runAlone s).ctl = s.ctl := by
  simp [runAlone]
@[simp] theorem runAlone_dram : (runAlone s).dram = s.dram := by
  simp [runAlone]
@[simp] theorem runAlone_powerCycles : (runAlone s).powerCycles = s.powerCycles := by
  simp [runAlone]
@[simp] theorem runAlone_draws : (runAlone s).draws = s.draws := by
  simp [runAlone]
@[simp] theorem runAlone_pending : (runAlone s).pending = s.pending := by
  simp [runAlone]
@[simp] theorem runAlone_overlap : (runAlone s).overlap = s.overlap := by
  simp [runAlone]

@[simp] theorem startRun_ref : (startRun s).ref = s.ref := by
  unfold startRun; split <;> simp
@[simp] theorem startRun_ctl : (startRun s).ctl = s.ctl := by
  unfold startRun; split <;> simp
@[simp] theorem startRun_dram : (startRun s).dram = s.dram := by
  unfold startRun; split <;> simp
@[simp] theorem startRun_powerCycles : (startRun s).powerCycles = s.powerCycles := by
  unfold startRun; split <;> simp
@[simp] theorem startRun_draws : (startRun s).draws = s.draws := by
  unfold startRun; split <;> simp
@[simp] theorem startRun_pending : (startRun s).pending = s.pending := by
  unfold startRun; split <;> simp
@[simp] theorem startRun_overlap : (startRun s).overlap = s.overlap := by
  unfold startRun; split <;> simp

@[simp] theorem runTaken_ref : (runTaken s).ref = s.ref := by
  unfold runTaken; split <;> simp
@[simp] theorem runTaken_ctl : (runTaken s).ctl = s.ctl := by
  unfold runTaken; split <;> simp
@[simp] theorem runTaken_dram : (runTaken s).dram = s.dram := by
  unfold runTaken; split <;> simp
@[simp] theorem runTaken_powerCycles : (runTaken s).powerCycles = s.powerCycles := by
  unfold runTaken; split <;> simp
@[simp] theorem runTaken_draws : (runTaken s).draws = s.draws := by
  unfold runTaken; split <;> simp
@[simp] theorem runTaken_pending : (runTaken s).pending = s.pending := by
  unfold runTaken; split <;> simp
@[simp] theorem runTaken_overlap : (runTaken s).overlap = s.overlap := by
  unfold runTaken; split <;> simp

@[simp] theorem haltAction_ctl : (haltAction s).ctl = s.ctl := by
  simp only [haltAction]; (repeat' split) <;> simp
@[simp] theorem haltAction_powerCycles : (haltAction s).powerCycles = s.powerCycles := by
  simp only [haltAction]; (repeat' split) <;> simp
@[simp] theorem haltAction_draws : (haltAction s).draws = s.draws := by
  simp only [haltAction]; (repeat' split) <;> simp
@[simp] theorem haltAction_pending : (haltAction s).pending = s.pending := by
  simp only [haltAction]; (repeat' split) <;> simp

@[simp] theorem haltTaken_ctl : (haltTaken s).ctl = s.ctl := by
  unfold haltTaken; split <;> simp
@[simp] theorem haltTaken_powerCycles : (haltTaken s).powerCycles = s.powerCycles := by
  unfold haltTaken; split <;> simp
@[simp] theorem haltTaken_draws : (haltTaken s).draws = s.draws := by
  unfold haltTaken; split <;> simp
@[simp] theorem haltTaken_pending : (haltTaken s).pending = s.pending := by
  unfold haltTaken; split <;> simp

/-! ## Control -/

@[simp] theorem setStatus_encoder (phase : CmdPhase) (result : ResultCode) (detail : Nat) : (setStatus phase result detail s).encoder = s.encoder := by
  rfl
@[simp] theorem setStatus_intake (phase : CmdPhase) (result : ResultCode) (detail : Nat) : (setStatus phase result detail s).intake = s.intake := by
  rfl
@[simp] theorem setStatus_tracker (phase : CmdPhase) (result : ResultCode) (detail : Nat) : (setStatus phase result detail s).tracker = s.tracker := by
  rfl
@[simp] theorem setStatus_ref (phase : CmdPhase) (result : ResultCode) (detail : Nat) : (setStatus phase result detail s).ref = s.ref := by
  rfl
@[simp] theorem setStatus_table (phase : CmdPhase) (result : ResultCode) (detail : Nat) : (setStatus phase result detail s).table = s.table := by
  rfl
@[simp] theorem setStatus_bus (phase : CmdPhase) (result : ResultCode) (detail : Nat) : (setStatus phase result detail s).bus = s.bus := by
  rfl
@[simp] theorem setStatus_port (phase : CmdPhase) (result : ResultCode) (detail : Nat) : (setStatus phase result detail s).port = s.port := by
  rfl
@[simp] theorem setStatus_counters (phase : CmdPhase) (result : ResultCode) (detail : Nat) : (setStatus phase result detail s).counters = s.counters := by
  rfl
@[simp] theorem setStatus_dram (phase : CmdPhase) (result : ResultCode) (detail : Nat) : (setStatus phase result detail s).dram = s.dram := by
  rfl
@[simp] theorem setStatus_outputs (phase : CmdPhase) (result : ResultCode) (detail : Nat) : (setStatus phase result detail s).outputs = s.outputs := by
  rfl
@[simp] theorem setStatus_powerCycles (phase : CmdPhase) (result : ResultCode) (detail : Nat) : (setStatus phase result detail s).powerCycles = s.powerCycles := by
  rfl
@[simp] theorem setStatus_draws (phase : CmdPhase) (result : ResultCode) (detail : Nat) : (setStatus phase result detail s).draws = s.draws := by
  rfl
@[simp] theorem setStatus_pending (phase : CmdPhase) (result : ResultCode) (detail : Nat) : (setStatus phase result detail s).pending = s.pending := by
  rfl
@[simp] theorem setStatus_overlap (phase : CmdPhase) (result : ResultCode) (detail : Nat) : (setStatus phase result detail s).overlap = s.overlap := by
  rfl

@[simp] theorem endDone_encoder : (endDone s).encoder = s.encoder := by
  simp [endDone]
@[simp] theorem endDone_intake : (endDone s).intake = s.intake := by
  simp [endDone]
@[simp] theorem endDone_tracker : (endDone s).tracker = s.tracker := by
  simp [endDone]
@[simp] theorem endDone_ref : (endDone s).ref = s.ref := by
  simp [endDone]
@[simp] theorem endDone_table : (endDone s).table = s.table := by
  simp [endDone]
@[simp] theorem endDone_bus : (endDone s).bus = s.bus := by
  simp [endDone]
@[simp] theorem endDone_port : (endDone s).port = s.port := by
  simp [endDone]
@[simp] theorem endDone_counters : (endDone s).counters = s.counters := by
  simp [endDone]
@[simp] theorem endDone_dram : (endDone s).dram = s.dram := by
  simp [endDone]
@[simp] theorem endDone_powerCycles : (endDone s).powerCycles = s.powerCycles := by
  simp [endDone]
@[simp] theorem endDone_draws : (endDone s).draws = s.draws := by
  simp [endDone]
@[simp] theorem endDone_pending : (endDone s).pending = s.pending := by
  simp [endDone]
@[simp] theorem endDone_overlap : (endDone s).overlap = s.overlap := by
  simp [endDone]

@[simp] theorem endFailed_encoder (result : ResultCode) (detail : Nat) : (endFailed result detail s).encoder = s.encoder := by
  simp [endFailed]
@[simp] theorem endFailed_intake (result : ResultCode) (detail : Nat) : (endFailed result detail s).intake = s.intake := by
  simp [endFailed]
@[simp] theorem endFailed_tracker (result : ResultCode) (detail : Nat) : (endFailed result detail s).tracker = s.tracker := by
  simp [endFailed]
@[simp] theorem endFailed_ref (result : ResultCode) (detail : Nat) : (endFailed result detail s).ref = s.ref := by
  simp [endFailed]
@[simp] theorem endFailed_table (result : ResultCode) (detail : Nat) : (endFailed result detail s).table = s.table := by
  simp [endFailed]
@[simp] theorem endFailed_bus (result : ResultCode) (detail : Nat) : (endFailed result detail s).bus = s.bus := by
  simp [endFailed]
@[simp] theorem endFailed_port (result : ResultCode) (detail : Nat) : (endFailed result detail s).port = s.port := by
  simp [endFailed]
@[simp] theorem endFailed_dram (result : ResultCode) (detail : Nat) : (endFailed result detail s).dram = s.dram := by
  simp [endFailed]
@[simp] theorem endFailed_powerCycles (result : ResultCode) (detail : Nat) : (endFailed result detail s).powerCycles = s.powerCycles := by
  simp [endFailed]
@[simp] theorem endFailed_draws (result : ResultCode) (detail : Nat) : (endFailed result detail s).draws = s.draws := by
  simp [endFailed]
@[simp] theorem endFailed_pending (result : ResultCode) (detail : Nat) : (endFailed result detail s).pending = s.pending := by
  simp [endFailed]
@[simp] theorem endFailed_overlap (result : ResultCode) (detail : Nat) : (endFailed result detail s).overlap = s.overlap := by
  simp [endFailed]

@[simp] theorem loseCommand_encoder : (loseCommand s).encoder = s.encoder := by
  rfl
@[simp] theorem loseCommand_intake : (loseCommand s).intake = s.intake := by
  rfl
@[simp] theorem loseCommand_tracker : (loseCommand s).tracker = s.tracker := by
  rfl
@[simp] theorem loseCommand_ref : (loseCommand s).ref = s.ref := by
  rfl
@[simp] theorem loseCommand_table : (loseCommand s).table = s.table := by
  rfl
@[simp] theorem loseCommand_bus : (loseCommand s).bus = s.bus := by
  rfl
@[simp] theorem loseCommand_port : (loseCommand s).port = s.port := by
  rfl
@[simp] theorem loseCommand_dram : (loseCommand s).dram = s.dram := by
  rfl
@[simp] theorem loseCommand_outputs : (loseCommand s).outputs = s.outputs := by
  rfl
@[simp] theorem loseCommand_powerCycles : (loseCommand s).powerCycles = s.powerCycles := by
  rfl
@[simp] theorem loseCommand_draws : (loseCommand s).draws = s.draws := by
  rfl
@[simp] theorem loseCommand_pending : (loseCommand s).pending = s.pending := by
  rfl
@[simp] theorem loseCommand_overlap : (loseCommand s).overlap = s.overlap := by
  rfl

@[simp] theorem acceptCommand_encoder : (acceptCommand s).encoder = s.encoder := by
  rfl
@[simp] theorem acceptCommand_intake : (acceptCommand s).intake = s.intake := by
  rfl
@[simp] theorem acceptCommand_tracker : (acceptCommand s).tracker = s.tracker := by
  rfl
@[simp] theorem acceptCommand_ref : (acceptCommand s).ref = s.ref := by
  rfl
@[simp] theorem acceptCommand_table : (acceptCommand s).table = s.table := by
  rfl
@[simp] theorem acceptCommand_bus : (acceptCommand s).bus = s.bus := by
  rfl
@[simp] theorem acceptCommand_port : (acceptCommand s).port = s.port := by
  rfl
@[simp] theorem acceptCommand_counters : (acceptCommand s).counters = s.counters := by
  rfl
@[simp] theorem acceptCommand_dram : (acceptCommand s).dram = s.dram := by
  rfl
@[simp] theorem acceptCommand_outputs : (acceptCommand s).outputs = s.outputs := by
  rfl
@[simp] theorem acceptCommand_powerCycles : (acceptCommand s).powerCycles = s.powerCycles := by
  rfl
@[simp] theorem acceptCommand_draws : (acceptCommand s).draws = s.draws := by
  rfl
@[simp] theorem acceptCommand_pending : (acceptCommand s).pending = s.pending := by
  rfl
@[simp] theorem acceptCommand_overlap : (acceptCommand s).overlap = s.overlap := by
  rfl

@[simp] theorem beginConfigure_encoder : (beginConfigure s).encoder = s.encoder := by
  rfl
@[simp] theorem beginConfigure_intake : (beginConfigure s).intake = s.intake := by
  rfl
@[simp] theorem beginConfigure_tracker : (beginConfigure s).tracker = s.tracker := by
  rfl
@[simp] theorem beginConfigure_ref : (beginConfigure s).ref = s.ref := by
  rfl
@[simp] theorem beginConfigure_table : (beginConfigure s).table = s.table := by
  rfl
@[simp] theorem beginConfigure_bus : (beginConfigure s).bus = s.bus := by
  rfl
@[simp] theorem beginConfigure_port : (beginConfigure s).port = s.port := by
  rfl
@[simp] theorem beginConfigure_counters : (beginConfigure s).counters = s.counters := by
  rfl
@[simp] theorem beginConfigure_dram : (beginConfigure s).dram = s.dram := by
  rfl
@[simp] theorem beginConfigure_powerCycles : (beginConfigure s).powerCycles = s.powerCycles := by
  rfl
@[simp] theorem beginConfigure_draws : (beginConfigure s).draws = s.draws := by
  rfl
@[simp] theorem beginConfigure_pending : (beginConfigure s).pending = s.pending := by
  rfl
@[simp] theorem beginConfigure_overlap : (beginConfigure s).overlap = s.overlap := by
  rfl

@[simp] theorem refreshReference_encoder (new : StationConfig) : (refreshReference new s).encoder = s.encoder := by
  unfold refreshReference; split <;> simp
@[simp] theorem refreshReference_intake (new : StationConfig) : (refreshReference new s).intake = s.intake := by
  unfold refreshReference; split <;> simp
@[simp] theorem refreshReference_tracker (new : StationConfig) : (refreshReference new s).tracker = s.tracker := by
  unfold refreshReference; split <;> simp
@[simp] theorem refreshReference_table (new : StationConfig) : (refreshReference new s).table = s.table := by
  unfold refreshReference; split <;> simp
@[simp] theorem refreshReference_bus (new : StationConfig) : (refreshReference new s).bus = s.bus := by
  unfold refreshReference; split <;> simp
@[simp] theorem refreshReference_port (new : StationConfig) : (refreshReference new s).port = s.port := by
  unfold refreshReference; split <;> simp
@[simp] theorem refreshReference_ctl (new : StationConfig) : (refreshReference new s).ctl = s.ctl := by
  unfold refreshReference; split <;> simp
@[simp] theorem refreshReference_counters (new : StationConfig) : (refreshReference new s).counters = s.counters := by
  unfold refreshReference; split <;> simp
@[simp] theorem refreshReference_dram (new : StationConfig) : (refreshReference new s).dram = s.dram := by
  unfold refreshReference; split <;> simp
@[simp] theorem refreshReference_outputs (new : StationConfig) : (refreshReference new s).outputs = s.outputs := by
  unfold refreshReference; split <;> simp
@[simp] theorem refreshReference_powerCycles (new : StationConfig) : (refreshReference new s).powerCycles = s.powerCycles := by
  unfold refreshReference; split <;> simp
@[simp] theorem refreshReference_draws (new : StationConfig) : (refreshReference new s).draws = s.draws := by
  unfold refreshReference; split <;> simp
@[simp] theorem refreshReference_pending (new : StationConfig) : (refreshReference new s).pending = s.pending := by
  unfold refreshReference; split <;> simp
@[simp] theorem refreshReference_overlap (new : StationConfig) : (refreshReference new s).overlap = s.overlap := by
  unfold refreshReference; split <;> simp

@[simp] theorem refreshGrants_encoder : (refreshGrants s).encoder = s.encoder := by
  simp [refreshGrants]
@[simp] theorem refreshGrants_intake : (refreshGrants s).intake = s.intake := by
  simp [refreshGrants]
@[simp] theorem refreshGrants_tracker : (refreshGrants s).tracker = s.tracker := by
  simp [refreshGrants]
@[simp] theorem refreshGrants_ref : (refreshGrants s).ref = s.ref := by
  simp [refreshGrants]
@[simp] theorem refreshGrants_table : (refreshGrants s).table = s.table := by
  simp [refreshGrants]
@[simp] theorem refreshGrants_bus : (refreshGrants s).bus = s.bus := by
  simp [refreshGrants]
@[simp] theorem refreshGrants_ctl : (refreshGrants s).ctl = s.ctl := by
  simp [refreshGrants]
@[simp] theorem refreshGrants_counters : (refreshGrants s).counters = s.counters := by
  simp [refreshGrants]
@[simp] theorem refreshGrants_dram : (refreshGrants s).dram = s.dram := by
  simp [refreshGrants]
@[simp] theorem refreshGrants_powerCycles : (refreshGrants s).powerCycles = s.powerCycles := by
  simp [refreshGrants]
@[simp] theorem refreshGrants_draws : (refreshGrants s).draws = s.draws := by
  simp [refreshGrants]
@[simp] theorem refreshGrants_pending : (refreshGrants s).pending = s.pending := by
  simp [refreshGrants]
@[simp] theorem refreshGrants_overlap : (refreshGrants s).overlap = s.overlap := by
  simp [refreshGrants]

@[simp] theorem refreshBus_encoder (on : Bool) : (refreshBus on s).encoder = s.encoder := by
  simp only [refreshBus]; (repeat' split) <;> simp
@[simp] theorem refreshBus_intake (on : Bool) : (refreshBus on s).intake = s.intake := by
  simp only [refreshBus]; (repeat' split) <;> simp
@[simp] theorem refreshBus_tracker (on : Bool) : (refreshBus on s).tracker = s.tracker := by
  simp only [refreshBus]; (repeat' split) <;> simp
@[simp] theorem refreshBus_ref (on : Bool) : (refreshBus on s).ref = s.ref := by
  simp only [refreshBus]; (repeat' split) <;> simp
@[simp] theorem refreshBus_table (on : Bool) : (refreshBus on s).table = s.table := by
  simp only [refreshBus]; (repeat' split) <;> simp
@[simp] theorem refreshBus_port (on : Bool) : (refreshBus on s).port = s.port := by
  simp only [refreshBus]; (repeat' split) <;> simp
@[simp] theorem refreshBus_ctl (on : Bool) : (refreshBus on s).ctl = s.ctl := by
  simp only [refreshBus]; (repeat' split) <;> simp
@[simp] theorem refreshBus_counters (on : Bool) : (refreshBus on s).counters = s.counters := by
  simp only [refreshBus]; (repeat' split) <;> simp
@[simp] theorem refreshBus_dram (on : Bool) : (refreshBus on s).dram = s.dram := by
  simp only [refreshBus]; (repeat' split) <;> simp
@[simp] theorem refreshBus_outputs (on : Bool) : (refreshBus on s).outputs = s.outputs := by
  simp only [refreshBus]; (repeat' split) <;> simp
@[simp] theorem refreshBus_powerCycles (on : Bool) : (refreshBus on s).powerCycles = s.powerCycles := by
  simp only [refreshBus]; (repeat' split) <;> simp
@[simp] theorem refreshBus_draws (on : Bool) : (refreshBus on s).draws = s.draws := by
  simp only [refreshBus]; (repeat' split) <;> simp
@[simp] theorem refreshBus_pending (on : Bool) : (refreshBus on s).pending = s.pending := by
  simp only [refreshBus]; (repeat' split) <;> simp
@[simp] theorem refreshBus_overlap (on : Bool) : (refreshBus on s).overlap = s.overlap := by
  simp only [refreshBus]; (repeat' split) <;> simp

@[simp] theorem applyConfig_encoder (new : StationConfig) : (applyConfig new s).encoder = s.encoder := by
  simp [applyConfig]
@[simp] theorem applyConfig_intake (new : StationConfig) : (applyConfig new s).intake = s.intake := by
  simp [applyConfig]
@[simp] theorem applyConfig_tracker (new : StationConfig) : (applyConfig new s).tracker = s.tracker := by
  simp [applyConfig]
@[simp] theorem applyConfig_table (new : StationConfig) : (applyConfig new s).table = s.table := by
  simp [applyConfig]
@[simp] theorem applyConfig_counters (new : StationConfig) : (applyConfig new s).counters = s.counters := by
  simp [applyConfig]
@[simp] theorem applyConfig_dram (new : StationConfig) : (applyConfig new s).dram = s.dram := by
  simp [applyConfig]
@[simp] theorem applyConfig_powerCycles (new : StationConfig) : (applyConfig new s).powerCycles = s.powerCycles := by
  simp [applyConfig]
@[simp] theorem applyConfig_draws (new : StationConfig) : (applyConfig new s).draws = s.draws := by
  simp [applyConfig]
@[simp] theorem applyConfig_pending (new : StationConfig) : (applyConfig new s).pending = s.pending := by
  simp [applyConfig]
@[simp] theorem applyConfig_overlap (new : StationConfig) : (applyConfig new s).overlap = s.overlap := by
  simp [applyConfig]

@[simp] theorem finishConfigure_encoder (b : BitVec 2048) : (finishConfigure b s).encoder = s.encoder := by
  unfold finishConfigure; split <;> simp
@[simp] theorem finishConfigure_intake (b : BitVec 2048) : (finishConfigure b s).intake = s.intake := by
  unfold finishConfigure; split <;> simp
@[simp] theorem finishConfigure_tracker (b : BitVec 2048) : (finishConfigure b s).tracker = s.tracker := by
  unfold finishConfigure; split <;> simp
@[simp] theorem finishConfigure_table (b : BitVec 2048) : (finishConfigure b s).table = s.table := by
  unfold finishConfigure; split <;> simp
@[simp] theorem finishConfigure_dram (b : BitVec 2048) : (finishConfigure b s).dram = s.dram := by
  unfold finishConfigure; split <;> simp
@[simp] theorem finishConfigure_powerCycles (b : BitVec 2048) : (finishConfigure b s).powerCycles = s.powerCycles := by
  unfold finishConfigure; split <;> simp
@[simp] theorem finishConfigure_draws (b : BitVec 2048) : (finishConfigure b s).draws = s.draws := by
  unfold finishConfigure; split <;> simp
@[simp] theorem finishConfigure_pending (b : BitVec 2048) : (finishConfigure b s).pending = s.pending := by
  unfold finishConfigure; split <;> simp
@[simp] theorem finishConfigure_overlap (b : BitVec 2048) : (finishConfigure b s).overlap = s.overlap := by
  unfold finishConfigure; split <;> simp

@[simp] theorem beginSnapshot_encoder : (beginSnapshot s).encoder = s.encoder := by
  rfl
@[simp] theorem beginSnapshot_intake : (beginSnapshot s).intake = s.intake := by
  rfl
@[simp] theorem beginSnapshot_tracker : (beginSnapshot s).tracker = s.tracker := by
  rfl
@[simp] theorem beginSnapshot_ref : (beginSnapshot s).ref = s.ref := by
  rfl
@[simp] theorem beginSnapshot_table : (beginSnapshot s).table = s.table := by
  rfl
@[simp] theorem beginSnapshot_bus : (beginSnapshot s).bus = s.bus := by
  rfl
@[simp] theorem beginSnapshot_port : (beginSnapshot s).port = s.port := by
  rfl
@[simp] theorem beginSnapshot_counters : (beginSnapshot s).counters = s.counters := by
  rfl
@[simp] theorem beginSnapshot_dram : (beginSnapshot s).dram = s.dram := by
  rfl
@[simp] theorem beginSnapshot_outputs : (beginSnapshot s).outputs = s.outputs := by
  rfl
@[simp] theorem beginSnapshot_powerCycles : (beginSnapshot s).powerCycles = s.powerCycles := by
  rfl
@[simp] theorem beginSnapshot_draws : (beginSnapshot s).draws = s.draws := by
  rfl
@[simp] theorem beginSnapshot_pending : (beginSnapshot s).pending = s.pending := by
  rfl
@[simp] theorem beginSnapshot_overlap : (beginSnapshot s).overlap = s.overlap := by
  rfl

@[simp] theorem finishSnapshot_encoder (address : BitVec 64) (words : List Word) : (finishSnapshot address words s).encoder = s.encoder := by
  simp [finishSnapshot]
@[simp] theorem finishSnapshot_intake (address : BitVec 64) (words : List Word) : (finishSnapshot address words s).intake = s.intake := by
  simp [finishSnapshot]
@[simp] theorem finishSnapshot_tracker (address : BitVec 64) (words : List Word) : (finishSnapshot address words s).tracker = s.tracker := by
  simp [finishSnapshot]
@[simp] theorem finishSnapshot_ref (address : BitVec 64) (words : List Word) : (finishSnapshot address words s).ref = s.ref := by
  simp [finishSnapshot]
@[simp] theorem finishSnapshot_table (address : BitVec 64) (words : List Word) : (finishSnapshot address words s).table = s.table := by
  simp [finishSnapshot]
@[simp] theorem finishSnapshot_bus (address : BitVec 64) (words : List Word) : (finishSnapshot address words s).bus = s.bus := by
  simp [finishSnapshot]
@[simp] theorem finishSnapshot_port (address : BitVec 64) (words : List Word) : (finishSnapshot address words s).port = s.port := by
  simp [finishSnapshot]
@[simp] theorem finishSnapshot_counters (address : BitVec 64) (words : List Word) : (finishSnapshot address words s).counters = s.counters := by
  simp [finishSnapshot]
@[simp] theorem finishSnapshot_dram (address : BitVec 64) (words : List Word) : (finishSnapshot address words s).dram = s.dram := by
  simp [finishSnapshot]
@[simp] theorem finishSnapshot_powerCycles (address : BitVec 64) (words : List Word) : (finishSnapshot address words s).powerCycles = s.powerCycles := by
  simp [finishSnapshot]
@[simp] theorem finishSnapshot_draws (address : BitVec 64) (words : List Word) : (finishSnapshot address words s).draws = s.draws := by
  simp [finishSnapshot]
@[simp] theorem finishSnapshot_pending (address : BitVec 64) (words : List Word) : (finishSnapshot address words s).pending = s.pending := by
  simp [finishSnapshot]
@[simp] theorem finishSnapshot_overlap (address : BitVec 64) (words : List Word) : (finishSnapshot address words s).overlap = s.overlap := by
  simp [finishSnapshot]

@[simp] theorem clearCounters_encoder : (clearCounters s).encoder = s.encoder := by
  rfl
@[simp] theorem clearCounters_intake : (clearCounters s).intake = s.intake := by
  rfl
@[simp] theorem clearCounters_tracker : (clearCounters s).tracker = s.tracker := by
  rfl
@[simp] theorem clearCounters_ref : (clearCounters s).ref = s.ref := by
  rfl
@[simp] theorem clearCounters_table : (clearCounters s).table = s.table := by
  rfl
@[simp] theorem clearCounters_bus : (clearCounters s).bus = s.bus := by
  rfl
@[simp] theorem clearCounters_port : (clearCounters s).port = s.port := by
  rfl
@[simp] theorem clearCounters_ctl : (clearCounters s).ctl = s.ctl := by
  rfl
@[simp] theorem clearCounters_dram : (clearCounters s).dram = s.dram := by
  rfl
@[simp] theorem clearCounters_outputs : (clearCounters s).outputs = s.outputs := by
  rfl
@[simp] theorem clearCounters_powerCycles : (clearCounters s).powerCycles = s.powerCycles := by
  rfl
@[simp] theorem clearCounters_draws : (clearCounters s).draws = s.draws := by
  rfl
@[simp] theorem clearCounters_pending : (clearCounters s).pending = s.pending := by
  rfl
@[simp] theorem clearCounters_overlap : (clearCounters s).overlap = s.overlap := by
  rfl

@[simp] theorem dropLink_encoder : (dropLink s).encoder = s.encoder := by
  rfl
@[simp] theorem dropLink_intake : (dropLink s).intake = s.intake := by
  rfl
@[simp] theorem dropLink_tracker : (dropLink s).tracker = s.tracker := by
  rfl
@[simp] theorem dropLink_ref : (dropLink s).ref = s.ref := by
  rfl
@[simp] theorem dropLink_table : (dropLink s).table = s.table := by
  rfl
@[simp] theorem dropLink_bus : (dropLink s).bus = s.bus := by
  rfl
@[simp] theorem dropLink_ctl : (dropLink s).ctl = s.ctl := by
  rfl
@[simp] theorem dropLink_counters : (dropLink s).counters = s.counters := by
  rfl
@[simp] theorem dropLink_dram : (dropLink s).dram = s.dram := by
  rfl
@[simp] theorem dropLink_outputs : (dropLink s).outputs = s.outputs := by
  rfl
@[simp] theorem dropLink_powerCycles : (dropLink s).powerCycles = s.powerCycles := by
  rfl
@[simp] theorem dropLink_draws : (dropLink s).draws = s.draws := by
  rfl
@[simp] theorem dropLink_pending : (dropLink s).pending = s.pending := by
  rfl
@[simp] theorem dropLink_overlap : (dropLink s).overlap = s.overlap := by
  rfl

@[simp] theorem partlyIssued_encoder (address : BitVec 64) (words : List Word) : (partlyIssued address words s).encoder = s.encoder := by
  rfl
@[simp] theorem partlyIssued_intake (address : BitVec 64) (words : List Word) : (partlyIssued address words s).intake = s.intake := by
  rfl
@[simp] theorem partlyIssued_tracker (address : BitVec 64) (words : List Word) : (partlyIssued address words s).tracker = s.tracker := by
  rfl
@[simp] theorem partlyIssued_ref (address : BitVec 64) (words : List Word) : (partlyIssued address words s).ref = s.ref := by
  rfl
@[simp] theorem partlyIssued_table (address : BitVec 64) (words : List Word) : (partlyIssued address words s).table = s.table := by
  rfl
@[simp] theorem partlyIssued_bus (address : BitVec 64) (words : List Word) : (partlyIssued address words s).bus = s.bus := by
  rfl
@[simp] theorem partlyIssued_port (address : BitVec 64) (words : List Word) : (partlyIssued address words s).port = s.port := by
  rfl
@[simp] theorem partlyIssued_ctl (address : BitVec 64) (words : List Word) : (partlyIssued address words s).ctl = s.ctl := by
  rfl
@[simp] theorem partlyIssued_counters (address : BitVec 64) (words : List Word) : (partlyIssued address words s).counters = s.counters := by
  rfl
@[simp] theorem partlyIssued_dram (address : BitVec 64) (words : List Word) : (partlyIssued address words s).dram = s.dram := by
  rfl
@[simp] theorem partlyIssued_powerCycles (address : BitVec 64) (words : List Word) : (partlyIssued address words s).powerCycles = s.powerCycles := by
  rfl
@[simp] theorem partlyIssued_pending (address : BitVec 64) (words : List Word) : (partlyIssued address words s).pending = s.pending := by
  rfl
@[simp] theorem partlyIssued_overlap (address : BitVec 64) (words : List Word) : (partlyIssued address words s).overlap = s.overlap := by
  rfl

@[simp] theorem abandonCommand_encoder : (abandonCommand s).encoder = s.encoder := by
  unfold abandonCommand; split <;> simp
@[simp] theorem abandonCommand_intake : (abandonCommand s).intake = s.intake := by
  unfold abandonCommand; split <;> simp
@[simp] theorem abandonCommand_tracker : (abandonCommand s).tracker = s.tracker := by
  unfold abandonCommand; split <;> simp
@[simp] theorem abandonCommand_ref : (abandonCommand s).ref = s.ref := by
  unfold abandonCommand; split <;> simp
@[simp] theorem abandonCommand_table : (abandonCommand s).table = s.table := by
  unfold abandonCommand; split <;> simp
@[simp] theorem abandonCommand_bus : (abandonCommand s).bus = s.bus := by
  unfold abandonCommand; split <;> simp
@[simp] theorem abandonCommand_port : (abandonCommand s).port = s.port := by
  unfold abandonCommand; split <;> simp
@[simp] theorem abandonCommand_dram : (abandonCommand s).dram = s.dram := by
  unfold abandonCommand; split <;> simp
@[simp] theorem abandonCommand_powerCycles : (abandonCommand s).powerCycles = s.powerCycles := by
  unfold abandonCommand; split <;> simp
@[simp] theorem abandonCommand_pending : (abandonCommand s).pending = s.pending := by
  unfold abandonCommand; split <;> simp
@[simp] theorem abandonCommand_overlap : (abandonCommand s).overlap = s.overlap := by
  unfold abandonCommand; split <;> simp

@[simp] theorem submitGrant_encoder (tag : Word) : (submitGrant tag s).encoder = s.encoder := by
  rfl
@[simp] theorem submitGrant_intake (tag : Word) : (submitGrant tag s).intake = s.intake := by
  rfl
@[simp] theorem submitGrant_tracker (tag : Word) : (submitGrant tag s).tracker = s.tracker := by
  rfl
@[simp] theorem submitGrant_ref (tag : Word) : (submitGrant tag s).ref = s.ref := by
  rfl
@[simp] theorem submitGrant_table (tag : Word) : (submitGrant tag s).table = s.table := by
  rfl
@[simp] theorem submitGrant_bus (tag : Word) : (submitGrant tag s).bus = s.bus := by
  rfl
@[simp] theorem submitGrant_counters (tag : Word) : (submitGrant tag s).counters = s.counters := by
  rfl
@[simp] theorem submitGrant_dram (tag : Word) : (submitGrant tag s).dram = s.dram := by
  rfl
@[simp] theorem submitGrant_outputs (tag : Word) : (submitGrant tag s).outputs = s.outputs := by
  rfl
@[simp] theorem submitGrant_powerCycles (tag : Word) : (submitGrant tag s).powerCycles = s.powerCycles := by
  rfl
@[simp] theorem submitGrant_draws (tag : Word) : (submitGrant tag s).draws = s.draws := by
  rfl
@[simp] theorem submitGrant_pending (tag : Word) : (submitGrant tag s).pending = s.pending := by
  rfl
@[simp] theorem submitGrant_overlap (tag : Word) : (submitGrant tag s).overlap = s.overlap := by
  rfl

/-! ## Receiving -/

@[simp] theorem endOfFrame_encoder : (endOfFrame s).encoder = s.encoder := by
  rfl
@[simp] theorem endOfFrame_intake : (endOfFrame s).intake = s.intake := by
  rfl
@[simp] theorem endOfFrame_tracker : (endOfFrame s).tracker = s.tracker := by
  rfl
@[simp] theorem endOfFrame_ref : (endOfFrame s).ref = s.ref := by
  rfl
@[simp] theorem endOfFrame_table : (endOfFrame s).table = s.table := by
  rfl
@[simp] theorem endOfFrame_port : (endOfFrame s).port = s.port := by
  rfl
@[simp] theorem endOfFrame_ctl : (endOfFrame s).ctl = s.ctl := by
  rfl
@[simp] theorem endOfFrame_counters : (endOfFrame s).counters = s.counters := by
  rfl
@[simp] theorem endOfFrame_dram : (endOfFrame s).dram = s.dram := by
  rfl
@[simp] theorem endOfFrame_outputs : (endOfFrame s).outputs = s.outputs := by
  rfl
@[simp] theorem endOfFrame_powerCycles : (endOfFrame s).powerCycles = s.powerCycles := by
  rfl
@[simp] theorem endOfFrame_draws : (endOfFrame s).draws = s.draws := by
  rfl
@[simp] theorem endOfFrame_pending : (endOfFrame s).pending = s.pending := by
  rfl
@[simp] theorem endOfFrame_overlap : (endOfFrame s).overlap = s.overlap := by
  rfl

@[simp] theorem removeSent_encoder : (removeSent s).encoder = s.encoder := by
  rfl
@[simp] theorem removeSent_intake : (removeSent s).intake = s.intake := by
  rfl
@[simp] theorem removeSent_tracker : (removeSent s).tracker = s.tracker := by
  rfl
@[simp] theorem removeSent_ref : (removeSent s).ref = s.ref := by
  rfl
@[simp] theorem removeSent_table : (removeSent s).table = s.table := by
  rfl
@[simp] theorem removeSent_port : (removeSent s).port = s.port := by
  rfl
@[simp] theorem removeSent_ctl : (removeSent s).ctl = s.ctl := by
  rfl
@[simp] theorem removeSent_counters : (removeSent s).counters = s.counters := by
  rfl
@[simp] theorem removeSent_dram : (removeSent s).dram = s.dram := by
  rfl
@[simp] theorem removeSent_outputs : (removeSent s).outputs = s.outputs := by
  rfl
@[simp] theorem removeSent_powerCycles : (removeSent s).powerCycles = s.powerCycles := by
  rfl
@[simp] theorem removeSent_draws : (removeSent s).draws = s.draws := by
  rfl
@[simp] theorem removeSent_pending : (removeSent s).pending = s.pending := by
  rfl
@[simp] theorem removeSent_overlap : (removeSent s).overlap = s.overlap := by
  rfl

@[simp] theorem actOnAlert_encoder (sender : StationNo) (k : AlertKind) (line : Word) : (actOnAlert sender k line s).encoder = s.encoder := by
  unfold actOnAlert; split <;> simp
@[simp] theorem actOnAlert_ref (sender : StationNo) (k : AlertKind) (line : Word) : (actOnAlert sender k line s).ref = s.ref := by
  unfold actOnAlert; split <;> simp
@[simp] theorem actOnAlert_table (sender : StationNo) (k : AlertKind) (line : Word) : (actOnAlert sender k line s).table = s.table := by
  unfold actOnAlert; split <;> simp
@[simp] theorem actOnAlert_bus (sender : StationNo) (k : AlertKind) (line : Word) : (actOnAlert sender k line s).bus = s.bus := by
  unfold actOnAlert; split <;> simp
@[simp] theorem actOnAlert_port (sender : StationNo) (k : AlertKind) (line : Word) : (actOnAlert sender k line s).port = s.port := by
  unfold actOnAlert; split <;> simp
@[simp] theorem actOnAlert_ctl (sender : StationNo) (k : AlertKind) (line : Word) : (actOnAlert sender k line s).ctl = s.ctl := by
  unfold actOnAlert; split <;> simp
@[simp] theorem actOnAlert_dram (sender : StationNo) (k : AlertKind) (line : Word) : (actOnAlert sender k line s).dram = s.dram := by
  unfold actOnAlert; split <;> simp
@[simp] theorem actOnAlert_outputs (sender : StationNo) (k : AlertKind) (line : Word) : (actOnAlert sender k line s).outputs = s.outputs := by
  unfold actOnAlert; split <;> simp
@[simp] theorem actOnAlert_powerCycles (sender : StationNo) (k : AlertKind) (line : Word) : (actOnAlert sender k line s).powerCycles = s.powerCycles := by
  unfold actOnAlert; split <;> simp
@[simp] theorem actOnAlert_draws (sender : StationNo) (k : AlertKind) (line : Word) : (actOnAlert sender k line s).draws = s.draws := by
  unfold actOnAlert; split <;> simp
@[simp] theorem actOnAlert_pending (sender : StationNo) (k : AlertKind) (line : Word) : (actOnAlert sender k line s).pending = s.pending := by
  unfold actOnAlert; split <;> simp
@[simp] theorem actOnAlert_overlap (sender : StationNo) (k : AlertKind) (line : Word) : (actOnAlert sender k line s).overlap = s.overlap := by
  unfold actOnAlert; split <;> simp

@[simp] theorem routeAlert_encoder (sender : StationNo) (k : AlertKind) (line : Word) : (routeAlert sender k line s).encoder = s.encoder := by
  simp only [routeAlert]; (repeat' split) <;> simp
@[simp] theorem routeAlert_ref (sender : StationNo) (k : AlertKind) (line : Word) : (routeAlert sender k line s).ref = s.ref := by
  simp only [routeAlert]; (repeat' split) <;> simp
@[simp] theorem routeAlert_table (sender : StationNo) (k : AlertKind) (line : Word) : (routeAlert sender k line s).table = s.table := by
  simp only [routeAlert]; (repeat' split) <;> simp
@[simp] theorem routeAlert_bus (sender : StationNo) (k : AlertKind) (line : Word) : (routeAlert sender k line s).bus = s.bus := by
  simp only [routeAlert]; (repeat' split) <;> simp
@[simp] theorem routeAlert_ctl (sender : StationNo) (k : AlertKind) (line : Word) : (routeAlert sender k line s).ctl = s.ctl := by
  simp only [routeAlert]; (repeat' split) <;> simp
@[simp] theorem routeAlert_dram (sender : StationNo) (k : AlertKind) (line : Word) : (routeAlert sender k line s).dram = s.dram := by
  simp only [routeAlert]; (repeat' split) <;> simp
@[simp] theorem routeAlert_powerCycles (sender : StationNo) (k : AlertKind) (line : Word) : (routeAlert sender k line s).powerCycles = s.powerCycles := by
  simp only [routeAlert]; (repeat' split) <;> simp
@[simp] theorem routeAlert_draws (sender : StationNo) (k : AlertKind) (line : Word) : (routeAlert sender k line s).draws = s.draws := by
  simp only [routeAlert]; (repeat' split) <;> simp
@[simp] theorem routeAlert_pending (sender : StationNo) (k : AlertKind) (line : Word) : (routeAlert sender k line s).pending = s.pending := by
  simp only [routeAlert]; (repeat' split) <;> simp
@[simp] theorem routeAlert_overlap (sender : StationNo) (k : AlertKind) (line : Word) : (routeAlert sender k line s).overlap = s.overlap := by
  simp only [routeAlert]; (repeat' split) <;> simp

@[simp] theorem hearSpan_encoder (h : Heard) : (hearSpan h s).encoder = s.encoder := by
  unfold hearSpan; split <;> simp
@[simp] theorem hearSpan_intake (h : Heard) : (hearSpan h s).intake = s.intake := by
  unfold hearSpan; split <;> simp
@[simp] theorem hearSpan_tracker (h : Heard) : (hearSpan h s).tracker = s.tracker := by
  unfold hearSpan; split <;> simp
@[simp] theorem hearSpan_ref (h : Heard) : (hearSpan h s).ref = s.ref := by
  unfold hearSpan; split <;> simp
@[simp] theorem hearSpan_table (h : Heard) : (hearSpan h s).table = s.table := by
  unfold hearSpan; split <;> simp
@[simp] theorem hearSpan_port (h : Heard) : (hearSpan h s).port = s.port := by
  unfold hearSpan; split <;> simp
@[simp] theorem hearSpan_ctl (h : Heard) : (hearSpan h s).ctl = s.ctl := by
  unfold hearSpan; split <;> simp
@[simp] theorem hearSpan_dram (h : Heard) : (hearSpan h s).dram = s.dram := by
  unfold hearSpan; split <;> simp
@[simp] theorem hearSpan_outputs (h : Heard) : (hearSpan h s).outputs = s.outputs := by
  unfold hearSpan; split <;> simp
@[simp] theorem hearSpan_powerCycles (h : Heard) : (hearSpan h s).powerCycles = s.powerCycles := by
  unfold hearSpan; split <;> simp
@[simp] theorem hearSpan_draws (h : Heard) : (hearSpan h s).draws = s.draws := by
  unfold hearSpan; split <;> simp
@[simp] theorem hearSpan_pending (h : Heard) : (hearSpan h s).pending = s.pending := by
  unfold hearSpan; split <;> simp
@[simp] theorem hearSpan_overlap (h : Heard) : (hearSpan h s).overlap = s.overlap := by
  unfold hearSpan; split <;> simp

@[simp] theorem lateForRun_encoder (sender : StationNo) : (lateForRun sender s).encoder = s.encoder := by
  simp [lateForRun]
@[simp] theorem lateForRun_intake (sender : StationNo) : (lateForRun sender s).intake = s.intake := by
  simp [lateForRun]
@[simp] theorem lateForRun_tracker (sender : StationNo) : (lateForRun sender s).tracker = s.tracker := by
  simp [lateForRun]
@[simp] theorem lateForRun_ref (sender : StationNo) : (lateForRun sender s).ref = s.ref := by
  simp [lateForRun]
@[simp] theorem lateForRun_table (sender : StationNo) : (lateForRun sender s).table = s.table := by
  simp [lateForRun]
@[simp] theorem lateForRun_ctl (sender : StationNo) : (lateForRun sender s).ctl = s.ctl := by
  simp [lateForRun]
@[simp] theorem lateForRun_dram (sender : StationNo) : (lateForRun sender s).dram = s.dram := by
  simp [lateForRun]
@[simp] theorem lateForRun_powerCycles (sender : StationNo) : (lateForRun sender s).powerCycles = s.powerCycles := by
  simp [lateForRun]
@[simp] theorem lateForRun_draws (sender : StationNo) : (lateForRun sender s).draws = s.draws := by
  simp [lateForRun]
@[simp] theorem lateForRun_pending (sender : StationNo) : (lateForRun sender s).pending = s.pending := by
  simp [lateForRun]
@[simp] theorem lateForRun_overlap (sender : StationNo) : (lateForRun sender s).overlap = s.overlap := by
  simp [lateForRun]

@[simp] theorem actOnPeer_ctl (f : HeardFrame) : (actOnPeer f s).ctl = s.ctl := by
  unfold actOnPeer; split <;> simp
@[simp] theorem actOnPeer_powerCycles (f : HeardFrame) : (actOnPeer f s).powerCycles = s.powerCycles := by
  unfold actOnPeer; split <;> simp
@[simp] theorem actOnPeer_draws (f : HeardFrame) : (actOnPeer f s).draws = s.draws := by
  unfold actOnPeer; split <;> simp
@[simp] theorem actOnPeer_pending (f : HeardFrame) : (actOnPeer f s).pending = s.pending := by
  unfold actOnPeer; split <;> simp

@[simp] theorem actOnEcho_ctl (f : HeardFrame) : (actOnEcho f s).ctl = s.ctl := by
  unfold actOnEcho; split <;> simp
@[simp] theorem actOnEcho_powerCycles (f : HeardFrame) : (actOnEcho f s).powerCycles = s.powerCycles := by
  unfold actOnEcho; split <;> simp
@[simp] theorem actOnEcho_draws (f : HeardFrame) : (actOnEcho f s).draws = s.draws := by
  unfold actOnEcho; split <;> simp
@[simp] theorem actOnEcho_pending (f : HeardFrame) : (actOnEcho f s).pending = s.pending := by
  unfold actOnEcho; split <;> simp

@[simp] theorem raiseDuplicate_encoder (f : HeardFrame) : (raiseDuplicate f s).encoder = s.encoder := by
  simp [raiseDuplicate]
@[simp] theorem raiseDuplicate_intake (f : HeardFrame) : (raiseDuplicate f s).intake = s.intake := by
  simp [raiseDuplicate]
@[simp] theorem raiseDuplicate_tracker (f : HeardFrame) : (raiseDuplicate f s).tracker = s.tracker := by
  simp [raiseDuplicate]
@[simp] theorem raiseDuplicate_ref (f : HeardFrame) : (raiseDuplicate f s).ref = s.ref := by
  simp [raiseDuplicate]
@[simp] theorem raiseDuplicate_table (f : HeardFrame) : (raiseDuplicate f s).table = s.table := by
  simp [raiseDuplicate]
@[simp] theorem raiseDuplicate_ctl (f : HeardFrame) : (raiseDuplicate f s).ctl = s.ctl := by
  simp [raiseDuplicate]
@[simp] theorem raiseDuplicate_dram (f : HeardFrame) : (raiseDuplicate f s).dram = s.dram := by
  simp [raiseDuplicate]
@[simp] theorem raiseDuplicate_powerCycles (f : HeardFrame) : (raiseDuplicate f s).powerCycles = s.powerCycles := by
  simp [raiseDuplicate]
@[simp] theorem raiseDuplicate_draws (f : HeardFrame) : (raiseDuplicate f s).draws = s.draws := by
  simp [raiseDuplicate]
@[simp] theorem raiseDuplicate_pending (f : HeardFrame) : (raiseDuplicate f s).pending = s.pending := by
  simp [raiseDuplicate]
@[simp] theorem raiseDuplicate_overlap (f : HeardFrame) : (raiseDuplicate f s).overlap = s.overlap := by
  simp [raiseDuplicate]

@[simp] theorem reportDuplicate_encoder (f : HeardFrame) : (reportDuplicate f s).encoder = s.encoder := by
  unfold reportDuplicate; split <;> simp
@[simp] theorem reportDuplicate_intake (f : HeardFrame) : (reportDuplicate f s).intake = s.intake := by
  unfold reportDuplicate; split <;> simp
@[simp] theorem reportDuplicate_tracker (f : HeardFrame) : (reportDuplicate f s).tracker = s.tracker := by
  unfold reportDuplicate; split <;> simp
@[simp] theorem reportDuplicate_ref (f : HeardFrame) : (reportDuplicate f s).ref = s.ref := by
  unfold reportDuplicate; split <;> simp
@[simp] theorem reportDuplicate_table (f : HeardFrame) : (reportDuplicate f s).table = s.table := by
  unfold reportDuplicate; split <;> simp
@[simp] theorem reportDuplicate_ctl (f : HeardFrame) : (reportDuplicate f s).ctl = s.ctl := by
  unfold reportDuplicate; split <;> simp
@[simp] theorem reportDuplicate_dram (f : HeardFrame) : (reportDuplicate f s).dram = s.dram := by
  unfold reportDuplicate; split <;> simp
@[simp] theorem reportDuplicate_powerCycles (f : HeardFrame) : (reportDuplicate f s).powerCycles = s.powerCycles := by
  unfold reportDuplicate; split <;> simp
@[simp] theorem reportDuplicate_draws (f : HeardFrame) : (reportDuplicate f s).draws = s.draws := by
  unfold reportDuplicate; split <;> simp
@[simp] theorem reportDuplicate_pending (f : HeardFrame) : (reportDuplicate f s).pending = s.pending := by
  unfold reportDuplicate; split <;> simp
@[simp] theorem reportDuplicate_overlap (f : HeardFrame) : (reportDuplicate f s).overlap = s.overlap := by
  unfold reportDuplicate; split <;> simp

@[simp] theorem actOnDuplicate_ctl (f : HeardFrame) : (actOnDuplicate f s).ctl = s.ctl := by
  simp only [actOnDuplicate]; (repeat' split) <;> simp
@[simp] theorem actOnDuplicate_powerCycles (f : HeardFrame) : (actOnDuplicate f s).powerCycles = s.powerCycles := by
  simp only [actOnDuplicate]; (repeat' split) <;> simp
@[simp] theorem actOnDuplicate_draws (f : HeardFrame) : (actOnDuplicate f s).draws = s.draws := by
  simp only [actOnDuplicate]; (repeat' split) <;> simp
@[simp] theorem actOnDuplicate_pending (f : HeardFrame) : (actOnDuplicate f s).pending = s.pending := by
  simp only [actOnDuplicate]; (repeat' split) <;> simp

@[simp] theorem actOnFrame_ctl (f : HeardFrame) : (actOnFrame f s).ctl = s.ctl := by
  simp only [actOnFrame]; (repeat' split) <;> simp
@[simp] theorem actOnFrame_powerCycles (f : HeardFrame) : (actOnFrame f s).powerCycles = s.powerCycles := by
  simp only [actOnFrame]; (repeat' split) <;> simp
@[simp] theorem actOnFrame_draws (f : HeardFrame) : (actOnFrame f s).draws = s.draws := by
  simp only [actOnFrame]; (repeat' split) <;> simp
@[simp] theorem actOnFrame_pending (f : HeardFrame) : (actOnFrame f s).pending = s.pending := by
  simp only [actOnFrame]; (repeat' split) <;> simp

@[simp] theorem discardFrame_encoder : (discardFrame s).encoder = s.encoder := by
  rfl
@[simp] theorem discardFrame_intake : (discardFrame s).intake = s.intake := by
  rfl
@[simp] theorem discardFrame_tracker : (discardFrame s).tracker = s.tracker := by
  rfl
@[simp] theorem discardFrame_ref : (discardFrame s).ref = s.ref := by
  rfl
@[simp] theorem discardFrame_table : (discardFrame s).table = s.table := by
  rfl
@[simp] theorem discardFrame_port : (discardFrame s).port = s.port := by
  rfl
@[simp] theorem discardFrame_ctl : (discardFrame s).ctl = s.ctl := by
  rfl
@[simp] theorem discardFrame_dram : (discardFrame s).dram = s.dram := by
  rfl
@[simp] theorem discardFrame_outputs : (discardFrame s).outputs = s.outputs := by
  rfl
@[simp] theorem discardFrame_powerCycles : (discardFrame s).powerCycles = s.powerCycles := by
  rfl
@[simp] theorem discardFrame_draws : (discardFrame s).draws = s.draws := by
  rfl
@[simp] theorem discardFrame_pending : (discardFrame s).pending = s.pending := by
  rfl
@[simp] theorem discardFrame_overlap : (discardFrame s).overlap = s.overlap := by
  rfl

@[simp] theorem missFrame_encoder : (missFrame s).encoder = s.encoder := by
  unfold missFrame; split <;> simp
@[simp] theorem missFrame_intake : (missFrame s).intake = s.intake := by
  unfold missFrame; split <;> simp
@[simp] theorem missFrame_tracker : (missFrame s).tracker = s.tracker := by
  unfold missFrame; split <;> simp
@[simp] theorem missFrame_ref : (missFrame s).ref = s.ref := by
  unfold missFrame; split <;> simp
@[simp] theorem missFrame_table : (missFrame s).table = s.table := by
  unfold missFrame; split <;> simp
@[simp] theorem missFrame_port : (missFrame s).port = s.port := by
  unfold missFrame; split <;> simp
@[simp] theorem missFrame_ctl : (missFrame s).ctl = s.ctl := by
  unfold missFrame; split <;> simp
@[simp] theorem missFrame_counters : (missFrame s).counters = s.counters := by
  unfold missFrame; split <;> simp
@[simp] theorem missFrame_dram : (missFrame s).dram = s.dram := by
  unfold missFrame; split <;> simp
@[simp] theorem missFrame_outputs : (missFrame s).outputs = s.outputs := by
  unfold missFrame; split <;> simp
@[simp] theorem missFrame_powerCycles : (missFrame s).powerCycles = s.powerCycles := by
  unfold missFrame; split <;> simp
@[simp] theorem missFrame_draws : (missFrame s).draws = s.draws := by
  unfold missFrame; split <;> simp
@[simp] theorem missFrame_pending : (missFrame s).pending = s.pending := by
  unfold missFrame; split <;> simp
@[simp] theorem missFrame_overlap : (missFrame s).overlap = s.overlap := by
  unfold missFrame; split <;> simp

@[simp] theorem receiveFrame_ctl (f : HeardFrame) : (receiveFrame f s).ctl = s.ctl := by
  simp only [receiveFrame]; (repeat' split) <;> simp
@[simp] theorem receiveFrame_powerCycles (f : HeardFrame) : (receiveFrame f s).powerCycles = s.powerCycles := by
  simp only [receiveFrame]; (repeat' split) <;> simp
@[simp] theorem receiveFrame_draws (f : HeardFrame) : (receiveFrame f s).draws = s.draws := by
  simp only [receiveFrame]; (repeat' split) <;> simp
@[simp] theorem receiveFrame_pending (f : HeardFrame) : (receiveFrame f s).pending = s.pending := by
  simp only [receiveFrame]; (repeat' split) <;> simp

@[simp] theorem receiveRaw_ctl (f : RawFrame) : (receiveRaw f s).ctl = s.ctl := by
  simp only [receiveRaw]; (repeat' split) <;> simp
@[simp] theorem receiveRaw_powerCycles (f : RawFrame) : (receiveRaw f s).powerCycles = s.powerCycles := by
  simp only [receiveRaw]; (repeat' split) <;> simp
@[simp] theorem receiveRaw_draws (f : RawFrame) : (receiveRaw f s).draws = s.draws := by
  simp only [receiveRaw]; (repeat' split) <;> simp
@[simp] theorem receiveRaw_pending (f : RawFrame) : (receiveRaw f s).pending = s.pending := by
  simp only [receiveRaw]; (repeat' split) <;> simp

@[simp] theorem startHead_encoder (f : Frame) : (startHead f s).encoder = s.encoder := by
  rfl
@[simp] theorem startHead_intake (f : Frame) : (startHead f s).intake = s.intake := by
  rfl
@[simp] theorem startHead_tracker (f : Frame) : (startHead f s).tracker = s.tracker := by
  rfl
@[simp] theorem startHead_ref (f : Frame) : (startHead f s).ref = s.ref := by
  rfl
@[simp] theorem startHead_table (f : Frame) : (startHead f s).table = s.table := by
  rfl
@[simp] theorem startHead_port (f : Frame) : (startHead f s).port = s.port := by
  rfl
@[simp] theorem startHead_ctl (f : Frame) : (startHead f s).ctl = s.ctl := by
  rfl
@[simp] theorem startHead_counters (f : Frame) : (startHead f s).counters = s.counters := by
  rfl
@[simp] theorem startHead_dram (f : Frame) : (startHead f s).dram = s.dram := by
  rfl
@[simp] theorem startHead_outputs (f : Frame) : (startHead f s).outputs = s.outputs := by
  rfl
@[simp] theorem startHead_powerCycles (f : Frame) : (startHead f s).powerCycles = s.powerCycles := by
  rfl
@[simp] theorem startHead_draws (f : Frame) : (startHead f s).draws = s.draws := by
  rfl
@[simp] theorem startHead_pending (f : Frame) : (startHead f s).pending = s.pending := by
  rfl
@[simp] theorem startHead_overlap (f : Frame) : (startHead f s).overlap = s.overlap := by
  rfl

@[simp] theorem fallBack_encoder (f : Frame) (n : Nat) : (fallBack f n s).encoder = s.encoder := by
  rfl
@[simp] theorem fallBack_intake (f : Frame) (n : Nat) : (fallBack f n s).intake = s.intake := by
  rfl
@[simp] theorem fallBack_tracker (f : Frame) (n : Nat) : (fallBack f n s).tracker = s.tracker := by
  rfl
@[simp] theorem fallBack_ref (f : Frame) (n : Nat) : (fallBack f n s).ref = s.ref := by
  rfl
@[simp] theorem fallBack_table (f : Frame) (n : Nat) : (fallBack f n s).table = s.table := by
  rfl
@[simp] theorem fallBack_port (f : Frame) (n : Nat) : (fallBack f n s).port = s.port := by
  rfl
@[simp] theorem fallBack_ctl (f : Frame) (n : Nat) : (fallBack f n s).ctl = s.ctl := by
  rfl
@[simp] theorem fallBack_counters (f : Frame) (n : Nat) : (fallBack f n s).counters = s.counters := by
  rfl
@[simp] theorem fallBack_dram (f : Frame) (n : Nat) : (fallBack f n s).dram = s.dram := by
  rfl
@[simp] theorem fallBack_outputs (f : Frame) (n : Nat) : (fallBack f n s).outputs = s.outputs := by
  rfl
@[simp] theorem fallBack_powerCycles (f : Frame) (n : Nat) : (fallBack f n s).powerCycles = s.powerCycles := by
  rfl
@[simp] theorem fallBack_draws (f : Frame) (n : Nat) : (fallBack f n s).draws = s.draws := by
  rfl
@[simp] theorem fallBack_pending (f : Frame) (n : Nat) : (fallBack f n s).pending = s.pending := by
  rfl
@[simp] theorem fallBack_overlap (f : Frame) (n : Nat) : (fallBack f n s).overlap = s.overlap := by
  rfl

@[simp] theorem dropWorn_encoder (f : Frame) : (dropWorn f s).encoder = s.encoder := by
  unfold dropWorn; split <;> simp
@[simp] theorem dropWorn_intake (f : Frame) : (dropWorn f s).intake = s.intake := by
  unfold dropWorn; split <;> simp
@[simp] theorem dropWorn_tracker (f : Frame) : (dropWorn f s).tracker = s.tracker := by
  unfold dropWorn; split <;> simp
@[simp] theorem dropWorn_ref (f : Frame) : (dropWorn f s).ref = s.ref := by
  unfold dropWorn; split <;> simp
@[simp] theorem dropWorn_table (f : Frame) : (dropWorn f s).table = s.table := by
  unfold dropWorn; split <;> simp
@[simp] theorem dropWorn_ctl (f : Frame) : (dropWorn f s).ctl = s.ctl := by
  unfold dropWorn; split <;> simp
@[simp] theorem dropWorn_dram (f : Frame) : (dropWorn f s).dram = s.dram := by
  unfold dropWorn; split <;> simp
@[simp] theorem dropWorn_powerCycles (f : Frame) : (dropWorn f s).powerCycles = s.powerCycles := by
  unfold dropWorn; split <;> simp
@[simp] theorem dropWorn_draws (f : Frame) : (dropWorn f s).draws = s.draws := by
  unfold dropWorn; split <;> simp
@[simp] theorem dropWorn_pending (f : Frame) : (dropWorn f s).pending = s.pending := by
  unfold dropWorn; split <;> simp
@[simp] theorem dropWorn_overlap (f : Frame) : (dropWorn f s).overlap = s.overlap := by
  unfold dropWorn; split <;> simp

@[simp] theorem bitErrorAt_encoder (f : Frame) (n : Nat) : (bitErrorAt f n s).encoder = s.encoder := by
  simp [bitErrorAt]
@[simp] theorem bitErrorAt_intake (f : Frame) (n : Nat) : (bitErrorAt f n s).intake = s.intake := by
  simp [bitErrorAt]
@[simp] theorem bitErrorAt_tracker (f : Frame) (n : Nat) : (bitErrorAt f n s).tracker = s.tracker := by
  simp [bitErrorAt]
@[simp] theorem bitErrorAt_ref (f : Frame) (n : Nat) : (bitErrorAt f n s).ref = s.ref := by
  simp [bitErrorAt]
@[simp] theorem bitErrorAt_table (f : Frame) (n : Nat) : (bitErrorAt f n s).table = s.table := by
  simp [bitErrorAt]
@[simp] theorem bitErrorAt_ctl (f : Frame) (n : Nat) : (bitErrorAt f n s).ctl = s.ctl := by
  simp [bitErrorAt]
@[simp] theorem bitErrorAt_dram (f : Frame) (n : Nat) : (bitErrorAt f n s).dram = s.dram := by
  simp [bitErrorAt]
@[simp] theorem bitErrorAt_powerCycles (f : Frame) (n : Nat) : (bitErrorAt f n s).powerCycles = s.powerCycles := by
  simp [bitErrorAt]
@[simp] theorem bitErrorAt_draws (f : Frame) (n : Nat) : (bitErrorAt f n s).draws = s.draws := by
  simp [bitErrorAt]
@[simp] theorem bitErrorAt_pending (f : Frame) (n : Nat) : (bitErrorAt f n s).pending = s.pending := by
  simp [bitErrorAt]
@[simp] theorem bitErrorAt_overlap (f : Frame) (n : Nat) : (bitErrorAt f n s).overlap = s.overlap := by
  simp [bitErrorAt]

end Sys2Proof.Machine
end

