-- ==== Sys2Proof/Laws/Memory.lean ====
section
/-! SUPPORT. The DRAM: its canonical form is kept by every write, a read after a write gives the value
written, and a write leaves every other address alone. -/

namespace Sys2Proof.Machine

/-! ## Cells -/

theorem cellsFrom_fst_ge (a : Nat) (bs : List Byte) : ∀ c ∈ cellsFrom a bs, a ≤ c.1 := by
  induction bs generalizing a with
  | nil => simp [cellsFrom]
  | cons b bs ih =>
    intro c hc
    rcases List.mem_cons.mp hc with rfl | hc
    · exact Nat.le_refl _
    · exact Nat.le_of_succ_le (ih _ c hc)

theorem cellsFrom_fst_lt (a : Nat) (bs : List Byte) :
    ∀ c ∈ cellsFrom a bs, c.1 < a + bs.length := by
  induction bs generalizing a with
  | nil => simp [cellsFrom]
  | cons b bs ih =>
    intro c hc
    rcases List.mem_cons.mp hc with rfl | hc
    · simp
    · have := ih _ c hc
      simp only [List.length_cons]
      omega

theorem cellsFrom_pairwise (a : Nat) (bs : List Byte) :
    (cellsFrom a bs).Pairwise fun x y => x.1 < y.1 := by
  induction bs generalizing a with
  | nil => exact List.Pairwise.nil
  | cons b bs ih => exact List.pairwise_cons.mpr ⟨cellsFrom_fst_ge _ _, ih _⟩

/-! ## Writes keep the canonical form -/

/-- A write inside the 256 MiB keeps the canonical form. -/
theorem memWrite_wf {m : List Host.Cell} {a : Nat} {bs : List Byte} (h : MemWf m)
    (hin : a + bs.length ≤ dramBytes) : MemWf (memWrite a bs m) := by
  obtain ⟨hp, hb⟩ := h
  refine ⟨?_, ?_⟩
  · simp only [memWrite, List.pairwise_append]
    refine ⟨⟨hp.filter _, cellsFrom_pairwise _ _, ?_⟩, hp.filter _, ?_⟩
    · intro x hx y hy
      have hx := of_decide_eq_true (List.mem_filter.mp hx).2
      have := cellsFrom_fst_ge _ _ y hy
      omega
    · intro x hx y hy
      have hy := of_decide_eq_true (List.mem_filter.mp hy).2
      rcases List.mem_append.mp hx with hx | hx
      · have hx := of_decide_eq_true (List.mem_filter.mp hx).2
        omega
      · have := cellsFrom_fst_lt _ _ x hx
        omega
  · intro c hc
    rcases List.mem_append.mp hc with hc | hc
    · rcases List.mem_append.mp hc with hc | hc
      · exact hb c (List.mem_filter.mp hc).1
      · have := cellsFrom_fst_lt _ _ c hc
        omega
    · exact hb c (List.mem_filter.mp hc).1

/-- A DRAM write inside the 256 MiB keeps the canonical form of the station's DRAM. -/
theorem dramWrite_ok {s : State} {a : Nat} {bs : List Byte} (h : DramOk s)
    (hin : a + bs.length ≤ dramBytes) : DramOk (dramWrite a bs s) := memWrite_wf h hin

/-- The DRAM right after reset is in its canonical form. -/
theorem reset_dramOk : DramOk State.reset := by
  simp [DramOk, MemWf, State.reset, State.powered]

/-! ## Reads -/

theorem memGet?_append (l r : List Host.Cell) (x : Nat) :
    memGet? (l ++ r) x = (memGet? l x).or (memGet? r x) := by
  simp only [memGet?, List.find?_append]
  cases List.find? (fun c => c.1 == x) l <;> simp

theorem memGet?_filter_of_true {p : Host.Cell → Bool} {m : List Host.Cell} {x : Nat}
    (h : ∀ b, p (x, b) = true) : memGet? (m.filter p) x = memGet? m x := by
  simp only [memGet?, List.find?_filter]
  congr 2
  funext c
  by_cases hc : c.1 = x
  · obtain ⟨a, b⟩ := c
    subst hc
    simp [h b]
  · simp [hc]

theorem memGet?_filter_of_false {p : Host.Cell → Bool} {m : List Host.Cell} {x : Nat}
    (h : ∀ b, p (x, b) = false) : memGet? (m.filter p) x = none := by
  simp only [memGet?, List.find?_filter, Option.map_eq_none_iff, List.find?_eq_none]
  rintro ⟨a, b⟩ _ hp
  by_cases ha : a = x
  · subst ha
    simp [h b] at hp
  · simp [ha] at hp

theorem memGet?_cellsFrom (a : Nat) (bs : List Byte) (x : Nat) :
    memGet? (cellsFrom a bs) x = if a ≤ x then bs[x - a]? else none := by
  induction bs generalizing a with
  | nil => simp [cellsFrom, memGet?]
  | cons b bs ih =>
    rw [show cellsFrom a (b :: bs) = [(a, b)] ++ cellsFrom (a + 1) bs from rfl, memGet?_append, ih]
    by_cases h : a = x
    · subst h
      simp [memGet?]
    · have h1 : memGet? [(a, b)] x = none := by simp [memGet?, beq_eq_false_iff_ne.mpr h]
      rw [h1, Option.none_or]
      by_cases h2 : a ≤ x
      · obtain ⟨k, rfl⟩ : ∃ k, x = a + 1 + k := ⟨x - (a + 1), by omega⟩
        have h4 : a + 1 + k - a = k + 1 := by omega
        simp [h4, h2]
      · have h3 : ¬ a + 1 ≤ x := by omega
        simp [h2, h3]

/-- What an address holds after a write: the byte written there, or what it held before. -/
theorem memGet?_memWrite (m : List Host.Cell) (a : Nat) (bs : List Byte) (x : Nat) :
    memGet? (memWrite a bs m) x =
      if a ≤ x ∧ x < a + bs.length then bs[x - a]? else memGet? m x := by
  rw [memWrite, memGet?_append, memGet?_append, memGet?_cellsFrom]
  by_cases h1 : x < a
  · have h2 : ¬ a ≤ x := by omega
    rw [memGet?_filter_of_true (by simp [h1]), memGet?_filter_of_false (by simp; omega)]
    simp [h2]
  · rw [memGet?_filter_of_false (by simp; omega)]
    by_cases h3 : x < a + bs.length
    · rw [memGet?_filter_of_false (by simp; omega)]
      have : a ≤ x := by omega
      simp [this, h3]
    · rw [memGet?_filter_of_true (by simp; omega)]
      have h4 : bs[x - a]? = none := List.getElem?_eq_none (by omega)
      simp [h3, h4]

/-- A DRAM write leaves every byte outside the run it writes as it was. -/
theorem dramByte_dramWrite_of_ne (s : State) (a : Nat) (bs : List Byte) (x : Nat)
    (h : x < a ∨ a + bs.length ≤ x) : dramByte (dramWrite a bs s) x = dramByte s x := by
  have : ¬ (a ≤ x ∧ x < a + bs.length) := by omega
  simp [dramByte, dramWrite, memGet?_memWrite, this]

/-- A DRAM byte inside the run a write writes reads as the byte written. -/
theorem dramByte_dramWrite_of_mem (s : State) (a : Nat) (bs : List Byte) (i : Nat)
    (h : i < bs.length) : dramByte (dramWrite a bs s) (a + i) = bs[i] := by
  have : a ≤ a + i ∧ a + i < a + bs.length := by omega
  simp [dramByte, dramWrite, memGet?_memWrite, this, h]

/-- A row read gives the bytes it covers. -/
theorem dramRow_eq (s : State) (a n : Nat) :
    dramRow s a n = (List.range n).map fun i => dramByte s (a + i) := by
  simp only [dramRow, dramByte]
  refine List.map_congr_left fun i hi => ?_
  rw [memGet?_filter_of_true]
  have := List.mem_range.mp hi
  simp [this]

@[simp] theorem length_dramRow (s : State) (a n : Nat) : (dramRow s a n).length = n := by
  simp [dramRow]

end Sys2Proof.Machine
end

