-- ==== Sys2Proof/Laws/Ops.lean ====
section
/-! SUPPORT. What each shared operation can do, said once: counters, the output queue, the open grant, the
transmit queue, the blanking window list and the mark queue. -/

namespace Sys2Proof.Machine

variable (s : State)

/-! ## Counters -/

@[simp] theorem Counters.get_set_self (c : Counters) (k : Counter) (w : Word) :
    (c.set k w).get k = w := by cases k <;> rfl

theorem Counters.get_set_of_ne (c : Counters) {k k' : Counter} (w : Word) (h : k' ≠ k) :
    (c.set k w).get k' = c.get k' := by
  cases k <;> cases k' <;> first | rfl | exact absurd rfl h

/-- The counter added to saturates; every other counter keeps its value. -/
theorem addTo_get (k k' : Counter) (n : Nat) :
    (addTo k n s).counters.get k' = if k' = k then satAdd (s.counters.get k) n else s.counters.get k' := by
  by_cases h : k' = k
  · subst h
    simp [addTo]
  · simp [addTo, h, Counters.get_set_of_ne _ _ h]

theorem satAdd_toNat (w : Word) (n : Nat) : (satAdd w n).toNat = min (w.toNat + n) 4294967295 := by
  simp only [satAdd, BitVec.toNat_ofNat]
  omega

/-! ## The output queue -/

theorem queueSize_append (q r : List Rec) : queueSize (q ++ r) = queueSize q + queueSize r := by
  induction q with
  | nil => simp [queueSize]
  | cons x q ih => simp [queueSize, ih, Nat.add_assoc]

@[simp] theorem retireGrant_queue (flag : RetireFlag) :
    (retireGrant flag s).port.queue = s.port.queue := by
  simp only [retireGrant]; (repeat' split) <;> simp

@[simp] theorem retireGrant_grant (flag : RetireFlag) : (retireGrant flag s).port.grant = none := by
  simp only [retireGrant]; (repeat' split) <;> simp_all

@[simp] theorem retireGrant_fifo (flag : RetireFlag) :
    (retireGrant flag s).port.fifo = s.port.fifo := by
  simp only [retireGrant]; (repeat' split) <;> simp

@[simp] theorem retireGrant_link (flag : RetireFlag) :
    (retireGrant flag s).port.link = s.port.link := by
  simp only [retireGrant]; (repeat' split) <;> simp

@[simp] theorem spaceTest_queue : (spaceTest s).port.queue = s.port.queue := by
  unfold spaceTest; split <;> simp

@[simp] theorem spaceTest_fifo : (spaceTest s).port.fifo = s.port.fifo := by
  unfold spaceTest; split <;> simp

@[simp] theorem spaceTest_link : (spaceTest s).port.link = s.port.link := by
  unfold spaceTest; split <;> simp

/-- R160: after its test, no open grant is due to be retired by space. -/
theorem spaceDue_spaceTest : spaceDue (spaceTest s) = false := by
  unfold spaceTest
  split
  · simp [spaceDue]
  · rename_i h
    simpa using h

/-- R151: a record that fits joins the tail. -/
@[simp] theorem joinQueue_queue (r : Rec) : (joinQueue r s).port.queue = s.port.queue ++ [r] := by
  simp [joinQueue]

/-- R151, R155: an EVENT record joins the tail when it fits; otherwise the queue is unchanged. -/
theorem offerEvent_queue (e : EventRec) :
    (offerEvent e s).port.queue =
      if fits (.event e) s then s.port.queue ++ [.event e] else s.port.queue := by
  unfold offerEvent; split <;> simp

/-- R151, R153: a TILE record joins the tail when it fits; otherwise the queue is unchanged. -/
theorem offerTile_queue (t : TileRec) :
    (offerTile t s).port.queue =
      if fits (.tile t) s then s.port.queue ++ [.tile t] else s.port.queue := by
  simp only [offerTile, dropTile]; (repeat' split) <;> simp

/-- R151, R154: a BAND record joins the tail with the counts written in when it fits; otherwise the queue is
unchanged. -/
theorem offerBand_queue (b : BandRec) :
    (offerBand b s).port.queue =
      if fits (.band b) s then s.port.queue ++ [.band (withDrops b s.port)] else s.port.queue := by
  unfold offerBand; split <;> simp

/-- R159: the head record leaves the queue. -/
@[simp] theorem writeHead_queue (g : OpenGrant) (r : Rec) :
    (writeHead g r s).port.queue = s.port.queue.tail := by
  simp [writeHead]

/-! ## The transmit queue -/

theorem length_insertTx (t : TxFrame) (q : List TxFrame) : (insertTx t q).length = q.length + 1 := by
  induction q with
  | nil => rfl
  | cons u us ih => simp only [insertTx]; split <;> simp [ih]

/-- R114: inserting adds the frame and moves no other. -/
theorem insertTx_perm (t : TxFrame) (q : List TxFrame) : (insertTx t q).Perm (t :: q) := by
  induction q with
  | nil => exact List.Perm.refl _
  | cons u us ih =>
    simp only [insertTx]
    split
    · exact (ih.cons u).trans (List.Perm.swap t u us)
    · exact List.Perm.refl _

theorem oldestTx_mem {q : List TxFrame} {t : TxFrame} (h : oldestTx q = some t) : t ∈ q := by
  induction q generalizing t with
  | nil => simp [oldestTx] at h
  | cons u us ih =>
    simp only [oldestTx] at h
    split at h
    · cases h
      exact List.mem_cons_self
    · rename_i v hv
      split at h <;> cases h
      · exact List.mem_cons_self
      · exact List.mem_cons_of_mem _ (ih hv)

/-- R114, R115: what an offer to the transmit queue can do: nothing; a frame queued in its place; a frame
queued after the oldest frame it may displace has gone; or the frame discarded. -/
theorem offerFrame_cases (f : Frame) :
    offerFrame f s = s ∨
    (s.bus.queue.length < 8 ∧ ∃ t : TxFrame, t.frame = f ∧ t.age = s.bus.nextAge ∧ t.errors = 0 ∧
      offerFrame f s = s.updBus fun b =>
        { b with nextAge := b.nextAge + 1, queue := insertTx t s.bus.queue }) ∨
    (8 ≤ s.bus.queue.length ∧ ∃ t old : TxFrame, t.frame = f ∧ t.age = s.bus.nextAge ∧ t.errors = 0 ∧
      old ∈ s.bus.queue ∧ mayYield f.arb old = true ∧
      offerFrame f s = bump .busQueueDiscards (s.updBus fun b =>
        { b with nextAge := b.nextAge + 1, queue := insertTx t (s.bus.queue.erase old) })) ∨
    offerFrame f s = bump .busQueueDiscards s := by
  simp only [offerFrame]
  split
  · exact .inl rfl
  · split
    · exact .inr (.inl ⟨‹_›, _, rfl, rfl, rfl, rfl⟩)
    · split
      · rename_i old h
        have hm := List.mem_filter.mp (oldestTx_mem h)
        exact .inr (.inr (.inl ⟨by omega, _, old, rfl, rfl, rfl, hm.1, hm.2, rfl⟩))
      · exact .inr (.inr (.inr rfl))

@[simp] theorem offerFrame_op (f : Frame) : (offerFrame f s).bus.op = s.bus.op := by
  rcases offerFrame_cases s f with h | ⟨_, _, _, _, _, h⟩ | ⟨_, _, _, _, _, _, _, _, h⟩ | h <;> simp [h]

@[simp] theorem shareLocal_op (code : EventCode) (line : Nat) :
    (shareLocal code line s).bus.op = s.bus.op := by
  simp only [shareLocal]; (repeat' split) <;> simp

@[simp] theorem raise_op (code : EventCode) (line : Nat) (data : Word) :
    (raise code line data s).bus.op = s.bus.op := by
  simp [raise]

@[simp] theorem raiseNow_op (code : EventCode) (data : Word) :
    (raiseNow code data s).bus.op = s.bus.op := by
  simp [raiseNow]

/-! ## The blanking window list -/

theorem insertWindow_perm (w : Window) (ws : List Window) : (insertWindow w ws).Perm (w :: ws) := by
  induction ws with
  | nil => exact List.Perm.refl _
  | cons v vs ih =>
    simp only [insertWindow]
    split
    · exact (ih.cons v).trans (List.Perm.swap w v vs)
    · exact List.Perm.refl _

/-! ## The mark queue -/

theorem insertMark_perm (m : MarkEntry) (ms : List MarkEntry) : (insertMark m ms).Perm (m :: ms) := by
  induction ms with
  | nil => exact List.Perm.refl _
  | cons n ns ih =>
    simp only [insertMark]
    split
    · exact (ih.cons n).trans (List.Perm.swap m n ns)
    · exact List.Perm.refl _

/-- R37: what an offer to the mark queue can do: count a discard, or insert the mark among at most 3
others. -/
theorem offerMark_cases (start : Nat) (source : MarkSource) :
    offerMark start source s = bump .marksDiscarded s ∨
    (s.tracker.marks.length < 4 ∧ offerMark start source s = s.updTracker fun t =>
      { t with marks := insertMark { start := start, source := source } t.marks }) := by
  unfold offerMark
  split
  · exact .inl rfl
  · rename_i h
    refine .inr ⟨?_, rfl⟩
    simp only [discardMark, Bool.or_eq_true, decide_eq_true_eq, not_or] at h
    omega

/-! ## The early-summary lists -/

theorem insertEarly_perm (x : EarlySummary) (l : List EarlySummary) :
    (insertEarly x l).Perm (x :: l) := by
  induction l with
  | nil => exact List.Perm.refl _
  | cons y ys ih =>
    simp only [insertEarly]
    split
    · exact (ih.cons y).trans (List.Perm.swap x y ys)
    · exact List.Perm.refl _

/-! ## The DRAM regions (R55) -/

theorem length_le16 (n : Nat) : (le16 n).length = 2 := rfl

theorem length_flatMap_le16 (l : List Nat) : (l.flatMap le16).length = 2 * l.length := by
  induction l with
  | nil => rfl
  | cons x xs ih =>
    simp only [List.flatMap_cons, List.length_append, length_le16, List.length_cons, ih]
    omega

theorem length_wordsOf : ∀ l : List Byte, (wordsOf l).length = l.length / 2
  | [] => rfl
  | [_] => by simp [wordsOf]
  | _ :: _ :: l => by
    simp only [wordsOf, List.length_cons, length_wordsOf l]
    omega

/-- R55: a reference line below L ends inside the reference region. -/
theorem row_end_le (c : StationConfig) {r : Nat} (h : r < c.l) : r * c.w + c.w ≤ 67108864 := by
  have h1 : (r + 1) * c.w ≤ c.l * c.w := Nat.mul_le_mul_right _ h
  have h2 := c.fits.1
  rw [Nat.add_mul, Nat.one_mul] at h1
  omega

/-- Writing at most W pixels of a reference line below L keeps the DRAM in its canonical form. -/
theorem writeImage_ok {r : Nat} {px : List Byte} (h : DramOk s) (hr : r < s.ctl.cfg.l)
    (hp : px.length ≤ s.ctl.cfg.w) : DramOk (writeImage r px s) := by
  have := row_end_le s.ctl.cfg hr
  refine dramWrite_ok h ?_
  unfold imageAddr dramBytes
  omega

/-- Writing at most W sums of a reference line below L keeps the DRAM in its canonical form. -/
theorem writeSums_ok {r : Nat} {sums : List Nat} (h : DramOk s) (hr : r < s.ctl.cfg.l)
    (hp : sums.length ≤ s.ctl.cfg.w) : DramOk (writeSums r sums s) := by
  have := row_end_le s.ctl.cfg hr
  refine dramWrite_ok h ?_
  rw [length_flatMap_le16]
  unfold sumAddr accumulatorBase dramBytes
  omega

end Sys2Proof.Machine
end

