-- ==== Sys2Proof/Laws/Commands.lean ====
section
/-! SUPPORT. What the command slot, the end of a frame and the raising of an event do, said once in the words
the statements use. -/

namespace Sys2Proof.Machine

variable (s : State)

/-! ## Events -/

theorem queueSize_le_of_fits {r : Rec} : (fits r s = true) ↔ r.size + fill s ≤ capacity := by
  have : 16 ≤ r.size := by cases r <;> simp only [Rec.size] <;> omega
  simp only [fits, decide_eq_true_eq]
  omega

/-- R178, R179: the output queue after a local event has been raised. -/
theorem raise_queue (code : EventCode) (line : Nat) (data : Word) :
    (raise code line data s).port.queue = queueAfterEvent code line data s := by
  have h : ∀ t : State, (shareLocal code line t).port.queue = t.port.queue := by
    intro t
    simp only [shareLocal]; (repeat' split) <;> simp
  simp only [raise, h, reportLocal, queueAfterEvent]
  by_cases hc : s.ctl.cfg.report.getLsbD code.code = true
  · simp only [hc, if_true, offerEvent_queue, queueSize_le_of_fits, true_and]
  · simp only [hc, if_false, false_and, Bool.false_eq_true]

/-- R178: as `raise_queue`, for an event to which its rule gives no line number. -/
theorem raiseNow_queue (code : EventCode) (data : Word) :
    (raiseNow code data s).port.queue = queueAfterEvent code s.intake.nextLine data s :=
  raise_queue s code s.intake.nextLine data

/-- R179: an event that is neither SPLICE nor MARK puts nothing on the Span Bus. -/
theorem raise_bus (code : EventCode) (line : Nat) (data : Word) (h : sharedAs code = none) :
    (raise code line data s).bus = s.bus := by
  have h1 : ∀ t : State, shareLocal code line t = t := by
    intro t
    simp only [shareLocal, h]
  simp only [raise, h1, reportLocal]
  split <;> simp

/-! ## The command slot -/

/-- R171: no command is in flight exactly when the phase is not BUSY. -/
theorem busy_eq_false_iff : busy s = false ↔ Unoccupied s := by
  simp only [busy, Unoccupied]
  constructor
  · intro h w hw
    simp [hw] at h
  · intro h
    split
    · exact absurd ‹_› (h _)
    · rfl

theorem busy_eq_true_iff : busy s = true ↔ ¬ Unoccupied s := by
  rw [← busy_eq_false_iff]
  simp

/-- R172: what the write of a command code does, by the phase and the two tests. -/
theorem submit_cases (code : Nat) (stateOk argOk : Bool) (act : State → State) :
    (¬ Unoccupied s → submit code stateOk argOk act s = { s with
      ctl := { s.ctl with code := BitVec.ofNat 32 code, commandLost := true }
      counters := { s.counters with commandsLost := satInc s.counters.commandsLost } }) ∧
    (Unoccupied s → stateOk = false → submit code stateOk argOk act s =
      failed (BitVec.ofNat 32 code) .wrongState (BitVec.ofNat 8 s.bus.op.code) s) ∧
    (Unoccupied s → stateOk = true → argOk = false → submit code stateOk argOk act s =
      failed (BitVec.ofNat 32 code) .badArgument 0 s) ∧
    (Unoccupied s → stateOk = true → argOk = true → submit code stateOk argOk act s =
      act { s with ctl := { s.ctl with code := BitVec.ofNat 32 code, commandLost := false } }) := by
  refine ⟨?_, ?_, ?_, ?_⟩
  · intro h
    rw [← busy_eq_true_iff] at h
    simp only [submit, h, if_true]
    rfl
  all_goals
    intro h
    rw [← busy_eq_false_iff] at h
    intros
    simp_all only [submit, Bool.false_eq_true, if_false, Bool.not_false, Bool.not_true, if_true]
  · cases hl : s.port.link <;>
      simp [endFailed, attention, setStatus, State.updCtl, bump, addTo, State.updCounters, hl, emit,
        State.updOutputs, failed, messageOf, Counters.set, Counters.get, satInc, byte]
  · cases hl : s.port.link <;>
      simp [endFailed, attention, setStatus, State.updCtl, bump, addTo, State.updCounters, hl, emit,
        State.updOutputs, failed, messageOf, Counters.set, Counters.get, satInc, byte]
  · rfl

/-- R172, R181: a command that ends DONE. -/
theorem endDone_eq : endDone s = { s with
    ctl := s.ctl.ended .done .ok 0, outputs := s.outputs ++ messageOf s.port.link } := by
  cases hl : s.port.link <;>
    simp [endDone, attention, setStatus, State.updCtl, hl, emit, State.updOutputs, messageOf,
      Control.ended, byte]

/-! ## The end of a frame -/

/-- R117: a peer's frame is acted on by kind and operating state, once its end has been taken. -/
theorem exec_of_fromPeer {h : HeardFrame} (hp : FromPeer h s) :
    exec h.command s = .next (actOnPeer h (endOfFrame s)) := by
  obtain ⟨h1, h2, h3, h4⟩ := hp
  have h5 : isEcho h s = false := by simpa [isEcho] using h4
  have : receiveFrame h s = actOnPeer h (endOfFrame s) := by
    simp [receiveFrame, h1, h2, actOnFrame, h5, h3]
  rw [← this]
  cases h <;> rfl

/-- R113, R117: the station's own echo. -/
theorem exec_of_ownEcho {h : HeardFrame} (hp : OwnEcho h s) :
    exec h.command s = .next (actOnEcho h (endOfFrame (removeSent s))) := by
  obtain ⟨h1, h2, h4⟩ := hp
  have h5 : isEcho h s = true := by simpa [isEcho] using h4
  have : receiveFrame h s = actOnEcho h (endOfFrame (removeSent s)) := by
    simp [receiveFrame, h1, h2, actOnFrame, h5]
  rw [← this]
  cases h <;> rfl

/-- R113: a frame of the station's own number that is not its echo. -/
theorem exec_of_ownNumber {h : HeardFrame} (hp : OwnNumber h s) :
    exec h.command s = .next (actOnDuplicate h (endOfFrame s)) := by
  obtain ⟨h1, h2, h3, h4⟩ := hp
  have h5 : isEcho h s = false := by simpa [isEcho] using h4
  have : receiveFrame h s = actOnDuplicate h (endOfFrame s) := by
    simp [receiveFrame, h1, h2, actOnFrame, h5, h3]
  rw [← this]
  cases h <;> rfl

/-! ## The transmit queue -/

/-- There is an oldest of some frames but of none. -/
theorem oldestTx_eq_none_iff {q : List TxFrame} : oldestTx q = none ↔ q = [] := by
  cases q with
  | nil => simp [oldestTx]
  | cons u us =>
    simp only [oldestTx]
    repeat' split
    all_goals simp

/-- R115: the oldest of some frames has the least age. -/
theorem oldestTx_least {q : List TxFrame} {t : TxFrame} (h : oldestTx q = some t) :
    ∀ u ∈ q, t.age ≤ u.age := by
  induction q generalizing t with
  | nil => simp
  | cons u us ih =>
    simp only [oldestTx] at h
    split at h
    · rename_i hn
      cases h
      rw [oldestTx_eq_none_iff] at hn
      subst hn
      simp
    · rename_i v hv
      have := ih hv
      split at h <;> cases h <;> intro x hx <;> rcases List.mem_cons.mp hx with rfl | hx
      · exact Nat.le_refl _
      · have := this x hx
        omega
      · omega
      · exact this x hx

/-- R115: which waiting frames may give way. -/
theorem mayYield_iff (f : Frame) (u : TxFrame) : mayYield f.arb u = true ↔ GivesWay f u := by
  simp [mayYield, GivesWay]

/-- R115: when a HALT or SPAN stands for another. -/
theorem alreadyQueued_iff (f : Frame) (b : SpanBus) :
    alreadyQueued f.kind b = true ↔ AlreadyOffered f b := by
  simp [alreadyQueued, AlreadyOffered, Option.any_eq_true]

/-- R114: a frame younger than those that wait keeps the queue in order. -/
theorem insertTx_pairwise {t : TxFrame} {q : List TxFrame} (h : q.Pairwise TxFrame.before)
    (ha : ∀ u ∈ q, u.age < t.age) : (insertTx t q).Pairwise TxFrame.before := by
  induction q with
  | nil => simp [insertTx]
  | cons u us ih =>
    rw [List.pairwise_cons] at h
    simp only [insertTx]
    split
    · rename_i hle
      refine List.Pairwise.cons ?_ (ih h.2 fun x hx => ha x (List.mem_cons_of_mem _ hx))
      intro x hx
      rcases List.mem_cons.mp ((insertTx_perm t us).mem_iff.mp hx) with rfl | hx
      · rcases Nat.lt_or_eq_of_le hle with h1 | h1
        · exact .inl h1
        · exact .inr ⟨h1, ha u (List.mem_cons_self)⟩
      · exact h.1 x hx
    · rename_i hle
      refine List.Pairwise.cons ?_ (List.pairwise_cons.mpr h)
      intro x hx
      rcases List.mem_cons.mp hx with rfl | hx
      · exact .inl (by omega)
      · rcases h.1 x hx with h1 | h1
        · exact .inl (by omega)
        · exact .inl (by omega)

/-- R114, R115: everything that offering a frame to the transmit queue does. -/
theorem offerFrame_offered (f : Frame) :
    Offered f s.bus (offerFrame f s).bus s.counters.busQueueDiscards
      (offerFrame f s).counters.busQueueDiscards := by
  simp only [offerFrame]
  by_cases h1 : alreadyQueued f.kind s.bus = true
  · have h1' := (alreadyQueued_iff f s.bus).mp h1
    simp only [h1, if_true]
    exact ⟨rfl, fun _ => ⟨rfl, rfl⟩, fun h => absurd h1' h, fun h => absurd h1' h, fun h _ => h⟩
  · have h1' : ¬ AlreadyOffered f s.bus := fun h => h1 ((alreadyQueued_iff f s.bus).mpr h)
    simp only [h1, if_false, Bool.false_eq_true]
    split
    · rename_i h2
      refine ⟨rfl, fun h => absurd h h1', fun _ _ => ⟨⟨_, ⟨rfl, rfl, rfl, rfl⟩, insertTx_perm _ _⟩, rfl⟩,
        fun _ h => by omega, fun h ha => insertTx_pairwise h ha⟩
    · rename_i h2
      split
      · rename_i old ho
        have hm := List.mem_filter.mp (oldestTx_mem ho)
        refine ⟨rfl, fun h => absurd h h1', fun _ h => absurd h h2, fun _ _ => ⟨?_, ?_, ?_⟩, ?_⟩
        · simp [bump, addTo, State.updCounters, Counters.set, Counters.get, satInc, setTxQueue, State.updBus]
        · intro h
          exact absurd ((mayYield_iff f old).mp hm.2) (h old hm.1)
        · intro _
          refine ⟨old, hm.1, (mayYield_iff f old).mp hm.2, ?_, _, ⟨rfl, rfl, rfl, rfl⟩, insertTx_perm _ _⟩
          intro u hu hg
          exact oldestTx_least ho u (List.mem_filter.mpr ⟨hu, (mayYield_iff f u).mpr hg⟩)
        · intro h ha
          exact insertTx_pairwise (h.sublist List.erase_sublist) fun u hu => ha u (List.mem_of_mem_erase hu)
      · rename_i ho
        rw [oldestTx_eq_none_iff] at ho
        have hno : ∀ u ∈ s.bus.queue, ¬ GivesWay f u := by
          intro u hu hg
          have := List.mem_filter.mpr ⟨hu, (mayYield_iff f u).mpr hg⟩
          rw [ho] at this
          cases this
        refine ⟨rfl, fun h => absurd h h1', fun _ h => absurd h h2, fun _ _ => ⟨?_, fun _ => rfl, ?_⟩, fun h _ => h⟩
        · simp [bump, addTo, State.updCounters, Counters.set, Counters.get, satInc]
        · rintro ⟨u, hu, hg⟩
          exact absurd hg (hno u hu)

/-! ## The bits of a frame -/

theorem length_bitsOf (l : List Byte) : (bitsOf l).length = 8 * l.length := by
  induction l with
  | nil => rfl
  | cons a l ih =>
    simp only [bitsOf, List.flatMap_cons, List.length_append, List.length_cons] at *
    rw [ih]
    simp only [bitsOfByte, List.length_cons, List.length_nil]
    omega

/-- R107: 8 bits of arbitration, 8 of length, the body and 16 of CRC. -/
theorem length_bits (f : Frame) : f.bits.length = 32 + 8 * f.body.length := by
  simp only [Frame.bits, List.length_append, length_bitsOf, Frame.fields, be16, List.length_cons,
    List.length_nil]
  omega

/-- R107: the first 8 bits are those of the arbitration value, most significant first. -/
theorem bits_arbitration (f : Frame) {n : Nat} (h : n < 8) :
    f.bits.getD n false = (BitVec.ofNat 8 f.arb).getLsbD (7 - n) := by
  simp only [Frame.bits, Frame.fields, bitsOf, List.flatMap_cons, bitsOfByte, byte]
  have : n = 0 ∨ n = 1 ∨ n = 2 ∨ n = 3 ∨ n = 4 ∨ n = 5 ∨ n = 6 ∨ n = 7 := by omega
  rcases this with h | h | h | h | h | h | h | h <;> subst h <;> rfl

end Sys2Proof.Machine
end

