-- ==== Sys2Proof/Laws/Offers.lean ====
section
/-! SUPPORT. What offers to the output queue do, in the words of the statements: records that join it, the
retirement by space that may follow, the actions of a close, its BAND record, and a sequence of offers made whole or
in part. -/

namespace Sys2Proof.Machine

variable (s : State)

/-! ## Joining the queue -/

/-- R160: whether a grant is due by space. -/
theorem spaceDue_iff (g : OpenGrant) (h : s.port.grant = some g) :
    spaceDue s = true ↔ DueBySpace g s.port.queue := by
  have hlt : ∀ n, 16 ≤ n → (g.space < n ↔ g.grant.length.toNat < g.used + n) := by
    intro n hn; unfold OpenGrant.space; omega
  unfold spaceDue DueBySpace
  rw [h]
  cases hq : s.port.queue with
  | nil => simp [hlt 16]
  | cons r rs =>
    have : 16 ≤ r.size := by cases r <;> simp [Rec.size]; omega
    simp [hlt 16, hlt _ this]

/-- R163, R164, R181: what retiring the open grant does. -/
theorem retireGrant_eq {g : OpenGrant} (flag : RetireFlag) (h : s.port.grant = some g) :
    retireGrant flag s = { s with
      port := { s.port with grant := none, nextSeq := s.port.nextSeq + 1 }
      outputs := s.outputs ++ retirementPuts g flag s } := by
  by_cases hc : completionInterrupts s = true
  · cases hl : s.port.link <;>
      simp_all [retireGrant, retirementPuts, ringSlot, emit, completionInterrupts, attention, messageOf,
        State.updOutputs, State.updPort]
  · simp_all [retireGrant, retirementPuts, ringSlot, emit, completionInterrupts, State.updOutputs, State.updPort]

/-- R160: what the test for space does when the queue has become `q`. -/
theorem spaceTest_tested (q : List Rec) (hq : q ≠ s.port.queue) :
    SpaceTested s (spaceTest (s.updPort fun p => { p with queue := q })) := by
  simp only [spaceTest]
  cases hg : s.port.grant with
  | none =>
    have : spaceDue (s.updPort fun p => { p with queue := q }) = false := by simp [spaceDue, hg]
    rw [this]
    exact ⟨fun g h => (by rw [hg] at h; cases h), fun _ => ⟨rfl, rfl, rfl⟩⟩
  | some g =>
    have hdue := spaceDue_iff (s.updPort fun p => { p with queue := q }) g hg
    by_cases hd : spaceDue (s.updPort fun p => { p with queue := q }) = true
    · rw [if_pos hd]
      have hd' : DueBySpace g q := hdue.mp hd
      have he := retireGrant_eq (s.updPort fun p => { p with queue := q }) (g := g) .bySpace hg
      refine ⟨fun g' h _ _ => ?_, fun h => ?_⟩
      · rw [hg] at h; cases h
        rw [he]
        exact ⟨rfl, rfl, rfl⟩
      · rcases h g hg with h | h
        · rw [he] at h; exact absurd h hq
        · rw [he] at h; exact absurd hd' h
    · rw [if_neg hd]
      refine ⟨fun g' h _ hd2 => ?_, fun _ => ⟨rfl, rfl, rfl⟩⟩
      rw [hg] at h; cases h
      exact absurd (hdue.mpr hd2) hd

/-- R151, R160: a record that joins the queue. -/
theorem joinQueue_tested (r : Rec) : SpaceTested s (joinQueue r s) :=
  spaceTest_tested s _ (by simp)

/-- R160: the test for space changes the grant, next sequence and the outputs alone. -/
theorem spaceTest_frame : spaceTest s = { s with
    port := { s.port with grant := (spaceTest s).port.grant, nextSeq := (spaceTest s).port.nextSeq }
    outputs := (spaceTest s).outputs } := by
  unfold spaceTest
  split
  · cases hg : s.port.grant with
    | none =>
      have h0 : retireGrant .bySpace s = s := by simp [retireGrant, hg]
      rw [h0]
    | some g => rw [retireGrant_eq s .bySpace hg]
  · rfl

/-- R151: a record that joins the queue changes the queue, the grant, next sequence and the outputs. -/
theorem joinQueue_eq (r : Rec) : joinQueue r s = { s with
    port := { s.port with
      queue := s.port.queue ++ [r]
      grant := (joinQueue r s).port.grant
      nextSeq := (joinQueue r s).port.nextSeq }
    outputs := (joinQueue r s).outputs } :=
  spaceTest_frame (s.updPort fun p => { p with queue := p.queue ++ [r] })

/-- Nothing offered, nothing tested. -/
theorem SpaceTested.of_eq {s t : State} (hp : t.port.queue = s.port.queue) (hg : t.port.grant = s.port.grant)
    (hn : t.port.nextSeq = s.port.nextSeq) (ho : t.outputs = s.outputs) : SpaceTested s t :=
  ⟨fun _ _ h => absurd hp h, fun _ => ⟨hg, hn, ho⟩⟩

/-- R160: what more joins a queue that has a head leaves the head. -/
theorem DueBySpace.append {g : OpenGrant} {q : List Rec} (more : List Rec) (h : q ≠ []) :
    DueBySpace g (q ++ more) ↔ DueBySpace g q := by
  cases q with
  | nil => exact absurd rfl h
  | cons r rs => simp [DueBySpace]

/-- R160: two stretches of offers one after the other. -/
theorem SpaceTested.trans {s u t : State} (h : SpaceTested s u) (k : SpaceTested u t) {a b : List Rec}
    (ha : u.port.queue = s.port.queue ++ a) (hb : t.port.queue = u.port.queue ++ b) (hc : u.ctl = s.ctl)
    (hl : u.port.link = s.port.link) : SpaceTested s t := by
  obtain ⟨h1, h2⟩ := h
  obtain ⟨k1, k2⟩ := k
  by_cases hu : ∃ g, s.port.grant = some g ∧ u.port.queue ≠ s.port.queue ∧ DueBySpace g u.port.queue
  · obtain ⟨g, hg, hne, hd⟩ := hu
    obtain ⟨e1, e2, e3⟩ := h1 g hg hne hd
    obtain ⟨f1, f2, f3⟩ := k2 fun g' hg' => by rw [e1] at hg'; cases hg'
    have hune : u.port.queue ≠ [] := by
      intro h0; rw [h0] at ha hne
      exact hne (by have := List.append_eq_nil_iff.mp ha.symm; simp [this.1])
    refine ⟨fun g' hg' _ _ => ?_, fun hno => ?_⟩
    · rw [hg] at hg'; cases hg'
      exact ⟨by rw [f1, e1], by rw [f2, e2], by rw [f3, e3]⟩
    · rcases hno g hg with h0 | h0
      · rw [hb, ha] at h0
        have := congrArg List.length h0
        simp at this
        exact absurd (by rw [ha, this.1]; simp) hne
      · rw [hb, DueBySpace.append b hune] at h0; exact absurd hd h0
  · have hno : ∀ g, s.port.grant = some g → u.port.queue = s.port.queue ∨ ¬ DueBySpace g u.port.queue := by
      intro g hg
      by_cases h0 : u.port.queue = s.port.queue
      · exact .inl h0
      · exact .inr fun h3 => hu ⟨g, hg, h0, h3⟩
    obtain ⟨e1, e2, e3⟩ := h2 hno
    have hput : ∀ g, retirementPuts g .bySpace u = retirementPuts g .bySpace s := by
      intro g; simp [retirementPuts, completionInterrupts, hc, e2, hl]
    refine ⟨fun g hg hne hd => ?_, fun hn => ?_⟩
    · have hne' : t.port.queue ≠ u.port.queue := by
        intro h0
        rcases hno g hg with h3 | h3
        · exact hne (h0.trans h3)
        · rw [h0] at hd; exact h3 hd
      obtain ⟨f1, f2, f3⟩ := k1 g (e1.trans hg) hne' hd
      exact ⟨f1, by rw [f2, e2], by rw [f3, e3, hput]⟩
    · obtain ⟨f1, f2, f3⟩ := k2 fun g hg => by
        rcases hn g (e1 ▸ hg) with h0 | h0
        · left
          have hab : a = [] ∧ b = [] := by
            rw [hb, ha] at h0
            have := congrArg List.length h0
            simp at this
            exact this
          rw [hb, hab.2]; simp
        · exact .inr h0
      exact ⟨f1.trans e1, f2.trans e2, f3.trans e3⟩

/-- R151, R155, R160: an EVENT record offered. -/
theorem offerEvent_eq (e : EventRec) : offerEvent e s = { s with
    port := { s.port with
      queue := if 16 + fill s ≤ 2097152 then s.port.queue ++ [.event e] else s.port.queue
      grant := (offerEvent e s).port.grant
      nextSeq := (offerEvent e s).port.nextSeq }
    counters := { s.counters with
      eventRecordsDropped :=
        if 2097152 < 16 + fill s then satInc s.counters.eventRecordsDropped else s.counters.eventRecordsDropped }
    outputs := (offerEvent e s).outputs } ∧ SpaceTested s (offerEvent e s) := by
  by_cases hf : fits (.event e) s = true
  · have h1 : 16 + fill s ≤ 2097152 := by
      have := of_decide_eq_true hf; simp only [Rec.size, capacity] at this; omega
    rw [offerEvent, if_pos hf, if_pos h1, if_neg (by omega)]
    exact ⟨joinQueue_eq s _, joinQueue_tested s _⟩
  · have hf' : fits (.event e) s = false := by simpa using hf
    have h1 : ¬ 16 + fill s ≤ 2097152 := by
      have := of_decide_eq_false hf'; simp only [Rec.size, capacity] at this; omega
    rw [offerEvent, if_neg hf, if_neg h1, if_pos (by omega)]
    exact ⟨rfl, .of_eq rfl rfl rfl rfl⟩

/-- R155, R179: a local event raised, as far as the output queue goes. -/
theorem raise_raised (code : EventCode) (line : Nat) (data : Word) :
    EventRaised code line data s (raise code line data s) := by
  have hs : ∀ t : State, (shareLocal code line t).port = t.port ∧ (shareLocal code line t).outputs = t.outputs ∧
      (shareLocal code line t).counters.eventRecordsDropped = t.counters.eventRecordsDropped := by
    intro t
    refine ⟨by simp, by simp, ?_⟩
    unfold shareLocal
    repeat' split
    all_goals first | rfl | skip
    simp only [offerFrame]
    repeat' split
    all_goals rfl
  obtain ⟨hp, ho, hd⟩ := hs (reportLocal code line data s)
  have key : EventRaised code line data s (reportLocal code line data s) := by
    unfold reportLocal EventRaised droppedAfterEvent queueAfterEvent
    split
    · rename_i h
      obtain ⟨e, he⟩ : ∃ e : EventRec, e =
          ⟨code, s.ctl.station, false, eventLine line, data⟩ := ⟨_, rfl⟩
      obtain ⟨h1, h2⟩ := offerEvent_eq s e
      subst he
      refine ⟨?_, ?_, h2⟩
      · rw [h1]; simp only [h, true_and, Rec.size, capacity]
      · rw [h1]; simp only [h, true_and]
    · rename_i h
      refine ⟨by simp [h], by simp [h], .of_eq rfl rfl rfl rfl⟩
  obtain ⟨k1, k2, k3, k4⟩ := key
  refine ⟨?_, by rw [raise, hd, k2], ?_⟩
  · rw [raise, hp]; exact k1
  · unfold SpaceTested at *
    rw [raise, hp, ho]; exact ⟨k3, k4⟩

/-- R155, R179: what raising an event reads. -/
theorem EventRaised.of_eq {code : EventCode} {line : Nat} {data : Word} {s u t : State} (hp : u.port = s.port)
    (hc : u.ctl = s.ctl) (ho : u.outputs = s.outputs)
    (hd : u.counters.eventRecordsDropped = s.counters.eventRecordsDropped) (h : EventRaised code line data u t) :
    EventRaised code line data s t := by
  simp only [EventRaised, queueAfterEvent, droppedAfterEvent, SpaceTested, retirementPuts, completionInterrupts, fill,
    hp, hc, ho, hd] at *
  exact h

/-! ## The offers of a close -/

theorem satAdd16_inc (h : Half) (k : Nat) : satAdd16 (satInc16 h) k = satAdd16 h (1 + k) := by
  simp only [satAdd16, satInc16, BitVec.toNat_ofNat]; congr 1; omega

theorem satAdd_inc (h : Word) (k : Nat) : satAdd (satInc h) k = satAdd h (k + 1) := by
  simp only [satAdd, satInc, BitVec.toNat_ofNat]; congr 1; omega

theorem satInc16_eq (h : Half) : satInc16 h = satAdd16 h 1 := rfl

theorem satAdd16_zero (h : Half) : satAdd16 h 0 = h := by
  simp only [satAdd16]; apply BitVec.eq_of_toNat_eq; simp; omega

theorem satAdd_zero (h : Word) : satAdd h 0 = h := by
  simp only [satAdd]; apply BitVec.eq_of_toNat_eq; simp; omega

/-- R148: what a close does about its slots, slot by slot. -/
theorem tileActions_eq (v : CloseView) (t : Nat) (slots : List Slot) :
    tileActions v t slots = slots.mapIdx fun i slot => tileAction v (t + i) slot := by
  induction slots generalizing t with
  | nil => rfl
  | cons a as ih =>
    simp only [tileActions, List.mapIdx_cons, Nat.add_zero, ih]
    congr 2
    funext i slot
    congr 1
    omega

/-- R148: one action and those after it. -/
theorem ActionsDone.cons {a : TileAction} {as : List TileAction} {tk dr tk' dr' : List TileRec} {s u t : State}
    (h : ActionsDone [a] tk dr s u) (k : ActionsDone as tk' dr' u t)
    (hturn : TakenInTurn (2097152 - fill s) (offersOf (a :: as)) (tk ++ tk') (dr ++ dr')) :
    ActionsDone (a :: as) (tk ++ tk') (dr ++ dr') s t := by
  obtain ⟨-, h2, h3⟩ := h
  obtain ⟨-, k2, k3⟩ := k
  refine ⟨hturn, ?_, ?_⟩
  · rw [k2, h2]
    have h16 : ∀ (x : Half) (m n : Nat), satAdd16 (satAdd16 x m) n = satAdd16 x (m + n) := by
      intro x m n; simp only [satAdd16, BitVec.toNat_ofNat]; congr 1; omega
    have h32 : ∀ (x : Word) (m n : Nat), satAdd (satAdd x m) n = satAdd x (m + n) := by
      intro x m n; simp only [satAdd, BitVec.toNat_ofNat]; congr 1; omega
    have hd : ∀ why, droppedFor why (dr ++ dr') = droppedFor why dr + droppedFor why dr' := by
      intro why; simp [droppedFor]
    have hs : ∀ why, suppressedFor why (a :: as) = suppressedFor why [a] + suppressedFor why as := by
      intro why; simp only [suppressedFor, List.filter_cons, List.filter_nil]; split <;> simp; omega
    simp [h16, h32, hd, hs]
  · exact h3.trans k3 (a := tk.map .tile) (b := tk'.map .tile) (by rw [h2]) (by rw [k2]) (by rw [h2]) (by rw [h2])

/-- R143, R153: one action. -/
theorem applyAction_done (a : TileAction) (n : Nat) :
    ∃ taken dropped, ActionsDone [a] taken dropped s (applyAction a (s, n)).1 ∧
      (applyAction a (s, n)).2 = n + taken.length ∧
      (∀ rs tk dr, TakenInTurn (2097152 - fill (applyAction a (s, n)).1) rs tk dr →
        TakenInTurn (2097152 - fill s) (offersOf [a] ++ rs) (taken ++ tk) (dropped ++ dr)) := by
  cases a with
  | nothing =>
    refine ⟨[], [], ⟨⟨rfl, rfl⟩, ?_, .of_eq rfl rfl rfl rfl⟩, rfl, fun _ _ _ h => h⟩
    simp [applyAction, droppedFor, suppressedFor, satAdd16_zero, satAdd_zero]
  | suppress why =>
    refine ⟨[], [], ⟨⟨rfl, rfl⟩, ?_, .of_eq (by simp [applyAction]) (by simp [applyAction]) (by simp [applyAction])
      (by simp [applyAction])⟩, rfl, fun _ _ _ h => by simpa [applyAction, fill, offersOf] using h⟩
    cases why <;>
      simp [applyAction, countSuppressed, bump, addTo, State.updCounters, Counters.set, Counters.get, droppedFor,
        suppressedFor, satAdd16_zero, satAdd_zero]
  | offer r =>
    by_cases hf : fits (.tile r) s = true
    · have h1 := of_decide_eq_true hf
      simp only [Rec.size, capacity] at h1
      refine ⟨[r], [], ⟨?_, ?_, ?_⟩, by simp [applyAction, hf], ?_⟩
      · exact ⟨fun _ => ⟨[], rfl, rfl, rfl⟩, fun h => by omega⟩
      · simp only [applyAction, offerTile, hf, if_true]
        rw [joinQueue_eq]
        simp [droppedFor, suppressedFor, satAdd16_zero, satAdd_zero]
      · simp only [applyAction, offerTile, hf, if_true]; exact joinQueue_tested s _
      · intro rs tk dr h
        have hfill : 2097152 - fill (applyAction (.offer r) (s, n)).1 =
            2097152 - fill s - (32 + r.payload.length) := by
          simp [applyAction, offerTile, hf, fill, queueSize_append, queueSize, Rec.size]; omega
        rw [hfill] at h
        exact ⟨fun _ => ⟨tk, rfl, h⟩, fun h2 => by omega⟩
    · have hf' : fits (.tile r) s = false := by simpa using hf
      have h1 := of_decide_eq_false hf'
      simp only [Rec.size, capacity] at h1
      have hq : (dropTile r.reason s).port.queue = s.port.queue ∧ (dropTile r.reason s).port.grant = s.port.grant ∧
          (dropTile r.reason s).port.nextSeq = s.port.nextSeq := by
        cases r.reason <;> simp [dropTile, bump, addTo, State.updCounters, State.updPort]
      refine ⟨[], [r], ⟨?_, ?_, ?_⟩, by simp [applyAction, hf'], ?_⟩
      · exact ⟨fun h => by omega, fun _ => ⟨[], rfl, rfl, rfl⟩⟩
      · simp only [applyAction, offerTile, hf', Bool.false_eq_true, if_false]
        cases hr : r.reason <;>
          simp [dropTile, bump, addTo, State.updCounters, State.updPort, Counters.set, Counters.get, droppedFor, hr,
            suppressedFor, satAdd16_zero, satAdd_zero, satInc16_eq]
      · simp only [applyAction, offerTile, hf', Bool.false_eq_true, if_false]
        exact .of_eq hq.1 hq.2.1 hq.2.2 (by simp)
      · intro rs tk dr h
        have hfill : fill (applyAction (.offer r) (s, n)).1 = fill s := by
          simp only [applyAction, offerTile, hf', Bool.false_eq_true, if_false, fill, hq.1]
        rw [hfill] at h
        exact ⟨fun h2 => by omega, fun _ => ⟨dr, rfl, h⟩⟩

/-- R143, R148, R153, R160: carrying out tile actions in turn. -/
theorem applyActions_done (acts : List TileAction) (n : Nat) :
    ∃ taken dropped, ActionsDone acts taken dropped s (applyActions acts (s, n)).1 ∧
      (applyActions acts (s, n)).2 = n + taken.length := by
  induction acts generalizing s n with
  | nil =>
    refine ⟨[], [], ⟨⟨rfl, rfl⟩, ?_, .of_eq rfl rfl rfl rfl⟩, rfl⟩
    simp [applyActions, droppedFor, suppressedFor, satAdd16_zero, satAdd_zero]
  | cons a as ih =>
    simp only [applyActions]
    obtain ⟨tk, dr, h1, h2, h3⟩ := applyAction_done s a n
    obtain ⟨tk', dr', k1, k2⟩ := ih (applyAction a (s, n)).1 (applyAction a (s, n)).2
    refine ⟨tk ++ tk', dr ++ dr', h1.cons k1 ?_, ?_⟩
    · have := h3 _ _ _ k1.1
      rwa [show offersOf (a :: as) = offersOf [a] ++ offersOf as from List.filterMap_append (l := [a])]
    · rw [show ((applyAction a (s, n)).1, (applyAction a (s, n)).2) = applyAction a (s, n) from rfl] at k2
      rw [k2, h2]; simp; omega

/-- R151, R154, R160: the BAND record offered. -/
theorem offerBand_offered (b : BandRec) : BandOffered b s (offerBand b s) := by
  by_cases hf : fits (.band (withDrops b s.port)) s = true
  · have h1 := of_decide_eq_true hf
    simp only [Rec.size, capacity, fill] at h1
    have hf2 : fits (.band b) s = true := hf
    simp only [offerBand, hf2, if_true]
    refine ⟨fun _ => ?_, fun h => by omega, ?_⟩
    · rw [joinQueue_eq]; rfl
    · have := joinQueue_tested (s.updPort fun p => { p with
        coreDrops := 0, contextDrops := 0, sampleDrops := 0, unreported := 0 }) (.band (withDrops b s.port))
      exact this
  · have hf2 : fits (.band b) s = false := by
      have : fits (.band (withDrops b s.port)) s = false := by simpa using hf
      exact this
    have h1 := of_decide_eq_false hf2
    simp only [Rec.size, capacity, fill] at h1
    simp only [offerBand, hf2, Bool.false_eq_true, if_false]
    exact ⟨fun h => by omega, fun _ => rfl, .of_eq rfl rfl rfl rfl⟩

/-- R148, R149, R151: a whole sequence of offers. -/
theorem offerRest_made (o : Offering) : OffersMade o s (offerRest o s) := by
  obtain ⟨tk, dr, h1, h2⟩ := applyActions_done s o.actions o.taken
  refine ⟨tk, dr, _, h1, ?_⟩
  have := offerBand_offered (applyActions o.actions (s, o.taken)).1
    { o.band with queued := (applyActions o.actions (s, o.taken)).2 }
  rw [h2] at this
  simpa [offerRest, h2] using this

/-- R148, R151: part of a sequence of offers. -/
theorem offerSome_begun (n : Nat) (o : Offering) : OffersBegun n o s (offerSome n o s) := by
  obtain ⟨tk, dr, h1, h2⟩ := applyActions_done s (o.actions.take n) o.taken
  refine ⟨tk, dr, _, h1, ?_⟩
  simp [offerSome, State.updPort, h2]

/-- R148, R151: the offers that had still to come of a close. -/
theorem endOffers_made (o : Offering) :
    OffersMade o { s with port := { s.port with offering := none } } (endOffers o s) := offerRest_made _ o

/-- R148: carrying out tile actions changes the queue, the counts and the outputs alone. -/
theorem ActionsDone.keeps {acts : List TileAction} {taken dropped : List TileRec} {s t : State}
    (h : ActionsDone acts taken dropped s t) :
    t = { s with port := t.port, counters := t.counters, outputs := t.outputs } := by
  rw [h.2.1]

/-- R151: and so does offering a BAND record. -/
theorem BandOffered.keeps {b : BandRec} {s t : State} (h : BandOffered b s t) :
    t = { s with port := t.port, counters := t.counters, outputs := t.outputs } := by
  by_cases hf : queueSize s.port.queue + 32 ≤ 2097152
  · rw [h.1 hf]
  · rw [h.2.1 (by omega)]

/-- R151: and so does a sequence of offers. -/
theorem OffersMade.keeps {o : Offering} {s t : State} (h : OffersMade o s t) :
    t = { s with port := t.port, counters := t.counters, outputs := t.outputs } := by
  obtain ⟨taken, dropped, u, h1, h2⟩ := h
  rw [h2.keeps, h1.keeps]

/-- R151: a sequence of offers leaves no close under way that was not before it. -/
theorem OffersMade.offering {o : Offering} {s t : State} (h : OffersMade o s t) :
    t.port.offering = s.port.offering := by
  obtain ⟨taken, dropped, u, ⟨-, h1, -⟩, h2⟩ := h
  have hu : u.port.offering = s.port.offering := by rw [h1]
  by_cases hf : queueSize u.port.queue + 32 ≤ 2097152
  · rw [h2.1 hf]; exact hu
  · rw [h2.2.1 (by omega)]; exact hu

/-- R148, R151: the next offer of a close that has tile slots left. -/
theorem nextOffer_begun {o : Offering} (h : s.port.offering = some o) (ha : o.actions ≠ []) :
    OffersBegun 1 o s (nextOffer s) := by
  have : nextOffer s = offerSome 1 o s := by
    unfold nextOffer
    simp only [h]
    split
    · contradiction
    · rfl
  rw [this]
  exact offerSome_begun s 1 o

/-- R148, R151: the offers of a close. -/
theorem steer_offered (v : CloseView) :
    (s.overlap = [] → OffersMade (offeringOf v) s (steer v s)) ∧
    ∀ n later, s.overlap = n :: later →
      OffersBegun n (offeringOf v) { s with overlap := later } (steer v s) := by
  refine ⟨fun h => ?_, fun n later h => ?_⟩
  · rw [steer, h]; exact offerRest_made s _
  · rw [steer, h]; exact offerSome_begun _ n _

/-! ## The end of a frame -/

/-- R106, R108: the end of a frame, written out. -/
theorem endOfFrame_eq : endOfFrame s = frameEnded s := rfl

/-- R112: the end of the station's own echo, written out. -/
theorem endOfFrame_removeSent_eq : endOfFrame (removeSent s) = echoEnded s := by
  have : ∀ l : List TxFrame, (l.filter fun u => !u.sending).map (fun u => { u with sending := false }) =
      l.filter fun u => u.sending = false := by
    intro l
    induction l with
    | nil => rfl
    | cons u us ih => cases hu : u.sending <;> simp [hu, ih]; cases u; simp_all
  simp [endOfFrame, removeSent, echoEnded, State.updBus, this]

end Sys2Proof.Machine
end

