-- ==== Sys2Proof/Laws/Closing.lean ====
section
/-! SUPPORT. What the close of a band does, part by part, in the words of the statements: how its sides stand, the
hit set, the reason and fidelity of a tile, the records taken and dropped. -/

namespace Sys2Proof.Machine

variable (s : State)

/-- R152: the pressure level is the one of the table. -/
theorem levelOf_spec (f : Nat) : LevelOf f (levelOf f) := by
  unfold LevelOf levelOf
  repeat' split
  all_goals omega

/-- A side has a summary exactly when it is RECEIVED. -/
theorem side_summary?_eq_some {d : Side} {z : Summary} : d.summary? = some z ↔ d = .received z := by
  cases d <;> simp [Side.summary?]

/-- R100: the view of a side is how it stands. -/
theorem sideView_stands (n : Neighbour) (d : Side) (sent : Bool) : Stands n d sent (sideView n d sent) := by
  refine ⟨rfl, ?_, fun z => side_summary?_eq_some⟩
  cases d <;> simp [sideView, Side.summary?]

/-- R100: becoming ABSENT makes no side RECEIVED and takes none away. -/
theorem absentIfNone_received (n : Option Neighbour) (d : Side) (z : Summary) :
    absentIfNone n d = .received z ↔ d = .received z := by
  cases n <;> cases d <;> simp [absentIfNone]

/-- R100: the status a close leaves of a side. -/
theorem absentIfNone_status (n : Option Neighbour) (d : Side) :
    (absentIfNone n d).status = closedStatus n d := by
  cases n <;> cases d <;> simp [absentIfNone, closedStatus, Side.status]

/-- R100: a side stands as before it became ABSENT. -/
theorem stands_absentIfNone {m : Option Neighbour} {n : Neighbour} {d : Side} {sent : Bool} {v : SideView}
    (h : Stands n (absentIfNone m d) sent v) : Stands n d sent v := by
  obtain ⟨h1, h2, h3⟩ := h
  refine ⟨h1, ?_, fun z => by rw [h3 z, absentIfNone_received]⟩
  rw [h2]
  simp only [absentIfNone_received]

/-- R133: the side a close takes an own tile column to be an overlap tile of. -/
theorem closeView_side (e : Entry) (g : Nat) : OverlapSideOf s e g ((closeView s e).side g) := by
  simp only [CloseView.side, closeView, overlapSide, firstTile, endTile, OverlapSideOf, closingEntry]
  cases hl : s.bus.left <;> cases hr : s.bus.right <;> simp only [Option.map_none, Option.map_some, Option.filter]
  · simp
  · rename_i n
    refine ⟨nofun, ?_, ?_⟩
    · rintro _ ⟨⟩ h -
      simp [sideView, h]
      exact stands_absentIfNone (sideView_stands _ _ _)
    · intro _ h
      have h' : ¬ (s.ctl.cfg.c0 + s.ctl.cfg.w) / 32 ≤ g + n.overlap := by have := h n rfl; omega
      simp [sideView, h']
  · rename_i n
    refine ⟨?_, nofun, ?_⟩
    · rintro _ ⟨⟩ h
      simp [sideView, h]
      exact stands_absentIfNone (sideView_stands _ _ _)
    · intro h _
      have h' : ¬ g < s.ctl.cfg.c0 / 32 + n.overlap := by have := h n rfl; omega
      simp [sideView, h']
  · rename_i n m
    refine ⟨?_, ?_, ?_⟩
    · rintro _ ⟨⟩ h
      simp [sideView, h]
      exact stands_absentIfNone (sideView_stands _ _ _)
    · rintro _ ⟨⟩ h h2
      have := h2 n rfl
      have h3 : ¬ g < s.ctl.cfg.c0 / 32 + n.overlap := by omega
      simp [sideView, h, h3]
      exact stands_absentIfNone (sideView_stands _ _ _)
    · intro h h2
      have := h n rfl
      have h4 : ¬ (s.ctl.cfg.c0 + s.ctl.cfg.w) / 32 ≤ g + m.overlap := by have := h2 m rfl; omega
      have h3 : ¬ g < s.ctl.cfg.c0 / 32 + n.overlap := by omega
      simp [sideView, h3, h4]

/-- R101: the columns of own slots classed HIT. -/
theorem mem_hitColumns {slots : List Slot} {f g : Nat} : g ∈ hitColumns f slots ↔
    ∃ (i : Nat) (slot : Slot) (res : TileResult), slots[i]? = some slot ∧ slot.result = some res ∧
      res.cls = .hit ∧ g = f + i := by
  induction slots generalizing f with
  | nil => simp [hitColumns]
  | cons x xs ih =>
    have key : (∃ (i : Nat) (slot : Slot) (res : TileResult), (x :: xs)[i]? = some slot ∧ slot.result = some res ∧
      res.cls = .hit ∧ g = f + i) ↔ (x.cls? = some .hit ∧ g = f) ∨ g ∈ hitColumns (f + 1) xs := by
      rw [ih]
      constructor
      · rintro ⟨i, slot, res, h1, h2, h3, h4⟩
        cases i with
        | zero => simp at h1; subst h1; exact .inl ⟨by simp [Slot.cls?, h2, h3], by simpa using h4⟩
        | succ i => exact .inr ⟨i, slot, res, by simpa using h1, h2, h3, by omega⟩
      · rintro (⟨h1, h2⟩ | ⟨i, slot, res, h1, h2, h3, h4⟩)
        · simp only [Slot.cls?, Option.map_eq_some_iff] at h1
          obtain ⟨res, h3, h4⟩ := h1
          exact ⟨0, x, res, by simp, h3, h4, by simpa using h2⟩
        · exact ⟨i + 1, slot, res, by simpa using h1, h2, h3, by omega⟩
    rw [key]
    simp only [hitColumns]
    split <;> simp_all

/-- R101: the columns of a facing zone classed HIT. -/
theorem mem_zoneHits {d : Side} {g : Nat} : g ∈ zoneHits d ↔
    ∃ z, d = .received z ∧ ∃ x ∈ z.zone, x.cls = .hit ∧ x.g = g := by
  cases d <;> simp [zoneHits, Side.summary?, and_assoc]

/-- R101: the columns some station classed HIT in an entry. -/
theorem mem_entryHits {cfg : StationConfig} {e : Entry} {g : Nat} :
    g ∈ entryHits cfg e ↔ ClassedHit cfg e g := by
  simp only [entryHits, ClassedHit, List.mem_append, mem_hitColumns, mem_zoneHits, firstTile, or_assoc,
    List.mem_cons, List.not_mem_nil, or_false, exists_eq_or_imp, exists_eq_left]

/-- A side becoming ABSENT changes no hit. -/
theorem entryHits_closing (e : Entry) : entryHits s.ctl.cfg (closingEntry s e) = entryHits s.ctl.cfg e := by
  have : ∀ (n : Option Neighbour) (d : Side), zoneHits (absentIfNone n d) = zoneHits d := by
    intro n d
    cases n <;> cases d <;> rfl
  simp [entryHits, closingEntry, this]

/-- R138: the hit set of a close. -/
theorem mem_hits (e : Entry) (h : Hit) : h ∈ (closeView s e).hits ↔ InHitSet s e h.band h.g := by
  obtain ⟨b, g⟩ := h
  simp only [closeView, hitSet, List.mem_append, List.mem_map, InHitSet, entryHits_closing, Hit.mk.injEq]
  have hb : (closingEntry s e).band = e.band := rfl
  rw [or_assoc]
  refine or_congr ?_ (or_congr ?_ ?_)
  · simp only [hb]
    cases hc : s.table.carryBand with
    | none => simp
    | some c =>
      simp only [Option.any_some, decide_eq_true_eq, Option.some.injEq]
      split
      · simp only [List.mem_map, Hit.mk.injEq]
        constructor
        · rintro ⟨x, h1, h2, rfl⟩; exact ⟨by omega, by omega, h1⟩
        · rintro ⟨h1, h2, h3⟩; exact ⟨g, h3, by omega, rfl⟩
      · simp; omega
  · constructor
    · rintro ⟨x, h1, h2, rfl⟩; exact ⟨h2.symm, mem_entryHits.mp h1⟩
    · rintro ⟨h1, h2⟩; exact ⟨g, mem_entryHits.mpr h2, h1.symm, rfl⟩
  · cases hn : findEntry (e.band + 1) s with
    | none => simp
    | some n =>
      have : n.band = e.band + 1 := by
        have := List.find?_some hn
        simpa using this
      simp only [List.mem_map, Hit.mk.injEq, Option.some.injEq, exists_eq_left', this]
      constructor
      · rintro ⟨x, h1, h2, rfl⟩; exact ⟨h2.symm, mem_entryHits.mp h1⟩
      · rintro ⟨h1, h2⟩; exact ⟨g, mem_entryHits.mpr h2, h1.symm, rfl⟩

/-- R138: a column is promoted by a pair of the hit set other than its own. -/
theorem promotes_iff (e : Entry) (g : Nat) :
    (closeView s e).hits.any (promotes e.band g) = true ↔ Promoted s e g := by
  simp only [List.any_eq_true, mem_hits, promotes, Bool.and_eq_true, decide_eq_true_eq, Promoted]
  constructor
  · rintro ⟨h, h1, ⟨h2, h3⟩, h4⟩; exact ⟨_, _, h1, h2, h3, h4⟩
  · rintro ⟨b, x, h1, h2, h3, h4⟩; exact ⟨⟨b, x⟩, h1, ⟨h2, h3⟩, h4⟩

/-- R139 to R141: the reason of an own tile. -/
theorem reasonFor_is (e : Entry) (g : Nat) (cls : TileClass) (st : Standing) :
    ReasonIs s e g cls st (reasonFor s.ctl.cfg.ps e.band g cls st (closeView s e).hits) := by
  unfold reasonFor
  have hp := promotes_iff s e g
  by_cases h1 : st.core = true
  · simp [h1, ReasonIs]
  · have h1 : st.core = false := by simpa using h1
    by_cases h2 : (st.elsewhere || cls == .void || !st.home) = true
    · simp only [h1, h2, Bool.false_eq_true, if_false, if_true, ReasonIs, true_and]
      simp only [Bool.or_eq_true, beq_iff_eq, Bool.not_eq_true'] at h2
      rcases h2 with (h | h) | h <;> simp [h]
    · have h2' := h2
      simp only [Bool.or_eq_true, beq_iff_eq, Bool.not_eq_true', not_or] at h2'
      obtain ⟨⟨h3, h4⟩, h5⟩ := h2'
      have h3 : st.elsewhere = false := by simpa using h3
      have h5 : st.home = true := by simpa using h5
      simp only [h1, Bool.false_eq_true, if_false, h2]
      by_cases h6 : (closeView s e).hits.any (promotes e.band g) = true
      · rw [if_pos h6]; exact ⟨h1, h3, h4, h5, hp.mp h6⟩
      · have h7 : ¬ Promoted s e g := fun h => h6 (hp.mpr h)
        rw [if_neg h6]
        split
        · exact ⟨h1, h3, h4, h5, h7, ‹_›⟩
        · exact ⟨h1, .inr (.inr (.inr ⟨h7, ‹_›⟩))⟩

/-- R143: the ladder is the table of the degrade ladder. -/
theorem ladder_eq (cfg : StationConfig) (why : Reason) {level : Nat} (h : level ≤ 3) :
    ladder cfg level why = degrade cfg.contextFidelity cfg.sampleFidelity why level := by
  obtain rfl | rfl | rfl | rfl : level = 0 ∨ level = 1 ∨ level = 2 ∨ level = 3 := by omega
  all_goals cases why <;> simp [ladder, degrade]
  · cases cfg.contextFidelity <;> rfl

/-- R133 to R143: what a close does about a slot, given what its record holds. -/
theorem tileAction_decided (e : Entry) (i : Nat) (slot : Slot)
    (hrec : ∀ t slot res st why f, st = (closeView s e).standing (s.ctl.cfg.c0 / 32 + t) res →
      TileRecordIs s e t slot res st why f (tileRecord (closeView s e) t slot res why f)) :
    Decided s e (pressure s) i slot (tileAction (closeView s e) i slot) := by
  refine ⟨fun h => by simp [tileAction, h], fun res hres => ?_⟩
  refine ⟨_, _, _, closeView_side s e _, rfl, reasonFor_is s e _ _ _, ?_, ?_⟩
  · intro h
    have : (closeView s e).reason (firstTile (closeView s e).cfg + i) res = none := h
    simp [tileAction, hres, this]
  · intro w h
    have h' : (closeView s e).reason (firstTile (closeView s e).cfg + i) res = some w := h
    have hl : ladder (closeView s e).cfg (closeView s e).level w =
        degrade s.ctl.cfg.contextFidelity s.ctl.cfg.sampleFidelity w (pressure s) := by
      refine ladder_eq _ _ ?_
      have := levelOf_spec (fill s)
      unfold LevelOf at this
      change levelOf (fill s) ≤ 3
      omega
    rw [← hl]
    exact ⟨fun h2 => by simp [tileAction, hres, h', h2], fun f h2 =>
      ⟨tileRecord (closeView s e) i slot res w f, by simp [tileAction, hres, h', h2],
        hrec _ _ _ _ _ _ rfl⟩⟩

/-! ## Payloads and flags -/

/-- R144: a row is usable when it is PRESENT or BLANKED. -/
theorem usable_iff (r : Row) : r.usable = true ↔ UsableRow r := by
  simp [Row.usable, UsableRow]

theorem usable_eq (r : Row) : r.usable = decide (r.state = .present ∨ r.state = .blanked) := by
  rw [Bool.eq_iff_iff]; simp [Row.usable]

/-- R145: whether a group of rows has no usable pixels. -/
theorem emptyGroup_iff (n : Nat) (rows : List Row) : emptyGroup n rows = true ↔ EmptyGroup n rows := by
  simp only [emptyGroup, List.any_eq_true, List.mem_range, EmptyGroup]
  refine exists_congr fun i => and_congr_right fun _ => ?_
  simp only [Bool.not_eq_true', rowGroup, List.any_eq_false, usable_iff]
  constructor
  · intro h k r h1 h2 h3
    refine h r ?_
    rw [List.mem_take_iff_getElem]
    rw [List.getElem?_eq_some_iff] at h3
    obtain ⟨h4, h5⟩ := h3
    refine ⟨k - n * i, by simp; omega, ?_⟩
    simp only [List.getElem_drop]
    rw [← h5]
    congr 1; omega
  · intro h r hr
    rw [List.mem_take_iff_getElem] at hr
    obtain ⟨j, hj, rfl⟩ := hr
    simp at hj
    refine h (n * i + j) _ (by omega) (by omega) ?_
    simp only [List.getElem_drop]
    rw [List.getElem?_eq_getElem]

/-- R145: the PARTIAL flag is the one of its rule. -/
theorem partialOf_is (f : Fidelity) (rows : List Row) : PartialIs f rows (partialOf f rows) := by
  cases f <;> simp only [PartialIs, partialOf]
  all_goals exact emptyGroup_iff _ _

/-! ## The closing test -/

/-- R100: a side is RECEIVED when it holds a summary. -/
theorem isReceived_iff (d : Side) : d.isReceived = true ↔ ∃ z, d = .received z := by
  cases d <;> simp [Side.isReceived, Side.summary?]

/-- R99: the sides of two entries settle when there is no neighbour or both are RECEIVED. -/
theorem sideSettled_iff (n : Option Neighbour) (a b : Side) :
    sideSettled n a b = true ↔ BothReceived n a b := by
  simp [sideSettled, BothReceived, isReceived_iff]

/-- R98, R99: the closing test finds an entry it may close. -/
theorem closable_iff (e : Entry) : closable s e = true ↔ MayClose s e := by
  simp only [closable, MayClose, Bool.and_eq_true, Bool.or_eq_true, Bool.not_eq_true', settledWithNext,
    settleDepthReached, List.any_eq_true, List.any_eq_false, Option.any_eq_true, sideSettled_iff,
    beq_iff_eq, decide_eq_true_eq, and_assoc, or_assoc]

/-- R98: closing an entry frees it and no other. -/
theorem closeEntry_entries (e : Entry) :
    (closeEntry e s).table.entries = s.table.entries.filter fun x => x.band != e.band := by
  simp [closeEntry]

/-- R98, R151: with fuel for every entry, the closing test goes on until no entry may close, or until other commands
fall into a close. -/
theorem closeAll_closesInTurn (n : Nat) (h : s.table.entries.length ≤ n) :
    ∃ closed, ClosesInTurn s closed (closeAll n s) := by
  induction n generalizing s with
  | zero =>
    have : s.table.entries = [] := List.length_eq_zero_iff.mp (by omega)
    exact ⟨[], rfl, by simp [this]⟩
  | succ n ih =>
    simp only [closeAll]
    split
    · rename_i e ho hf
      have he := List.mem_of_find?_eq_some hf
      obtain ⟨closed, hc⟩ := ih (closeEntry e s) (by
        rw [closeEntry_entries]
        have : (s.table.entries.filter fun x => x.band != e.band).length < s.table.entries.length :=
          List.length_filter_lt_length_iff_exists.mpr ⟨e, he, by simp⟩
        omega)
      exact ⟨e :: closed, ho, he, (closable_iff s e).mp (List.find?_some hf), hc⟩
    · rename_i hf
      refine ⟨[], rfl, ?_⟩
      cases ho : s.port.offering with
      | some o => exact .inl nofun
      | none =>
        right
        intro e he hm
        cases hff : s.table.entries.find? (closable s) with
        | some x => exact hf x ho hff
        | none =>
          rw [List.find?_eq_none] at hff
          exact hff e he ((closable_iff s e).mpr hm)

/-- R98: the closing test closes entries in turn, one after another, until none may. -/
theorem closingTest_closesInTurn : ∃ closed, ClosesInTurn s closed (closingTest s) :=
  closeAll_closesInTurn s _ (Nat.le_refl _)

/-- In a list of consecutive bands each is at or past the first and, but for the first, follows another. -/
theorem consecutive_bands {l : List Entry} {c : Nat} (hc : Consecutive c l) {y : Entry} (hy : y ∈ l) :
    c ≤ y.band ∧ (c = y.band ∨ ∃ z ∈ l, z.band + 1 = y.band) := by
  induction l generalizing c with
  | nil => cases hy
  | cons a as ih =>
    rcases List.mem_cons.mp hy with rfl | hy
    · exact ⟨by have := hc.1; omega, .inl hc.1.symm⟩
    · obtain ⟨h1, h2⟩ := ih hc.2 hy
      refine ⟨by omega, .inr ?_⟩
      rcases h2 with h2 | ⟨z, hz, hz2⟩
      · exact ⟨a, List.mem_cons_self, by have := hc.1; omega⟩
      · exact ⟨z, List.mem_cons_of_mem _ hz, hz2⟩

/-- Consecutive bands rise. -/
theorem consecutive_pairwise {l : List Entry} {c : Nat} (hc : Consecutive c l) :
    l.Pairwise fun x y => x.band < y.band := by
  induction l generalizing c with
  | nil => exact .nil
  | cons a as ih =>
    refine .cons (fun y hy => ?_) (ih hc.2)
    have := (consecutive_bands hc.2 hy).1
    have := hc.1
    omega

/-- R98: where the entries hold consecutive bands, those that close are the first of them, SCORED, in their order. -/
theorem closesInTurn_split {closed : List Entry} {t : State} {b : Nat} (h : ClosesInTurn s closed t)
    (hc : Consecutive b s.table.entries) :
    s.table.entries = closed ++ t.table.entries ∧ (∀ e ∈ closed, e.state = .scored) ∧
      Consecutive (b + closed.length) t.table.entries := by
  induction closed generalizing s b with
  | nil => rw [h.1]; exact ⟨rfl, nofun, hc⟩
  | cons e es ih =>
    obtain ⟨-, he, hm, hr⟩ := h
    cases hes : s.table.entries with
    | nil => rw [hes] at he; cases he
    | cons x xs =>
      rw [hes] at hc he
      have heb : e.band = b := by
        obtain ⟨h1, h2 | ⟨z, hz, hz2⟩⟩ := consecutive_bands hc he
        · exact h2.symm
        · exact absurd hz2 (hm.2.1 z (by rw [hes]; exact hz))
      have hex : e = x := by
        rcases List.mem_cons.mp he with h1 | h1
        · exact h1
        · have := (consecutive_bands hc.2 h1).1; omega
      have htail : (closeEntry e s).table.entries = xs := by
        rw [closeEntry_entries, hes, List.filter_cons, if_neg (by simp [hc.1, heb])]
        rw [List.filter_eq_self]
        intro a ha
        have := (consecutive_bands hc.2 ha).1
        simp; omega
      obtain ⟨h1, h2, h3⟩ := ih (closeEntry e s) hr (b := b + 1) (by rw [htail]; exact hc.2)
      rw [htail] at h1
      refine ⟨by rw [hex, h1]; rfl, ?_, by simpa [Nat.add_assoc, Nat.add_comm 1] using h3⟩
      intro y hy
      rcases List.mem_cons.mp hy with rfl | hy
      · exact hm.1
      · exact h2 y hy

/-- R98: where the entries hold consecutive bands, they close in increasing order. -/
theorem closesInTurn_pairwise {closed : List Entry} {t : State} {b : Nat} (h : ClosesInTurn s closed t)
    (hc : Consecutive b s.table.entries) : closed.Pairwise fun x y => x.band < y.band := by
  have := consecutive_pairwise hc
  rw [(closesInTurn_split s h hc).1] at this
  exact (List.pairwise_append.mp this).1

/-! ## Closes that other commands fall into -/

/-- R131, R148: a close with no other command falling into it makes all its offers. -/
theorem closeEntry_whole (e : Entry) (ho : s.overlap = []) (hn : s.port.offering = none) :
    (closeEntry e s).overlap = [] ∧ (closeEntry e s).port.offering = none := by
  have hp : (closeEntry e s).port = (steer (closeView s e) s).port := rfl
  have hv : (closeEntry e s).overlap = (steer (closeView s e) s).overlap := rfl
  have h := (steer_offered s (closeView s e)).1 ho
  exact ⟨by rw [hv, h.keeps]; exact ho, by rw [hp, h.offering, hn]⟩

/-- R98: with no other command falling in, the closing test goes on to its end. -/
theorem closesInTurn_whole {closed : List Entry} {t : State} (h : ClosesInTurn s closed t) (ho : s.overlap = [])
    (hn : s.port.offering = none) : t.overlap = [] ∧ t.port.offering = none := by
  induction closed generalizing s with
  | nil => rw [h.1]; exact ⟨ho, hn⟩
  | cons e es ih =>
    obtain ⟨h1, h2⟩ := closeEntry_whole s e ho hn
    exact ih _ h.2.2.2 h1 h2

/-- R131, R151: what is left of the closes that other commands fell into. -/
theorem finishCloses_ended {c : Nat} (hc : Consecutive c s.table.entries) : ClosesEnded s (finishCloses s) := by
  unfold finishCloses
  refine ⟨fun h => by rw [h], fun o h => ?_⟩
  rw [h]
  have hu := endOffers_made (s.updOverlap fun _ => []) o
  obtain ⟨closed, hv⟩ := closingTest_closesInTurn (endOffers o (s.updOverlap fun _ => []))
  exact ⟨_, _, closed, hu, hv, closesInTurn_pairwise _ hv (b := c) (by simpa using hc),
    (closesInTurn_whole _ hv (by simp) hu.offering).2, rfl⟩

/-- R131: the closes that were left free the first entries, SCORED, and touch no other block but the port. -/
theorem ClosesEnded.split {s t : State} {c : Nat} (h : ClosesEnded s t) (hc : Consecutive c s.table.entries) :
    t.port.offering = none ∧ ∃ closed : List Entry, s.table.entries = closed ++ t.table.entries ∧
      (∀ e ∈ closed, e.state = .scored) ∧ Consecutive (c + closed.length) t.table.entries := by
  cases ho : s.port.offering with
  | none => rw [h.1 ho]; exact ⟨ho, [], rfl, nofun, hc⟩
  | some o =>
    obtain ⟨u, v, closed, h1, h2, -, h3, rfl⟩ := h.2 o ho
    have hu : u.table = s.table := by rw [h1.keeps]
    have := closesInTurn_split u h2 (hu ▸ hc)
    rw [hu] at this
    exact ⟨h3, closed, this⟩

end Sys2Proof.Machine
end

