-- ==== Sys2Proof/Laws/Layout.lean ====
section
/-! SUPPORT. The layouts of records and completion entries: what their bytes hold, field by field. -/

namespace Sys2Proof.Machine

/-- R144: bit `k` of the row map is row `k`. -/
theorem rowMap_testBit (l : List Bool) (k : Nat) : (rowMap l).testBit k = l.getD k false := by
  induction l generalizing k with
  | nil => simp [rowMap]
  | cons b bs ih =>
    cases k with
    | zero => cases b <;> simp [rowMap, bit, Nat.testBit_zero]
    | succ k =>
      have : rowMap (b :: bs) / 2 = rowMap bs := by
        cases b <;> simp [rowMap, bit]
        omega
      rw [Nat.testBit_succ, this, ih]
      simp

/-- A record holds no fields whatever its bytes are. -/
theorem holdsFields_nil (b : Nat → Byte) : HoldsFields b [] ↔ True :=
  ⟨fun _ => trivial, fun _ _ _ _ h => nomatch h⟩

/-- A list of fields is held when its first is and the others are. -/
theorem holdsFields_cons (b : Nat → Byte) (f : Nat × Nat × Nat) (fs : List (Nat × Nat × Nat)) :
    HoldsFields b (f :: fs) ↔ numberAt b f.1 f.2.1 = f.2.2 % 256 ^ f.2.1 ∧ HoldsFields b fs := by
  constructor
  · exact fun h => ⟨h _ _ _ (.head _), fun o n v hm => h o n v (.tail _ hm)⟩
  · rintro ⟨hf, hfs⟩ o n v (_ | ⟨_, hm⟩)
    · exact hf
    · exact hfs o n v hm

/-- R168: an EVENT record's bytes are its layout. -/
theorem eventRec_layout (x : EventRec) : EventLayout x x.bytes := by
  refine ⟨x.code.code, by cases x.code <;> simp [eventCodes, EventCode.code],
    by simp [EventRec.bytes, le32, le16], ?_⟩
  simp only [holdsFields_cons, holdsFields_nil, and_true]
  repeat' apply And.intro
  all_goals simp [numberAt, byteOf, EventRec.bytes, le32, le16, byte, bit]
  all_goals omega

/-- R163, R168: a completion entry's bytes are its layout. -/
theorem completionBytes_layout (seq : Word) (g : OpenGrant) (flag : RetireFlag) :
    CompletionLayout seq g flag (completionBytes seq g flag) := by
  refine ⟨flag.code, by cases flag <;> simp [retireCodes, RetireFlag.code],
    by simp [completionBytes, le32, le16], ?_⟩
  simp only [holdsFields_cons, holdsFields_nil, and_true]
  repeat' apply And.intro
  all_goals simp [numberAt, byteOf, completionBytes, le32, le16, byte]
  all_goals omega

/-- R168: a BAND record's bytes are its layout. -/
theorem bandRec_layout (x : BandRec) : BandLayout x x.bytes := by
  refine ⟨x.mode.code, x.left.code, x.right.code, by cases x.mode <;> simp [modeCodes, PhaseMode.code],
    by cases x.left <;> simp [statusCodes, SideStatus.code],
    by cases x.right <;> simp [statusCodes, SideStatus.code], by simp [BandRec.bytes, le32, le16], ?_⟩
  simp only [holdsFields_cons, holdsFields_nil, and_true]
  repeat' apply And.intro
  all_goals simp [numberAt, byteOf, BandRec.bytes, le32, le16, byte]
  all_goals omega

/-- R168: a TILE record's bytes are its layout. -/
theorem tileRec_layout (x : TileRec) : TileLayout x x.bytes := by
  refine ⟨x.fidelity.code, x.reason.code, x.cls.code,
    by cases x.fidelity <;> simp [fidelityCodes, Fidelity.code],
    by cases x.reason <;> simp [reasonCodes, Reason.code],
    by cases x.cls <;> simp [classCodes, TileClass.code], by simp [TileRec.bytes, le32, le16]; omega,
    by simp [TileRec.bytes, le32, le16], ?_, ?_, ?_, ?_, ?_, ?_, ?_⟩
  · simp only [holdsFields_cons, holdsFields_nil, and_true]
    repeat' apply And.intro
    all_goals simp [numberAt, byteOf, TileRec.bytes, le32, le16, byte]
    all_goals omega
  all_goals simp only [numberAt, byteOf, TileRec.bytes, le32, le16, byte, bit, List.cons_append,
    List.getD_cons_zero, List.getD_cons_succ, List.nil_append]
  · cases x.unilateral <;> cases x.handover <;> cases x.partialRows <;> cases x.clipped <;> decide
  · cases x.unilateral <;> cases x.handover <;> cases x.partialRows <;> cases x.clipped <;> decide
  · cases x.unilateral <;> cases x.handover <;> cases x.partialRows <;> cases x.clipped <;> decide
  · cases x.unilateral <;> cases x.handover <;> cases x.partialRows <;> cases x.clipped <;> decide
  · intro i hi
    by_cases h8 : i < 8
    · obtain rfl | rfl | rfl | rfl : i = 4 ∨ i = 5 ∨ i = 6 ∨ i = 7 := by omega
      all_goals cases x.unilateral <;> cases x.handover <;> cases x.partialRows <;> cases x.clipped <;> decide
    · exact BitVec.getLsbD_of_ge _ _ (by omega)
  · intro k hk
    rw [← rowMap_testBit]
    simp only [BitVec.toNat_ofNat, Nat.reducePow, Nat.mul_zero, Nat.add_zero]
    have : rowMap x.usable % 256 + 256 * (rowMap x.usable / 256 % 256 +
        256 * (rowMap x.usable / 65536 % 256 + 256 * (rowMap x.usable / 65536 / 256 % 256))) =
        rowMap x.usable % 2 ^ 32 := by omega
    rw [this, Nat.testBit_mod_two_pow]
    simp [hk]

/-- R168: a record's bytes are its layout. -/
theorem rec_layout (r : Rec) : RecordLayout r r.bytes := by
  cases r with
  | tile x => exact tileRec_layout x
  | band x => exact bandRec_layout x
  | event x => exact eventRec_layout x

end Sys2Proof.Machine
end

