-- ==== Sys2Proof/Laws/Registration.lean ====
section
/-! SUPPORT. What the tracker's parts of a line event do, said once: the marks that become due, the coast, and the
record. -/

namespace Sys2Proof.Machine

/-- R41: the marks due at a line are the first of the queue, up to the first whose start lies beyond it. -/
theorem dueMarks_append {line : Nat} {due rest : List MarkEntry} (hdue : ∀ m ∈ due, m.start ≤ line)
    (hrest : ∀ m, rest.head? = some m → line < m.start) : dueMarks line (due ++ rest) = due := by
  unfold dueMarks
  rw [List.takeWhile_append_of_pos (by simpa using hdue)]
  cases rest with
  | nil => simp
  | cons x xs =>
    have := hrest x rfl
    simp
    omega

/-- R41: taking the due marks leaves the rest of the queue, keeps the last start taken, and discards all but one. -/
theorem takeDue_eq {line : Nat} {s : State} {due rest : List MarkEntry} {last : MarkEntry}
    (hmarks : s.tracker.marks = due ++ rest) (hdue : dueMarks line s.tracker.marks = due)
    (hlast : due.getLast? = some last) :
    takeDue line s = { s with
      tracker := { s.tracker with marks := rest, lastTaken := some last.start }
      counters := { s.counters with
        marksDiscarded := satAdd s.counters.marksDiscarded (due.length - 1) } } := by
  simp only [takeDue, hdue, hlast]
  simp [addTo, State.updTracker, State.updCounters, Counters.set, Counters.get, hmarks]

/-- A local event that is not shared changes, of the counters, EVENT_RECORDS_DROPPED alone. -/
theorem raise_counters {code : EventCode} (line : Nat) (data : Word) (s : State) (h : sharedAs code = none) :
    (raise code line data s).counters =
      { s.counters with
        eventRecordsDropped := (raise code line data s).counters.eventRecordsDropped } := by
  simp only [raise, shareLocal, h, reportLocal, offerEvent, joinQueue, spaceTest, retireGrant, attention]
  repeat' split
  all_goals
    simp [emit, State.updPort, State.updOutputs, bump, addTo, State.updCounters, Counters.set,
      Counters.get]

/-- R39: what a coast changes of the tracker, and that beside its event it changes nothing else. -/
theorem coast_eq (ev : LineEvent) (s : State) (code : EventCode)
    (hcode : code = if s.tracker.coasts + 1 < 4 then .coasting else .lost) :
    (coast ev s).tracker = { s.tracker with
      wrapPending := false
      prevAccepted := false
      coasts := s.tracker.coasts + 1
      mode := if s.tracker.coasts + 1 < 4 then .coasting else .lost } ∧
    (coast ev s).port.queue = queueAfterEvent code ev.line ev.position s ∧
    (coast ev s).bus = s.bus ∧
    (coast ev s).counters = { s.counters with
      eventRecordsDropped := (coast ev s).counters.eventRecordsDropped } := by
  have hshared : sharedAs (if s.tracker.coasts + 1 < 4 then .coasting else .lost) = none := by
    split <;> rfl
  refine ⟨by simp [coast], ?_, ?_, ?_⟩
  · subst hcode
    simp only [coast, raise_queue]
    rfl
  · exact raise_bus _ _ _ _ hshared
  · exact raise_counters _ _ _ hshared

end Sys2Proof.Machine
end

