-- ==== Sys2Proof/Laws/Lines.lean ====
section
/-! SUPPORT. What a line event, the scoring of a band and the entry to STOPPING do, in the words of the
statements. -/

namespace Sys2Proof.Machine

variable (s : State)

/-! ## Entries by band -/

/-- Changing the entry of a band changes what is found under its number. -/
theorem findEntry_updEntry (b : Nat) (f : Entry → Entry) (hf : ∀ e, (f e).band = e.band) :
    findEntry b (updEntry b f s) = (findEntry b s).map f := by
  simp only [findEntry, updEntry, State.updTable]
  induction s.table.entries with
  | nil => rfl
  | cons x xs ih =>
    by_cases h : x.band = b
    · simp [h, hf]
    · simp [h, ih]

/-- Changing the entry of a band changes no other. -/
theorem findEntry_updEntry_ne {b c : Nat} (f : Entry → Entry) (hf : ∀ e, (f e).band = e.band) (h : c ≠ b) :
    findEntry c (updEntry b f s) = findEntry c s := by
  simp only [findEntry, updEntry, State.updTable]
  induction s.table.entries with
  | nil => rfl
  | cons x xs ih =>
    by_cases hx : x.band = b
    · have : ¬ b = c := fun h2 => h h2.symm
      simp [hx, hf, this, ih]
    · by_cases hc : x.band = c
      · simp [hc, h]
      · simp [hx, hc, ih]

/-- Changing an entry changes nothing else of the table. -/
theorem updEntry_table (b : Nat) (f : Entry → Entry) :
    (updEntry b f s).table = { s.table with entries := (updEntry b f s).table.entries } := by
  simp [updEntry, State.updTable]

/-- Changing an entry changes no band number. -/
theorem updEntry_bands (b : Nat) (f : Entry → Entry) (hf : ∀ e, (f e).band = e.band) :
    (updEntry b f s).table.entries.map (·.band) = s.table.entries.map (·.band) := by
  simp only [updEntry, State.updTable, List.map_map]
  refine List.map_congr_left fun x _ => ?_
  simp only [Function.comp]
  split <;> simp [hf]

/-- An entry is found under its own band. -/
theorem findEntry_band {b : Nat} {e : Entry} (h : findEntry b s = some e) : e.band = b := by
  have := List.find?_some h
  simpa using this

/-- Finding an entry reads nothing but the table. -/
theorem findEntry_congr {s t : State} (h : t.table = s.table) (b : Nat) : findEntry b t = findEntry b s := by
  simp [findEntry, h]

/-! ## Row 0 -/

/-- R90: the side of a new entry. -/
theorem earlySide_eq (b : Nat) (l : List EarlySummary) : earlySide b l =
    match l.find? fun y => decide (y.band = b) with
    | none => .none
    | some y =>
      match y.summary with
      | none => .mismatched
      | some z => .received z := by
  have : (fun x : EarlySummary => x.band == b) = fun y => decide (y.band = b) := by
    funext x
    simp [beq_eq_decide]
  simp only [earlySide, this]
  cases l.find? fun y => decide (y.band = b) with
  | none => rfl
  | some y => cases hy : y.summary <;> simp [sideOf, hy]

/-- R23, R71, R90: row 0 adds the entry of its band and changes no other. -/
theorem createEntry_created {b : Nat} (h : findEntry b s = none) :
    ∃ e, EntryCreated b s e ∧ ∀ c, findEntry c (createEntry b s) = if c = b then some e else findEntry c s := by
  refine ⟨newEntry b s.ctl.cfg.tiles (s.table.free.headD []) (earlySide b s.table.leftEarly)
    (earlySide b s.table.rightEarly), ⟨rfl, rfl, rfl, rfl, rfl, rfl, fun w => ?_⟩, fun c => ?_⟩
  · cases w
    · exact earlySide_eq _ _
    · exact earlySide_eq _ _
  · simp only [findEntry, createEntry, State.updTable, List.find?_append] at *
    by_cases hc : c = b
    · subst hc
      simp [h, newEntry]
    · have : ¬ b = c := fun h => hc h.symm
      simp [hc, newEntry, this]

/-! ## The tracker's events -/

/-- The tracker's operations: EVENT records join the queue, and the bus is left alone. -/
def AddsEvents (s t : State) : Prop :=
  (∃ events, (∀ r ∈ events, ∃ x, r = Rec.event x) ∧ t.port.queue = s.port.queue ++ events) ∧ t.bus = s.bus

/-- AddsEvents of nothing done. -/
theorem AddsEvents.refl : AddsEvents s s := ⟨⟨[], nofun, by simp⟩, rfl⟩

/-- AddsEvents where port and bus stay. -/
theorem AddsEvents.of_eq {s t : State} (hp : t.port = s.port) (hb : t.bus = s.bus) : AddsEvents s t :=
  ⟨⟨[], nofun, by simp [hp]⟩, hb⟩

/-- AddsEvents of one thing after another. -/
theorem AddsEvents.trans {s t u : State} (h : AddsEvents s t) (k : AddsEvents t u) : AddsEvents s u := by
  obtain ⟨⟨es, h1, h2⟩, h3⟩ := h
  obtain ⟨⟨fs, k1, k2⟩, k3⟩ := k
  refine ⟨⟨es ++ fs, fun r hr => ?_, by rw [k2, h2, List.append_assoc]⟩, k3.trans h3⟩
  rcases List.mem_append.mp hr with h | h
  · exact h1 r h
  · exact k1 r h

/-- R179: a local event that is not shared. -/
theorem raise_addsEvents (code : EventCode) (line : Nat) (data : Word) (h : sharedAs code = none) :
    AddsEvents s (raise code line data s) := by
  refine ⟨?_, raise_bus _ _ _ _ h⟩
  rw [raise_queue]
  simp only [queueAfterEvent]
  split
  · exact ⟨[_], by simp, rfl⟩
  · exact ⟨[], nofun, by simp⟩

/-- R39: a coast raises its event alone. -/
theorem coast_addsEvents (ev : LineEvent) : AddsEvents s (coast ev s) :=
  (AddsEvents.of_eq rfl rfl).trans (raise_addsEvents _ _ _ _ (by split <;> rfl))

/-- R38, R39: what comes before the marks raises the event of a coast alone. -/
theorem beforeMarks_addsEvents (ev : LineEvent) : AddsEvents s (beforeMarks ev s) := by
  have h : ∀ s, AddsEvents s (countLine ev s) := by
    intro s
    unfold countLine
    dsimp only
    split
    · exact (AddsEvents.of_eq rfl rfl).trans (coast_addsEvents _ _)
    · exact AddsEvents.of_eq rfl rfl
  unfold beforeMarks
  split
  · exact (AddsEvents.of_eq rfl rfl).trans (h _)
  · exact h _

/-- R45: the step update raises STEP_CLAMPED alone. -/
theorem updateStep_addsEvents (ev : LineEvent) : AddsEvents s (updateStep ev s) := by
  unfold updateStep
  dsimp only
  split
  · exact AddsEvents.of_eq rfl rfl
  · exact (AddsEvents.of_eq rfl rfl).trans (raise_addsEvents _ _ _ _ rfl)

/-- R42 to R46: a mark raises its own events alone. -/
theorem actOnMark_addsEvents (ev : LineEvent) : AddsEvents s (actOnMark ev s) := by
  have key : ∀ s, AddsEvents s (acceptMark ev s) := by
    intro s
    have h1 : AddsEvents s (addOffset (markOffset s) s) := .of_eq (by simp) (by simp)
    have h2 : AddsEvents s (if s.tracker.prevAccepted then updateStep ev (addOffset (markOffset s) s)
        else addOffset (markOffset s) s) := by
      split
      · exact h1.trans (updateStep_addsEvents _ _)
      · exact h1
    unfold acceptMark
    dsimp only
    generalize (if s.tracker.prevAccepted then updateStep ev (addOffset (markOffset s) s)
        else addOffset (markOffset s) s) = u at *
    have h3 : AddsEvents s (lockOn (if s.tracker.wrapPending then u else nextRepeat u)) := by
      refine h2.trans (.of_eq ?_ ?_) <;> split <;> simp [lockOn, nextRepeat]
    split
    · exact h3.trans (raise_addsEvents _ _ _ _ rfl)
    · exact h3
  have acquired : AddsEvents s (acquireMark ev s) :=
    (AddsEvents.of_eq (by simp [lockOn, nextRepeat]) (by simp [lockOn, nextRepeat])).trans
      (raise_addsEvents _ _ _ _ rfl)
  unfold actOnMark
  split
  · exact acquired
  · exact acquired
  all_goals
    split
    · exact key s
    · exact .of_eq (by simp) (by simp)

/-- A line event through the tracker queues EVENT records alone and leaves the bus. -/
theorem trackLine_addsEvents (ev : LineEvent) : AddsEvents s (trackLine ev s).1 := by
  have h : AddsEvents s (takeMarks ev (beforeMarks ev s)) := by
    refine (beforeMarks_addsEvents s ev).trans ?_
    generalize beforeMarks ev s = u
    unfold takeMarks
    split
    · exact .refl u
    · split
      · exact .of_eq (by simp [takeDue]; split <;> rfl) (by simp)
      · exact (AddsEvents.of_eq (by simp) (by simp)).trans (actOnMark_addsEvents _ _)
  exact h.trans (.of_eq (afterRecord_port _ ev) (afterRecord_bus _ ev))

/-- R114, R115: offering a frame changes the bus and BUS_QUEUE_DISCARDS alone. -/
theorem offerFrame_eq (f : Frame) : offerFrame f s = { s with
    bus := (offerFrame f s).bus
    counters := { s.counters with busQueueDiscards := (offerFrame f s).counters.busQueueDiscards } } := by
  unfold offerFrame
  dsimp only
  repeat' split
  all_goals simp [bump, addTo, State.updCounters, Counters.set, setTxQueue, State.updBus]

/-- The counts of line events: LINES_ARRIVED, LINES_MISSED and LINES_BLANKED. -/
def lineCounts (s : State) : Word × Word × Word :=
  (s.counters.linesArrived, s.counters.linesMissed, s.counters.linesBlanked)

/-- R179: an event raised counts no line event. -/
@[simp] theorem lineCounts_raise (code : EventCode) (line : Nat) (data : Word) :
    lineCounts (raise code line data s) = lineCounts s := by
  have h1 : lineCounts (reportLocal code line data s) = lineCounts s := by
    unfold reportLocal
    split
    · rw [(offerEvent_eq s _).1]; rfl
    · rfl
  rw [← h1, raise]
  generalize reportLocal code line data s = u
  unfold shareLocal
  repeat' split
  all_goals first | rfl | (rw [offerFrame_eq]; rfl)

/-- R38 to R50: the tracker counts no line event. -/
theorem lineCounts_trackLine (ev : LineEvent) : lineCounts (trackLine ev s).1 = lineCounts s := by
  have hadd : ∀ e s, lineCounts (addOffset e s) = lineCounts s := by
    intro e s; unfold addOffset; repeat' split
    all_goals rfl
  have hlock : ∀ s, lineCounts (lockOn s) = lineCounts s := fun _ => rfl
  have hrep : ∀ s, lineCounts (nextRepeat s) = lineCounts s := fun _ => rfl
  have hupd : ∀ f s, lineCounts (State.updTracker f s) = lineCounts s := fun _ _ => rfl
  have hrej : ∀ s, lineCounts (bump .marksRejected s) = lineCounts s := fun _ => rfl
  have hdis : ∀ n s, lineCounts (addTo .marksDiscarded n s) = lineCounts s := fun _ _ => rfl
  have hdis1 : ∀ s, lineCounts (bump .marksDiscarded s) = lineCounts s := fun _ => rfl
  have hstep : ∀ s, lineCounts (updateStep ev s) = lineCounts s := by
    intro s; unfold updateStep; dsimp only; split <;> simp [hupd]
  have hcoast : ∀ s, lineCounts (coast ev s) = lineCounts s := by
    intro s; simp [coast, hupd]
  have hbefore : ∀ s, lineCounts (beforeMarks ev s) = lineCounts s := by
    intro s; unfold beforeMarks countLine reseek; dsimp only; repeat' split
    all_goals simp [hcoast, hupd]
  have hmark : ∀ s, lineCounts (actOnMark ev s) = lineCounts s := by
    intro s; unfold actOnMark acquireMark acceptMark; dsimp only; repeat' split
    all_goals simp [hlock, hrep, hstep, hadd, hrej]
  have htake : ∀ s, lineCounts (takeMarks ev s) = lineCounts s := by
    intro s; unfold takeMarks takeDue; dsimp only; repeat' split
    all_goals simp [hmark, hdis, hdis1, hupd]
  have hafter : ∀ s, lineCounts (afterRecord ev s) = lineCounts s := by
    intro s; unfold afterRecord; split <;> rfl
  simp [trackLine, hafter, htake, hbefore]

/-- R20, R21, R31: intake counts a line event as arrived or missed, and as blanked. -/
theorem lineCounts_intakeEvent (ev : LineEvent) : lineCounts (intakeEvent ev s) =
    (if ev.arrived then satInc s.counters.linesArrived else s.counters.linesArrived,
     if ev.arrived then s.counters.linesMissed else satInc s.counters.linesMissed,
     if ev.blanked then satInc s.counters.linesBlanked else s.counters.linesBlanked) := by
  unfold intakeEvent countEvent
  dsimp only
  cases ev.arrived <;> cases ev.blanked <;> simp <;> split <;> rfl

/-- R21, R30: intake marks the windows a line lies in as started and drops those it ends. -/
theorem intakeEvent_intake (ev : LineEvent) : (intakeEvent ev s).intake = { s.intake with
    nextLine := ev.line + 1
    windows := dropEnded ev.line (markStarted ev.line s.intake.windows) } := by
  unfold intakeEvent countEvent
  dsimp only
  repeat' split
  all_goals simp [State.updIntake, setWindows, createEntry, updEntry]

/-! ## A line event through the station -/

/-- The row of an entry that a line event and its record write. -/
theorem rows_written (rows : List Row) (k : Nat) (f g : Row → Row) :
    ((rows.modify k f).modify k g).length = rows.length ∧
    (∀ j, j ≠ k → ((rows.modify k f).modify k g)[j]? = rows[j]?) ∧
    ∀ old, rows[k]? = some old → ((rows.modify k f).modify k g)[k]? = some (g (f old)) := by
  refine ⟨by simp, fun j hj => ?_, fun old h => ?_⟩
  · simp [Ne.symm hj]
  · simp [h]

/-- Changing an entry reads nothing but the table. -/
theorem updEntry_table_congr {s t : State} (h : t.table = s.table) (b : Nat) (f : Entry → Entry) :
    (updEntry b f t).table = (updEntry b f s).table := by
  simp [updEntry, State.updTable, h]

/-- What intake does to the Band Table at a line event. -/
theorem intakeEvent_table (ev : LineEvent) : (intakeEvent ev s).table =
    (updEntry (bandOf ev.line) (Entry.updRow (rowOf ev.line) (writeRow ev))
      (if rowOf ev.line = 0 then createEntry (bandOf ev.line) s else s)).table := by
  simp only [intakeEvent, State.updIntake_table]
  refine updEntry_table_congr ?_ _ _
  split
  · simp [createEntry, State.updTable]
  · simp

/-- A record reads and writes of its entry the row of its line and the slots. -/
theorem takeRecord_entry (rec : LineRecord) : ∃ slots : List Slot → List Slot,
    (takeRecord rec s).table =
      (updEntry (bandOf rec.line) (fun e => { e with slots := slots e.slots }) s).table := by
  simp only [takeRecord, scoreRow]
  refine ⟨_, updEntry_table_congr ?_ _ _⟩
  unfold learnFrom contribute writeSums dramWrite repeatEnd
  repeat' split
  all_goals simp

/-- R19, R22, R24, R50, R146: the row that a line event and its record write. -/
theorem rowWritten {line : Nat} {px : Option (List Byte)} {ev : LineEvent} {rec : LineRecord}
    (harr : ev.arrived = px.isSome) (hblank : ev.blanked = blankedAt line s.intake.windows)
    (hpx : ∀ p, px = some p → ev.damaged = decide (min p.length 65535 ≠ s.ctl.cfg.w) ∧
      ev.pixels = p.take s.ctl.cfg.w ++ List.replicate (s.ctl.cfg.w - p.length) 0)
    (hrl : rec.line = line) (e : Entry) (slots : List Slot) : RowWritten line px s rec e
      { recordEntry rec (Entry.updRow (line % 32) (writeRow ev) e) with slots := slots } := by
  obtain ⟨h1, h2, h3⟩ :=
    rows_written e.rows (line % 32) (writeRow ev) (fun r => { r with registered := rec.registered })
  have hrows : (recordEntry rec (Entry.updRow (line % 32) (writeRow ev) e)).rows =
      (e.rows.modify (line % 32) (writeRow ev)).modify (line % 32)
        (fun r => { r with registered := rec.registered }) := by
    unfold recordEntry
    simp only [rowOf, hrl]
    split <;> rfl
  simp only [RowWritten, hrows]
  refine ⟨?_, h1, h2, fun old ho => ?_⟩
  · unfold recordEntry
    simp only [rowOf, hrl]
    split <;> rfl
  · rw [h3 old ho]
    cases px with
    | none => simp [writeRow, harr, rowStateOf, LineRecord.registered]
    | some p =>
      obtain ⟨hd, hp⟩ := hpx p rfl
      have hl : (p.take s.ctl.cfg.w ++ List.replicate (s.ctl.cfg.w - p.length) 0).length = s.ctl.cfg.w := by
        simp
        omega
      simp only [writeRow, harr, rowStateOf, LineRecord.registered, Row.writePixels, Option.isSome_some, if_true,
        hp, hl, hd, hblank]
      simp

/-- R20 to R24, R50, R67, R72, R90: what a line event does before its band is scored. -/
theorem lineTaken {st : Stamp} {px : Option (List Byte)} {ev : LineEvent}
    (hline : ev.line = st.line) (hpos : ev.position = st.position) (harr : ev.arrived = px.isSome)
    (hblank : ev.blanked = blankedAt st.line s.intake.windows)
    (hstart : ev.windowStart = startsAt st.line s.intake.windows)
    (hpx : ∀ p, px = some p → ev.damaged = decide (min p.length 65535 ≠ s.ctl.cfg.w) ∧
      ev.pixels = p.take s.ctl.cfg.w ++ List.replicate (s.ctl.cfg.w - p.length) 0)
    (hnew : st.line % 32 = 0 → findEntry (st.line / 32) s = none)
    (hold : st.line % 32 ≠ 0 → ∃ e, findEntry (st.line / 32) s = some e) :
    ∃ f, LineTaken st px s (takeRecord (trackLine ev (intakeEvent ev s)).2
      (markRegistered (trackLine ev (intakeEvent ev s)).2 (trackLine ev (intakeEvent ev s)).1)) f := by
  generalize hu : intakeEvent ev s = u
  generalize hrec : (trackLine ev u).2 = rec
  have hrl : rec.line = st.line := by rw [← hrec, ← hline]; rfl
  generalize hv : markRegistered rec (trackLine ev u).1 = v
  obtain ⟨slots, htable⟩ := takeRecord_entry v rec
  -- the entry before, the row written, the record kept
  obtain ⟨e, w, hw, hec, hef, hcreated, hsame⟩ : ∃ (e : Entry) (w : State),
      w = (if rowOf ev.line = 0 then createEntry (bandOf ev.line) s else s) ∧
      (st.line % 32 = 0 → EntryCreated (st.line / 32) s e) ∧ findEntry (st.line / 32) w = some e ∧
      (st.line % 32 ≠ 0 → findEntry (st.line / 32) s = some e) ∧
      ∀ b, b ≠ st.line / 32 → findEntry b w = findEntry b s := by
    by_cases h : st.line % 32 = 0
    · obtain ⟨e, he, hfe⟩ := createEntry_created s (hnew h)
      refine ⟨e, createEntry (st.line / 32) s, ?_, fun _ => he, ?_, fun h2 => absurd h h2, ?_⟩
      · simp [rowOf, bandOf, hline, h]
      · simp [hfe]
      · intro b hb
        simp [hfe, hb]
    · obtain ⟨e, he⟩ := hold h
      refine ⟨e, s, ?_, fun h2 => absurd h2 h, he, fun _ => he, fun _ _ => rfl⟩
      simp [rowOf, hline, h]
  have hut : u.table = (updEntry (st.line / 32) (Entry.updRow (st.line % 32) (writeRow ev)) w).table := by
    rw [← hu, intakeEvent_table, hw, hline]; rfl
  have hvt : v.table = (updEntry (st.line / 32) (recordEntry rec)
      (updEntry (st.line / 32) (Entry.updRow (st.line % 32) (writeRow ev)) w)).table := by
    rw [← hv, markRegistered, bandOf, hrl]
    exact updEntry_table_congr (by rw [trackLine_table, hut]) _ _
  have hb1 : ∀ e, (Entry.updRow (st.line % 32) (writeRow ev) e).band = e.band := fun _ => rfl
  have hb2 : ∀ e, (recordEntry rec e).band = e.band := by intro e; unfold recordEntry; dsimp only; split <;> rfl
  have hb3 : ∀ e : Entry, ({ e with slots := slots e.slots } : Entry).band = e.band := fun _ => rfl
  have htt : (takeRecord rec v).table = (updEntry (st.line / 32) (fun e => { e with slots := slots e.slots })
      (updEntry (st.line / 32) (recordEntry rec)
        (updEntry (st.line / 32) (Entry.updRow (st.line % 32) (writeRow ev)) w))).table := by
    rw [htable, bandOf, hrl]
    exact updEntry_table_congr hvt _ _
  have hband : e.band = st.line / 32 := findEntry_band _ hef
  have hfv : findEntry (st.line / 32) v = some (recordEntry rec (Entry.updRow (st.line % 32) (writeRow ev) e)) := by
    rw [findEntry_congr hvt, findEntry_updEntry _ _ _ hb2, findEntry_updEntry _ _ _ hb1, hef]; rfl
  generalize hh : recordEntry rec (Entry.updRow (st.line % 32) (writeRow ev) e) = h at hfv
  have hhslots : h.slots = e.slots := by rw [← hh]; unfold recordEntry; dsimp only; split <;> rfl
  have hhband : h.band = st.line / 32 := by rw [← hh, hb2, hb1, hband]
  have hft : findEntry (st.line / 32) (takeRecord rec v) = some { h with slots := slots h.slots } := by
    rw [findEntry_congr htt, findEntry_updEntry _ _ _ hb3, ← findEntry_congr hvt, hfv]; rfl
  obtain ⟨f, hf⟩ : ∃ f : Entry, f = { h with slots := slots h.slots } := ⟨_, rfl⟩
  rw [← hf] at hft
  have hfband : f.band = st.line / 32 := by rw [hf]; exact hhband
  have hfh : { f with slots := e.slots } = h := by rw [hf, ← hhslots]
  have hti : (takeRecord rec v).intake = { s.intake with
      nextLine := ev.line + 1
      windows := dropEnded ev.line (markStarted ev.line s.intake.windows) } := by
    rw [← intakeEvent_intake, hu]
    simp [← hv]
  have htc : lineCounts (takeRecord rec v) =
      (if ev.arrived then satInc s.counters.linesArrived else s.counters.linesArrived,
       if ev.arrived then s.counters.linesMissed else satInc s.counters.linesMissed,
       if ev.blanked then satInc s.counters.linesBlanked else s.counters.linesBlanked) := by
    rw [← lineCounts_intakeEvent, hu, ← lineCounts_trackLine u ev]
    simp [lineCounts, ← hv]
  refine ⟨f, e, rec, hec, hcreated, ?_, ?_, ?_, hfband, ?_, ?_, ?_, ?_, ?_, ?_, ?_, ?_, ?_, ?_, ?_, ?_,
    ?_⟩
  · refine ⟨ev, u, hline, hpos, harr, hblank, ?_, by simp [← hu], by simp [← hu],
      by simp [← hu], by simp [← hu], hrec.symm, by simp [← hv], by simp [← hv], ?_⟩
    · rw [hstart]
      simp [startsAt, Window.holds, and_comm, and_assoc]
    · have := (trackLine_addsEvents u ev).1
      simpa [← hv, ← hu] using this
  · rw [hf, ← hh]
    exact rowWritten s harr hblank hpx hrl e _
  · exact ⟨v, by simp [← hv, ← hu], by simp [← hv, ← hu], by simp [← hv, ← hu], 
      by rw [hfh, hfband, hfv], by rw [hfband, hft], rfl, rfl⟩
  · rw [hfband, hft]
  · intro b hb
    have hb : b ≠ st.line / 32 := fun h2 => hb (h2.trans hfband.symm)
    rw [findEntry_congr htt, findEntry_updEntry_ne _ _ hb3 hb, findEntry_updEntry_ne _ _ hb2 hb,
      findEntry_updEntry_ne _ _ hb1 hb, hsame b hb]
  · rw [htt, updEntry_bands _ _ _ hb3, updEntry_bands _ _ _ hb2, updEntry_bands _ _ _ hb1, hw]
    rw [hfband]
    by_cases h0 : st.line % 32 = 0 <;> simp [rowOf, bandOf, hline, h0, createEntry, State.updTable, newEntry]
  · intro h0
    rw [htt, updEntry_table, updEntry_table _ _ (recordEntry rec), updEntry_table _ _ (Entry.updRow _ _), hw]
    simp [rowOf, hline, h0]
  · intro h0
    rw [htt, updEntry_table, updEntry_table _ _ (recordEntry rec), updEntry_table _ _ (Entry.updRow _ _), hw]
    rw [hfband]
    simp [rowOf, bandOf, hline, h0, createEntry, State.updTable, dropEarly, bne, beq_eq_decide]
  · rw [show (takeRecord rec v).intake = (trackLine ev u).1.intake by simp [← hv], trackLine_intake, ← hu]
    simp [intakeEvent, hline]
  · rw [hti]
    simp [dropEnded, markStarted, Window.holds, hline]
  · rw [hti]
    exact fun _ => ⟨rfl, rfl⟩
  · rw [hblank] at htc
    exact congrArg (·.2.2) htc
  · rw [harr] at htc
    exact congrArg (·.2.1) htc
  · rw [harr] at htc
    exact congrArg (·.1) htc
  · have := (trackLine_addsEvents u ev).2
    simpa [← hv, ← hu] using this
  · simp [← hv, ← hu]

/-- A line event reads neither the encoder nor the outputs, of the counters only those it counts in, and of an arrival
not the line buffer. -/
theorem LineTaken.of_eq {st : Stamp} {px : Option (List Byte)} {s s' t : State} {f : Entry}
    (h : LineTaken st px s' t f) (hwindows : s'.intake.windows = s.intake.windows)
    (htracker : s'.tracker = s.tracker) (href : s'.ref = s.ref) (htable : s'.table = s.table)
    (hbus : s'.bus = s.bus) (hport : s'.port = s.port) (hctl : s'.ctl = s.ctl) (hdram : s'.dram = s.dram)
    (hcounts : lineCounts s' = lineCounts s)
    (hbuffer : px = none → s'.intake.buffer = s.intake.buffer ∧ s'.intake.count = s.intake.count) :
    LineTaken st px s t f := by
  simp only [lineCounts, Prod.mk.injEq] at hcounts
  obtain ⟨e, record, h1, h2, h3, h4, h5, h6, h7, h8, h9, h10, h11, h12, h13, h14, h15⟩ := h
  have hb : px = none → t.intake.buffer = s.intake.buffer ∧ t.intake.count = s.intake.count := fun h =>
    ⟨(h14 h).1.trans (hbuffer h).1, (h14 h).2.trans (hbuffer h).2⟩
  simp only [EntryCreated, LineTracked, RowWritten, RecordTaken, findEntry, hwindows, htracker, href, htable, hbus,
    hport, hctl, hdram, hcounts.1, hcounts.2.1, hcounts.2.2] at h1 h2 h3 h4 h5 h6 h7 h8 h9 h10 h11 h12 h13 h15
  exact ⟨e, record, h1, h2, h3, h4, h5, h6, h7, h8, h9, h10, h11, h12, h13, hb, h15⟩

/-- R19: the pixels of an arrival, cut or padded to W. -/
theorem adjustTo_stored (c : StationConfig) (p : List Byte) :
    adjustTo c.w (stored p) = p.take c.w ++ List.replicate (c.w - p.length) 0 := by
  have := c.fits.2
  simp only [adjustTo, stored, List.take_take, List.length_take]
  congr 2 <;> omega

/-! ## The scoring of a band -/

/-- R92: the zone list of scored slots. -/
theorem zoneSent_map (slots : List Slot) : ZoneSent slots (slots.map zoneCode) := by
  refine ⟨by simp, fun i slot res h1 h2 => ?_⟩
  simp [h1, zoneCode, h2, byte]

/-- R74, R91, R92, R102: what the scoring of a band does, no close being under way. -/
theorem scoreEntry_scored {b c : Nat} {f : Entry} (hf : findEntry b s = some f)
    (hc : Consecutive c s.table.entries) :
    ∃ (g : Entry) (level : Nat) (v : State) (closed : List Entry), LevelOf (fill s) level ∧
      g = { f with
        slots := f.slots.map fun x =>
          { x with result := some (scoreSlot s.ctl.cfg (decide (s.ref.state = .ready)) x) }
        announced := some level
        state := .scored
        summarySent := decide (s.bus.op = .running ∧ (s.bus.left ≠ none ∨ s.bus.right ≠ none)) } ∧
      v = { s with
        table := { s.table with
          entries := s.table.entries.map fun x => if x.band = f.band then g else x }
        bus := v.bus
        counters := { s.counters with busQueueDiscards := v.counters.busQueueDiscards } } ∧
      (g.summarySent = true → SummaryHandedOn g level s v) ∧
      (g.summarySent = false → v.bus = s.bus ∧ v.counters = s.counters) ∧
      ClosesInTurn v closed (scoreEntry b s) ∧ closed.Pairwise fun a b => a.band < b.band := by
  have hb : f.band = b := findEntry_band s hf
  subst hb
  have hsent : makesSummary s = decide (s.bus.op = .running ∧ (s.bus.left ≠ none ∨ s.bus.right ≠ none)) := by
    rw [Bool.eq_iff_iff]
    simp [makesSummary, and_comm, Option.isSome_iff_ne_none]
  have hready : (s.ref.state == .ready) = decide (s.ref.state = .ready) := by
    rw [Bool.eq_iff_iff]; simp
  obtain ⟨g, hg⟩ : ∃ g, g = scoredEntry s f := ⟨_, rfl⟩
  obtain ⟨s1, hs1⟩ : ∃ s1, s1 = updEntry f.band (fun _ => g) s := ⟨_, rfl⟩
  obtain ⟨v, hv⟩ : ∃ v, v = if makesSummary s then offerFrame (summaryFrameOf s g) s1 else s1 := ⟨_, rfl⟩
  have hgeq : g = { f with
      slots := f.slots.map fun x =>
        { x with result := some (scoreSlot s.ctl.cfg (decide (s.ref.state = .ready)) x) }
      announced := some (pressure s)
      state := .scored
      summarySent := decide (s.bus.op = .running ∧ (s.bus.left ≠ none ∨ s.bus.right ≠ none)) } := by
    rw [hg, scoredEntry, hsent, hready]
    rfl
  have hgs : g.summarySent = makesSummary s := by rw [hsent, hgeq]
  have hgb : g.band = f.band := by rw [hgeq]
  have hga : g.announced = some (pressure s) := by rw [hgeq]
  have hs1t : s1.table = { s.table with
      entries := s.table.entries.map fun x => if x.band = f.band then g else x } := by
    rw [hs1]
    rfl
  have hvt : v.table = s1.table := by rw [hv]; split <;> simp
  obtain ⟨closed, hclosed⟩ := closingTest_closesInTurn v
  have hcons : Consecutive c v.table.entries := by
    rw [hvt, hs1t]
    have : ∀ (l : List Entry) (c : Nat), Consecutive c l →
        Consecutive c (l.map fun x => if x.band = f.band then g else x) := by
      intro l
      induction l with
      | nil => exact fun _ _ => trivial
      | cons x xs ih =>
        intro c h
        refine ⟨?_, ih _ h.2⟩
        change (if x.band = f.band then g else x).band = c
        split
        · rename_i hx; rw [hgb, ← hx]; exact h.1
        · exact h.1
    exact this _ _ hc
  refine ⟨g, pressure s, v, closed, levelOf_spec _, hgeq, ?_, ?_, ?_, ?_, closesInTurn_pairwise _ hclosed hcons⟩
  · by_cases hm : makesSummary s = true
    · rw [hv, if_pos hm]
      exact (offerFrame_eq s1 _).trans (by rw [hs1]; rfl)
    · rw [hv, if_neg hm, hs1]
      rfl
  · intro h
    have hm : makesSummary s = true := hgs ▸ h
    refine ⟨leftZone s.bus.left g.slots, rightZone s.bus.right g.slots, ?_, ?_, ?_, ?_, ?_⟩
    · intro h; rw [h]; rfl
    · intro h; rw [h]; rfl
    · intro n h; rw [h]; exact zoneSent_map _
    · intro n h; rw [h]; exact zoneSent_map _
    · have := offerFrame_offered s1 (summaryFrameOf s g)
      rw [hv, if_pos hm]
      rw [show s1.bus = s.bus by simp [hs1], show s1.counters = s.counters by simp [hs1]] at this
      simpa [summaryFrameOf, hga, byte] using this
  · intro h
    have hm : ¬ makesSummary s = true := by rw [← hgs, h]; simp
    rw [hv, if_neg hm]
    simp [hs1]
  · simp only [scoreEntry, hf]
    rw [← hg, ← hs1, ← hv]
    exact hclosed

/-- R98: an entry still FILLING is found when the entries before it have closed. -/
theorem findEntry_drop {b : Nat} {f : Entry} {s t : State} {closed : List Entry}
    (hf : findEntry b s = some f) (hfill : f.state = .filling) (hes : s.table.entries = closed ++ t.table.entries)
    (hclosed : ∀ e ∈ closed, e.state = .scored) : findEntry b t = some f := by
  simp only [findEntry, hes, List.find?_append] at *
  cases hx : closed.find? fun e => e.band == b with
  | none => simpa [hx] using hf
  | some x =>
    simp only [hx, Option.some_or, Option.some.injEq] at hf
    have := hclosed x (List.mem_of_find?_eq_some hx)
    rw [hf, hfill] at this
    cases this

/-- R74, R91, R92, R102, R131: what the scoring of a band does. -/
theorem scoreBand_scored {b c : Nat} {f : Entry} (hf : findEntry b s = some f) (hfill : f.state = .filling)
    (hc : Consecutive c s.table.entries) : ∃ g, BandScored f g s (scoreBand b s) := by
  have ha := finishCloses_ended s hc
  obtain ⟨-, gone, hes, hgone, hcons⟩ := ha.split hc
  obtain ⟨g, level, v, closed, h1, h2, h3, h4, h5, h6, h7⟩ :=
    scoreEntry_scored (finishCloses s) (findEntry_drop hf hfill hes hgone) hcons
  exact ⟨g, level, finishCloses s, v, closed, ha, h1, by simpa using h2, h3, h4, h5, h6, h7⟩

/-- Consecutive bands are a matter of the band numbers alone. -/
theorem consecutive_congr {c : Nat} {l l' : List Entry} (h : l'.map (·.band) = l.map (·.band))
    (hc : Consecutive c l) : Consecutive c l' := by
  induction l generalizing c l' with
  | nil => simp only [List.map_nil, List.map_eq_nil_iff] at h; rw [h]; trivial
  | cons x xs ih =>
    cases l' with
    | nil => simp at h
    | cons y ys =>
      simp only [List.map_cons, List.cons.injEq] at h
      exact ⟨h.1.trans hc.1, ih h.2 hc.2⟩

/-- R20 to R24, R50, R91, R98: one line event through the whole station. -/
theorem takeLine_through {st : Stamp} {px : Option (List Byte)} {ev : LineEvent} {c : Nat}
    (hline : ev.line = st.line) (hpos : ev.position = st.position) (harr : ev.arrived = px.isSome)
    (hblank : ev.blanked = blankedAt st.line s.intake.windows)
    (hstart : ev.windowStart = startsAt st.line s.intake.windows)
    (hpx : ∀ p, px = some p → ev.damaged = decide (min p.length 65535 ≠ s.ctl.cfg.w) ∧
      ev.pixels = p.take s.ctl.cfg.w ++ List.replicate (s.ctl.cfg.w - p.length) 0)
    (hnew : st.line % 32 = 0 → findEntry (st.line / 32) s = none)
    (hold : st.line % 32 ≠ 0 → ∃ e, findEntry (st.line / 32) s = some e ∧ e.state = .filling)
    (hc : st.line % 32 = 31 → Consecutive c s.table.entries) : LineThrough st px s (takeLine ev s) := by
  obtain ⟨f, hf⟩ := lineTaken s hline hpos harr hblank hstart hpx hnew fun h => (hold h).imp fun _ h => h.1
  refine ⟨_, f, hf, fun h => ?_, fun h => ?_⟩
  · simp [takeLine, afterRow, rowOf, hline, h]
  · obtain ⟨e, rec, -, hfe, -, hrw, -, hfb, hff, -, hbands, -⟩ := hf
    have hfill : f.state = .filling := by
      obtain ⟨x, hx, hxs⟩ := hold (by omega)
      rw [hfe (by omega)] at hx
      cases hx
      rw [hrw.1]
      exact hxs
    simp only [takeLine, afterRow, rowOf, hline, h, if_true]
    refine scoreBand_scored _ (c := c) (by rw [← hff, hfb]; rfl) hfill (consecutive_congr ?_ (hc h))
    rw [hbands]
    simp [h]

/-! ## The end of the run -/

/-- What closes in turn leaves every block but the table, the port, the counters and the outputs. -/
theorem closesInTurn_frame {closed : List Entry} {t : State} (h : ClosesInTurn s closed t) :
    t.encoder = s.encoder ∧ t.intake = s.intake ∧ t.tracker = s.tracker ∧ t.ref = s.ref ∧ t.bus = s.bus ∧
    t.ctl = s.ctl ∧ t.dram = s.dram ∧ t.powerCycles = s.powerCycles ∧ t.draws = s.draws ∧ t.pending = s.pending := by
  induction closed generalizing s with
  | nil => rw [h.1]; simp
  | cons e es ih =>
    have := ih (closeEntry e s) h.2.2.2
    simpa using this

/-- R98, R102: a closing test in STOPPING that no command falls into leaves no SCORED entry first. -/
theorem closesInTurn_head {closed : List Entry} {t : State} {c : Nat} (h : ClosesInTurn s closed t)
    (hop : s.bus.op = .stopping) (hc : Consecutive c s.table.entries) (hn : t.port.offering = none) {x : Entry}
    {xs : List Entry} (hx : t.table.entries = x :: xs) : x.state ≠ .scored := by
  have hend : t.port.offering ≠ none ∨ ∀ e ∈ t.table.entries, ¬ MayClose t e := by
    clear hop hc
    induction closed generalizing s with
    | nil => rw [h.1]; exact h.2
    | cons e es ih => exact ih _ h.2.2.2
  intro hs
  rcases hend with h1 | h1
  · exact h1 hn
  · refine h1 x (by simp [hx]) ⟨hs, fun y hy hb => ?_, .inr (.inr ?_)⟩
    · have hc' := (closesInTurn_split s h hc).2.2
      have := (consecutive_bands hc' hy).1
      rw [hx] at hc'
      have := hc'.1
      omega
    · rw [(closesInTurn_frame s h).2.2.2.2.1, hop]

/-- R98, R102: in STOPPING every SCORED entry closes, and the FILLING entries above them stay, unless a command falls
in. -/
theorem closesInTurn_stopping {closed scored rest : List Entry} {t : State} {c : Nat}
    (h : ClosesInTurn s closed t) (hop : s.bus.op = .stopping) (hes : s.table.entries = scored ++ rest)
    (hc : Consecutive c s.table.entries) (hscored : ∀ e ∈ scored, e.state = .scored)
    (hrest : ∀ e ∈ rest, e.state = .filling) (hn : t.port.offering = none) : t.table.entries = rest := by
  obtain ⟨h1, h2, -⟩ := closesInTurn_split s h hc
  rw [hes] at h1
  rcases List.append_eq_append_iff.mp h1 with ⟨more, h3, h4⟩ | ⟨more, h3, h4⟩
  · -- what closed reaches into the FILLING entries: then it does not
    cases more with
    | nil => rw [h4]; rfl
    | cons x xs =>
      have h5 := h2 x (by simp [h3])
      rw [hrest x (by simp [h4])] at h5
      cases h5
  · cases more with
    | nil => rw [h4]; rfl
    | cons x xs =>
      exact absurd (hscored x (by simp [h3])) (closesInTurn_head s h hop hc hn (x := x) (xs := xs ++ rest) h4)

/-- R100, R151: a close leaves a record queued, the BAND record fitting when nothing else is queued, or an offer to
come. -/
theorem closeEntry_offers (e : Entry) :
    (closeEntry e s).port.queue ≠ [] ∨ (closeEntry e s).port.offering ≠ none := by
  have h : (closeEntry e s).port = (steer (closeView s e) s).port := rfl
  rw [h, steer]
  split
  · left
    rw [offerRest, offerBand_queue]
    split
    · simp
    · rename_i h
      intro h0
      simp [fits, fill, h0, queueSize, Rec.size, capacity] at h
  · right
    simp [offerSome]

/-- R102: in STOPPING, with no SCORED entry left, at most one entry is open, the one still FILLING. -/
def OneFilling (s : State) : Prop :=
  s.bus.op = .stopping ∧
    (s.table.entries = [] ∨ ∃ f, s.table.entries = [f] ∧ f.state = .filling)

/-- R102: then, when the next line is `n`, it is the entry of that line's band, if the line is not its first. -/
def StoppingAt (n : Nat) (s : State) : Prop :=
  s.bus.op = .stopping ∧
  if n % 32 = 0 then s.table.entries = []
  else ∃ f, s.table.entries = [f] ∧ f.state = .filling ∧ f.band = n / 32

/-- StoppingAt is the more precise. -/
theorem StoppingAt.oneFilling {n : Nat} {s : State} (h : StoppingAt n s) : OneFilling s := by
  refine ⟨h.1, ?_⟩
  have := h.2
  split at this
  · exact .inl this
  · obtain ⟨f, h1, h2, -⟩ := this
    exact .inr ⟨f, h1, h2⟩

/-- R102: in STOPPING the one open entry, once scored, closes, its summary not sent. -/
theorem scored_stopping {f g : Entry} {t : State} (h : BandScored f g s t) (hop : s.bus.op = .stopping)
    (hes : s.table.entries = [f]) (hfill : f.state = .filling) :
    t.bus.op = .stopping ∧ t.table.entries = [] ∧ g.summarySent = false := by
  obtain ⟨level, a, v, closed, ha, -, hg, hv, -, hns, hclosed, -⟩ := h
  have hgs : g.summarySent = false := by rw [hg]; simp [hop]
  obtain ⟨hao, gone, hae, hgone, -⟩ := ha.split (c := f.band) (by rw [hes]; exact ⟨rfl, trivial⟩)
  have hae' : a.table.entries = [f] := by
    rw [hes] at hae
    cases gone with
    | nil => exact hae.symm
    | cons x xs =>
      simp at hae
      have := hgone x (by simp)
      rw [← hae.1, hfill] at this
      cases this
  have hab : a.bus = s.bus := by
    cases ho : s.port.offering with
    | none => rw [ha.1 ho]
    | some o =>
      obtain ⟨u, w, es, h1, h2, -, -, rfl⟩ := ha.2 o ho
      rw [show ({ w with overlap := s.overlap } : State).bus = w.bus from rfl,
        (closesInTurn_frame u h2).2.2.2.2.1, h1.keeps]
  have hvb : v.bus.op = .stopping := by rw [(hns hgs).1, hab, hop]
  have hve : v.table.entries = [g] := by rw [hv, hae']; simp
  have hvo : v.port.offering = none := by rw [hv]; exact hao
  have hvc : Consecutive g.band v.table.entries := by rw [hve]; exact ⟨rfl, trivial⟩
  refine ⟨by rw [(closesInTurn_frame v hclosed).2.2.2.2.1, hvb], ?_, hgs⟩
  have hsplit := (closesInTurn_split v hclosed hvc).1
  rw [hve] at hsplit
  cases closed with
  | nil =>
    have htv : t = v := hclosed.1
    have hgsc : g.state = .scored := by rw [hg]
    exact absurd hgsc (closesInTurn_head v hclosed hvb hvc (htv ▸ hvo) (htv ▸ hve))
  | cons x xs =>
    simp at hsplit
    exact hsplit.2.2

/-- The one open entry is found under its band. -/
theorem findEntry_single {f : Entry} {b : Nat} (hes : s.table.entries = [f]) (hb : f.band = b) :
    findEntry b s = some f := by simp [findEntry, hes, hb]

/-- The one open entry is the one found under its band. -/
theorem entries_of_bands {l : List Entry} {f : Entry} {b : Nat} (h : l.map (·.band) = [b])
    (hf : l.find? (fun e => e.band == b) = some f) : l = [f] := by
  match l, h with
  | [x], h =>
    simp at h
    simp [h] at hf
    rw [hf]

/-- R14, R102: a stamp retired in STOPPING. -/
theorem missLine_through {st : Stamp} (h : StoppingAt st.line s) :
    LineThrough st none s (missLine st s) ∧ StoppingAt (st.line + 1) (missLine st s) := by
  obtain ⟨hop, hes⟩ := h
  have hnew : st.line % 32 = 0 → findEntry (st.line / 32) s = none := by
    intro h0; rw [if_pos h0] at hes; simp [findEntry, hes]
  have hold : st.line % 32 ≠ 0 → ∃ e, findEntry (st.line / 32) s = some e ∧ e.state = .filling := by
    intro h0; rw [if_neg h0] at hes
    obtain ⟨f, h1, h2, h3⟩ := hes
    exact ⟨f, findEntry_single s h1 h3, h2⟩
  have hc : st.line % 32 = 31 → Consecutive (st.line / 32) s.table.entries := by
    intro h0; rw [if_neg (by omega)] at hes
    obtain ⟨f, h1, -, h3⟩ := hes
    rw [h1]; exact ⟨h3, trivial⟩
  have hth : LineThrough st none s (missLine st s) :=
    takeLine_through s (ev := lineEventOf st false [] false s) (c := st.line / 32) rfl rfl rfl rfl rfl nofun hnew
      hold hc
  refine ⟨hth, ?_⟩
  obtain ⟨u, f, ⟨e, rec, hcr, hfe, -, hrw, -, hfb, hff, -, hbands, -, -, -, -, -, -, -, -, hub,
    -⟩, h1, h2⟩ := hth
  have hue : u.table.entries = [f] := by
    refine entries_of_bands (b := f.band) ?_ hff
    rw [hbands]
    by_cases h0 : st.line % 32 = 0
    · rw [if_pos h0] at hes; simp [hes, h0]
    · rw [if_neg h0] at hes
      obtain ⟨x, hx, -, hxb⟩ := hes
      simp [hx, h0, hxb, hfb]
  have hfs : f.state = .filling := by
    rw [hrw.1]
    by_cases h0 : st.line % 32 = 0
    · exact (hcr h0).2.1
    · obtain ⟨x, hx, hxs⟩ := hold h0
      rw [hfe h0] at hx
      cases hx
      exact hxs
  by_cases h31 : st.line % 32 = 31
  · obtain ⟨g, hg⟩ := h2 h31
    obtain ⟨k1, k2, -⟩ := scored_stopping u hg (by rw [hub, hop]) hue hfs
    exact ⟨k1, by rw [if_pos (by omega)]; exact k2⟩
  · rw [h1 h31]
    exact ⟨by rw [hub, hop], by rw [if_neg (by omega)]; exact ⟨f, hue, hfs, by omega⟩⟩

/-- R14, R102: the stamps retired in STOPPING: all of them, the entry then still FILLING being scored, or those that
come before a close that other commands fall into. -/
theorem retireStamps_retired {l : List Stamp} {n : Nat}
    (h : s.port.offering = none → OneFilling s ∧ (l ≠ [] → StoppingAt n s))
    (hl : ∀ i, (hi : i < l.length) → l[i].line = n + i) :
    ∃ (now rest : List Stamp) (v : State), l = now ++ rest ∧ LinesRetired now s v ∧
      (∀ o, v.port.offering = some o →
        retireStamps l s = { v with port := { v.port with offering := some { o with retired := rest } } }) ∧
      (v.port.offering = none → rest = [] ∧ OneFilling v ∧ retireStamps l s = scoreFilling v) := by
  have wait : ∀ o, s.port.offering = some o → keepRetired l s =
      { s with port := { s.port with offering := some { o with retired := l } } } := by
    intro o ho
    simp [keepRetired, State.updPort, ho]
  cases ho : s.port.offering with
  | some o =>
    refine ⟨[], l, s, rfl, rfl, fun o' ho' => ?_, fun h => by rw [ho] at h; cases h⟩
    rw [← wait o' ho']
    cases l <;> simp [retireStamps, ho]
  | none =>
    obtain ⟨h1, h2⟩ := h ho
    induction l generalizing s n with
    | nil =>
      exact ⟨[], [], s, rfl, rfl, fun o h => (by rw [ho] at h; cases h),
        fun _ => ⟨rfl, h1, by simp [retireStamps, ho]⟩⟩
    | cons x xs ih =>
      have hx : x.line = n := hl 0 (by simp)
      obtain ⟨k1, k2⟩ := missLine_through s (st := x) (by rw [hx]; exact h2 (by simp))
      have hr : retireStamps (x :: xs) s = retireStamps xs (missLine x s) := by simp [retireStamps, ho]
      have hl' : ∀ i, (hi : i < xs.length) → xs[i].line = n + 1 + i := fun i hi => by
        have := hl (i + 1) (by simp; omega)
        simp at this; omega
      rw [hx] at k2
      rw [hr]
      cases hm : (missLine x s).port.offering with
      | some o =>
        refine ⟨[x], xs, missLine x s, rfl, ⟨ho, _, k1, rfl⟩, fun o' ho' => ?_, fun h => by rw [hm] at h; cases h⟩
        have : retireStamps xs (missLine x s) = keepRetired xs (missLine x s) := by
          cases xs <;> simp [retireStamps, hm]
        rw [this]
        simp [keepRetired, State.updPort, ho']
      | none =>
        obtain ⟨now, rest, v, e1, e2, e3, e4⟩ := ih (missLine x s) (n := n + 1)
          (fun _ => ⟨k2.oneFilling, fun _ => k2⟩) hl' (fun o h => by rw [hm] at h; cases h) hm k2.oneFilling
          (fun _ => k2)
        exact ⟨x :: now, rest, v, by rw [e1]; rfl, ⟨ho, _, k1, e2⟩, e3, e4⟩

/-- Consecutive bands put together. -/
theorem consecutive_append {c : Nat} {l l' : List Entry} (h : Consecutive c l)
    (h' : Consecutive (c + l.length) l') : Consecutive c (l ++ l') := by
  induction l generalizing c with
  | nil => exact h'
  | cons x xs ih => exact ⟨h.1, ih h.2 (by simpa [Nat.add_assoc, Nat.add_comm 1] using h')⟩

/-- R14, R98, R102: what is due at the Band Table in STOPPING, with the stamps `l` still to be retired: the open
entries are in order, or there are none and no stamp. -/
theorem windUp_bandsEnd {l : List Stamp} {n hs : Nat} (hop : s.bus.op = .stopping)
    (hes : (l = [] ∧ s.table.entries = []) ∨ BandsInOrder n hs s.table.entries)
    (hl : ∀ i, (hi : i < l.length) → l[i].line = n + i) : BandsEnd l s (windUp l s) := by
  obtain ⟨scored, rest, c, hsplit, hcons, hscored, hrest⟩ : ∃ (scored rest : List Entry) (c : Nat),
      s.table.entries = scored ++ rest ∧ Consecutive c s.table.entries ∧ (∀ e ∈ scored, e.state = .scored) ∧
      ((l = [] ∧ rest = []) ∨
        if n % 32 = 0 then rest = [] else ∃ f, rest = [f] ∧ f.state = .filling ∧ f.band = n / 32) := by
    rcases hes with ⟨h1, h2⟩ | ⟨scored, -, hscored, hlen, hcons, hes⟩
    · exact ⟨[], [], 0, h2, by rw [h2]; trivial, nofun, .inl ⟨h1, rfl⟩⟩
    · by_cases h0 : n % 32 = 0
      · rw [if_pos h0] at hes
        exact ⟨scored, [], _, by simp [hes], by rw [hes]; exact hcons, hscored, .inr (by simp [h0])⟩
      · rw [if_neg h0] at hes
        obtain ⟨f, h1, h2, h3⟩ := hes
        refine ⟨scored, [f], bandOf n - scored.length, h1, ?_, hscored, .inr (by rw [if_neg h0]; exact ⟨f, rfl, h2, h3⟩)⟩
        rw [h1]
        exact consecutive_append hcons ⟨by rw [h3]; simp only [bandOf] at *; omega, trivial⟩
  have hfill : ∀ e ∈ rest, e.state = .filling := by
    rcases hrest with ⟨-, h⟩ | h
    · simp [h]
    · split at h
      · simp [h]
      · obtain ⟨f, h1, h2, -⟩ := h
        simp [h1, h2]
  obtain ⟨closed, hclosed⟩ := closingTest_closesInTurn s
  have hub : (closingTest s).bus.op = .stopping := by simpa using hop
  obtain ⟨now, later, v, h1, h2, h3, h4⟩ := retireStamps_retired (closingTest s) (l := l) (n := n) (fun hn => by
    have hue := closesInTurn_stopping s hclosed hop hsplit hcons hscored hfill hn
    rcases hrest with ⟨h1, h2⟩ | h
    · exact ⟨⟨hub, .inl (by rw [hue, h2])⟩, fun h => absurd h1 h⟩
    · have : StoppingAt n (closingTest s) := ⟨hub, by rw [hue]; exact h⟩
      exact ⟨this.oneFilling, fun _ => this⟩) hl
  have hw : windUp l s = retireStamps l (closingTest s) := by rw [windUp, if_pos hop]
  rw [hw]
  refine ⟨closed, now, later, _, v, h1, hclosed, closesInTurn_pairwise s hclosed hcons, h2, h3, fun hn => ?_⟩
  obtain ⟨k1, ⟨hvo, hve⟩, k3⟩ := h4 hn
  rw [k3]
  rcases hve with hve | ⟨f, m1, m2⟩
  · have hz : scoreFilling v = v := by simp [scoreFilling, fillingBand, hve]
    exact ⟨k1, fun _ => hz, by simp [hve]⟩
  · have hz : scoreFilling v = scoreBand f.band v := by simp [scoreFilling, fillingBand, m1, m2]
    obtain ⟨g, hg⟩ := scoreBand_scored v (findEntry_single v m1 rfl) m2 (c := f.band)
      (by rw [m1]; exact ⟨rfl, trivial⟩)
    obtain ⟨-, -, hgs⟩ := scored_stopping v hg hvo m1 m2
    rw [hz]
    refine ⟨k1, fun h => absurd m2 (h f (by simp [m1])), fun x hx _ => ?_⟩
    rw [m1] at hx
    simp at hx
    subst hx
    exact ⟨g, hgs, hg⟩

/-- R14, R102: the entry to STOPPING. -/
theorem enterStopping_bandsEnd (hs : RunOk s) (hop : s.bus.op = .running) :
    BandsEnd s.encoder.stamps (emptyStamps (setOp .stopping s)) (enterStopping s) := by
  obtain ⟨-, -, hrun⟩ := hs
  rw [hop] at hrun
  exact windUp_bandsEnd (emptyStamps (setOp .stopping s)) (by simp [setOp]) (.inr hrun.2) hrun.1.2.1

/-- R98, R102, R148: the last offer of a close that other commands fell into, and what waited for the close. -/
theorem nextOffer_ended {o : Offering} (h : s.port.offering = some o) (ha : o.actions = []) :
    ∃ u, OffersMade o { s with port := { s.port with offering := none } } u ∧
      (s.bus.op ≠ .stopping → ∃ closed, ClosesInTurn u closed (nextOffer s)) ∧
      (s.bus.op = .stopping → RunOk s → BandsEnd o.retired u (nextOffer s)) := by
  have hn : nextOffer s = windUp o.retired (endOffers o s) := by simp [nextOffer, h, ha]
  refine ⟨endOffers o s, endOffers_made s o, fun hop => ?_, fun hop hs => ?_⟩
  · rw [hn, windUp, if_neg (by simpa using hop)]
    exact closingTest_closesInTurn _
  · obtain ⟨-, -, hrun⟩ := hs
    rw [hop] at hrun
    obtain ⟨-, -, hrun⟩ := hrun
    obtain ⟨⟨-, hl, -⟩, hes⟩ := hrun o h
    rw [hn]
    exact windUp_bandsEnd (endOffers o s) (by simpa using hop) (by simpa using hes) hl

end Sys2Proof.Machine
end

