-- ==== Sys2Proof/WellFormed.lean ====
section
/-! DEFINITION. The commands whose operands have the form the manual gives them.  `exec` has a meaning for
every command; this check names the operands no pin, line or window can supply. -/

namespace Sys2Proof

/-- The bits of a frame's arbitration field (R107). -/
def arbitrationBits : Nat := 8

/-- The bits of a frame up to its last CRC bit at the greatest Length, 255 (R107, R108). -/
def frameBits : Nat := 8 + 8 + 8 * 255 + 16

/-- The bytes of the host window (R169). -/
def windowBytes : Nat := 512

/-- R169: whether a run of window bytes reaches the four bytes from `field`, whose write is a command of its
own (the command code at 0x2C, the grant tag at 0x4C). -/
def touchesField (field offset length : Nat) : Bool :=
  decide (offset < field + 4) && decide (field < offset + length)

/-- Whether a command's operands are in form. -/
def WellFormed : Instr → Bool
  | .powerOn _ _ => true
  | .encoderStep _ => true
  | .lineArrival _ => true
  | .localSplice => true
  | .localMark => true
  | .frameTransmitStart => true
  | .arbitrationLost bit => decide (bit < arbitrationBits)
  | .bitError bit => decide (arbitrationBits ≤ bit) && decide (bit < frameBits)
  | .badFrame frame =>
    decide (frame.body.length = frame.length.toNat) && (Machine.readFrame frame).isNone
  | .haltFrame _ => true
  | .runFrame _ => true
  | .alertFrame _ _ _ => true
  | .summaryFrame sender band pressure left right =>
    (Machine.HeardFrame.summary sender band pressure left right).wellFormed
  | .spanFrame sender c0 w fingerprint => (Machine.HeardFrame.span sender c0 w fingerprint).wellFormed
  | .enrollmentWindowExpiry => true
  | .configure => true
  | .configureReadDone _ => true
  | .start => true
  | .halt => true
  | .learn => true
  | .snapshot => true
  | .snapshotWriteDone => true
  | .clear => true
  | .reset => true
  | .unknownCommand code => decide (code.toNat = 0) || decide (8 ≤ code.toNat)
  | .windowWrite offset data =>
    decide (offset + data.length ≤ windowBytes) && !touchesField 0x2C offset data.length &&
      !touchesField 0x4C offset data.length
  | .grantSubmit _ => true
  | .grantOpen => true
  | .recordWrite => true
  | .grantFlushTimerExpiry => true
  | .finaliseLine => true
  | .linkLoss => true
  | .linkUp => true
  | .lineIdle => true

end Sys2Proof
end

