-- ==== Sys2Proof/Tests/Slice0.lean ====
section
/-! SUPPORT. Tests: the refusals of WellFormed, single steps against the manual's worked examples, and a
witness for the hypotheses of every statement. -/

namespace Sys2Proof.Tests

open Sys2Proof Sys2Proof.Machine

-- Each `decide +kernel` waits for the kernel: one after another, not one thread each.
set_option Elab.async false

/-! ## WellFormed refuses an ill-formed command of each kind -/

theorem test_wf_arbitration_bit : WellFormed (.arbitrationLost 7) = true ∧ WellFormed (.arbitrationLost 8) = false := by decide
theorem test_wf_error_bit : WellFormed (.bitError 8) = true ∧ WellFormed (.bitError 7) = false ∧ WellFormed (.bitError 2072) = false := by decide
theorem test_wf_bad_frame_length : WellFormed (.badFrame ⟨0x24, 1, [], 0⟩) = false := by decide +kernel
theorem test_wf_bad_frame_is_good : WellFormed (.badFrame ⟨0x24, 0, [], 0xD72D⟩) = false := by decide +kernel
theorem test_wf_bad_frame : WellFormed (.badFrame ⟨0x24, 0, [], 0xD72C⟩) = true := by decide +kernel
theorem test_wf_summary_too_long : WellFormed (.summaryFrame 1 0 0 (List.replicate 126 ⟨0, 0⟩) []) = false := by decide +kernel
theorem test_wf_span : WellFormed (.spanFrame 1 32 512 0) = true ∧ WellFormed (.spanFrame 1 33 512 0) = false ∧ WellFormed (.spanFrame 1 32 480 0) = false := by decide
theorem test_wf_unknown_code : WellFormed (.unknownCommand 8) = true ∧ WellFormed (.unknownCommand 7) = false := by decide
theorem test_wf_window : WellFormed (.windowWrite 508 [0, 0, 0, 0]) = true ∧ WellFormed (.windowWrite 509 [0, 0, 0, 0]) = false := by decide
theorem test_wf_window_command_code : WellFormed (.windowWrite 0x2B [0]) = true ∧ WellFormed (.windowWrite 0x2B [0, 0]) = false := by decide
theorem test_wf_window_grant_tag : WellFormed (.windowWrite 0x4F [0]) = false ∧ WellFormed (.windowWrite 0x50 [0]) = true := by decide

/-! ## Small states -/

/-- Whether a step goes on, to a state of which `p` holds. -/
def goesOn (o : Host.Outcome State Fault Refusal) (p : State → Bool) : Bool :=
  match o with
  | .next t => p t
  | _ => false

/-- A configuration with a span of two tiles and eight reference lines, D = 4, Hs = 2 and the given flags. -/
def small (flags : Byte) : StationConfig :=
  { StationConfig.zero with
    c0 := 1024, w := 64, l := 8, d := 4, flags := flags, k := 1, hs := 2, wc := 1, moff := 3, soff := 5, sb := 4,
    glareLimit := 1024, flush := 5, ring := 4096, report := 0xFFFF, fits := by decide }

/-- Station 4 in an operating state, its link UP and its line idle. -/
def inOp (op : OpState) (flags : Byte) : State :=
  { State.reset with
    bus := { State.reset.bus with op := op, idle := 11 }
    port := { State.reset.port with link := .up }
    ctl := { State.reset.ctl with station := 4, cfg := small flags } }

/-- RUNNING with the encoder as in the worked sequence of section 1.9 and stamps from next line upward. -/
def running (flags : Byte) (pending next : Nat) : State :=
  { inOp .running flags with
    encoder :=
      { State.reset.encoder with
        e := 1003, high := 1003, dividerPhase := 3, lineCounter := next + pending
        stamps := (List.range pending).map fun i => ⟨next + i, BitVec.ofNat 32 i⟩ }
    intake := { State.reset.intake with nextLine := next }
    tracker := { State.reset.tracker with line := next } }

/-- A FILLING entry of the small span. -/
def filling (band : Nat) : Entry := newEntry band 2 [] .none .none

/-- RUNNING with line `next`, not a row 0, the next of a band that is filling. -/
def inBand (flags : Byte) (pending next : Nat) : State :=
  { running flags pending next with
    table := { State.reset.table with entries := [filling (next / 32)] } }

/-- The given state with its frame `f` being sent. -/
def sending (f : Frame) (errors : Nat) (s : State) : State :=
  { s with
    bus := { s.bus with
      idle := 0, reception := some [], onLine := some f
      queue := [{ frame := f, errors := errors, sending := true, age := 0 }], nextAge := 1 } }

/-- A RUN frame of station 4 (section 7.13). -/
def run4 : Frame := (HeardFrame.run 4).frame

/-- An EVENT record of 16 bytes. -/
def event : Rec := .event { code := .mark, origin := 4, peer := false, line := 1, data := 2 }

/-- An open grant of 4,096 bytes with tag 0xA1. -/
def grantA1 (used : Nat) : OpenGrant :=
  { grant := ⟨0x10000, 4096, 0xA1⟩, used := used, records := 8, firstBand := some 70, lastBand := some 70,
    timer := 5 }

/-- The given state with records queued and a grant open. -/
def withGrant (q : List Rec) (g : Option OpenGrant) (s : State) : State :=
  { s with port := { s.port with queue := q, grant := g } }

/-! ## Single steps against the manual -/

/-- Section 1.9, fourth row: the trigger for line 0 at 1,004. -/
theorem test_encoder_trigger : goesOn (exec (.encoderStep ⟨true, false⟩) (running 0 0 0)) (fun t =>
    t.encoder.e == 1004 && t.encoder.high == 1004 && t.encoder.dividerPhase == 0 &&
    t.encoder.stamps == [⟨0, 1004⟩] && t.outputs == [.linePulse]) = true := by decide +kernel
/-- Section 1.9: a reverse step leaves H and counts. -/
theorem test_encoder_reverse : goesOn (exec (.encoderStep ⟨false, true⟩) (running 0 0 0)) (fun t =>
    t.encoder.e == 1002 && t.encoder.high == 1003 && t.counters.reverseSteps == 1) = true := by decide +kernel
/-- Section 1.10: the trigger for line 14 drops line 10, which is missed. -/
theorem test_trigger_overflow : goesOn (exec (.encoderStep ⟨true, false⟩) (inBand 0 4 10)) (fun t =>
    t.encoder.stamps.map (·.line) == [11, 12, 13, 14] && t.counters.stampOverflows == 1 &&
    t.counters.linesMissed == 1 && t.intake.nextLine == 11) = true := by decide +kernel
/-- R18: an arrival without a stamp. -/
theorem test_line_unsolicited : goesOn (exec (.lineArrival [1, 2]) (running 0 0 0)) (fun t =>
    t.counters.linesUnsolicited == 1 && t.counters.linesArrived == 0 && t.intake.nextLine == 0) = true := by
  decide +kernel
/-- R19, R22: a short line is damaged and padded with 0. -/
theorem test_line_damaged : goesOn (exec (.lineArrival [7, 9]) (inBand 0 1 10)) (fun t =>
    t.counters.linesDamaged == 1 && (rowAt 10 t).state == .damaged &&
    (rowAt 10 t).pixels == [7, 9] ++ List.replicate 62 0) = true := by decide +kernel
/-- Section 2.8: a window request merges with the window it overlaps, 11,650 to 11,849 with 11,500 to 11,699. -/
theorem test_window_merge : (enterWindow ⟨11650, 11849, false⟩ (setWindows [⟨11500, 11699, false⟩] State.reset)).intake.windows =
    [⟨11500, 11849, false⟩] := by decide +kernel
/-- Section 2.9: the second request that finds the list full. -/
theorem test_window_forced : (enterWindow ⟨20300, 20499, false⟩ (setWindows [⟨20000, 20199, false⟩, ⟨20600, 20799, false⟩,
      ⟨21200, 21399, false⟩, ⟨21800, 22599, false⟩] State.reset)).intake.windows =
    [⟨20000, 20199, false⟩, ⟨20300, 22599, false⟩] := by decide +kernel
/-- R25: a local splice blanks Sb lines from the last trigger's line plus Soff. -/
theorem test_local_splice : goesOn (exec .localSplice (running 0 0 0)) (fun t =>
    t.intake.windows == [⟨5, 8, false⟩]) = true := by decide +kernel
/-- R35: a local mark is queued at the last trigger's line plus Moff. -/
theorem test_local_mark : goesOn (exec .localMark (running 0 0 0)) (fun t =>
    t.tracker.marks == [⟨3, .own⟩] && t.counters.marksDiscarded == 0) = true := by decide +kernel
/-- Section 3.9: the step after a repeat of 4,010 lines with L = 4,000. -/
theorem test_step_update : roundNat .nearestEven (65536 * 4000) 4010 = 65373 ∧
    roundNat .truncate (65536 * 4000) 4010 = 65372 := by decide +kernel
/-- R33: the table of quotients, −1.5 and 2.5 in every mode. -/
theorem test_rounding : ([.nearestEven, .truncate, .floor, .ceiling, .nearestAway].map fun m => (roundDiv m (-3) 2, roundDiv m 5 2)) =
    [(-2, 2), (-1, 2), (-2, 2), (-1, 3), (-2, 3)] := by decide +kernel
/-- Section 4.5: 1,020 / 8 and 1,012 / 8 in the mode NEAREST_EVEN, and in CEILING. -/
theorem test_division : divideRow .nearestEven [1021, 1020, 1012] 8 = [128, 128, 126] ∧
    divideRow .ceiling [1021, 1020, 1012] 8 = [128, 128, 127] := by decide +kernel
/-- Section 5.10: SHIFT at its limits in the mode FLOOR. -/
theorem test_shift_clamp : ((scoreSlot { small 0 with rounding := .floor } true
      { Slot.initial with inspectable := 32, compared := 32, sumSigned := -131584 }).shift,
    (scoreSlot { small 0 with rounding := .floor } true
      { Slot.initial with inspectable := 32, compared := 32, sumSigned := -131584 }).clipped) = (-128, true) := by decide +kernel
/-- Section 6.10: the ends of the window of band numbers, and a band below 0. -/
theorem test_resolve_band : resolveBand 70000 37231 = some 102767 ∧ resolveBand 70000 37232 = some 37232 ∧
    resolveBand 70000 0 = some 65536 ∧ resolveBand 3 65535 = none := by decide +kernel
/-- R109: the check value of the nine bytes 0x31 to 0x39. -/
theorem test_crc_check_value : crc16 [0x31, 0x32, 0x33, 0x34, 0x35, 0x36, 0x37, 0x38, 0x39] = 0x29B1 := by decide +kernel
/-- Section 7.13: the RUN frame of station 4. -/
theorem test_run_frame : (HeardFrame.run 4).raw = ⟨0x24, 0x00, [], 0xD72D⟩ := by decide +kernel
/-- Section 7.12: station 2's SUMMARY loses to station 5's ALERT at the second arbitration bit, bit 1. -/
theorem test_arbitration_lost : goesOn (exec (.arbitrationLost 1)
      (sending { kind := .summary, sender := 2, body := [] } 0 (inOp .running 1))) (fun t =>
    t.bus.reception == some [false, false] && t.bus.onLine.isNone && t.bus.queue.length == 1 &&
    t.counters.busArbitrationLosses == 1) = true := by decide +kernel
/-- R112: the eighth bit error drops the frame. -/
theorem test_bit_error_eighth : goesOn (exec (.bitError 9) (sending run4 7 (inOp .armed 1))) (fun t =>
    t.bus.queue == [] && t.counters.busFramesDropped == 1 && t.port.queue.length == 1) = true := by decide +kernel
/-- R106: an idle line, and the start of the head frame. -/
theorem test_line_idle : goesOn (exec .lineIdle { inOp .idle 1 with bus := { (inOp .idle 1).bus with idle := 3 } })
    (fun t => t.bus.idle == 11) = true := by decide +kernel
/-- R111: the head frame is started at the idle. -/
theorem test_transmit_start : goesOn (exec .frameTransmitStart
      { inOp .armed 1 with bus := { (inOp .armed 1).bus with queue := [⟨run4, 0, false, 0⟩] } })
    (fun t => t.bus.onLine == some run4 && t.bus.idle == 0) = true := by decide +kernel
/-- R108: a frame that fails its CRC is counted. -/
theorem test_bad_frame : goesOn (exec (.badFrame ⟨0x24, 0, [], 0xD72C⟩) (inOp .armed 1)) (fun t =>
    t.counters.busFramesBad == 1 && t.bus.op == .armed) = true := by decide +kernel
/-- R108, R124: bits that pass both tests are a RUN frame. -/
theorem test_raw_run_frame : goesOn (exec (.badFrame ⟨0x25, 0, [], crc16 [0x25, 0]⟩) (inOp .armed 1))
    (fun t => t.bus.op == .running) = true := by decide +kernel
/-- R113, R124: the station's own RUN comes back and starts the run. -/
theorem test_run_echo : goesOn (exec (.runFrame 4) (sending run4 0 (inOp .armed 1))) (fun t =>
    t.bus.op == .running && t.bus.queue == [] && t.bus.onLine.isNone) = true := by decide +kernel
/-- R113: the same frame when the station is not sending it is a duplicate's, and the station stands down. -/
theorem test_run_duplicate : goesOn (exec (.runFrame 4) (inOp .armed 1)) (fun t =>
    t.bus.op == .idle && t.port.queue.length == 1) = true := by decide +kernel
/-- Section 1.10: HALT retires lines 15 and 16; the line counter stays 17, and with no record queued but the
event of the band's close the station is in STOPPING. -/
theorem test_halt_frame : goesOn (exec (.haltFrame 2) (inBand 1 2 15)) (fun t =>
    t.encoder.stamps == [] && t.encoder.lineCounter == 17 && t.counters.linesMissed == 2 &&
    t.intake.nextLine == 17 && t.table.entries == [] && t.bus.op == .stopping) = true := by decide +kernel
/-- R180: a peer's MARK with ACT and REPORT set. -/
theorem test_alert_mark : goesOn (exec (.alertFrame 2 .mark 40)
      { running 1 0 0 with ctl := { (running 1 0 0).ctl with cfg := { small 1 with peerRouting := 12 } } }) (fun t =>
    t.tracker.marks == [⟨40, .peer 2⟩] && t.port.queue.length == 1) = true := by decide +kernel
/-- R97: a summary of a band that has closed is late. -/
theorem test_summary_late : goesOn (exec (.summaryFrame 2 0 0 [] [⟨3, 1⟩, ⟨4, 9⟩])
      { running 1 0 64 with bus := { (running 1 0 64).bus with left := some ⟨2, 992, 64, 1⟩ } }) (fun t =>
    t.counters.summariesLate == 1) = true := by decide +kernel
/-- R96: a summary of the band that comes next is kept for it. -/
theorem test_summary_early : goesOn (exec (.summaryFrame 2 2 9 [] [⟨3, 1⟩, ⟨4, 9⟩])
      { running 1 0 64 with bus := { (running 1 0 64).bus with left := some ⟨2, 992, 64, 1⟩ } }) (fun t =>
    t.table.leftEarly == [⟨2, some ⟨[⟨31, .quiet, 1⟩, ⟨32, .hit, 9⟩], 3⟩⟩]) = true := by decide +kernel
/-- R119: a SPAN frame from a station not heard yet. -/
theorem test_span_frame : goesOn (exec (.spanFrame 2 512 544 7) (inOp .enrolling 1)) (fun t =>
    t.bus.heard == [⟨2, 512, 544, 7⟩] && t.bus.timer == some 50 &&
    t.bus.queue.map (·.frame.arb) == [84]) = true := by decide +kernel
/-- R120: the window expires. -/
theorem test_window_expiry : goesOn (exec .enrollmentWindowExpiry (inOp .enrolling 1)) (fun t =>
    t.bus.op == .armed && t.bus.queue.map (·.frame.arb) == [36]) = true := by decide +kernel
/-- Section 7.15: how station 2's span lies to those of stations 1, 3 and 6, and station 3's to station 4's. -/
theorem test_span_cases : spanCase 1920 2048 0 2048 = .onLeft 4 ∧ spanCase 1920 2048 3712 2048 = .onRight 8 ∧
    spanCase 1920 2048 2560 1024 = .contained ∧ spanCase 3712 2048 5376 2048 = .onRight 12 ∧
    spanCase 0 2048 2560 1024 = .disjoint := by decide +kernel
/-- Section 8.6: the base home of tile 16 is station 6, the lower number. -/
theorem test_base_home : isBaseHome 6 { small 0 with c0 := 0, w := 544, l := 0, fits := by decide } ⟨9, 512, 544, 1⟩ 16 = true ∧
    isBaseHome 9 { small 0 with c0 := 512, w := 544, l := 0, fits := by decide } ⟨6, 0, 544, 1⟩ 16 = false := by decide +kernel
/-- Section 9.9: 16 bytes left, and a record of 16 fills the grant and retires it by space in slot 0. -/
theorem test_record_write : goesOn (exec .recordWrite (withGrant [event] (some (grantA1 4080)) (inOp .running 1))) (fun t =>
    t.port.grant.isNone && t.port.queue == [] && t.port.nextSeq == 2 &&
    t.outputs.map (fun o => match o with
      | .hostWrite a b => (a, b.length)
      | _ => (0, 0)) == [(0x10000 + 4080, 16), (4096, 32)]) = true := by decide +kernel
/-- R158: a grant is opened and the head record written into it. -/
theorem test_grant_open : goesOn (exec .grantOpen
      { inOp .running 1 with port := { (inOp .running 1).port with queue := [event], fifo := [⟨0x10000, 4096, 0xA1⟩] } })
    (fun t => t.port.fifo == [] && t.port.queue == [] && t.port.grant.any (fun g => g.used == 16 && g.timer == 5)) = true := by
  decide +kernel
/-- Section 9.9, last row: the flush timer retires the grant with flag BY_TIMER, 2. -/
theorem test_grant_flush : goesOn (exec .grantFlushTimerExpiry (withGrant [] (some (grantA1 1088)) (inOp .running 1)))
    (fun t => t.outputs.map (fun o => match o with
      | .hostWrite a b => (a, b.getD 24 0)
      | _ => (0, 0)) == [(4096, 2)]) = true := by decide +kernel
/-- R157: a grant whose length is out of range is INVALID. -/
theorem test_grant_submit : goesOn (exec (.grantSubmit 5) (inOp .idle 1)) (fun t =>
    t.port.grantStatus == .invalid && t.port.fifo == [] && t.ctl.grantTag == 5) = true := by decide +kernel
/-- R169: a byte of the argument address. -/
theorem test_window_write : goesOn (exec (.windowWrite 0x21 [0x12]) State.reset) (fun t =>
    t.ctl.argAddress == 0x1200 && windowRead t 0x21 == 0x12) = true := by decide +kernel
/-- R169: the identity of the station as the host reads it. -/
theorem test_window_identity : [windowRead State.reset 0, windowRead State.reset 1, windowRead State.reset 2,
    windowRead State.reset 3] = [0x42, 0x4D, 0x16, 0x24] := by decide +kernel
/-- R64: line m is finalised by division, and the last line of the image makes it READY. -/
theorem test_finalise_line : goesOn (exec .finaliseLine
      { inOp .idle 1 with ref := { State.reset.ref with state := .finalising, counts := [0, 0, 0, 0, 0, 0, 0, 2], written := 7 }
                          dram := [(0, 9)] })
    (fun t => t.ref.state == .ready && t.ref.written == 8 && t.ref.filled == 1) = true := by decide +kernel
/-- R165: the loss of the link forgets the grants. -/
theorem test_link_loss : goesOn (exec .linkLoss (withGrant [event] (some (grantA1 16)) (inOp .idle 1))) (fun t =>
    t.port.link == .down && t.port.grant.isNone && t.outputs == [] && t.port.queue == [event]) = true := by decide +kernel
/-- R165. -/
theorem test_link_up : goesOn (exec .linkUp State.reset) (fun t => t.port.link == .up) = true := by decide +kernel
/-- R171, R172: START is not accepted after power-on; the detail is the state's code. -/
theorem test_start_wrong_state : goesOn (exec .start State.reset) (fun t =>
    t.ctl.phase == .failed && t.ctl.result == .wrongState && t.ctl.detail == 0 && t.counters.commandsFailed == 1) = true := by
  decide +kernel
/-- R172: code 300 fails with detail 255. -/
theorem test_unknown_command : goesOn (exec (.unknownCommand 300) (inOp .idle 1)) (fun t =>
    t.ctl.result == .unknownCommand && t.ctl.detail == 255 && t.outputs == [.interrupt]) = true := by decide +kernel
/-- R57. -/
theorem test_learn : goesOn (exec .learn (inOp .idle 1)) (fun t =>
    t.ref.state == .learning && t.ref.shortLines == 8 && t.ref.depth == 1) = true := by decide +kernel
/-- R173. -/
theorem test_clear : goesOn (exec .clear { inOp .idle 1 with counters := { linesArrived := 7 } }) (fun t =>
    t.counters.linesArrived == 0) = true := by decide +kernel
/-- R177: a snapshot written to host memory, 128 bytes. -/
theorem test_snapshot_done : goesOn (exec .snapshotWriteDone
      { inOp .idle 1 with ctl := { (inOp .idle 1).ctl with phase := .busy (.snapshot 64 (List.replicate 32 1)) } }) (fun t =>
    t.ctl.phase == .done && t.outputs.length == 2) = true := by decide +kernel
/-- R174: a block of zeros fails the test of W, whose field is at offset 2. -/
theorem test_configure_refused : goesOn (exec (.configureReadDone 0)
      { inOp .idle 1 with ctl := { (inOp .idle 1).ctl with phase := .busy (.configure 0) } }) (fun t =>
    t.ctl.result == .configInvalid && t.ctl.detail == 2 && t.ctl.cfg == small 1) = true := by decide +kernel
/-- R118: START with the bus disabled goes to RUNNING. -/
theorem test_start_alone : goesOn (exec .start (inOp .idle 0)) (fun t => t.bus.op == .running) = true := by decide +kernel
/-- R125: HALT in RUNNING with the bus enabled queues a HALT frame. -/
theorem test_halt_command : goesOn (exec .halt (running 1 0 0)) (fun t =>
    t.bus.op == .running && t.bus.queue.map (·.frame.arb) == [20]) = true := by decide +kernel
/-- R171: CONFIGURE with a length below 256 fails with BAD_ARGUMENT. -/
theorem test_configure_bad_argument : goesOn (exec .configure (inOp .idle 1)) (fun t =>
    t.ctl.result == .badArgument) = true := by decide +kernel
/-- R183: power-on latches the straps. -/
theorem test_power_on : goesOn (exec (.powerOn 9 ⟨true, true⟩) (inOp .running 1)) (fun t =>
    t.ctl.station == 9 && t.bus.op == .unconfigured && t.encoder.pair == ⟨true, true⟩ && t.port.link == .down) = true := by
  decide +kernel
/-- R184: a soft reset keeps the station number and the link. -/
theorem test_soft_reset : goesOn (exec .reset (inOp .running 1)) (fun t =>
    t.ctl.station == 4 && t.bus.op == .unconfigured && t.port.link == .up && t.ctl.phase == .done) = true := by decide +kernel
/-- R177: a SNAPSHOT in flight. -/
theorem test_snapshot : goesOn (exec .snapshot
      { inOp .idle 1 with ctl := { (inOp .idle 1).ctl with argLength := 128 } }) (fun t => t.ctl.phase.code == 1) = true := by
  decide +kernel
/-- The table of the opcode rows gives no bits, so no word spells a command. -/
theorem test_no_word : decodeTableWord 8 1 = none ∧ State.withFetchWord State.reset 8 1 = State.reset := by decide +kernel

/-! ## Witnesses: for each statement, states and operands that meet its hypotheses together -/

theorem unoccupied_of_ready {s : State} (h : s.ctl.phase = .ready) : Unoccupied s := by
  intro w hw
  rw [h] at hw
  cases hw

/-- RUNNING, UP, bus enabled, an empty band table, next line 64, the left neighbour station 2 with 1 overlap tile. -/
def besideTwo : State :=
  { running 1 0 64 with bus := { (running 1 0 64).bus with left := some ⟨2, 992, 64, 1⟩ } }

/-- The same with band 2 filling and next line 70. -/
def fillingBesideTwo : State :=
  { inBand 1 0 70 with bus := { (inBand 1 0 70).bus with left := some ⟨2, 992, 64, 1⟩ } }

/-- A configuration that R176 accepts. -/
def valid : StationConfig :=
  { small 3 with w := 512, l := 256, sampleFidelity := .stamp, fits := by decide }

/-- RUNNING with every SHARE bit set. -/
def sharing : State :=
  { running 1 0 0 with ctl := { (running 1 0 0).ctl with cfg := { small 1 with share := 0xFFFF } } }

/-- The given state with eight frames waiting, their arbitration values those of `f`. -/
def withFullQueue (f : Frame) (s : State) : State :=
  { s with bus := { s.bus with queue := (List.range 8).map fun i => ⟨f, 0, false, i⟩, nextAge := 8 } }

theorem runOk_running (flags : Byte) (n p : Nat) (es : List Entry) (hp : p ≤ 4) (h : BandsInOrder n 2 es) :
    RunOk { running flags p n with table := { State.reset.table with entries := es } } := by
  refine ⟨fun _ => by simp [running, inOp, small], fun a h => (by simp [running, inOp, State.reset, State.powered, Control.initial] at h), ⟨?_, ?_, ?_⟩, ?_⟩
  · simpa [running] using hp
  · intro i hi
    simp [running]
  · simp [running]
  · exact h

theorem runOk_inBand (flags : Byte) (n p : Nat) (hp : p ≤ 4) (hn : n % 32 ≠ 0) : RunOk (inBand flags p n) := by
  refine runOk_running flags n p _ hp ⟨[], by simp, by simp, by simp, trivial, ?_⟩
  refine (if_neg hn).symm ▸ ?_
  exact ⟨filling (n / 32), rfl, rfl, rfl⟩

/-- RUNNING with no band open, a grant open and nothing queued. -/
def runningDrained : State := withGrant [] (some (grantA1 16)) (running 0 0 0)

theorem runOk_runningDrained : RunOk runningDrained :=
  runOk_running 0 0 0 [] (by decide) ⟨[], by simp, by simp, by simp, trivial, rfl⟩

/-- A band that is SCORED with a HIT tile and a QUIET one. -/
def hitAndQuiet : Entry :=
  { filling 2 with
    state := .scored
    announced := some 0
    slots := [{ Slot.initial with result := some ⟨0, 0, 0, 9, 0, false, .hit, 9⟩ },
              { Slot.initial with result := some ⟨0, 0, 0, 0, 0, false, .quiet, 0⟩ }] }

/-- RUNNING after its close, which other commands fell into once one slot had been dealt with. -/
def interrupted : State := closeEntry hitAndQuiet { inOp .running 1 with overlap := [1] }

/-- RUNNING with band 0 SCORED and band 1 filling, the stamp of its row 31 pending. -/
def bandWaiting : State :=
  { running 0 1 63 with
    table := { State.reset.table with entries := [{ filling 0 with state := .scored, announced := some 0 }, filling 1] } }

theorem runOk_bandWaiting : RunOk bandWaiting :=
  runOk_running 0 63 1 _ (by decide) ⟨[{ filling 0 with state := .scored, announced := some 0 }], by simp, by simp, by decide,
    ⟨rfl, trivial⟩, ⟨filling 1, rfl, rfl, rfl⟩⟩

/-- STOPPING entered from there, other commands falling into the close of band 0 at its start: its two slots and the
stamp of line 63 wait. -/
def haltWaiting : State := enterStopping { bandWaiting with overlap := [0] }

/-- The same with the BAND record of band 0 alone to come. -/
def haltAtBand : State := enterStopping { bandWaiting with overlap := [8] }

theorem runOk_haltAtBand : RunOk haltAtBand := by
  have ho : haltAtBand.port.offering = some (haltAtBand.port.offering.get (by decide +kernel)) := (Option.some_get _).symm
  refine ⟨fun _ => by decide +kernel, fun a h => ?_, ?_⟩
  · have : haltAtBand.ctl.phase = .ready := by decide +kernel
    rw [this] at h
    cases h
  · rw [show haltAtBand.bus.op = .stopping by decide +kernel]
    refine ⟨by decide +kernel, fun h => absurd (ho.symm.trans h) nofun, fun o h => ?_⟩
    obtain rfl := Option.some.inj (ho.symm.trans h)
    refine ⟨by unfold StampsFrom; decide +kernel, .inr ⟨[], by decide, nofun, by decide, trivial, ?_⟩⟩
    rw [if_neg (by decide +kernel)]
    exact ⟨filling 1, by decide +kernel, rfl, by decide +kernel⟩

/-- A record of `n` bytes. -/
def recordOf (n : Nat) : Rec :=
  .tile { fidelity := .full, reason := .core, unilateral := false, handover := false, partialRows := false, clipped := false,
          station := 4, cls := .hit, g := 32, band := 2, repeatNo := 0, refLine := none, mean := 0, mad := 0, shift := 0,
          peak := 0, glare := 0, usable := [], payload := List.replicate (n - 32) 0, inspectable := 0, compared := 0 }

theorem fill_recordOf (n : Nat) (s : State) (h : 32 ≤ n) : fill (withGrant [recordOf n] none s) = n := by
  simp [withGrant, fill, queueSize, recordOf, Rec.size]
  omega

/-- ENROLLING with the enrollment timer and an open grant's flush timer at the given counts. -/
def ticking (timer flush : Nat) : State :=
  { withGrant [] (some { grantA1 0 with timer := flush }) (inOp .enrolling 1) with
    bus := { (inOp .enrolling 1).bus with timer := some timer } }

/-- Each timer at 1, where it expires, and at 2, where it counts down, in all four combinations; an offer to come, of a
slot and of the BAND record, in RUNNING and in STOPPING. -/
theorem test_witness_StepRunsFrontCommand :
    (∃ s : State, s.pending = [.linkUp, .halt]) ∧
    (∃ (s : State) (o : Offering), s.pending = [] ∧ s.port.offering = some o ∧ o.actions ≠ []) ∧
    (∃ (s : State) (o : Offering), s.pending = [] ∧ s.port.offering = some o ∧ o.actions = [] ∧ s.bus.op = .running) ∧
    (∃ (s : State) (o : Offering), s.pending = [] ∧ s.port.offering = some o ∧ o.actions = [] ∧ s.bus.op = .stopping ∧
      RunOk s ∧ o.retired = [⟨63, 0⟩]) ∧
    ∀ n ∈ [1, 2], ∀ m ∈ [1, 2], ∃ s u : State, s.pending = [] ∧ s.port.offering = none ∧ s.bus.op = .enrolling ∧ s.bus.timer = some n ∧
      (if n = 1 then exec .enrollmentWindowExpiry s = .next u
        else u = { s with bus := { s.bus with timer := some 1 } }) ∧
      ∃ g, u.port.grant = some g ∧ g.timer = m := by
  refine ⟨⟨{ State.reset with pending := [.linkUp, .halt] }, rfl⟩, ⟨interrupted, interrupted.port.offering.get (by decide +kernel),
      by decide +kernel, (Option.some_get _).symm, by decide +kernel⟩,
    ⟨nextOffer interrupted, (nextOffer interrupted).port.offering.get (by decide +kernel), by decide +kernel,
      (Option.some_get _).symm, by decide +kernel, by decide +kernel⟩,
    ⟨haltAtBand, haltAtBand.port.offering.get (by decide +kernel), by decide +kernel, (Option.some_get _).symm,
      by decide +kernel, by decide +kernel, runOk_haltAtBand, by decide +kernel⟩, fun n hn m hm => ?_⟩
  obtain rfl | rfl : n = 1 ∨ n = 2 := by simpa using hn
  · obtain rfl | rfl : m = 1 ∨ m = 2 := by simpa using hm
    · exact ⟨ticking 1 1, _, rfl, rfl, rfl, rfl, rfl, _, rfl, rfl⟩
    · exact ⟨ticking 1 2, _, rfl, rfl, rfl, rfl, rfl, _, rfl, rfl⟩
  · exact ⟨ticking 2 m, _, rfl, rfl, rfl, rfl, rfl, _, rfl, rfl⟩

theorem test_witness_PowerOnAndReset : ∃ s : State, Unoccupied s := ⟨State.reset, unoccupied_of_ready rfl⟩

theorem test_witness_EncoderGlitch : ∃ (p : ChannelPair) (s : State), p.a ≠ s.encoder.pair.a ∧ p.b ≠ s.encoder.pair.b :=
  ⟨⟨true, true⟩, State.reset, by decide, by decide⟩

theorem test_witness_EncoderStepWithoutTrigger :
    (∃ s : State, (⟨false, true⟩, s.encoder.pair) ∈ forwardCycle) ∧
    (∃ s : State, (s.encoder.pair, ⟨true, false⟩) ∈ forwardCycle ∧ ¬ (s.bus.op = .running ∧ s.encoder.e = s.encoder.high)) ∧
    (∃ s : State, (s.encoder.pair, ⟨true, false⟩) ∈ forwardCycle ∧ s.bus.op = .running ∧ s.encoder.e = s.encoder.high ∧
      s.encoder.dividerPhase + 1 ≠ s.ctl.cfg.d) ∧
    (∃ s : State, (s.encoder.pair, ⟨true, false⟩) ∈ forwardCycle ∧ s.bus.op = .running ∧ s.encoder.e = s.encoder.high ∧
      s.encoder.dividerPhase + 1 = s.ctl.cfg.d ∧ s.encoder.lineLimit = true) :=
  ⟨⟨State.reset, by decide⟩, ⟨State.reset, by decide⟩,
   ⟨{ running 0 0 0 with encoder := { (running 0 0 0).encoder with dividerPhase := 2 } }, by decide +kernel⟩,
   ⟨{ running 0 0 0 with encoder := { (running 0 0 0).encoder with lineLimit := true } }, by decide +kernel⟩⟩

/-- The boundary: three stamps pending and the last line number a run can have. -/
theorem test_witness_EncoderTrigger : ∃ s : State, (s.encoder.pair, ⟨true, false⟩) ∈ forwardCycle ∧ s.bus.op = .running ∧
    s.encoder.e = s.encoder.high ∧ s.encoder.dividerPhase + 1 = s.ctl.cfg.d ∧ s.encoder.lineLimit = false ∧
    s.encoder.stamps.length = 3 ∧ s.encoder.lineCounter = 4294967295 :=
  ⟨running 0 3 4294967292, by decide +kernel⟩

/-- The line dropped is a row 30 and a row 31 in a run in order, and row 0 of a band with no entry. -/
theorem test_witness_EncoderTriggerDropsOldest : ∃ p : ChannelPair, ∀ n ∈ [30, 31, 32],
    ∃ (s : State) (oldest : Stamp) (rest : List Stamp),
      (s.encoder.pair, p) ∈ forwardCycle ∧ s.bus.op = .running ∧ s.encoder.e = s.encoder.high ∧
      s.encoder.dividerPhase + 1 = s.ctl.cfg.d ∧ s.encoder.lineLimit = false ∧ s.encoder.stamps = oldest :: rest ∧
      rest.length = 3 ∧ oldest.line = n ∧ (n ≠ 32 → RunOk s ∧ ∃ e, findEntry (n / 32) s = some e) ∧
      (n = 32 → findEntry (n / 32) s = none) := by
  refine ⟨⟨true, false⟩, fun n hn => ?_⟩
  obtain rfl | rfl | rfl : n = 30 ∨ n = 31 ∨ n = 32 := by simpa using hn
  · exact ⟨inBand 0 4 30, ⟨30, 0⟩, [⟨31, 1⟩, ⟨32, 2⟩, ⟨33, 3⟩], by decide +kernel, rfl, rfl, rfl, rfl, rfl, rfl, rfl,
      fun _ => ⟨runOk_inBand 0 30 4 (by decide) (by decide), filling 0, rfl⟩, nofun⟩
  · exact ⟨inBand 0 4 31, ⟨31, 0⟩, [⟨32, 1⟩, ⟨33, 2⟩, ⟨34, 3⟩], by decide +kernel, rfl, rfl, rfl, rfl, rfl, rfl, rfl,
      fun _ => ⟨runOk_inBand 0 31 4 (by decide) (by decide), filling 0, rfl⟩, nofun⟩
  · exact ⟨running 0 4 32, ⟨32, 0⟩, [⟨33, 1⟩, ⟨34, 2⟩, ⟨35, 3⟩], by decide +kernel, rfl, rfl, rfl, rfl, rfl, rfl, rfl,
      fun h => absurd rfl h, fun _ => rfl⟩

/-- R21, R30: a missed line of a window counts as blanked, marks the windows it lies in and ends one. -/
theorem test_missed_line_in_a_window : goesOn (exec (.encoderStep ⟨true, false⟩)
      (setWindows [⟨8, 10, true⟩, ⟨12, 13, false⟩] (inBand 0 4 10))) (fun t =>
    t.intake.windows == [⟨12, 13, false⟩] && t.counters.linesBlanked == 1 && t.counters.linesMissed == 1) = true := by
  decide +kernel

theorem test_witness_LineArrival : State.reset.encoder.stamps = [] ∧
    (inBand 0 1 10).encoder.stamps = ⟨10, 0⟩ :: [] := by decide +kernel

/-- RUNNING, line 32 pending, an early summary of another span waiting for band 1 and one for band 2. -/
def summaryWaiting : State :=
  { running 0 1 32 with table := { State.reset.table with leftEarly := [⟨1, none⟩, ⟨2, none⟩] } }

/-- Rows 0, 30 and 1: a row 0 with a summary waiting for its band, and two rows of an open band. -/
theorem test_witness_ArrivalWritesItsRow :
    (summaryWaiting.encoder.stamps = [⟨32, 0⟩] ∧ findEntry 1 summaryWaiting = none) ∧
    ∀ n ∈ [33, 62], ∃ (s : State) (oldest : Stamp), s.encoder.stamps = [oldest] ∧ oldest.line = n ∧
      oldest.line % 32 ≠ 31 ∧ ∃ e, findEntry (oldest.line / 32) s = some e := by
  refine ⟨by decide +kernel, fun n hn => ?_⟩
  obtain rfl | rfl : n = 33 ∨ n = 62 := by simpa using hn
  · exact ⟨inBand 0 1 33, ⟨33, 0⟩, rfl, rfl, by decide, filling 1, rfl⟩
  · exact ⟨inBand 0 1 62, ⟨62, 0⟩, rfl, rfl, by decide, filling 1, rfl⟩

/-- R23: row 0 takes the summary of its own band alone. -/
theorem test_row_zero_takes_the_early_summary : goesOn (exec (.lineArrival []) summaryWaiting) (fun t =>
    t.table.entries.map (·.left) == [.mismatched] && t.table.leftEarly.map (·.band) == [2]) = true := by
  decide +kernel

/-- An arrival without a neighbour and with one on the left, and an encoder step that finds four stamps. -/
theorem test_witness_LastRowScoresItsBand :
    (∀ n ∈ [none, some (⟨2, 992, 64, 1⟩ : Neighbour)], ∃ (s : State) (oldest : Stamp), RunOk s ∧ s.bus.op = .running ∧
      s.encoder.stamps = [oldest] ∧ oldest.line % 32 = 31 ∧ s.bus.left = n ∧ s.bus.right = none) ∧
    ∃ (s : State) (oldest : Stamp) (rest : List Stamp) (pair : ChannelPair), RunOk s ∧ s.bus.op = .running ∧
      s.encoder.stamps = oldest :: rest ∧ oldest.line % 32 = 31 ∧ (s.encoder.pair, pair) ∈ forwardCycle ∧
      s.encoder.e = s.encoder.high ∧ s.encoder.dividerPhase + 1 = s.ctl.cfg.d ∧ s.encoder.lineLimit = false ∧
      rest.length = 3 :=
  ⟨fun n _ => ⟨{ inBand 1 1 31 with bus := { (inBand 1 1 31).bus with left := n } }, ⟨31, 0⟩,
      runOk_inBand 1 31 1 (by decide) (by decide), rfl, rfl, rfl, rfl, rfl⟩,
   ⟨inBand 0 4 31, ⟨31, 0⟩, [⟨32, 1⟩, ⟨33, 2⟩, ⟨34, 3⟩], ⟨true, false⟩,
      runOk_inBand 0 31 4 (by decide) (by decide), rfl, rfl, rfl, by decide +kernel, rfl, rfl, rfl, rfl⟩⟩

/-- The same statement with an earlier band waiting, which closes at its test: band 1 alone stays. -/
theorem test_witness_LastRowScoresItsBand_closing : RunOk bandWaiting ∧ bandWaiting.encoder.stamps = [⟨63, 0⟩] ∧
    goesOn (exec (.lineArrival []) bandWaiting) (fun t => t.table.entries.map (·.band) == [1]) = true :=
  ⟨runOk_bandWaiting, rfl, by decide +kernel⟩

/-- The boundaries between the clauses: a start line of 4,294,967,296 and one of 4,294,967,295; of lines 5 to 8, next
line 8 and 9; the fifth window, lines 5 to 8, beside one from line 10 and beside one from line 9; a shared SPLICE; an EVENT
record that just fits and one that does not; an open grant with 16 bytes left and with 15. -/
theorem test_witness_LocalSplice :
    (∃ s : State, s.bus.op = .running ∧ s.encoder.lastLine + s.ctl.cfg.soff = 4294967296) ∧
    (∃ s : State, WindowsOk s ∧ s.bus.op = .running ∧ s.encoder.lastLine + s.ctl.cfg.soff = 4294967295) ∧
    (∀ n ∈ [8, 9], ∃ s : State, WindowsOk s ∧ s.bus.op = .running ∧ s.encoder.lastLine + s.ctl.cfg.soff = 5 ∧
      s.ctl.cfg.sb = 4 ∧ s.intake.nextLine = n) ∧
    (∃ s : State, WindowsOk s ∧ s.bus.op = .running ∧ s.encoder.lastLine + s.ctl.cfg.soff = 5 ∧ s.ctl.cfg.sb = 4 ∧
      s.intake.windows.length = 4 ∧ ∀ w ∈ s.intake.windows, ¬ Reaches 5 8 w) ∧
    (∃ s : State, WindowsOk s ∧ s.bus.op = .running ∧ s.encoder.lastLine + s.ctl.cfg.soff = 5 ∧ s.ctl.cfg.sb = 4 ∧
      s.intake.windows.length = 4 ∧ ∃ w ∈ s.intake.windows, Reaches 5 8 w) ∧
    (∃ s : State, WindowsOk s ∧ Shares .splice s) ∧
    (∀ n ∈ [2097136, 2097137], ∃ s : State, WindowsOk s ∧ s.bus.op = .running ∧ s.encoder.lastLine + s.ctl.cfg.soff = 5 ∧
      s.ctl.cfg.report.getLsbD EventCode.splice.code = true ∧ fill s = n) ∧
    (∀ n ∈ [4080, 4081], ∃ (s : State) (g : OpenGrant), WindowsOk s ∧ s.bus.op = .running ∧
      s.encoder.lastLine + s.ctl.cfg.soff = 5 ∧ s.port.grant = some g ∧ s.port.queue = [] ∧
      (DueBySpace g [event] ↔ n = 4081)) :=
  ⟨⟨{ running 0 0 0 with encoder := { (running 0 0 0).encoder with lastLine := 4294967291 } }, by decide +kernel⟩,
   ⟨{ running 0 0 0 with encoder := { (running 0 0 0).encoder with lastLine := 4294967290 } },
    ⟨⟨by decide, nofun, List.Pairwise.nil⟩, fun _ => by decide⟩, by decide +kernel⟩,
   fun n _ => ⟨running 0 0 n, ⟨⟨Nat.zero_le _, nofun, List.Pairwise.nil⟩, fun _ => by change 1 ≤ 4; decide⟩, rfl, rfl, rfl, rfl⟩,
   ⟨setWindows [⟨10, 11, false⟩, ⟨20, 21, false⟩, ⟨30, 31, false⟩, ⟨40, 41, false⟩] (running 0 0 0),
    ⟨⟨by decide +kernel, by decide +kernel, by decide +kernel⟩, fun _ => by decide +kernel⟩, by decide +kernel, by decide +kernel,
    by decide +kernel, by decide +kernel, by unfold Reaches; decide +kernel⟩,
   ⟨setWindows [⟨9, 11, false⟩, ⟨20, 21, false⟩, ⟨30, 31, false⟩, ⟨40, 41, false⟩] (running 0 0 0),
    ⟨⟨by decide +kernel, by decide +kernel, by decide +kernel⟩, fun _ => by decide +kernel⟩, by decide +kernel, by decide +kernel,
    by decide +kernel, by decide +kernel, by unfold Reaches; decide +kernel⟩,
   ⟨sharing, ⟨⟨by decide, nofun, List.Pairwise.nil⟩, fun _ => by decide⟩, by unfold Shares; decide +kernel⟩,
   fun n hn => ⟨withGrant [recordOf n] none (running 0 0 0), ⟨⟨Nat.zero_le _, nofun, List.Pairwise.nil⟩, fun _ => by
      change 1 ≤ 4; decide⟩, rfl, rfl,
      by change (small 0).report.getLsbD EventCode.splice.code = true; decide +kernel, fill_recordOf n _ (by simp at hn; omega)⟩,
   fun n hn => ⟨withGrant [] (some (grantA1 n)) (running 0 0 0), grantA1 n, ⟨⟨Nat.zero_le _, nofun, List.Pairwise.nil⟩,
      fun _ => by change 1 ≤ 4; decide⟩, rfl, rfl, rfl, rfl, by
        have h : DueBySpace (grantA1 n) [event] ↔ 4096 < n + 16 := by
          simp [DueBySpace, grantA1, event, Rec.size]
        rw [h]; simp at hn; omega⟩⟩

theorem test_witness_LocalMark :
    (∃ s : State, s.bus.op = .running ∧ s.encoder.lastLine + s.ctl.cfg.moff = 4294967296) ∧
    (∃ s : State, s.bus.op = .running ∧ s.encoder.lastLine + s.ctl.cfg.moff = 4294967295 ∧ Discarded 4294967295 s) ∧
    (∃ s : State, s.bus.op = .running ∧ s.encoder.lastLine + s.ctl.cfg.moff = 4294967295 ∧ ¬ Discarded 4294967295 s) ∧
    Shares .mark sharing := by
  refine ⟨⟨{ running 0 0 0 with encoder := { (running 0 0 0).encoder with lastLine := 4294967293 } }, by decide +kernel⟩,
   ⟨{ running 0 0 4294967296 with encoder := { (running 0 0 0).encoder with lastLine := 4294967292 } }, rfl, rfl, ?_⟩,
   ⟨{ running 0 0 0 with encoder := { (running 0 0 0).encoder with lastLine := 4294967292 } }, rfl, rfl, ?_⟩,
   by unfold Shares; decide +kernel⟩
  · exact .inl (by decide)
  · rintro (h | h | ⟨m, hm, -⟩ | ⟨l, hl, -⟩ | h)
    · exact absurd h (by decide)
    · exact absurd h (by decide)
    · cases hm
    · cases hl
    · exact absurd h (by decide)

theorem test_witness_LineIdleAndTransmitStart :
    (busEnabled (inOp .armed 1) = true ∧ (inOp .armed 1).bus.reception = none) ∧
    busEnabled (inOp .armed 0) = false ∧ (sending run4 0 (inOp .armed 1)).bus.reception ≠ none ∧
    (∃ s : State, s.bus.queue = [⟨run4, 0, false, 0⟩] ∧ busEnabled s = true ∧ s.bus.idle = 11 ∧ s.bus.reception = none ∧
      s.bus.onLine = none) :=
  ⟨by decide +kernel, by decide +kernel, by decide +kernel,
   { inOp .armed 1 with bus := { (inOp .armed 1).bus with queue := [⟨run4, 0, false, 0⟩] } }, by decide +kernel⟩

/-- Station 4's RUN, 0x24: bit 7 is dominant, bits 2 and 5 recessive. -/
theorem test_witness_ArbitrationLost : (inOp .armed 1).bus.onLine = none ∧
    (sending run4 0 (inOp .armed 1)).bus.onLine = some run4 ∧
    (BitVec.ofNat 8 run4.arb).getLsbD (7 - 5) = true ∧ (BitVec.ofNat 8 run4.arb).getLsbD (7 - 7) = false := by
  decide +kernel

/-- Bits 8 and 31 are the first and the last of a RUN frame's length and CRC. -/
theorem test_witness_BitError (n : Nat) (_ : 8 ≤ n ∧ n < 32) :
    (∃ (s : State) (f : Frame) (t : TxFrame), s.bus.onLine = some f ∧ n < 32 + 8 * f.body.length ∧
      s.bus.queue = [] ++ t :: [] ∧ t.sending = true ∧ t.errors = 6) ∧
    (∃ (s : State) (f : Frame) (t : TxFrame), s.bus.onLine = some f ∧ n < 32 + 8 * f.body.length ∧
      s.bus.queue = [] ++ t :: [] ∧ t.sending = true ∧ t.errors = 7) ∧
    (∃ (s : State) (f : Frame), s.bus.onLine = some f ∧ n < 32 + 8 * f.body.length ∧ ∀ u ∈ s.bus.queue, u.sending = false) :=
  ⟨⟨sending run4 6 (inOp .armed 1), run4, _, rfl, by rw [show run4.body.length = 0 from rfl]; omega, rfl, rfl, rfl⟩,
   ⟨sending run4 7 (inOp .armed 1), run4, _, rfl, by rw [show run4.body.length = 0 from rfl]; omega, rfl, rfl, rfl⟩,
   ⟨stoodDown (sending run4 0 (inOp .armed 1)), run4, rfl, by rw [show run4.body.length = 0 from rfl]; omega, nofun⟩⟩

/-- An ALERT of kind 3, a frame of kind 6, a SUMMARY of 125 zone entries with one byte too few, and one in form. -/
theorem test_witness_FramesDiscarded :
    (∃ raw : RawFrame, crc16 (raw.arbitration :: raw.length :: raw.body) ≠ raw.crc) ∧
    ¬ InForm ⟨0x34, 5, [3, 0, 0, 0, 0], 0⟩ ∧ ¬ InForm ⟨0x64, 0, [], 0⟩ ∧
    ¬ InForm ⟨0x44, 254, 0 :: 0 :: 0 :: 100 :: 25 :: List.replicate 249 0, 0⟩ ∧
    InForm ⟨0x44, 255, 0 :: 0 :: 0 :: 100 :: 25 :: List.replicate 250 0, 0⟩ ∧
    (∃ raw : RawFrame, InForm raw ∧ crc16 (raw.arbitration :: raw.length :: raw.body) = raw.crc) ∧
    (∃ h : HeardFrame, h.wellFormed = false) ∧ follows (inOp .armed 1) = true ∧
    (∃ s : State, busEnabled s = true ∧ follows s = false) ∧ busEnabled (inOp .armed 0) = false :=
  ⟨⟨⟨0x24, 0, [], 0xD72C⟩, by decide +kernel⟩, fun h => absurd h.2.2 (by decide +kernel), fun h => h.2,
   fun h => absurd h.2.2 (by decide +kernel), ⟨by decide +kernel, by decide +kernel, by decide +kernel⟩,
   ⟨⟨0x24, 0, [], 0xD72D⟩, ⟨rfl, rfl⟩, by decide +kernel⟩,
   ⟨.span 2 33 512 0, by decide +kernel⟩, by decide +kernel,
   ⟨{ inOp .armed 1 with bus := { (inOp .armed 1).bus with idle := 0 } }, by decide +kernel⟩, by decide +kernel⟩

theorem test_witness_FramesWithoutEffect :
    (∃ s : State, FromPeer (.halt 2) s ∧ ignoresPeer (.halt 2) s.bus.op) ∧
    (∃ s : State, FromPeer (.run 2) s ∧ ignoresPeer (.run 2) s.bus.op) ∧
    (∃ s : State, FromPeer (.alert 2 .mark 9) s ∧ ignoresPeer (.alert 2 .mark 9) s.bus.op) ∧
    (∃ s : State, FromPeer (.span 2 0 512 9) s ∧ ignoresPeer (.span 2 0 512 9) s.bus.op) ∧
    (∃ s : State, OwnEcho (.alert 4 .mark 9) s ∧ ignoresEcho (.alert 4 .mark 9) s.bus.op) ∧
    (∃ s : State, OwnNumber (.halt 4) s ∧ s.bus.op = .idle) ∧
    (∃ s : State, FromPeer (.summary 2 0 0 [] []) s ∧ inRun s ∧
      (∀ x, s.bus.left = some x → x.number ≠ 2) ∧ ∀ x, s.bus.right = some x → x.number ≠ 2) :=
  ⟨⟨inOp .stopping 1, by unfold FromPeer; decide +kernel, .inr (.inr rfl)⟩,
   ⟨inOp .running 1, by unfold FromPeer; decide +kernel, .inr (.inr (.inl rfl))⟩,
   ⟨inOp .armed 1, by unfold FromPeer; decide +kernel, .inr (.inr (.inr rfl))⟩,
   ⟨inOp .armed 1, by unfold FromPeer; decide +kernel, by change OpState.armed ≠ .enrolling; decide⟩,
   ⟨sending (HeardFrame.alert 4 .mark 9).frame 0 (inOp .running 1), by unfold OwnEcho; decide +kernel, trivial⟩,
   ⟨inOp .idle 1, by unfold OwnNumber; decide +kernel, rfl⟩,
   ⟨inOp .running 1, by unfold FromPeer; decide +kernel, .inl rfl, nofun, nofun⟩⟩

/-- The last with no band open and nothing queued: the run ends at once, the open grant retired. -/
theorem test_witness_HaltEndsRun :
    (∃ s : State, RunOk s ∧ s.bus.op = .running ∧ Taken (.halt 2) s (frameEnded s)) ∧
    (∃ s : State, RunOk s ∧ s.bus.op = .running ∧ Taken (.halt 4) s (echoEnded s)) ∧
    (∃ s : State, RunOk s ∧ s.bus.op = .running ∧ busEnabled s = false ∧ Unoccupied s) ∧
    (RunOk runningDrained ∧ busEnabled runningDrained = false ∧ Unoccupied runningDrained ∧
      goesOn (exec .halt runningDrained) (fun t => t.bus.op == .idle && t.port.grant == none && t.ctl.phase == .done) = true) :=
  ⟨⟨inBand 1 2 15, runOk_inBand 1 15 2 (by decide) (by decide), rfl,
      .inl ⟨by unfold FromPeer; decide +kernel, rfl⟩⟩,
   ⟨sending (HeardFrame.halt 4).frame 0 (inBand 1 2 15), runOk_inBand 1 15 2 (by decide) (by decide), rfl,
      .inr ⟨by unfold OwnEcho; decide +kernel, rfl⟩⟩,
   ⟨inBand 0 2 15, runOk_inBand 0 15 2 (by decide) (by decide), rfl, by decide +kernel,
      unoccupied_of_ready rfl⟩,
   runOk_runningDrained, by decide +kernel, unoccupied_of_ready rfl, by decide +kernel⟩

/-- R102: a run with a band open and nothing queued goes to STOPPING, behind the records of its close. -/
theorem test_halt_closes_the_open_band : goesOn (exec .halt (inBand 0 2 15)) (fun t =>
    t.bus.op == .stopping && t.table.entries == [] && t.encoder.stamps == [] && !t.port.queue.isEmpty) = true := by
  decide +kernel

theorem test_witness_StandDowns :
    (∃ s : State, s.bus.op = .enrolling ∧ Taken (.halt 2) s (frameEnded s)) ∧
    (∃ s : State, s.bus.op = .armed ∧ Unoccupied s) ∧
    (∃ s : State, s.bus.op = .armed ∧ FromPeer (.summary 2 0 0 [] []) s) ∧
    (∃ s : State, s.bus.op = .enrolling ∧ OwnNumber (.span 4 0 512 0) s) :=
  ⟨⟨inOp .enrolling 1, rfl, .inl ⟨by unfold FromPeer; decide +kernel, rfl⟩⟩, ⟨inOp .armed 1, rfl, unoccupied_of_ready rfl⟩,
   ⟨inOp .armed 1, rfl, by unfold FromPeer; decide +kernel⟩, ⟨inOp .enrolling 1, rfl, by unfold OwnNumber; decide +kernel⟩⟩

theorem test_witness_RunFrameTakesEpoch :
    (∃ s : State, s.bus.op = .enrolling ∧ Taken (.run 2) s (frameEnded s) ∧ HeardOk s ∧ s.bus.heard ≠ []) ∧
    (∃ s : State, s.bus.op = .armed ∧ Taken (.run 4) s (echoEnded s)) :=
  ⟨⟨{ inOp .enrolling 1 with bus := { (inOp .enrolling 1).bus with heard := [⟨2, 0, 512, 0⟩] } }, rfl,
      .inl ⟨by unfold FromPeer; decide +kernel, rfl⟩, by unfold HeardOk; decide +kernel, by decide +kernel⟩,
   ⟨sending run4 0 (inOp .armed 1), rfl, .inr ⟨by unfold OwnEcho; decide +kernel, rfl⟩⟩⟩

/-- Peer routing 15: bits 0 and 1 for splices, 2 and 3 for marks. -/
theorem test_witness_AlertFrame : ∃ s : State, inRun s ∧ FromPeer (.alert 2 .splice 40) s ∧ FromPeer (.alert 2 .mark 40) s ∧
    (∀ k ∈ [AlertKind.splice, .mark], peerReports k s = true ∧ peerActs k s = true) ∧ WindowsOk s ∧
    ¬ Discarded 40 s ∧ ∃ t : State, inRun t ∧ FromPeer (.alert 2 .mark 40) t ∧ peerActs .mark t = false := by
  refine ⟨{ running 1 0 0 with ctl := { (running 1 0 0).ctl with cfg := { small 1 with peerRouting := 15 } } }, .inl rfl,
    by unfold FromPeer; decide +kernel, by unfold FromPeer; decide +kernel, by decide +kernel,
    ⟨⟨by decide, nofun, List.Pairwise.nil⟩, fun _ => by decide⟩, ?_,
    running 1 0 0, .inl rfl, by unfold FromPeer; decide +kernel, by decide +kernel⟩
  rintro (h | h | ⟨m, hm, -⟩ | ⟨l, hl, -⟩ | h)
  · exact absurd h (by decide)
  · exact absurd h (by decide)
  · cases hm
  · cases hl
  · exact absurd h (by decide)

theorem test_witness_SummaryAttached : ∃ (s : State) (x : Neighbour) (e : Entry), inRun s ∧
    (∀ z : ZoneCode, FromPeer (.summary 2 2 9 [] [⟨3, 1⟩, z]) s) ∧ SideOf .left 2 s x ∧
    resolveBand (s.intake.nextLine / 32) 2 = some 2 ∧ findEntry 2 s = some e ∧ e.side .left = .none ∧ RunOk s ∧
    e.state = .filling ∧ (s.table.entries.map (·.band)).Nodup ∧
    ZoneInForm x (facingCodes .left [] [⟨3, 1⟩, ⟨4, 9⟩]) ∧ ¬ ZoneInForm x (facingCodes .left [] [⟨3, 1⟩, ⟨5, 9⟩]) :=
  ⟨fillingBesideTwo, ⟨2, 992, 64, 1⟩, filling 2, .inl rfl,
    fun z => ⟨by decide +kernel, by simp [HeardFrame.wellFormed], by change (2 : StationNo) ≠ 4; decide, nofun⟩,
    ⟨rfl, rfl, nofun⟩, by decide +kernel, by decide +kernel, by decide +kernel,
    runOk_inBand 1 70 0 (by decide) (by decide), by decide +kernel, by decide +kernel,
    by unfold ZoneInForm; decide +kernel, by unfold ZoneInForm; decide +kernel⟩

/-- STOPPING, as besideTwo otherwise, with band 2 in the given state. -/
def stoppingBesideTwo (st : EntryState) : State :=
  { besideTwo with
    bus := { besideTwo.bus with op := .stopping }
    table := { besideTwo.table with entries := [{ filling 2 with state := st }] } }

/-- In STOPPING, an entry SCORED that waits for a close, and one still FILLING. -/
theorem test_witness_SummaryNotAttached_stopping : ∀ st ∈ [EntryState.scored, .filling], ∃ (s : State) (x : Neighbour) (e : Entry),
    inRun s ∧ FromPeer (.summary 2 2 9 [] []) s ∧ SideOf .left 2 s x ∧ resolveBand (s.intake.nextLine / 32) 2 = some 2 ∧
    findEntry 2 s = some e ∧ s.bus.op = .stopping ∧ e.state = st := by
  intro st hst
  refine ⟨stoppingBesideTwo st, ⟨2, 992, 64, 1⟩, { filling 2 with state := st }, .inr rfl, ?_, ⟨rfl, rfl, nofun⟩, ?_, rfl, rfl, rfl⟩
  swap
  · rw [show (stoppingBesideTwo st).intake.nextLine = 64 from rfl]; decide
  obtain rfl | rfl : st = .scored ∨ st = .filling := by simpa using hst
  all_goals unfold FromPeer; decide +kernel

/-- A late summary of band 1, an early one of band 2, in a list with place and in a full one, and a side that is ABSENT. -/
theorem test_witness_SummaryNotAttached :
    (∃ (s : State) (x : Neighbour), inRun s ∧ FromPeer (.summary 2 1 9 [] []) s ∧ FromPeer (.summary 2 2 9 [] []) s ∧
      SideOf .left 2 s x ∧ resolveBand (s.intake.nextLine / 32) 1 = some 1 ∧ findEntry 1 s = none ∧ 1 < s.intake.nextLine / 32 ∧
      resolveBand (s.intake.nextLine / 32) 2 = some 2 ∧ findEntry 2 s = none ∧ s.intake.nextLine / 32 = 2 ∧
      EarlyListOk (s.table.early .left)) ∧
    (∃ (s : State) (x : Neighbour), inRun s ∧ FromPeer (.summary 2 2 9 [] []) s ∧ SideOf .left 2 s x ∧
      findEntry 2 s = none ∧ s.intake.nextLine / 32 ≤ 2 ∧ (∀ y ∈ s.table.early .left, y.band ≠ 2) ∧
      EarlyListOk (s.table.early .left) ∧ (s.table.early .left).length = 4) ∧
    (∃ (s : State) (x : Neighbour), inRun s ∧ FromPeer (.summary 2 3 9 [] []) s ∧ SideOf .left 2 s x ∧
      findEntry 3 s = none ∧ ∃ y ∈ s.table.early .left, y.band = 3) ∧
    (∃ (s : State) (x : Neighbour) (e : Entry), inRun s ∧ FromPeer (.summary 2 2 9 [] []) s ∧ SideOf .left 2 s x ∧
      findEntry 2 s = some e ∧ e.side .left ≠ .none) := by
  refine ⟨⟨besideTwo, ⟨2, 992, 64, 1⟩, .inl rfl, by unfold FromPeer; decide +kernel, by unfold FromPeer; decide +kernel,
    ⟨rfl, rfl, nofun⟩, by decide +kernel, by decide +kernel, by decide +kernel, by decide +kernel, by decide +kernel,
    by decide +kernel, ⟨by decide, List.Pairwise.nil⟩⟩, ?_, ?_, ?_⟩
  · refine ⟨{ besideTwo with table := { State.reset.table with leftEarly := [⟨3, none⟩, ⟨4, none⟩, ⟨5, none⟩, ⟨6, none⟩] } },
      ⟨2, 992, 64, 1⟩, .inl rfl, by unfold FromPeer; decide +kernel, ⟨rfl, rfl, nofun⟩, by decide +kernel, by decide +kernel,
      by decide +kernel, ⟨by decide, by decide +kernel⟩, by decide +kernel⟩
  · refine ⟨{ besideTwo with table := { State.reset.table with leftEarly := [⟨3, none⟩] } }, ⟨2, 992, 64, 1⟩, .inl rfl,
      by unfold FromPeer; decide +kernel, ⟨rfl, rfl, nofun⟩, by decide +kernel, by decide +kernel⟩
  · refine ⟨{ fillingBesideTwo with table := { State.reset.table with entries := [(filling 2).setSide .left .absent] } },
      ⟨2, 992, 64, 1⟩, (filling 2).setSide .left .absent, .inl rfl, by unfold FromPeer; decide +kernel, ⟨rfl, rfl, nofun⟩,
      by decide +kernel, by decide +kernel⟩

theorem test_witness_ResolveBand : ∃ (s : State) (x : Neighbour), inRun s ∧ FromPeer (.summary 2 65535 9 [] []) s ∧
    SideOf .left 2 s x ∧ resolveBand (s.intake.nextLine / 32) (65535 : Half).toNat = none :=
  ⟨besideTwo, ⟨2, 992, 64, 1⟩, .inl rfl, by unfold FromPeer; decide +kernel, ⟨rfl, rfl, nofun⟩, by decide +kernel⟩

theorem test_witness_SpanFrame :
    (∃ s : State, s.bus.op = .enrolling ∧ FromPeer (.span 2 512 544 7) s ∧ ∃ h ∈ s.bus.heard, h.number = 2) ∧
    (∃ s : State, s.bus.op = .enrolling ∧ FromPeer (.span 2 512 544 7) s ∧ (∀ h ∈ s.bus.heard, h.number ≠ 2) ∧
      ∃ u ∈ s.bus.queue, u.frame.kind = .span) ∧
    (∃ s : State, s.bus.op = .enrolling ∧ FromPeer (.span 2 512 544 7) s ∧ (∀ h ∈ s.bus.heard, h.number ≠ 2) ∧
      (∀ u ∈ s.bus.queue, u.frame.kind ≠ .span) ∧ s.bus.queue.length < 8) ∧
    (∀ k ∈ [FrameKind.summary, .alert], ∃ s : State, s.bus.op = .enrolling ∧ FromPeer (.span 2 512 544 7) s ∧
      (∀ h ∈ s.bus.heard, h.number ≠ 2) ∧ ¬ AlreadyOffered (spanFrameOf s) s.bus ∧ s.bus.queue.length = 8) :=
  ⟨⟨{ inOp .enrolling 1 with bus := { (inOp .enrolling 1).bus with heard := [⟨2, 0, 512, 0⟩] } }, rfl,
      by unfold FromPeer; decide +kernel, by decide +kernel⟩,
   ⟨{ inOp .enrolling 1 with bus := { (inOp .enrolling 1).bus with queue := [⟨spanFrameOf (inOp .enrolling 1), 0, false, 0⟩] } },
      rfl, by unfold FromPeer; decide +kernel, by decide +kernel, by decide +kernel⟩,
   ⟨inOp .enrolling 1, rfl, by unfold FromPeer; decide +kernel, by decide +kernel⟩, fun k hk => by
    simp only [List.mem_cons, List.not_mem_nil, or_false] at hk
    refine ⟨withFullQueue ⟨k, 4, []⟩ (inOp .enrolling 1), rfl, ?_, nofun, ?_, rfl⟩
    · obtain rfl | rfl := hk <;> unfold FromPeer <;> decide +kernel
    rintro ⟨-, ⟨u, hu, h⟩ | ⟨g, hg, -⟩⟩
    · obtain ⟨i, -, rfl⟩ := List.mem_map.1 hu
      obtain rfl | rfl := hk <;> cases h
    · cases hg⟩

theorem test_witness_DuplicateStation :
    (∃ s : State, inRun s ∧ OwnNumber (.run 4) s ∧ ∀ n, HeardFrame.run 4 ≠ .halt n) ∧
    (∃ s : State, inRun s ∧ OwnNumber (.halt 4) s ∧ s.bus.op = .stopping) ∧
    (∀ b : Bool, ∃ s : State, inRun s ∧ OwnNumber (.halt 4) s ∧ s.bus.op = .running ∧ RunOk s ∧ GrantsOk s ∧
      s.bus.dupReported = b) :=
  ⟨⟨inOp .running 1, .inl rfl, by unfold OwnNumber; decide +kernel, nofun⟩,
   ⟨inOp .stopping 1, .inr rfl, by unfold OwnNumber; decide +kernel, rfl⟩,
   fun b => ⟨{ inBand 1 2 15 with bus := { (inBand 1 2 15).bus with dupReported := b } }, .inl rfl,
     by cases b <;> (unfold OwnNumber; decide +kernel), rfl, runOk_inBand 1 15 2 (by decide) (by decide),
     ⟨by cases b <;> decide, nofun, nofun, rfl⟩, rfl⟩⟩

/-- A queue with place, and full ones in which no frame may give way to the RUN and in which one may. -/
theorem test_witness_EnrollmentWindowExpiry : (inOp .enrolling 1).bus.op = .enrolling ∧
    (inOp .enrolling 1).bus.queue.length < 8 ∧ (inOp .enrolling 1).bus.heard = [] ∧ (inOp .idle 1).bus.op ≠ .enrolling ∧
    (withFullQueue ⟨.halt, 4, []⟩ (inOp .enrolling 1)).bus.queue.length = 8 ∧
    (∀ u ∈ (withFullQueue ⟨.halt, 4, []⟩ (inOp .enrolling 1)).bus.queue, ¬ GivesWay run4 u) ∧
    (∃ u ∈ (withFullQueue run4 (inOp .enrolling 1)).bus.queue, GivesWay run4 u) := by
  unfold GivesWay
  decide +kernel

/-- Stations 2 and 3 are neighbours, 1 and 2 overlap tiles; 9 tiles are too many of station 5, which conflicts as
station 7 does, whose span is this station's; stations 1 and 6 have another fingerprint. -/
theorem test_witness_NeighbourTable : ∃ s t : State, s.bus.op = .enrolling ∧ HeardOk s ∧
    exec .enrollmentWindowExpiry s = .next t ∧ t.bus.left = some ⟨2, 544, 512, 1⟩ ∧ t.bus.right = some ⟨3, 1472, 512, 2⟩ ∧
    OverlapsLeft s.ctl.cfg ⟨2, 544, 512, 0⟩ ∧ OverlapsRight s.ctl.cfg ⟨3, 1472, 512, 0⟩ ∧
    InConflict s.ctl.cfg ⟨5, 1248, 512, 0⟩ ∧ ¬ InConflict s.ctl.cfg ⟨3, 1472, 512, 0⟩ ∧ t.port.queue.length = 4 :=
  ⟨{ inOp .enrolling 1 with
      ctl := { (inOp .enrolling 1).ctl with cfg := { valid with report := 0xFFFF } }
      bus := { (inOp .enrolling 1).bus with
        heard := [⟨7, 1024, 512, fingerprint 4 256⟩, ⟨6, 0, 512, 1⟩, ⟨2, 544, 512, fingerprint 4 256⟩,
          ⟨3, 1472, 512, fingerprint 4 256⟩, ⟨5, 1248, 512, fingerprint 4 256⟩, ⟨1, 0, 512, 1⟩] } }, _, rfl,
    by unfold HeardOk; decide +kernel, rfl,
    by decide +kernel, by decide +kernel, by unfold OverlapsLeft; decide +kernel, by unfold OverlapsRight; decide +kernel,
    by unfold InConflict; decide +kernel, by unfold InConflict; decide +kernel, by decide +kernel⟩

theorem test_witness_ConfigureAccepted : ∃ s : State, Unoccupied s ∧ s.bus.op = .unconfigured ∧
    s.ctl.argAddress.toNat % 4 = 0 ∧ s.ctl.argLength.toNat = 256 :=
  ⟨{ State.reset with ctl := { State.reset.ctl with argAddress := 4, argLength := 256 } }, unoccupied_of_ready rfl, by decide +kernel⟩

/-- A block that passes the ten tests, and one that fails the second. -/
theorem test_accepted_block : validate (blockOf valid.bytes) = .accepted valid ∧ validate 0 = .refused 2 := by decide +kernel

theorem test_witness_ConfigValidation : ∃ (s : State) (a : BitVec 64) (b : BitVec 2048) (cfg : StationConfig),
    s.ctl.phase = .busy (.configure a) ∧ validate b = .accepted cfg ∧ ∀ o, validate b ≠ .refused o :=
  ⟨{ State.reset with ctl := { State.reset.ctl with phase := .busy (.configure 4) } }, 4, blockOf valid.bytes, valid, rfl,
    test_accepted_block.1, fun o h => by rw [test_accepted_block.1] at h; cases h⟩

theorem test_witness_ConfigureReadDone : (∃ (s : State) (a : BitVec 64), s.ctl.phase = .busy (.configure a)) ∧
    (∃ s : State, ∀ a, s.ctl.phase ≠ .busy (.configure a)) ∧ (∃ b o, validate b = .refused o) ∧ ∃ b cfg, validate b = .accepted cfg :=
  ⟨⟨{ State.reset with ctl := { State.reset.ctl with phase := .busy (.configure 4) } }, 4, rfl⟩, ⟨State.reset, nofun⟩,
   ⟨0, 2, test_accepted_block.2⟩, ⟨_, _, test_accepted_block.1⟩⟩

theorem test_witness_ConfigRoundTrip : ∃ (b : BitVec 2048) (cfg : StationConfig), validate b = .accepted cfg :=
  ⟨_, _, test_accepted_block.1⟩

theorem test_witness_StartCommand :
    (∃ s : State, Unoccupied s ∧ s.bus.op = .idle ∧ busEnabled s = true ∧ ∀ f, s.bus.onLine = some f → f.kind ≠ .span) ∧
    (∃ s : State, Unoccupied s ∧ s.bus.op = .idle ∧ busEnabled s = true ∧ ∃ f, s.bus.onLine = some f ∧ f.kind = .span) ∧
    (∃ s : State, Unoccupied s ∧ s.bus.op = .idle ∧ busEnabled s = false) :=
  ⟨⟨inOp .idle 1, unoccupied_of_ready rfl, rfl, by decide +kernel, nofun⟩,
   ⟨sending (spanFrameOf (inOp .idle 1)) 0 (inOp .idle 1), unoccupied_of_ready rfl, rfl, by decide +kernel, _, rfl, rfl⟩,
   ⟨inOp .idle 0, unoccupied_of_ready rfl, rfl, by decide +kernel⟩⟩

theorem test_witness_HaltCommand :
    (∃ s : State, Unoccupied s ∧ s.bus.op = .stopping) ∧
    (∃ s : State, Unoccupied s ∧ s.bus.op = .running ∧ busEnabled s = true ∧ ∃ u ∈ s.bus.queue, u.frame.kind = .halt) ∧
    (∃ s : State, Unoccupied s ∧ s.bus.op = .running ∧ busEnabled s = true ∧ (∀ u ∈ s.bus.queue, u.frame.kind ≠ .halt) ∧
      (∀ f, s.bus.onLine = some f → f.kind ≠ .halt) ∧ s.bus.queue.length < 8) ∧
    (∃ s : State, Unoccupied s ∧ s.bus.op = .running ∧ busEnabled s = true ∧ (∀ u ∈ s.bus.queue, u.frame.kind ≠ .halt) ∧
      s.bus.onLine = none ∧ s.bus.queue.length = 8) :=
  ⟨⟨inOp .stopping 1, unoccupied_of_ready rfl, rfl⟩,
   ⟨sending (haltFrameOf (inOp .running 1)) 0 (inOp .running 1), unoccupied_of_ready rfl, by decide +kernel⟩,
   ⟨inOp .running 1, unoccupied_of_ready rfl, rfl, by decide +kernel, nofun, nofun, by decide +kernel⟩,
   ⟨withFullQueue run4 (inOp .running 1), unoccupied_of_ready rfl, rfl, by decide +kernel, by decide +kernel, by decide +kernel,
     by decide +kernel⟩⟩

theorem test_witness_LearnAndClear : ∃ s : State, Unoccupied s ∧ s.bus.op ≠ .unconfigured :=
  ⟨inOp .running 1, unoccupied_of_ready rfl, by decide +kernel⟩

theorem test_witness_Snapshot :
    (∃ s : State, Unoccupied s ∧ s.ctl.argAddress.toNat % 4 = 0 ∧ s.ctl.argLength.toNat = 128) ∧
    (∃ (s : State) (a : BitVec 64) (words : List Word), s.ctl.phase = .busy (.snapshot a words) ∧ words.length = 32) ∧
    (∃ s : State, ∀ a words, s.ctl.phase ≠ .busy (.snapshot a words)) :=
  ⟨⟨{ State.reset with ctl := { State.reset.ctl with argAddress := 4, argLength := 128 } }, unoccupied_of_ready rfl, by decide +kernel⟩,
   ⟨{ State.reset with ctl := { State.reset.ctl with phase := .busy (.snapshot 4 (List.replicate 32 0)) } }, 4,
     List.replicate 32 0, rfl, rfl⟩, ⟨State.reset, nofun⟩⟩

theorem test_witness_CommandsTurnedAway :
    (∃ s : State, ¬ Unoccupied s) ∧ (∃ s : State, Unoccupied s ∧ s.bus.op ≠ .unconfigured ∧ s.bus.op ≠ .idle) ∧
    (∃ s : State, Unoccupied s ∧ s.bus.op = .unconfigured ∧ s.ctl.argLength.toNat < 128) ∧
    (∃ s : State, Unoccupied s ∧ s.bus.op = .idle ∧ s.ctl.argAddress.toNat % 4 ≠ 0) ∧
    (∃ s : State, Unoccupied s ∧ s.bus.op = .idle ∧ s.ctl.argLength.toNat = 255) :=
  ⟨⟨{ State.reset with ctl := { State.reset.ctl with phase := .busy (.configure 4) } }, fun h => h _ rfl⟩,
   ⟨inOp .running 1, unoccupied_of_ready rfl, by decide +kernel⟩, ⟨State.reset, unoccupied_of_ready rfl, by decide +kernel⟩,
   ⟨{ inOp .idle 1 with ctl := { (inOp .idle 1).ctl with argAddress := 1 } }, unoccupied_of_ready rfl, by decide +kernel⟩,
   ⟨{ inOp .idle 1 with ctl := { (inOp .idle 1).ctl with argLength := 255 } }, unoccupied_of_ready rfl, by decide +kernel⟩⟩

/-- A grant in form whose end is the end of the address space, with 31 and with 32 grants waiting. -/
theorem test_witness_GrantSubmit : ∀ n ∈ [31, 32], ∃ s : State, s.bus.op ≠ .unconfigured ∧ 256 ∣ s.ctl.grantAddress.toNat ∧
    256 ∣ s.ctl.grantLength.toNat ∧ s.ctl.grantLength.toNat = 4096 ∧
    s.ctl.grantAddress.toNat + s.ctl.grantLength.toNat = 2 ^ 64 ∧ s.port.fifo.length = n := by
  intro n hn
  obtain rfl | rfl : n = 31 ∨ n = 32 := by simpa using hn
  all_goals
    exact ⟨{ inOp .idle 1 with
      ctl := { (inOp .idle 1).ctl with grantAddress := 0xFFFFFFFFFFFFF000, grantLength := 4096 }
      port := { (inOp .idle 1).port with fifo := List.replicate _ ⟨0, 4096, 0⟩ } }, by decide +kernel, by decide +kernel,
      by decide +kernel, by decide +kernel, by decide +kernel, List.length_replicate⟩

/-- A record that just fits, after which 0 bytes are left, one after which 16 are, and a grant that is opened. -/
theorem test_witness_RecordsWritten :
    (∃ (s : State) (g : OpenGrant), s.bus.op ≠ .stopping ∧ s.port.queue = [event] ∧ s.port.link = .up ∧ s.port.grant = some g ∧
      g.used + event.size = g.grant.length.toNat) ∧
    (∃ (s : State) (g : OpenGrant), s.bus.op ≠ .stopping ∧ s.port.queue = [event] ∧ s.port.link = .up ∧ s.port.grant = some g ∧
      g.used + event.size + 16 = g.grant.length.toNat) ∧
    (∃ (s : State) (g : OpenGrant), s.bus.op ≠ .stopping ∧ s.port.queue = [event] ∧ s.port.link = .up ∧ s.port.grant = none ∧
      s.port.fifo = g.grant :: [] ∧ g.used = 0 ∧ g.records = 0 ∧ g.firstBand = none ∧ g.lastBand = none ∧
      g.timer = s.ctl.cfg.flush) ∧
    (∃ (s : State) (g : OpenGrant), s.bus.op = .stopping ∧ s.table.entries = [] ∧ s.port.queue = [event, event] ∧
      s.port.link = .up ∧ s.port.grant = some g ∧ g.used + event.size + 16 = g.grant.length.toNat) ∧
    (∃ (s : State) (g : OpenGrant), s.bus.op = .stopping ∧ s.table.entries = [] ∧ s.port.offering ≠ none ∧
      s.port.queue = [event] ∧ s.port.link = .up ∧ s.port.grant = some g ∧ g.used + event.size + 16 = g.grant.length.toNat) ∧
    (State.reset.port.queue = [] ∧ State.reset.port.grant = none ∧ State.reset.port.fifo = []) :=
  ⟨⟨withGrant [event] (some (grantA1 4080)) (inOp .running 1), grantA1 4080, by decide +kernel⟩,
   ⟨withGrant [event] (some (grantA1 4064)) (inOp .running 1), grantA1 4064, by decide +kernel⟩,
   ⟨{ inOp .running 1 with port := { (inOp .running 1).port with queue := [event], fifo := [⟨0x10000, 4096, 0xA1⟩] } },
     ⟨⟨0x10000, 4096, 0xA1⟩, 0, 0, none, none, 5⟩, by decide +kernel⟩,
   ⟨withGrant [event, event] (some (grantA1 4064)) (inOp .stopping 1), grantA1 4064, by decide +kernel⟩,
   ⟨withGrant [event] (some (grantA1 4064)) (setOp .stopping interrupted), grantA1 4064, by decide +kernel⟩, by decide +kernel⟩

theorem test_witness_GrantFlush :
    (∃ (s : State) (g : OpenGrant), s.port.grant = some g ∧ s.bus.op ≠ .stopping) ∧
    (∃ (s : State) (g : OpenGrant), s.port.grant = some g ∧ s.bus.op = .stopping ∧ s.port.queue ≠ []) ∧
    (∃ (s : State) (g : OpenGrant), s.port.grant = some g ∧ s.bus.op = .stopping ∧ s.table.entries = [] ∧ s.port.queue = [] ∧
      s.port.offering ≠ none) ∧
    (∃ (s : State) (g : OpenGrant), s.port.grant = some g ∧ s.bus.op = .stopping ∧ s.table.entries = [] ∧ s.port.queue = [] ∧
      s.port.offering = none) :=
  ⟨⟨withGrant [] (some (grantA1 16)) (inOp .running 1), grantA1 16, by decide +kernel⟩,
   ⟨withGrant [event] (some (grantA1 16)) (inOp .stopping 1), grantA1 16, by decide +kernel⟩,
   ⟨withGrant [] (some (grantA1 16)) (setOp .stopping interrupted), grantA1 16, by decide +kernel⟩,
   ⟨withGrant [] (some (grantA1 16)) (inOp .stopping 1), grantA1 16, by decide +kernel⟩⟩

/-- The last record leaves 16 bytes of its grant, or none; and one that opens its grant. -/
theorem test_witness_LastRecordEndsRun : (∀ n ∈ [4064, 4080], ∃ (s : State) (g : OpenGrant), s.bus.op = .stopping ∧
      s.table.entries = [] ∧ s.port.offering = none ∧ s.port.queue = [event] ∧ s.port.link = .up ∧
      s.port.grant = some g ∧ g.used = n ∧
      g.used + event.size ≤ g.grant.length.toNat) ∧
    (∃ (s : State) (g : OpenGrant), s.bus.op = .stopping ∧ s.table.entries = [] ∧ s.port.queue = [event] ∧ s.port.link = .up ∧
      s.port.grant = none ∧ s.port.fifo = [g.grant] ∧ g.used = 0 ∧ g.records = 0 ∧ g.firstBand = none ∧ g.lastBand = none ∧
      g.timer = s.ctl.cfg.flush) := by
  refine ⟨fun n hn => ⟨withGrant [event] (some (grantA1 n)) (inOp .stopping 1), grantA1 n, rfl, rfl, rfl, rfl, rfl, rfl, rfl, ?_⟩,
    { inOp .stopping 1 with port := { (inOp .stopping 1).port with queue := [event], fifo := [⟨0x10000, 4096, 0xA1⟩] } },
    ⟨⟨0x10000, 4096, 0xA1⟩, 0, 0, none, none, 5⟩, by decide +kernel⟩
  rw [show event.size = 16 from rfl, show (grantA1 n).grant.length.toNat = 4096 from rfl, show (grantA1 n).used = n from rfl]
  simp at hn
  omega

theorem test_witness_LinkLossAndUp :
    (∃ s : State, Unoccupied s ∧ s.bus.op = .idle) ∧ (∃ s : State, Unoccupied s ∧ s.bus.op = .armed) ∧
    (∃ (s : State) (a : BitVec 64), s.ctl.phase = .busy (.configure a)) ∧
    (∃ (s : State) (a : BitVec 64) (words : List Word), s.ctl.phase = .busy (.snapshot a words) ∧ words.length = 32) ∧
    (∃ s : State, s.bus.op = .running ∧ busEnabled s = true ∧ s.bus.queue.length < 8) ∧
    (∃ s : State, s.bus.op = .running ∧ busEnabled s = true ∧ s.bus.queue.length = 8) ∧
    (∃ s : State, s.bus.op = .running ∧ busEnabled s = false ∧ RunOk s) ∧
    (∃ s : State, s.bus.op = .stopping ∧ s.table.entries = [] ∧ s.port.offering = none ∧ s.port.queue = []) ∧
    (∃ s : State, s.bus.op = .stopping ∧ s.table.entries = [] ∧ s.port.offering = none ∧ s.port.queue ≠ []) ∧
    (∃ s : State, s.bus.op = .stopping ∧ s.table.entries = [] ∧ s.port.offering ≠ none ∧ s.port.queue = []) :=
  ⟨⟨inOp .idle 1, unoccupied_of_ready rfl, rfl⟩, ⟨inOp .armed 1, unoccupied_of_ready rfl, rfl⟩,
   ⟨{ State.reset with ctl := { State.reset.ctl with phase := .busy (.configure 4) } }, 4, rfl⟩,
   ⟨{ State.reset with ctl := { State.reset.ctl with phase := .busy (.snapshot 4 (List.replicate 32 0)) } }, 4,
     List.replicate 32 0, rfl, rfl⟩,
   ⟨inOp .running 1, by decide +kernel⟩, ⟨withFullQueue run4 (inOp .running 1), by decide +kernel⟩,
   ⟨inBand 0 2 15, rfl, by decide +kernel, runOk_inBand 0 15 2 (by decide) (by decide)⟩,
   ⟨inOp .stopping 1, by decide +kernel⟩, ⟨withGrant [event] none (inOp .stopping 1), by decide +kernel⟩,
   ⟨withGrant [] none (setOp .stopping interrupted), by decide +kernel⟩⟩

/-- FINALISING with line 1 alone counted, of eight: `n` lines written. -/
def finalising (n : Nat) : State :=
  { inOp .idle 1 with ref := { State.reset.ref with state := .finalising, counts := [0, 3, 0, 0, 0, 0, 0, 0], written := n } }

/-- m is 1; the line written next is 1, 0 and 7 when 0, 1 and 7 have been written. -/
theorem test_witness_FinaliseLine : (∀ n ∈ [0, 1, 7], ∃ s : State, DramOk s ∧ s.ref.state = .finalising ∧ 1 < s.ctl.cfg.l ∧
      (∀ i, i < 1 → s.ref.counts.getD i 0 = 0) ∧ 1 ≤ s.ref.counts.getD 1 0 ∧ s.ref.written = n ∧ n < s.ctl.cfg.l) ∧
    (∃ s : State, s.ref.state = .finalising ∧ ∀ i, i < s.ctl.cfg.l → s.ref.counts.getD i 0 = 0) := by
  refine ⟨fun n hn => ?_,
    { finalising 0 with ref := { (finalising 0).ref with counts := List.replicate 8 0 } }, rfl, by decide +kernel⟩
  obtain rfl | rfl | rfl : n = 0 ∨ n = 1 ∨ n = 7 := by simpa using hn
  · exact ⟨finalising 0, by unfold DramOk; decide +kernel, by decide +kernel⟩
  · exact ⟨finalising 1, by unfold DramOk; decide +kernel, by decide +kernel⟩
  · exact ⟨finalising 7, by unfold DramOk; decide +kernel, by decide +kernel⟩

/-- LEARNING with counts of 0, 1, 254 and 255. -/
def learning : State :=
  { inOp .running 1 with ref := { State.reset.ref with state := .learning, counts := [0, 1, 254, 255, 0, 0, 0, 0] } }

/-- Counts of 0, 1 and 254 contribute, one of 255 does not.  At depth 1 the pass ends with 4 repeats learned, not with
3, and with no short line at once. -/
theorem test_witness_LearningContribution (row : Row) (_ : row = ⟨.present, true, List.replicate 64 9⟩) :
    DramOk learning ∧ learning.ref.state = .learning ∧ row.state = .present ∧ learning.ctl.cfg.w ≤ row.pixels.length ∧
    (∀ r ∈ [0, 1, 2], r < learning.ctl.cfg.l ∧ r < learning.ref.counts.length ∧ learning.ref.counts.getD r 0 < 255) ∧
    255 ≤ learning.ref.counts.getD 3 0 ∧
    (∃ s : State, s.ref.state = .learning ∧ s.ref.shortLines = 0 ∧ s.ref.touched = 0) ∧
    (∀ n ∈ [2, 3], ∃ s : State, s.ref.state = .learning ∧ s.ref.shortLines ≠ 0 ∧ s.ref.touched = 1 ∧ s.ref.depth = 1 ∧
      (satInc s.ref.learned).toNat = n + 1) ∧
    (∃ s : State, s.ref.state ≠ .learning) := by
  subst row
  refine ⟨by unfold DramOk; decide +kernel, by decide +kernel, by decide +kernel, by decide +kernel, by decide +kernel,
    by decide +kernel, ⟨learning, by decide +kernel⟩, fun n hn => ?_, ⟨State.reset, by decide +kernel⟩⟩
  refine ⟨{ learning with ref := { learning.ref with shortLines := 1, touched := 1, learned := BitVec.ofNat 32 n } }, rfl,
    by simp, rfl, rfl, ?_⟩
  obtain rfl | rfl : n = 2 ∨ n = 3 := by simpa using hn
  all_goals decide +kernel

/-- A line event of line 30, not blanked. -/
def plainEvent : LineEvent :=
  { line := 30, position := 5, blanked := false, windowStart := false, arrived := false, pixels := [], damaged := false }

theorem test_witness_RegisteredLine : ∀ mode ∈ [PhaseMode.locked, .coasting], ∃ (s : State) (ev : LineEvent),
    s.tracker.mode = mode ∧ ev.blanked = false ∧ ev.windowStart = false ∧
    (s.tracker.wrapPending = true ∧ s.tracker.sinceWrap < s.ctl.cfg.wc) ∧
    (∀ m, s.tracker.marks.head? = some m → ev.line < m.start) ∧ s.tracker.marks ≠ [] ∧
    65536 * s.ctl.cfg.l ≤ s.tracker.p + s.tracker.step := by
  intro mode _
  refine ⟨{ running 1 0 30 with tracker := { (running 1 0 30).tracker with
      mode := mode, p := 65536 * 8 - 1, wrapPending := true, sinceWrap := 0, marks := [⟨31, .own⟩] } }, plainEvent, rfl, rfl, rfl,
    ⟨rfl, by change 0 < 1; decide⟩, ?_, by simp, by change 65536 * 8 ≤ 65536 * 8 - 1 + 65536; decide⟩
  intro m hm
  simp at hm
  subst hm
  decide

/-- RUNNING and COASTING after `coasts` coasts, one line past the last wrap (Wc is 1), the given marks queued. -/
def pastWrap (coasts : Nat) (marks : List MarkEntry) : State :=
  { running 1 0 30 with tracker := { (running 1 0 30).tracker with
      mode := .coasting, p := 131072, wrapPending := true, sinceWrap := 1, coasts := coasts, marks := marks } }

/-- The second part: the third and the fourth coast; no mark due, and two due at line 30 with one after them; a line
that starts a window, blanked.  A mark at line 31 is not due at line 30. -/
theorem test_witness_RegisteredLine_in_general :
    (∀ n ∈ [2, 3], ∃ s : State, s.tracker.coasts = n ∧ s.tracker.wrapPending = true ∧ s.ctl.cfg.wc ≤ s.tracker.sinceWrap ∧
      s.tracker.marks = [] ++ [⟨31, .own⟩]) ∧
    (∃ (s : State) (due rest : List MarkEntry), s.tracker.marks = due ++ rest ∧ due.length = 2 ∧
      (∀ m ∈ due, m.start ≤ plainEvent.line) ∧ ∀ m, rest.head? = some m → plainEvent.line < m.start) ∧
    (trackLine plainEvent (pastWrap 2 [])).1.tracker.mode = .coasting ∧
    (trackLine plainEvent (pastWrap 3 [])).1.tracker.mode = .lost ∧
    (trackLine { plainEvent with blanked := true, windowStart := true } (pastWrap 3 [])).1.tracker.mode = .seeking ∧
    (trackLine plainEvent (pastWrap 3 [⟨26, .own⟩, ⟨30, .own⟩, ⟨34, .own⟩])).1.tracker.marks = [⟨34, .own⟩] := by
  refine ⟨fun n _ => ⟨pastWrap n [⟨31, .own⟩], rfl, rfl, by change 1 ≤ 1; decide, rfl⟩,
    ⟨pastWrap 3 [⟨26, .own⟩, ⟨30, .own⟩, ⟨34, .own⟩], [⟨26, .own⟩, ⟨30, .own⟩], [⟨34, .own⟩], rfl, rfl, by decide +kernel, ?_⟩,
    by decide +kernel, by decide +kernel, by decide +kernel, by decide +kernel⟩
  intro m hm
  cases hm
  decide

/-- RUNNING in a mode, one line past the predicted start, `n` line events after the previous start. -/
def markOneLate (mode : PhaseMode) (accepted : Bool) (n : Word) : State :=
  { running 1 0 30 with tracker := { (running 1 0 30).tracker with
      mode := mode, p := 65536, wrapPending := true, prevAccepted := accepted, sinceStart := n } }

/-- An offset of exactly Wc with the step computed, within its range and held (L is 8; 8 lines, and 16), in LOCKED and
COASTING; the previous start not accepted; and an offset of Wc + 1. -/
theorem test_witness_MarkTested :
    (∀ mode ∈ [PhaseMode.locked, .coasting], ∀ n ∈ [(8 : Word), 16], ∃ s : State, s.tracker.mode = mode ∧
      s.tracker.wrapPending = true ∧ RoundsTo s.ctl.cfg.rounding s.tracker.p 65536 1 ∧ s.ctl.cfg.wc = 1 ∧
      s.tracker.prevAccepted = true ∧ s.tracker.sinceStart = n ∧ n ≠ 0 ∧
      RoundsTo s.ctl.cfg.rounding (s.ctl.cfg.l * 65536) n.toNat (if n = 8 then 65536 else 32768)) ∧
    (∃ s : State, s.tracker.mode = .coasting ∧ s.tracker.wrapPending = true ∧
      RoundsTo s.ctl.cfg.rounding s.tracker.p 65536 1 ∧ s.ctl.cfg.wc = 1 ∧ s.tracker.prevAccepted = false) ∧
    (∃ s : State, s.tracker.mode = .coasting ∧ s.tracker.wrapPending = true ∧
      RoundsTo s.ctl.cfg.rounding s.tracker.p 65536 2 ∧ s.ctl.cfg.wc = 1) ∧ State.reset.tracker.mode = .seeking := by
  refine ⟨fun mode hm n hn => ?_,
    ⟨markOneLate .coasting false 8, rfl, rfl, .inl (by decide), rfl, rfl⟩,
    ⟨{ running 1 0 30 with tracker := { (running 1 0 30).tracker with mode := .coasting, p := 131072, wrapPending := true } },
      rfl, rfl, .inl (by decide), rfl⟩, rfl⟩
  obtain rfl | rfl : mode = .locked ∨ mode = .coasting := by simpa using hm
  all_goals
    obtain rfl | rfl : n = 8 ∨ n = 16 := by simpa using hn
    all_goals exact ⟨markOneLate _ true _, rfl, rfl, .inl (by decide), rfl, rfl, rfl, by decide, .inl (by decide)⟩

theorem test_witness_RoundedDivision : ∃ (mode : Rounding) (a n : Int) (b : Nat), 0 < b ∧ RoundsTo mode a b n :=
  ⟨.nearestEven, -3, -2, 2, by decide, .inr (by decide)⟩

/-- The boundary row counts of the classes: 15 and 16 inspectable rows, none and 16 compared. -/
theorem test_witness_TileScores : ([(15, 0), (16, 0), (16, 16)].map fun x =>
    (scoreSlot (small 0) true { Slot.initial with inspectable := x.1, compared := x.2, sumAbs := 255 * (x.2 * 32) }).cls) =
    [.void, .unref, .quiet] := by decide +kernel

/-- A reference in state READY whose line 3 is all 100, and band 0 filling with row 10 PRESENT, registered and all 7. -/
def comparing : State :=
  { inBand 1 0 10 with
    ref := { State.reset.ref with state := .ready, counts := List.replicate 8 1 }
    dram := (List.range 64).map fun j => ⟨3 * 64 + j, 100⟩
    table := { State.reset.table with
      entries := [{ filling 0 with rows := (filling 0).rows.set 10 ⟨.present, true, List.replicate 64 7⟩ }] } }

/-- The record of line 10 at reference line 3. -/
def recordTen : LineRecord :=
  { line := 10, arrived := true, damaged := false, pixels := List.replicate 64 7, position := 0, blanked := false,
    index := some 3, repeatNo := 0, mode := .locked, repeatEnd := false }

/-- 32 differences of 7 − 100 in the second tile slot. -/
theorem test_witness_TileAccumulators : recordTen.repeatEnd = false ∧ (∃ e row, findEntry 0 comparing = some e ∧
      e.rows[10]? = some row ∧ row.state = .present ∧ row.registered = true ∧ 32 * e.slots.length = comparing.ctl.cfg.w) ∧
    comparing.ref.state = .ready ∧
    ((findEntry 0 (takeRecord recordTen comparing)).bind fun e => e.slots[1]?) =
      some { Slot.initial with
        inspectable := 1, pixelSum := 224, compared := 1, sumAbs := 2976, sumSigned := -2976, peak := 93 } := by
  refine ⟨rfl, ⟨_, _, rfl, rfl, rfl, rfl, by decide +kernel⟩, rfl, by decide +kernel⟩

/-- Its close at pressure 0: a CORE record of tile column 32, the CONTEXT record of column 33 that the hit promotes, both
at full fidelity, and the BAND record; column 32 enters the carry map. -/
theorem test_band_close :
    ((closeEntry hitAndQuiet (inOp .running 1)).port.queue.map Rec.size,
      (closeEntry hitAndQuiet (inOp .running 1)).table.carryCols) = ([1056, 1056, 32], [32]) ∧
    hitAndQuiet.slots[1]?.isSome = true ∧ ClassedHit (small 1) hitAndQuiet 32 := by
  refine ⟨by decide +kernel, by decide +kernel, .inl ⟨0, _, _, rfl, rfl, rfl, rfl⟩⟩

/-- R151: an EVENT record stands between the TILE records of a band and its BAND record, which counts them both. -/
theorem test_event_within_a_close : goesOn (exec .localSplice interrupted) (fun t => t.port.queue.map Rec.size == [1056, 16] &&
    (finishCloses t).port.queue.map Rec.size == [1056, 16, 1056, 32] && (finishCloses t).port.offering.isNone &&
    (finishCloses t).port.queue.all (fun r => match r with
      | .band b => b.queued == 2
      | _ => true)) = true := by
  decide +kernel

/-- R148, R151: with no command waiting the next offer of such a close is made. -/
theorem test_idle_step_offers : goesOn (step interrupted) (fun t => t.port.queue.map Rec.size == [1056, 1056]) = true := by
  decide +kernel

/-- RUNNING with bands 0 to 2 SCORED and no neighbour, so that bands 0 and 1 may close; other commands fall into the
close of each, once its slots have been dealt with. -/
def twoClosing : State := closingTest { running 0 0 96 with
  table := { State.reset.table with
    entries := (List.range 3).map fun b => { filling b with state := .scored, announced := some 0 } }
  overlap := [8, 8] }

/-- R98, R151: an EVENT record falls into the first of two closes of one event, the second waiting for it; the BAND
record of the first follows, and the second is fallen into in its turn. -/
theorem test_event_between_closes : twoClosing.table.entries.map (·.band) = [1, 2] ∧ twoClosing.port.queue = [] ∧
    goesOn (exec .localSplice twoClosing) (fun t => (nextOffer t).port.queue.map Rec.size == [16, 32] &&
      (nextOffer t).port.offering.isSome && (nextOffer t).table.entries.map (·.band) == [2] &&
      (nextOffer (nextOffer t)).port.queue.map Rec.size == [16, 32, 32] &&
      (nextOffer (nextOffer t)).port.offering.isNone) = true := by
  decide +kernel

/-- R14, R102, R151: at the entry to STOPPING a close that other commands fall into lets the stamp wait; after its last
offer the line is missed, and its band is scored and closes. -/
theorem test_event_within_the_entry_to_stopping :
    (haltWaiting.bus.op, haltWaiting.table.entries.map (·.band), haltWaiting.intake.nextLine,
      haltWaiting.port.offering.map (·.retired)) = (.stopping, [1], 63, some [⟨63, 0⟩]) ∧
    goesOn (step haltAtBand) (fun t => t.table.entries.isEmpty && t.port.offering.isNone && t.intake.nextLine == 64 &&
      t.counters.linesMissed == 1 && t.port.queue.map Rec.size == [32, 32]) = true := by
  decide +kernel

/-- R160: the TILE record of 1,056 bytes that comes to the head retires a grant with 32 bytes left, by space. -/
theorem test_close_retires_the_grant :
    ((closeEntry hitAndQuiet (withGrant [] (some (grantA1 4064)) (inOp .running 1))).port.grant.isNone,
      (closeEntry hitAndQuiet (withGrant [] (some (grantA1 4064)) (inOp .running 1))).port.nextSeq,
      (closeEntry hitAndQuiet (withGrant [] (some (grantA1 4064)) (inOp .running 1))).outputs.map (fun o => match o with
        | .hostWrite a b => (a, b.getD 24 0)
        | _ => (0, 0))) = (true, 2, [(4096, 1)]) := by
  decide +kernel

/-- The boundaries of the statement's clauses: a close whole, one that other commands fall into and one after it; a record
that just fits and one a byte too long for its place, and the four pressure levels. -/
theorem test_witness_BandCloses (r : TileRec) : (inOp .running 1).overlap = [] ∧ (inOp .running 1).port.offering = none ∧
    (∃ s : State, s.overlap = [1] ∧ s.port.offering = none) ∧ interrupted.port.offering ≠ none ∧ TakenInTurn (32 + r.payload.length) [r] [r] [] ∧
    TakenInTurn (31 + r.payload.length) [r] [] [r] ∧ LevelOf 524287 0 ∧ LevelOf 524288 1 ∧ LevelOf 1572863 2 ∧
    LevelOf 1572864 3 := by
  simp only [TakenInTurn, LevelOf]
  refine ⟨rfl, rfl, ⟨{ inOp .running 1 with overlap := [1] }, rfl, rfl⟩, by decide +kernel, ⟨fun _ => ⟨[], by simp⟩, fun h => absurd h (by omega)⟩, ⟨fun h => absurd h (by omega), fun _ => ⟨[], by simp⟩⟩, ?_⟩
  decide

/-- Station 4 with C0 = 1,024 and station 2 with C0 = 992 and the overlap tile 32. -/
theorem test_witness_OverlapAgreement : ∃ (cx cy : StationConfig) (vx vy : Verdict) (zx zy : Summary) (overlap g : Nat)
    (sx sy : Standing), vx.station ≠ vy.station ∧
    zoneAt zx g = some { g := g, cls := vx.cls, severity := vx.severity } ∧ zx.pressure = vx.pressure ∧
    zoneAt zy g = some { g := g, cls := vy.cls, severity := vy.severity } ∧ zy.pressure = vy.pressure ∧
    sx = standingOf cx vx (some
      { neighbour := asNeighbour vy.station cy overlap, agreed := true, summary := some zy }) g ∧
    sy = standingOf cy vy (some
      { neighbour := asNeighbour vx.station cx overlap, agreed := true, summary := some zx }) g ∧
    sx.core = true ∧ sx.home = false ∧ sy.home = true :=
  ⟨small 1, { small 1 with c0 := 992, fits := by decide }, ⟨4, .hit, 9, 0⟩, ⟨2, .hit, 8, 0⟩,
    ⟨[⟨32, .hit, 9⟩], 0⟩, ⟨[⟨32, .hit, 8⟩], 0⟩, 1, 32, _, _, by decide, rfl, rfl, rfl, rfl, rfl, rfl, by decide +kernel⟩

/-- An overlap tile whose side has not agreed, its zone classed HIT. -/
theorem test_witness_OverlapAgreement_unilateral : ∃ (v : SideView) (z : Summary), v.agreed = false ∧ v.summary = some z ∧
    (zoneAt z 32).isSome = true :=
  ⟨⟨⟨2, 992, 64, 1⟩, false, some ⟨[⟨32, .hit, 9⟩], 0⟩⟩, _, rfl, rfl, by decide +kernel⟩

/-- The longest zone lists a frame can hold. -/
theorem test_witness_FrameRoundTrip : (HeardFrame.summary 4 9 2 (List.replicate 100 ⟨4, 255⟩) (List.replicate 25 ⟨0, 0⟩)).wellFormed = true := by
  decide +kernel

theorem windowsOk_reset : WindowsOk State.reset := ⟨⟨by decide, nofun, List.Pairwise.nil⟩, fun h => absurd rfl h⟩

/-- A trigger for line 10 with lines 7 to 9 pending, and a window request. -/
theorem test_witness_StepKeepsStampsAndWindows : ∃ s t : State, StampsOk s ∧ WindowsOk s ∧ step s = .next t ∧
    t.encoder.stamps.length = 4 := by
  refine ⟨{ inBand 0 3 7 with pending := [.encoderStep ⟨true, false⟩] }, _, ⟨by decide, ?_, by decide, by decide⟩,
    ⟨⟨by decide, nofun, List.Pairwise.nil⟩, fun _ => by decide⟩, rfl, by decide +kernel⟩
  intro i hi
  have : i < 3 := hi
  obtain rfl | rfl | rfl : i = 0 ∨ i = 1 ∨ i = 2 := by omega
  all_goals rfl

/-- LOCAL_MARK in a run with L = 256. -/
theorem test_witness_StepKeepsTracker : ∃ s t : State, MarksOk s ∧ PhaseOk s ∧ step s = .next t ∧ inRun t ∧
    t.tracker.marks.length = 1 := by
  refine ⟨{ running 0 0 0 with pending := [.localMark], ctl := { (running 0 0 0).ctl with cfg := valid } }, _,
    ⟨by decide, List.Pairwise.nil, fun _ => List.Pairwise.nil⟩,
    ⟨by decide, by decide, fun _ => by decide, fun _ => by decide⟩, rfl, .inl (by decide +kernel), by decide +kernel⟩

/-- FINALISE_LINE writes line 1 from words in the DRAM. -/
theorem test_witness_StepKeepsDram : ∃ s t : State, DramOk s ∧ step s = .next t ∧ t.ref.written = 1 :=
  ⟨{ finalising 0 with pending := [.finaliseLine], dram := [(67108864 + 128, 9)] }, _, by unfold DramOk; decide +kernel, rfl,
    by decide +kernel⟩

/-- A SPAN of a second station. -/
theorem test_witness_StepKeepsQueues_heard : ∃ s t : State, HeardOk s ∧ step s = .next t ∧ t.bus.heard.length = 2 :=
  ⟨{ inOp .enrolling 1 with
      pending := [.spanFrame 3 512 544 7]
      bus := { (inOp .enrolling 1).bus with heard := [⟨2, 0, 512, 0⟩] } }, _, by unfold HeardOk; decide +kernel, rfl,
    by decide +kernel⟩

/-- HALT in a run queues its frame before the ALERT that waits. -/
theorem test_witness_StepKeepsQueues : ∃ s t : State, TxQueueOk s ∧ EarlyOk s ∧ step s = .next t ∧ t.bus.queue.length = 2 := by
  refine ⟨{ running 1 0 0 with
      pending := [.halt]
      bus := { (running 1 0 0).bus with queue := [⟨(HeardFrame.alert 4 .mark 3).frame, 0, false, 0⟩], nextAge := 1 } }, _,
    ⟨by decide, List.pairwise_singleton _ _, ?_⟩, ⟨⟨by decide, List.Pairwise.nil⟩, ⟨by decide, List.Pairwise.nil⟩⟩, rfl,
    by decide +kernel⟩
  decide +kernel

/-- The arrival of row 31. -/
theorem test_witness_StepKeepsRun : (∃ s t : State, RunOk s ∧ OfferingOk s ∧ step s = .next t ∧ t.bus.op = .running ∧
    t.table.entries.length = 1) ∧ (OfferingOk interrupted ∧ interrupted.port.offering ≠ none) :=
  ⟨⟨{ inBand 0 1 31 with pending := [.lineArrival []] }, _, runOk_inBand 0 31 1 (by decide) (by decide),
    fun _ => .inl rfl, rfl, by decide +kernel⟩, fun _ => .inl (by decide +kernel), by decide +kernel⟩

/-- RECORD_WRITE into a grant with 32 bytes left. -/
theorem test_witness_StepKeepsPort : ∃ s t : State, FillOk s ∧ GrantsOk s ∧ step s = .next t ∧ t.port.grant.isSome = true := by
  refine ⟨{ withGrant [event] (some (grantA1 4064)) (inOp .running 1) with pending := [.recordWrite] }, _,
    by unfold FillOk; decide +kernel, ⟨by decide, nofun, ?_, by decide +kernel⟩, rfl, by decide +kernel⟩
  intro o ho
  cases ho
  decide +kernel

end Sys2Proof.Tests
end

section
/-! Chapter 1 of the manual: the encoder step and the encoder glitch (R1, R2). -/

namespace Sys2Proof.Machine

/-- R1: one step of the forward cycle changes exactly one of the two channels. -/
theorem nextForward_a_ne_iff (q : ChannelPair) : (nextForward q).a ≠ q.a ↔ (nextForward q).b = q.b := by
  obtain ⟨a, b⟩ := q
  cases a <;> cases b <;> decide

/-- R2: an input pair that differs in both channels is neither the accepted pair nor its neighbour in the cycle. -/
theorem encoderInputs_of_both_ne {p : ChannelPair} {s : State} (ha : p.a ≠ s.encoder.pair.a)
    (hb : p.b ≠ s.encoder.pair.b) : encoderInputs p s = glitch p s := by
  have notSame : p ≠ s.encoder.pair := fun h => ha (congrArg ChannelPair.a h)
  have notForward : p ≠ nextForward s.encoder.pair := fun h =>
    hb (h ▸ (nextForward_a_ne_iff s.encoder.pair).1 (h ▸ ha))
  have notReverse : s.encoder.pair ≠ nextForward p := fun h =>
    hb (h ▸ (nextForward_a_ne_iff p).1 (h ▸ ha.symm)).symm
  rw [encoderInputs, if_neg notSame, if_neg notForward, if_neg notReverse]

theorem glitch_eq (p : ChannelPair) (s : State) : glitch p s = { s with
    encoder := { s.encoder with pair := p }
    counters := { s.counters with encoderGlitches := satInc s.counters.encoderGlitches } } := rfl

theorem exec_encoderStep (p : ChannelPair) (s : State) :
    exec (.encoderStep p) s = .next (encoderInputs p s) := rfl

/-- Settles O4: a change of both channels is no step of the cycle in either direction, so it decodes as a glitch. -/
theorem encoderGlitch : Obligations.EncoderGlitch := by
  intro p s ha hb
  rw [exec_encoderStep, encoderInputs_of_both_ne ha hb, glitch_eq]

end Sys2Proof.Machine
end

section
/-! Chapter 3 of the manual: the rounded division (R33), and the test of a mark with what follows from it (R42 to
R46). -/

namespace Sys2Proof.Machine

/-! ## The rounded division -/

/-- R33: the integer that `roundDiv` gives is one that its mode's row of the table allows. -/
theorem roundsTo_roundDiv (mode : Rounding) (a : Int) {b : Nat} (hb : 0 < b) :
    RoundsTo mode a b (roundDiv mode a b) := by
  have division : a / b * b + a % b = a := by rw [mul_comm]; exact Int.mul_ediv_add_emod a b
  have rem_nonneg : 0 ≤ a % b := Int.emod_nonneg a (by omega)
  have rem_lt : a % b < b := Int.emod_lt_of_pos a (by omega)
  have above : (a / b + 1) * b = a / b * b + b := by ring
  cases mode with
  | floor => simp only [RoundsTo, roundDiv]; omega
  | ceiling =>
    have below : (a / b - 1) * b = a / b * b - b := by ring
    simp only [RoundsTo, roundDiv]
    split
    · omega
    · rw [add_sub_cancel_right]; omega
  | truncate =>
    simp only [RoundsTo, roundDiv]
    split <;> omega
  | nearestEven =>
    simp only [RoundsTo, roundDiv]
    (repeat' split) <;> omega
  | nearestAway =>
    simp only [RoundsTo, roundDiv]
    (repeat' split) <;> omega

/-- R33: a numerator that is not negative rounds to an integer that is not negative. -/
theorem roundDiv_nonneg (mode : Rounding) {a : Int} (ha : 0 ≤ a) (b : Nat) : 0 ≤ roundDiv mode a b := by
  have quotient_nonneg : 0 ≤ a / b := Int.ediv_nonneg ha (by omega)
  cases mode <;> simp only [roundDiv] <;> (repeat' split) <;> omega

/-- R33: `roundNat` gives the integer of the table as a natural number. -/
theorem roundsTo_roundNat (mode : Rounding) (a : Nat) {b : Nat} (hb : 0 < b) :
    RoundsTo mode a b (roundNat mode a b : Nat) := by
  rw [roundNat, Int.toNat_of_nonneg (roundDiv_nonneg mode (by omega) b)]
  exact roundsTo_roundDiv mode a hb

/-! ## The clamp of the step -/

theorem heldTo_clampStep (n : Nat) : HeldTo 49152 81920 (n : Int) (clampStep n : Nat) := by
  simp only [HeldTo, clampStep]; omega

theorem clampStep_eq_self_iff (n : Nat) : clampStep n = n ↔ ¬ ((n : Int) < 49152 ∨ 81920 < (n : Int)) := by
  simp only [clampStep]; omega

/-! ## Events that a condition raises -/

/-- What the raising of an event reads and what it may change is the same in both states. -/
def SameForEvents (s t : State) : Prop :=
  t.port = s.port ∧ t.ctl = s.ctl ∧ t.outputs = s.outputs ∧
    t.counters.eventRecordsDropped = s.counters.eventRecordsDropped

theorem SameForEvents.trans {s t u : State} (h : SameForEvents s t) (k : SameForEvents t u) : SameForEvents s u := by
  obtain ⟨hp, hc, ho, hd⟩ := h
  obtain ⟨kp, kc, ko, kd⟩ := k
  exact ⟨kp.trans hp, kc.trans hc, ko.trans ho, kd.trans hd⟩

section
variable {p : Prop} {code : EventCode} {line : Nat} {data : Word} {s u t : State}

theorem SameForEvents.eventRaised (h : SameForEvents s u) (k : EventRaised code line data u t) :
    EventRaised code line data s t := by
  obtain ⟨port, ctl, outputs, dropped⟩ := h
  exact .of_eq port ctl outputs dropped k

theorem SameForEvents.eventRaisedIf (h : SameForEvents s u) (k : EventRaisedIf p code line data u t) :
    EventRaisedIf p code line data s t := by
  refine ⟨fun hp => h.eventRaised (k.1 hp), fun hp => ?_⟩
  obtain ⟨port, ctl, outputs, dropped⟩ := h
  obtain ⟨port', dropped', outputs'⟩ := k.2 hp
  exact ⟨port'.trans port, dropped'.trans dropped, outputs'.trans outputs⟩

/-- What comes after the event and adds no record leaves it raised. -/
theorem EventRaisedIf.andThen (h : EventRaisedIf p code line data s u) (k : SameForEvents u t) :
    EventRaisedIf p code line data s t := by
  obtain ⟨port, ctl, outputs, dropped⟩ := k
  simpa only [EventRaisedIf, EventRaised, SpaceTested, port, outputs, dropped] using h

end

/-- R151, R179: an event raised under a condition. -/
theorem raise_raisedIf (p : Prop) [Decidable p] (code : EventCode) (line : Nat) (data : Word) (s : State) :
    EventRaisedIf p code line data s (if p then raise code line data s else s) := by
  refine ⟨fun hp => ?_, fun hp => ?_⟩
  · rw [if_pos hp]; exact raise_raised s code line data
  · rw [if_neg hp]; exact ⟨rfl, rfl, rfl⟩

/-! ## The parts of acting on a mark -/

section
variable (s : State) (ev : LineEvent)

theorem lockOn_tracker : (lockOn s).tracker = { s.tracker with
    p := 0, mode := .locked, coasts := 0, wrapPending := false, prevAccepted := true, sinceStart := 0 } := rfl

theorem lockOn_counters : (lockOn s).counters = { s.counters with
    marksAccepted := satInc s.counters.marksAccepted } := rfl

theorem nextRepeat_tracker : (nextRepeat s).tracker = { s.tracker with
    repeatNo := satInc s.tracker.repeatNo } := rfl

theorem sameForEvents_lockOn : SameForEvents s (lockOn s) := ⟨rfl, rfl, rfl, rfl⟩

theorem sameForEvents_nextRepeat : SameForEvents s (nextRepeat s) := ⟨rfl, rfl, rfl, rfl⟩

/-- R44: a late mark adds its offset to STRETCH, an early one to SHRINK. -/
theorem addOffset_counters (e : Int) : (addOffset e s).counters = { s.counters with
    stretch := if 0 < e then satAdd s.counters.stretch e.toNat else s.counters.stretch
    shrink := if e < 0 then satAdd s.counters.shrink (-e).toNat else s.counters.shrink } := by
  unfold addOffset
  split
  · next late => rw [if_neg (by omega : ¬ e < 0)]; rfl
  · split <;> rfl

theorem sameForEvents_addOffset (e : Int) : SameForEvents s (addOffset e s) :=
  ⟨addOffset_port s e, addOffset_ctl s e, addOffset_outputs s e, by rw [addOffset_counters]⟩

theorem updateStep_tracker : (updateStep ev s).tracker = { s.tracker with
    step := clampStep (stepFor s s.tracker.sinceStart.toNat) } := by
  unfold updateStep
  dsimp only
  split
  · rfl
  · rw [raise_tracker]; rfl

theorem updateStep_counters : (updateStep ev s).counters = { s.counters with
    eventRecordsDropped := (updateStep ev s).counters.eventRecordsDropped } := by
  unfold updateStep
  dsimp only
  split
  · rfl
  · exact raise_counters _ _ _ rfl

/-- R45: the step update raises STEP_CLAMPED when the step is held. -/
theorem updateStep_raisedIf :
    EventRaisedIf (clampStep (stepFor s s.tracker.sinceStart.toNat) ≠ stepFor s s.tracker.sinceStart.toNat)
      .stepClamped ev.line ev.position s (updateStep ev s) := by
  have same : SameForEvents s (s.updTracker fun t =>
      { t with step := clampStep (stepFor s s.tracker.sinceStart.toNat) }) := ⟨rfl, rfl, rfl, rfl⟩
  have raised := same.eventRaisedIf (raise_raisedIf
    (clampStep (stepFor s s.tracker.sinceStart.toNat) ≠ stepFor s s.tracker.sinceStart.toNat)
    .stepClamped ev.line ev.position _)
  rwa [ite_not] at raised

/-! ## A mark acquired -/

theorem acquireMark_tracker : (acquireMark ev s).tracker = { s.tracker with
    p := 0, repeatNo := satInc s.tracker.repeatNo, mode := .locked, coasts := 0,
    wrapPending := false, prevAccepted := true, sinceStart := 0 } := by
  rw [acquireMark, raise_tracker, lockOn_tracker, nextRepeat_tracker]

theorem acquireMark_counters : (acquireMark ev s).counters = { s.counters with
    marksAccepted := satInc s.counters.marksAccepted
    eventRecordsDropped := (acquireMark ev s).counters.eventRecordsDropped } :=
  raise_counters _ _ (lockOn (nextRepeat s)) rfl

theorem acquireMark_raised : EventRaised .locked ev.line ev.position s (acquireMark ev s) :=
  ((sameForEvents_nextRepeat s).trans (sameForEvents_lockOn _)).eventRaised (raise_raised _ _ _ _)

/-! ## A mark accepted -/

/-- R44, R45: the first two parts of accepting a mark: its offset is added and the step updated. -/
def offsetAndStep : State :=
  if s.tracker.prevAccepted then updateStep ev (addOffset (markOffset s) s) else addOffset (markOffset s) s

/-- R44: a mark accepted but for the LOCKED event that ends a coast. -/
def acceptedBeforeLocked : State :=
  lockOn (if s.tracker.wrapPending then offsetAndStep s ev else nextRepeat (offsetAndStep s ev))

theorem acceptMark_eq : acceptMark ev s =
    if s.tracker.mode = .coasting then raise .locked ev.line ev.position (acceptedBeforeLocked s ev)
    else acceptedBeforeLocked s ev := rfl

/-- R45: the step once a mark has been accepted. -/
def acceptedStep : Nat :=
  if s.tracker.prevAccepted then clampStep (stepFor s s.tracker.sinceStart.toNat) else s.tracker.step

theorem stepFor_addOffset (e : Int) (n : Nat) : stepFor (addOffset e s) n = stepFor s n := by
  simp only [stepFor, addOffset_ctl]

theorem offsetAndStep_tracker : (offsetAndStep s ev).tracker = { s.tracker with step := acceptedStep s } := by
  unfold offsetAndStep acceptedStep
  split
  · rw [updateStep_tracker, stepFor_addOffset, addOffset_tracker]
  · exact addOffset_tracker s _

theorem offsetAndStep_ctl : (offsetAndStep s ev).ctl = s.ctl := by
  unfold offsetAndStep; split <;> simp

theorem offsetAndStep_counters : (offsetAndStep s ev).counters = { (addOffset (markOffset s) s).counters with
    eventRecordsDropped := (offsetAndStep s ev).counters.eventRecordsDropped } := by
  unfold offsetAndStep
  split
  · exact updateStep_counters _ ev
  · rfl

/-- R45: STEP_CLAMPED is raised when the step is updated and held. -/
theorem offsetAndStep_raisedIf :
    EventRaisedIf (s.tracker.prevAccepted = true ∧
        clampStep (stepFor s s.tracker.sinceStart.toNat) ≠ stepFor s s.tracker.sinceStart.toNat)
      .stepClamped ev.line ev.position s (offsetAndStep s ev) := by
  have same := sameForEvents_addOffset s (markOffset s)
  unfold offsetAndStep
  split
  · next accepted =>
    have raised := same.eventRaisedIf (updateStep_raisedIf _ ev)
    simpa only [stepFor_addOffset, addOffset_tracker, accepted, true_and] using raised
  · next notAccepted =>
    obtain ⟨port, -, outputs, dropped⟩ := same
    exact ⟨fun h => absurd h.1 notAccepted, fun _ => ⟨port, dropped, outputs⟩⟩

theorem sameForEvents_acceptedBeforeLocked :
    SameForEvents (offsetAndStep s ev) (acceptedBeforeLocked s ev) := by
  unfold acceptedBeforeLocked
  split
  · exact sameForEvents_lockOn _
  · exact (sameForEvents_nextRepeat _).trans (sameForEvents_lockOn _)

theorem acceptedBeforeLocked_tracker : (acceptedBeforeLocked s ev).tracker = { s.tracker with
    p := 0
    repeatNo := if s.tracker.wrapPending = true then s.tracker.repeatNo else satInc s.tracker.repeatNo
    mode := .locked
    coasts := 0
    wrapPending := false
    prevAccepted := true
    sinceStart := 0
    step := acceptedStep s } := by
  unfold acceptedBeforeLocked
  split <;> simp only [lockOn_tracker, nextRepeat_tracker, offsetAndStep_tracker]

theorem acceptedBeforeLocked_counters : (acceptedBeforeLocked s ev).counters =
    { (addOffset (markOffset s) s).counters with
      marksAccepted := satInc s.counters.marksAccepted
      eventRecordsDropped := (acceptedBeforeLocked s ev).counters.eventRecordsDropped } := by
  unfold acceptedBeforeLocked
  split <;> simp only [lockOn_counters, nextRepeat_counters] <;>
    rw [offsetAndStep_counters, addOffset_counters]

theorem acceptMark_tracker : (acceptMark ev s).tracker = (acceptedBeforeLocked s ev).tracker := by
  rw [acceptMark_eq]
  split
  · exact raise_tracker _ _ _ _
  · rfl

/-- R44: of the counters, accepting a mark changes MARKS_ACCEPTED, the accumulator of its offset and, through its
events, EVENT_RECORDS_DROPPED. -/
theorem acceptMark_counters : (acceptMark ev s).counters = { s.counters with
    stretch := if 0 < markOffset s then satAdd s.counters.stretch (markOffset s).toNat else s.counters.stretch
    shrink := if markOffset s < 0 then satAdd s.counters.shrink (-markOffset s).toNat else s.counters.shrink
    marksAccepted := satInc s.counters.marksAccepted
    eventRecordsDropped := (acceptMark ev s).counters.eventRecordsDropped } := by
  have before := acceptedBeforeLocked_counters s ev
  rw [addOffset_counters] at before
  rw [acceptMark_eq]
  split
  · rw [raise_counters _ _ _ rfl, before]
  · exact before

/-- R44, R151: a mark accepted in COASTING raises LOCKED after all else. -/
theorem acceptMark_raisedIf : EventRaisedIf (s.tracker.mode = .coasting) .locked ev.line ev.position
    (acceptedBeforeLocked s ev) (acceptMark ev s) := by
  rw [acceptMark_eq]
  exact raise_raisedIf _ _ _ _ _

/-- R45: a repeat that did not begin at an acquired or accepted mark raises no STEP_CLAMPED. -/
theorem sameForEvents_acceptedBeforeLocked_of_not_prevAccepted (h : s.tracker.prevAccepted = false) :
    SameForEvents s (acceptedBeforeLocked s ev) := by
  have noUpdate : offsetAndStep s ev = addOffset (markOffset s) s := by simp [offsetAndStep, h]
  exact (noUpdate ▸ sameForEvents_addOffset s (markOffset s)).trans (sameForEvents_acceptedBeforeLocked s ev)

/-- R45: a repeat that began at an acquired or accepted mark raises STEP_CLAMPED when its step is out of range. -/
theorem acceptedBeforeLocked_raisedIf (h : s.tracker.prevAccepted = true) :
    EventRaisedIf ((stepFor s s.tracker.sinceStart.toNat : Int) < 49152 ∨
        81920 < (stepFor s s.tracker.sinceStart.toNat : Int))
      .stepClamped ev.line ev.position s (acceptedBeforeLocked s ev) := by
  have raised := (offsetAndStep_raisedIf s ev).andThen (sameForEvents_acceptedBeforeLocked s ev)
  simpa only [h, true_and, ne_eq, clampStep_eq_self_iff, not_not] using raised

/-- R45: the step before the clamp is L × 65,536 / N, rounded. -/
theorem roundsTo_stepFor {n : Nat} (hn : 0 < n) :
    RoundsTo s.ctl.cfg.rounding (s.ctl.cfg.l * 65536) n (stepFor s n : Nat) := by
  have h := roundsTo_roundNat s.ctl.cfg.rounding (65536 * s.ctl.cfg.l) hn
  rwa [Nat.cast_mul, mul_comm] at h

/-! ## The test of a mark -/

theorem actOnMark_of_seeking_or_lost (h : s.tracker.mode = .seeking ∨ s.tracker.mode = .lost) :
    actOnMark ev s = acquireMark ev s := by
  unfold actOnMark
  rcases h with h | h <;> rw [h]

theorem actOnMark_of_locked_or_coasting (h : s.tracker.mode = .locked ∨ s.tracker.mode = .coasting) :
    actOnMark ev s =
      if (markOffset s).natAbs ≤ s.ctl.cfg.wc then acceptMark ev s else bump .marksRejected s := by
  unfold actOnMark
  rcases h with h | h <;> rw [h]

end

/-- Settles O46, by the mode and the test of the offset: a mark acquired, rejected or accepted.  STEP_CLAMPED of an
accepted mark lies before the state in which LOCKED is yet to be raised, and LOCKED after it. -/
theorem markTested : Obligations.MarkTested := by
  intro s ev
  refine ⟨fun untested => ?_, fun tested =>
    ⟨roundedPhase s, markOffset s, roundsTo_roundNat _ _ (by decide), by omega, rfl, fun beyond => ?_, fun within => ?_⟩⟩
  · rw [actOnMark_of_seeking_or_lost s ev untested]
    refine ⟨acquireMark_tracker s ev, ?_, ?_, ?_, acquireMark_raised s ev⟩ <;> rw [acquireMark_counters]
  · rw [actOnMark_of_locked_or_coasting s ev tested, if_neg (by omega)]
    rfl
  · rw [actOnMark_of_locked_or_coasting s ev tested, if_pos within, acceptMark_tracker]
    refine ⟨?_, fun notAccepted => ?_, fun accepted started => ?_, ?_, ?_, ?_, ?_, fun notAccepted => ?_⟩
    · rw [acceptedBeforeLocked_tracker]
    · simp [acceptedBeforeLocked_tracker, acceptedStep, notAccepted]
    · have lines_pos : 0 < s.tracker.sinceStart.toNat :=
        Nat.pos_of_ne_zero fun h => started (BitVec.eq_of_toNat_eq h)
      refine ⟨stepFor s s.tracker.sinceStart.toNat, acceptedBeforeLocked s ev, roundsTo_stepFor s lines_pos, ?_, ?_,
        acceptedBeforeLocked_raisedIf s ev accepted, acceptMark_raisedIf s ev⟩
      · simpa only [acceptedBeforeLocked_tracker, acceptedStep, accepted, if_true] using heldTo_clampStep _
      · obtain ⟨-, ctl, -, -⟩ := sameForEvents_acceptedBeforeLocked s ev
        exact ctl.trans (offsetAndStep_ctl s ev)
    · rw [acceptMark_counters]
    · rw [acceptMark_counters]
    · rw [acceptMark_counters]
    · rw [acceptMark_counters]
    · exact (sameForEvents_acceptedBeforeLocked_of_not_prevAccepted s ev notAccepted).eventRaisedIf
        (acceptMark_raisedIf s ev)

end Sys2Proof.Machine
end

section
/-! Chapter 5 of the manual: the measures, the class and the severity of a scored tile (R76 to R85). -/

namespace Sys2Proof.Machine

/-! ## The measures -/

/-- R33: no mode rounds above an integer that the exact quotient does not exceed. -/
theorem RoundsTo.le_of_le_mul {mode : Rounding} {a n k : Int} {b : Nat} (hb : 0 < b) (h : RoundsTo mode a b n)
    (ha : a ≤ k * b) : n ≤ k := by
  by_contra! above
  have next_le : (k + 1) * b ≤ n * b := mul_le_mul_of_nonneg_right above (by omega)
  rw [add_mul, one_mul] at next_le
  cases mode <;> simp only [RoundsTo] at h
  case ceiling => rw [sub_mul, one_mul] at h; omega
  all_goals omega

section
variable (mode : Rounding) {s : Slot}

theorem madOf_of_not_compared (h : s.compared = 0) : madOf mode s = 0 := if_pos h

theorem rawShift_of_not_compared (h : s.compared = 0) : rawShift mode s = 0 := if_pos h

theorem meanOf_of_not_inspectable (h : s.inspectable = 0) : meanOf mode s = 0 := if_pos h

theorem roundsTo_madOf (h : 1 ≤ s.compared) : RoundsTo mode s.sumAbs (s.compared * 32) (madOf mode s) := by
  rw [madOf, if_neg (by omega)]
  exact_mod_cast roundsTo_roundNat mode s.sumAbs (by omega : 0 < s.compared * 32)

theorem roundsTo_rawShift (h : 1 ≤ s.compared) : RoundsTo mode s.sumSigned (s.compared * 32) (rawShift mode s) := by
  rw [rawShift, if_neg (by omega)]
  exact roundsTo_roundDiv mode s.sumSigned (by omega)

theorem roundsTo_meanOf (h : 1 ≤ s.inspectable) :
    RoundsTo mode s.pixelSum (s.inspectable * 32) (meanOf mode s) := by
  rw [meanOf, if_neg (by omega)]
  exact_mod_cast roundsTo_roundNat mode s.pixelSum (by omega : 0 < s.inspectable * 32)

/-- R76: MAD fits its byte when the magnitudes are of bytes, each 255 at most. -/
theorem madOf_le (h : 1 ≤ s.compared) (hsum : s.sumAbs ≤ 255 * (s.compared * 32)) : madOf mode s ≤ 255 := by
  exact_mod_cast (roundsTo_madOf mode h).le_of_le_mul (k := 255) (by omega) (by omega)

end

theorem heldTo_clampShift (n : Int) : HeldTo (-128) 127 n (clampShift n) := by
  simp only [HeldTo, clampShift]; omega

theorem clampShift_ne_self_iff (n : Int) : clampShift n ≠ n ↔ n < -128 ∨ 127 < n := by
  simp only [clampShift]; omega

/-! ## The combination of the measures -/

/-- R83: a measure triggers when it is enabled and its value lies in its area. -/
theorem triggers_iff (t : Threshold) (v : Int) :
    t.triggers v = true ↔ t.enabled = true ∧ InArea t v := by
  rw [Threshold.triggers, Bool.and_eq_true, InArea]
  refine and_congr Iff.rfl ?_
  split <;> simp

/-- R83: the three measures of a tile, each with its threshold. -/
def measuresOf (cfg : StationConfig) (mad : Nat) (shift : Int) (peak : Nat) : List (Threshold × Int) :=
  [(cfg.mad, (mad : Int)), (cfg.shift, shift), (cfg.peak, (peak : Int))]

section
variable {cfg : StationConfig} (mad : Nat) (shift : Int) (peak : Nat)

/-- R84: with ANY, the combination holds when some measure triggers. -/
theorem combinationHolds_any_iff (any : cfg.combination.getLsbD 0 = false) :
    combinationHolds cfg mad shift peak = true ↔
      ∃ m ∈ measuresOf cfg mad shift peak, m.1.enabled = true ∧ InArea m.1 m.2 := by
  simp [combinationHolds, measuresOf, -BitVec.getLsbD_eq_getElem, any, triggers_iff]

/-- R84: with ALL, the combination holds when some measure is enabled and every enabled measure triggers. -/
theorem combinationHolds_all_iff (all : cfg.combination.getLsbD 0 = true) :
    combinationHolds cfg mad shift peak = true ↔
      (∃ m ∈ measuresOf cfg mad shift peak, m.1.enabled = true) ∧
      ∀ m ∈ measuresOf cfg mad shift peak, m.1.enabled = true → InArea m.1 m.2 := by
  have enabled_imp_triggers (t : Threshold) (v : Int) :
      (t.enabled = false ∨ t.triggers v = true) ↔ (t.enabled = true → InArea t v) := by
    rw [triggers_iff]
    cases t.enabled <;> simp
  simp [combinationHolds, measuresOf, -BitVec.getLsbD_eq_getElem, all, enabled_imp_triggers]

/-- R84: both combinations in one statement. -/
theorem combinationHolds_iff :
    combinationHolds cfg mad shift peak = true ↔
      (cfg.combination.getLsbD 0 = false →
        ∃ m ∈ measuresOf cfg mad shift peak, m.1.enabled = true ∧ InArea m.1 m.2) ∧
      (cfg.combination.getLsbD 0 = true →
        (∃ m ∈ measuresOf cfg mad shift peak, m.1.enabled = true) ∧
        ∀ m ∈ measuresOf cfg mad shift peak, m.1.enabled = true → InArea m.1 m.2) := by
  cases h : cfg.combination.getLsbD 0 with
  | false => rw [combinationHolds_any_iff mad shift peak h]; simp
  | true => rw [combinationHolds_all_iff mad shift peak h]; simp

end

/-! ## The class and the severity -/

section
variable (cfg : StationConfig) (ready : Bool) (s : Slot) (mad : Nat) (shift : Int)

theorem classOf_eq_void_iff : classOf cfg ready s mad shift = .void ↔ s.inspectable < 16 := by
  unfold classOf; split_ifs <;> simp_all

theorem classOf_eq_blind_iff : classOf cfg ready s mad shift = .blind ↔
    16 ≤ s.inspectable ∧ cfg.glareLimit < s.glare := by
  unfold classOf; split_ifs <;> simp <;> omega

theorem classOf_eq_unref_iff : classOf cfg ready s mad shift = .unref ↔
    16 ≤ s.inspectable ∧ s.glare ≤ cfg.glareLimit ∧ (s.compared < 16 ∨ ready = false) := by
  unfold classOf; split_ifs <;> simp_all

theorem classOf_eq_hit_iff : classOf cfg ready s mad shift = .hit ↔
    16 ≤ s.inspectable ∧ s.glare ≤ cfg.glareLimit ∧ 16 ≤ s.compared ∧ ready = true ∧
      combinationHolds cfg mad shift s.peak = true := by
  unfold classOf; split_ifs <;> grind

end

theorem severityOf_eq (c : TileClass) (peak : Nat) :
    severityOf c peak = if c = .hit ∨ c = .quiet then peak else 0 := by
  cases c <;> rfl

/-- Settles O48: each measure by its own rounding, the class by the order of its conditions, and HIT by the
combination of the measures that trigger. -/
theorem tileScores : Obligations.TileScores := by
  rintro cfg ready s x rfl
  refine ⟨fun uncompared => ?_, fun compared => ⟨roundsTo_madOf _ compared, madOf_le _ compared, rawShift cfg.rounding s,
      roundsTo_rawShift _ compared, heldTo_clampShift _, ?_⟩,
    meanOf_of_not_inspectable _, roundsTo_meanOf _, rfl, rfl, classOf_eq_void_iff .., classOf_eq_blind_iff ..,
    classOf_eq_unref_iff .., ?_, severityOf_eq ..⟩
  · have raw : rawShift cfg.rounding s = 0 := rawShift_of_not_compared _ uncompared
    refine ⟨madOf_of_not_compared _ uncompared, ?_, ?_⟩ <;> simp only [scoreSlot, raw] <;> decide
  · exact decide_eq_true_iff.trans (clampShift_ne_self_iff _)
  · refine (classOf_eq_hit_iff ..).trans ?_
    rw [combinationHolds_iff, exists_eq_left]
    rfl

end Sys2Proof.Machine
end

section
/-! Chapter 8 of the manual: base home, core forwarder and home of an overlap tile, and the standing of a tile
(R133 to R139). -/

namespace Sys2Proof.Machine

/-! ## The base home (R134) -/

section
variable {a b : StationNo} (ca cb : StationConfig) (overlapA overlapB g : Nat)

theorem isBaseHome_asNeighbour_iff :
    isBaseHome a ca (asNeighbour b cb overlapB) g = true ↔
      natDist (ca.c0 + ca.w / 2) (32 * g + 16) < natDist (cb.c0 + cb.w / 2) (32 * g + 16) ∨
      (natDist (ca.c0 + ca.w / 2) (32 * g + 16) = natDist (cb.c0 + cb.w / 2) (32 * g + 16) ∧
        a.toNat < b.toNat) := by
  simp only [isBaseHome, Bool.or_eq_true, Bool.and_eq_true, decide_eq_true_iff]
  exact Iff.rfl

/-- R134: of two stations that hold each other as neighbour, exactly one takes itself as base home, the station number
deciding a tie. -/
theorem isBaseHome_asNeighbour_swap (ne : a ≠ b) :
    isBaseHome b cb (asNeighbour a ca overlapA) g = !isBaseHome a ca (asNeighbour b cb overlapB) g := by
  have numbers_ne : a.toNat ≠ b.toNat := mt BitVec.eq_of_toNat_eq ne
  rw [Bool.eq_not, ne_eq, Bool.eq_iff_iff, isBaseHome_asNeighbour_iff, isBaseHome_asNeighbour_iff]
  omega

end

/-! ## The core forwarder (R135) -/

section
variable {a b : Verdict}

theorem forwardsBefore_iff : forwardsBefore a b = true ↔
    b.severity < a.severity ∨ (a.severity = b.severity ∧ (a.pressure < b.pressure ∨
      (a.pressure = b.pressure ∧ a.station.toNat < b.station.toNat))) := by
  unfold forwardsBefore
  split_ifs <;> rw [decide_eq_true_iff] <;> omega

/-- R135: severity, pressure and number order the verdicts of two stations. -/
theorem forwardsBefore_swap (ne : a.station ≠ b.station) : forwardsBefore b a = !forwardsBefore a b := by
  have numbers_ne : a.station.toNat ≠ b.station.toNat := mt BitVec.eq_of_toNat_eq ne
  rw [Bool.eq_not, ne_eq, Bool.eq_iff_iff, forwardsBefore_iff, forwardsBefore_iff]
  omega

theorem forwarderOf_eq_own_iff : forwarderOf a b = .own ↔
    a.cls = .hit ∧ (b.cls ≠ .hit ∨ forwardsBefore a b = true) := by
  unfold forwarderOf
  split <;> simp_all

theorem forwarderOf_eq_other_iff : forwarderOf a b = .other ↔
    b.cls = .hit ∧ (a.cls ≠ .hit ∨ forwardsBefore a b = false) := by
  unfold forwarderOf
  split <;> simp_all

/-- R135: the station one side names as the other is the one that side names as itself. -/
theorem forwarderOf_eq_other_iff_swap (ne : a.station ≠ b.station) :
    forwarderOf a b = .other ↔ forwarderOf b a = .own := by
  rw [forwarderOf_eq_other_iff, forwarderOf_eq_own_iff, forwardsBefore_swap ne, Bool.not_eq_true']

/-- R135: there is a core forwarder exactly when one of the two stations classes the tile HIT. -/
theorem hit_iff_forwarderOf (ne : a.station ≠ b.station) :
    a.cls = .hit ∨ b.cls = .hit ↔ forwarderOf a b = .own ∨ forwarderOf b a = .own := by
  rw [← forwarderOf_eq_other_iff_swap ne, forwarderOf_eq_own_iff, forwarderOf_eq_other_iff]
  cases forwardsBefore a b <;> tauto

end

/-! ## The home (R136) -/

theorem handsOver_iff {base other : Verdict} : handsOver base other = true ↔
    ((base.cls = .blind ∨ base.cls = .void) ∧ other.cls ≠ .blind ∧ other.cls ≠ .void) ∨
    (2 ≤ base.pressure ∧ other.pressure < base.pressure) := by
  simp [handsOver, unseeing]

/-- R136: whether home passes between two stations, of which the first is the base home when `mine` holds. -/
def homePasses (mine : Bool) (own other : Verdict) : Bool :=
  if mine then handsOver own other else handsOver other own

theorem homePasses_not (mine : Bool) (own other : Verdict) :
    homePasses (!mine) own other = homePasses mine other own := by
  cases mine <;> rfl

theorem homePasses_iff (mine : Bool) (own other : Verdict) {base second : Verdict}
    (hb : base = if mine = true then own else other) (hs : second = if mine = true then other else own) :
    homePasses mine own other = true ↔
      ((base.cls = .blind ∨ base.cls = .void) ∧ second.cls ≠ .blind ∧ second.cls ≠ .void) ∨
      (2 ≤ base.pressure ∧ second.pressure < base.pressure) := by
  subst hb hs
  cases mine <;> exact handsOver_iff

/-! ## The standing of a tile -/

section
variable (cfg : StationConfig) (own : Verdict) (g : Nat)

/-- R136: a station is home when it is base home or home passes, and not both. -/
theorem agreedStanding_eq (n : Neighbour) (other : Verdict) {mine passes : Bool}
    (hm : isBaseHome own.station cfg n g = mine) (hp : homePasses mine own other = passes) :
    agreedStanding cfg n own other g =
      { core := forwarderOf own other == .own
        elsewhere := forwarderOf own other == .other
        home := mine ^^ passes
        handover := (mine ^^ passes) && passes
        unilateral := false } := by
  subst hm hp
  unfold agreedStanding homePasses
  cases isBaseHome own.station cfg n g <;> simp

/-- R93, R135: on an agreed side the verdict of the facing zone decides with the station's own. -/
theorem standingOf_agreed {n : Neighbour} {other : Verdict} {z : Summary} (number : n.number = other.station)
    (entry : zoneAt z g = some { g := g, cls := other.cls, severity := other.severity })
    (pressure : z.pressure = other.pressure) :
    standingOf cfg own (some { neighbour := n, agreed := true, summary := some z }) g =
      agreedStanding cfg n own other g := by
  have verdict : verdictOf n z g = some other := by
    rw [verdictOf, entry, Option.map_some, number, pressure]
  simp [standingOf, verdict]

theorem standingOf_ordinary : standingOf cfg own none g =
    { core := decide (own.cls = .hit), elsewhere := false, home := true, handover := false, unilateral := false } := by
  simp [standingOf, ordinaryStanding, beq_eq_decide]

theorem standingOf_not_agreed {v : SideView} (h : v.agreed = false) :
    standingOf cfg own (some v) g = unilateralStanding v own.cls g := by
  simp [standingOf, h]

end

theorem unilateralStanding_elsewhere_iff (v : SideView) (cls : TileClass) (g : Nat) :
    (unilateralStanding v cls g).elsewhere = true ↔
      ∃ z y, v.summary = some z ∧ zoneAt z g = some y ∧ y.cls = .hit := by
  simp [unilateralStanding, Option.any_eq_true]

/-! ## Agreement -/

/-- R133, R137, R139: the standing of a tile that the station decides by itself. -/
theorem standingOf_alone (cfg : StationConfig) (own : Verdict) (g : Nat) (v : SideView) (x : Standing)
    (h : v.agreed = false) (hx : x = standingOf cfg own (some v) g) :
    (x.core = true ↔ own.cls = .hit) ∧ x.home = true ∧ x.handover = false ∧ x.unilateral = true ∧
      (x.elsewhere = true ↔ ∃ z y, v.summary = some z ∧ zoneAt z g = some y ∧ y.cls = .hit) := by
  rw [standingOf_not_agreed cfg own g h] at hx
  subst hx
  exact ⟨beq_iff_eq, rfl, rfl, rfl, unilateralStanding_elsewhere_iff v own.cls g⟩

/-- Settles O50: the two stations' base homes are opposite and the passing of home is the same for both, so exactly
one is home; and each names as the other forwarder the one that names itself. -/
theorem overlapAgreement : Obligations.OverlapAgreement := by
  refine ⟨?_, fun cfg own g => ⟨standingOf_ordinary cfg own g, standingOf_alone cfg own g⟩⟩
  intro cx cy vx vy zx zy overlap g sx sy ne entryX pressureX entryY pressureY hsx hsy
  obtain ⟨xIsBase, base⟩ : ∃ m, isBaseHome vx.station cx (asNeighbour vy.station cy overlap) g = m := ⟨_, rfl⟩
  obtain ⟨passes, pass⟩ : ∃ p, homePasses xIsBase vx vy = p := ⟨_, rfl⟩
  have base' : isBaseHome vy.station cy (asNeighbour vx.station cx overlap) g = !xIsBase :=
    base ▸ isBaseHome_asNeighbour_swap cx cy overlap overlap g ne
  have pass' : homePasses (!xIsBase) vy vx = passes := (homePasses_not xIsBase vy vx).trans pass
  rw [standingOf_agreed cx vx g (other := vy) rfl entryY pressureY, agreedStanding_eq cx vx g _ vy base pass] at hsx
  rw [standingOf_agreed cy vy g (other := vx) rfl entryX pressureX, agreedStanding_eq cy vy g _ vx base' pass'] at hsy
  subst hsx hsy
  have other_x := forwarderOf_eq_other_iff_swap ne
  have other_y := forwarderOf_eq_other_iff_swap ne.symm
  refine ⟨xIsBase, passes, ?_, base, base', ?_, ?_, ?_, ?_, ?_, rfl, rfl, ?_, ?_, ?_, ?_, ?_⟩
  · rw [← base]
    exact isBaseHome_asNeighbour_iff cx cy overlap g
  · intro b o hb ho
    rw [← pass]
    exact homePasses_iff xIsBase vx vy hb ho
  · exact bne_iff_ne
  · exact bne_iff_ne.trans Bool.not_not_eq
  · exact Bool.and_eq_true_iff
  · exact Bool.and_eq_true_iff
  · rw [beq_iff_eq, forwarderOf_eq_own_iff, forwardsBefore_iff]
  · rw [beq_iff_eq, beq_iff_eq, other_y]
  · rw [beq_iff_eq, beq_iff_eq, other_x]
  · rw [beq_iff_eq, beq_iff_eq]
    exact hit_iff_forwarderOf ne
  · rw [beq_iff_eq, beq_iff_eq, ← other_x]
    rintro ⟨own, other⟩
    exact Forwarder.noConfusion (own.symm.trans other)

end Sys2Proof.Machine
end

section
/-! What a step is made of.  A property of the state that each part keeps is kept by every step: `KeptByCommands`
lists the parts of all 34 commands, of the next offer and of the tick. -/

namespace Sys2Proof.Machine

/-! ## The parts of a command -/

/-- The counters, the outputs, the command slot and the model's own fields may differ, and nothing else; the
configuration is the same, and no CONFIGURE has come to be in flight but where R171 accepts one. -/
structure Alike (s t : State) : Prop where
  same : t = { s with
    ctl := t.ctl, counters := t.counters, outputs := t.outputs, draws := t.draws, pending := t.pending
    overlap := t.overlap }
  cfg : t.ctl.cfg = s.ctl.cfg
  phase : ∀ a, t.ctl.phase = .busy (.configure a) →
    s.ctl.phase = .busy (.configure a) ∨ configurable s = true

/-- A transmit queue has the frames of another, or some of them, in the same order and of the same age. -/
def KeepsOrder (q q' : List TxFrame) : Prop :=
  (q'.map fun u => (u.frame, u.age)).Sublist (q.map fun u => (u.frame, u.age))

/-- The states a run may start from: a station in IDLE with no command in flight, or one that is enrolling or
armed. -/
def Startable (s : State) : Prop :=
  (s.bus.op = .idle ∧ Unoccupied s) ∨ s.bus.op = .enrolling ∨ s.bus.op = .armed

/-- The Span Bus Controller moves without a frame joining its queue or a station its heard list, and without
entering or leaving a run. -/
structure BusMoved (s : State) (b : SpanBus) : Prop where
  op : b.op = s.bus.op ∨ Startable s ∧ (b.op = .idle ∨ b.op = .enrolling ∨ b.op = .armed)
  nextAge : b.nextAge = s.bus.nextAge
  heard : b.heard = s.bus.heard ∨ b.heard = []
  queue : KeepsOrder s.bus.queue b.queue

/-- The property `I` is kept by the operations that commands of different kinds share. -/
structure KeptByOperations (I : State → Prop) : Prop where
  alike : ∀ {s t}, Alike s t → I s → I t
  powered : ∀ {s} straps inputs, I s →
    I (State.powered straps inputs (s.powerCycles + 1) s.draws s.outputs s.pending s.overlap)
  softReset : ∀ {s}, I s → I (softReset s)
  requestWindow : ∀ {s} start, inRun s → I s → I (requestWindow start (start + s.ctl.cfg.sb - 1) s)
  offerMark : ∀ {s} start source, inRun s → I s → I (offerMark start source s)
  bus : ∀ {s b}, BusMoved s b → I s → I { s with bus := b }
  hear : ∀ {s} h, (s.bus.heard.any fun x => x.number == h.number) = false → I s →
    I (s.updBus fun b => { b with heard := b.heard ++ [h], timer := some 50 })
  offerFrame : ∀ {s} f, I s → I (offerFrame f s)
  offerEvent : ∀ {s} e, I s → I (offerEvent e s)
  epochState : ∀ {s}, Startable s → I s → I (epochState s)
  applyConfig : ∀ {s} b new, (∃ a, s.ctl.phase = .busy (.configure a)) → validate b = .accepted new → I s →
    I (applyConfig new s)
  startLearning : ∀ {s}, I s → I (startLearning s)
  dropLink : ∀ {s}, I s → I (dropLink s)
  linkUp : ∀ {s}, I s → I (s.updPort fun p => { p with link := .up })
  submitGrant : ∀ {s} tag, I s → I (submitGrant tag s)
  openGrant : ∀ {s} g r more rest, s.port.queue = r :: more → s.port.fifo = g :: rest → I s → I (openGrant g r s)
  writeHead : ∀ {s} g r rest, s.port.queue = r :: rest → s.port.grant = some g → r.size ≤ g.space → I s →
    I (writeHead g r s)
  retireGrant : ∀ {s} flag, I s → I (retireGrant flag s)
  tickGrant : ∀ {s} g n, s.port.grant = some g → I s →
    I (s.updPort fun p => { p with grant := some { g with timer := n } })
  finaliseStep : ∀ {s} m, lowestTouched s = some m → I s → I (finaliseStep m s)

/-- The property `I` is kept by every part of a command, each line event and each run of closes being one part. -/
structure KeptByCommands (I : State → Prop) : Prop extends KeptByOperations I where
  encoderInputs : ∀ {s} p, I s → I (encoderInputs p s)
  lineArrives : ∀ {s} pixels, I s → I (lineArrives pixels s)
  takeSummary : ∀ {s} sender m level left right, inRun s → I s → I (takeSummary sender m level left right s)
  enterStopping : ∀ {s}, s.bus.op = .running → I s → I (enterStopping s)
  settle : ∀ {s}, I s → I (settle s)
  nextOffer : ∀ {s}, I s → I (nextOffer s)

/-- The property `I` is kept by the parts of line events and closes too. -/
structure KeptByParts (I : State → Prop) : Prop extends KeptByOperations I where
  encoder : ∀ {s} c, I s → I { s with encoder := c }
  buffer : ∀ {s} pixels n, I s → I { s with intake := { s.intake with buffer := pixels, count := n } }
  intakeEvent : ∀ {s} ev, I s → I (intakeEvent ev s)
  trackLine : ∀ {s} ev, I s → I (trackLine ev s).1
  entries : ∀ {s} t, t.leftEarly = s.table.leftEarly → t.rightEarly = s.table.rightEarly → I s →
    I { s with table := t }
  enterEarly : ∀ {s} w x, I s → I (enterEarly w x s)
  repeatEnd : ∀ {s} line, I s → I (repeatEnd line s)
  learnFrom : ∀ {s} rec row, (∀ r, rec.index = some r → r < s.ctl.cfg.l ∨ r = 0) → I s → I (learnFrom rec row s)
  offerTile : ∀ {s} t, I s → I (offerTile t s)
  offerBand : ∀ {s} b, I s → I (offerBand b s)
  offering : ∀ {s} o, I s → I { s with port := { s.port with offering := o } }
  stop : ∀ {s}, s.bus.op = .running → I s → I (setOp .stopping s)
  toIdle : ∀ {s}, s.bus.op = .stopping → I s → I (s.updBus fun b => { b with op := .idle, queue := [] })

/-! ## Changes that no part looks at -/

section
variable {s t : State} (h : Alike s t)
include h

theorem Alike.encoder : t.encoder = s.encoder := by rw [h.same]
theorem Alike.intake : t.intake = s.intake := by rw [h.same]
theorem Alike.tracker : t.tracker = s.tracker := by rw [h.same]
theorem Alike.table : t.table = s.table := by rw [h.same]
theorem Alike.bus : t.bus = s.bus := by rw [h.same]
theorem Alike.port : t.port = s.port := by rw [h.same]
theorem Alike.dram : t.dram = s.dram := by rw [h.same]

end

theorem KeepsOrder.refl (q : List TxFrame) : KeepsOrder q q := List.Sublist.refl _

theorem KeepsOrder.of_map {q : List TxFrame} {f : TxFrame → TxFrame} (hf : ∀ u, (f u).frame = u.frame ∧ (f u).age = u.age) :
    KeepsOrder q (q.map f) := by
  simp [KeepsOrder, List.map_map, Function.comp_def, hf]

theorem KeepsOrder.of_filter (q : List TxFrame) (p : TxFrame → Bool) : KeepsOrder q (q.filter p) :=
  List.filter_sublist.map _

theorem KeepsOrder.nil (q : List TxFrame) : KeepsOrder q [] := List.nil_sublist _

theorem alike_ctl {s : State} {c : Control} (hcfg : c.cfg = s.ctl.cfg)
    (hphase : ∀ a, c.phase = .busy (.configure a) → s.ctl.phase = .busy (.configure a) ∨ configurable s = true) :
    Alike s { s with ctl := c } := ⟨rfl, hcfg, hphase⟩

theorem alike_failed (code : Word) (result : ResultCode) (detail : Byte) (s : State) :
    Alike s (failed code result detail s) := ⟨rfl, rfl, nofun⟩

theorem alike_attention (s : State) : Alike s (attention s) := by
  unfold attention
  split
  · exact ⟨rfl, rfl, fun _ => .inl⟩
  · exact ⟨rfl, rfl, fun _ => .inl⟩

theorem alike_writeBytes (offset : Nat) (data : List Byte) (s : State) : Alike s (s.updCtl (writeBytes offset data)) := by
  have keeps : ∀ o c, (writeBytes o data c).cfg = c.cfg ∧ (writeBytes o data c).phase = c.phase := by
    induction data with
    | nil => exact fun _ _ => ⟨rfl, rfl⟩
    | cons b bs ih =>
      intro o c
      have one : (writeByte o b c).cfg = c.cfg ∧ (writeByte o b c).phase = c.phase := by
        unfold writeByte
        (repeat' split) <;> exact ⟨rfl, rfl⟩
      exact ⟨((ih _ _).1).trans one.1, ((ih _ _).2).trans one.2⟩
  exact alike_ctl (keeps _ _).1 fun a h => .inl ((keeps _ _).2 ▸ h)

@[simp] theorem buildNeighbours_op (s : State) : (buildNeighbours s).bus.op = s.bus.op := by
  have fold : ∀ (f : State → Heard → State), (∀ s h, (f s h).bus.op = s.bus.op) → ∀ (l : List Heard) (s : State),
      (l.foldl f s).bus.op = s.bus.op := by
    intro f hf l
    induction l with
    | nil => exact fun _ => rfl
    | cons h l ih => exact fun s => (ih _).trans (hf s h)
  exact (fold _ (fun s h => raiseNow_op s _ _) _ _).trans (fold _ (fun s h => raiseNow_op s _ _) _ _)

/-! ## Every step -/

namespace KeptByOperations

variable {I : State → Prop} (k : KeptByOperations I) {s : State}
include k

theorem bump (c : Counter) (h : I s) : I (bump c s) := k.alike ⟨rfl, rfl, fun _ => .inl⟩ h

theorem raise (code : EventCode) (line : Nat) (data : Word) (h : I s) : I (raise code line data s) := by
  have reported : I (reportLocal code line data s) := by
    unfold reportLocal
    split
    · exact k.offerEvent _ h
    · exact h
  rw [Machine.raise]
  unfold shareLocal
  split
  · exact reported
  · split
    · exact k.offerFrame _ reported
    · exact reported

theorem raiseNow (code : EventCode) (data : Word) (h : I s) : I (raiseNow code data s) := k.raise _ _ _ h

end KeptByOperations

namespace KeptByCommands

variable {I : State → Prop} (k : KeptByCommands I) {s : State}
include k

theorem endFailed (result : ResultCode) (detail : Nat) (h : I s) : I (endFailed result detail s) :=
  k.alike (alike_attention _) (k.bump _ (k.alike (s := s) ⟨rfl, rfl, nofun⟩ h))

theorem endDone (h : I s) : I (endDone s) :=
  k.alike (alike_attention _) (k.alike (s := s) ⟨rfl, rfl, nofun⟩ h)

theorem standDown (hop : s.bus.op = .enrolling ∨ s.bus.op = .armed) (h : I s) : I (standDown s) :=
  k.bus ⟨.inr ⟨.inr hop, .inl rfl⟩, rfl, .inl rfl, .nil _⟩ h

theorem takeEpoch (hs : Startable s) (h : I s) : I (takeEpoch s) := k.raise _ _ _ (k.epochState hs h)

theorem buildNeighbours (h : I s) : I (buildNeighbours s) := by
  have fold : ∀ (f : State → Heard → State), (∀ s h, I s → I (f s h)) → ∀ (l : List Heard) (s : State), I s →
      I (l.foldl f s) := by
    intro f hf l
    induction l with
    | nil => exact fun _ h => h
    | cons x l ih => exact fun s h => ih _ (hf s x h)
  exact fold _ (fun s x => k.raiseNow _ _) _ _ (fold _ (fun s x => k.raiseNow _ _) _ _
    (k.bus ⟨.inl rfl, rfl, .inl rfl, .refl _⟩ h))

theorem expireWindow (hop : s.bus.op = .enrolling) (h : I s) : I (expireWindow s) := by
  refine k.bus ⟨.inr ⟨.inr (.inl ?_), .inr (.inr rfl)⟩, rfl, .inl rfl, .refl _⟩ (k.offerFrame _ (k.buildNeighbours h))
  rw [offerFrame_op, buildNeighbours_op, hop]

theorem runTaken (h : I s) : I (runTaken s) := by
  unfold Machine.runTaken
  split
  next hop => exact k.takeEpoch (.inr (.inl ((buildNeighbours_op s).trans hop))) (k.buildNeighbours h)
  next hop => exact k.takeEpoch (.inr (.inr hop)) h
  next => exact h

theorem haltTaken (h : I s) : I (haltTaken s) := by
  unfold Machine.haltTaken
  split
  next hop => exact k.standDown (.inl hop) h
  next hop => exact k.standDown (.inr hop) h
  next hop => exact k.settle (k.enterStopping hop h)
  all_goals exact h

theorem haltAction (h : I s) : I (haltAction s) := by
  unfold Machine.haltAction
  split
  next hop => exact h
  next hop => exact h
  next hop => exact h
  next hop => exact k.standDown (.inl hop) h
  next hop => exact k.standDown (.inr hop) h
  next hop =>
    split
    · exact k.offerFrame _ h
    · exact k.settle (k.enterStopping hop h)

/-! ### Frames -/

theorem actOnAlert (sender : StationNo) (a : AlertKind) (line : Word) (hrun : inRun s) (h : I s) :
    I (actOnAlert sender a line s) := by
  cases a with
  | splice => exact k.requestWindow _ hrun h
  | mark => exact k.offerMark _ _ hrun h

theorem routeAlert (sender : StationNo) (a : AlertKind) (line : Word) (hrun : inRun s) (h : I s) :
    I (routeAlert sender a line s) := by
  have reported : ∀ e, I (if peerReports a s = true then Machine.offerEvent e s else s) ∧
      inRun (if peerReports a s = true then Machine.offerEvent e s else s) := by
    intro e
    split
    · exact ⟨k.offerEvent _ h, by rwa [inRun, offerEvent_bus]⟩
    · exact ⟨h, hrun⟩
  rw [Machine.routeAlert]
  split
  · exact k.actOnAlert _ _ _ (reported _).2 (reported _).1
  · exact (reported _).1

theorem actOnPeer (f : HeardFrame) (h : I s) : I (actOnPeer f s) := by
  unfold Machine.actOnPeer
  split
  · exact k.haltTaken h
  · exact k.runTaken h
  next hop => exact k.routeAlert _ _ _ (.inl hop) h
  next hop => exact k.routeAlert _ _ _ (.inr hop) h
  · exact h
  next hop => exact k.standDown (.inl ((raiseNow_op s _ _).trans hop)) (k.raiseNow _ _ h)
  next hop => exact k.standDown (.inr ((raiseNow_op s _ _).trans hop)) (k.raiseNow _ _ h)
  next hop => exact k.takeSummary _ _ _ _ _ (.inl hop) h
  next hop => exact k.takeSummary _ _ _ _ _ (.inr hop) h
  · exact h
  · unfold hearSpan
    split
    · exact h
    next hnew => exact k.offerFrame _ (k.hear _ (Bool.eq_false_iff.2 hnew) h)
  · exact h

theorem actOnEcho (f : HeardFrame) (h : I s) : I (actOnEcho f s) := by
  unfold Machine.actOnEcho
  split
  · exact k.haltTaken h
  · exact k.runTaken h
  all_goals exact h

theorem reportDuplicate (f : HeardFrame) (h : I s) : I (reportDuplicate f s) := by
  unfold Machine.reportDuplicate
  split
  · exact h
  · exact k.bus ⟨.inl rfl, rfl, .inl rfl, .refl _⟩ (k.raiseNow _ _ h)

theorem actOnDuplicate (f : HeardFrame) (h : I s) : I (actOnDuplicate f s) := by
  have reported : I (if f.isHalt = true then Machine.haltTaken (Machine.reportDuplicate f s)
      else Machine.reportDuplicate f s) := by
    split
    · exact k.haltTaken (k.reportDuplicate f h)
    · exact k.reportDuplicate f h
  unfold Machine.actOnDuplicate
  split
  next hop => exact k.standDown (.inl ((raiseNow_op s _ _).trans hop)) (k.raiseNow _ _ h)
  next hop => exact k.standDown (.inr ((raiseNow_op s _ _).trans hop)) (k.raiseNow _ _ h)
  · exact reported
  · exact reported
  all_goals exact h

theorem endOfFrame (h : I s) : I (endOfFrame s) :=
  k.bus ⟨.inl rfl, rfl, .inl rfl, .of_map fun _ => ⟨rfl, rfl⟩⟩ h

theorem missFrame (h : I s) : I (missFrame s) := by
  unfold Machine.missFrame
  split
  · exact k.bus ⟨.inl rfl, rfl, .inl rfl, .refl _⟩ h
  · exact h

theorem actOnFrame (f : HeardFrame) (h : I s) : I (actOnFrame f s) := by
  unfold Machine.actOnFrame
  split
  · exact k.actOnEcho f (k.endOfFrame (k.bus ⟨.inl rfl, rfl, .inl rfl, .of_filter _ _⟩ h))
  · split
    · exact k.actOnDuplicate f (k.endOfFrame h)
    · exact k.actOnPeer f (k.endOfFrame h)

theorem discardFrame (h : I s) : I (discardFrame s) := k.bump _ (k.endOfFrame h)

theorem receiveFrame (f : HeardFrame) (h : I s) : I (receiveFrame f s) := by
  unfold Machine.receiveFrame
  split
  · exact k.missFrame h
  · split
    · exact k.actOnFrame f h
    · exact k.discardFrame h

theorem receiveRaw (f : RawFrame) (h : I s) : I (receiveRaw f s) := by
  unfold Machine.receiveRaw
  split
  · exact k.missFrame h
  · split
    · exact k.actOnFrame _ h
    · exact k.discardFrame h

theorem startHead (f : Frame) (h : I s) : I (startHead f s) := by
  refine k.bus ⟨.inl rfl, rfl, .inl rfl, ?_⟩ h
  change KeepsOrder s.bus.queue (markHead s.bus.queue)
  cases s.bus.queue with
  | nil => exact .refl _
  | cons t ts => exact List.Sublist.refl _

theorem fallBack (f : Frame) (n : Nat) (h : I s) : I (fallBack f n s) :=
  k.bus ⟨.inl rfl, rfl, .inl rfl, .of_map fun _ => ⟨rfl, rfl⟩⟩ h

theorem bitErrorAt (f : Frame) (n : Nat) (h : I s) : I (bitErrorAt f n s) := by
  have counted : I (setTxQueue (s.bus.queue.map countError) (Machine.bump .busBitErrors s)) := by
    refine k.bus ⟨.inl rfl, rfl, .inl rfl, .of_map fun u => ?_⟩ (k.bump _ h)
    unfold countError
    split <;> exact ⟨rfl, rfl⟩
  refine k.fallBack f n ?_
  unfold dropWorn
  split
  · exact k.raiseNow _ _ (k.bump _ (k.bus ⟨.inl rfl, rfl, .inl rfl, .of_filter _ _⟩ counted))
  · exact counted

/-! ### Host commands -/

theorem submit (code : Nat) (stateOk argOk : Bool) (act : State → State)
    (hact : ∀ t, t = { s with ctl := { s.ctl with code := BitVec.ofNat 32 code, commandLost := false } } →
      Unoccupied t → stateOk = true → I t → I (act t)) (h : I s) : I (submit code stateOk argOk act s) := by
  obtain ⟨lost, wrong, bad, accepted⟩ := submit_cases s code stateOk argOk act
  by_cases hu : Unoccupied s
  · cases hst : stateOk with
    | false => rw [← hst, wrong hu hst]; exact k.alike (alike_failed _ _ _ s) h
    | true =>
      cases harg : argOk with
      | false => rw [← hst, ← harg, bad hu hst harg]; exact k.alike (alike_failed _ _ _ s) h
      | true =>
        subst hst harg
        rw [accepted hu rfl rfl]
        exact hact _ rfl hu rfl (k.alike (alike_ctl rfl fun _ => .inl) h)
  · rw [lost hu]
    exact k.alike ⟨rfl, rfl, fun _ => .inl⟩ h

theorem startRun (hop : s.bus.op = .idle) (hu : Unoccupied s) (h : I s) : I (startRun s) := by
  unfold Machine.startRun
  split
  · exact k.bus ⟨.inr ⟨.inl ⟨(offerFrame_op _ _).trans hop, fun w => (offerFrame_ctl _ _).symm ▸ hu w⟩, .inr (.inl rfl)⟩, rfl, .inl rfl,
      .refl _⟩ (k.offerFrame _ (k.bus ⟨.inl rfl, rfl, .inr rfl, .nil _⟩ h))
  · exact k.takeEpoch (.inl ⟨hop, hu⟩) (k.bus ⟨.inl rfl, rfl, .inr rfl, .refl _⟩ h)

theorem writeConfigure (h : I s) : I (writeConfigure s) := by
  refine k.submit _ _ _ _ (fun t ht _ hst hI => k.alike (s := t) ⟨rfl, rfl, fun a ha => .inr ?_⟩ hI) h
  rw [ht]
  exact hst

theorem writeStart (h : I s) : I (writeStart s) := by
  refine k.submit _ _ _ _ (fun t ht hu hst hI => k.endDone (k.startRun ?_ hu hI)) h
  rw [ht]
  exact of_decide_eq_true hst

theorem writeHalt (h : I s) : I (writeHalt s) :=
  k.submit _ _ _ _ (fun _ _ _ _ hI => k.endDone (k.haltAction hI)) h

theorem writeLearn (h : I s) : I (writeLearn s) :=
  k.submit _ _ _ _ (fun _ _ _ _ hI => k.endDone (k.startLearning hI)) h

theorem writeSnapshot (h : I s) : I (writeSnapshot s) :=
  k.submit _ _ _ _ (fun t _ _ _ hI => k.alike (s := t) ⟨rfl, rfl, nofun⟩ hI) h

theorem writeClear (h : I s) : I (writeClear s) :=
  k.submit _ _ _ _ (fun t _ _ _ hI => k.endDone (k.alike (s := t) ⟨rfl, rfl, fun _ => .inl⟩ hI)) h

theorem writeReset (h : I s) : I (writeReset s) :=
  k.submit _ _ _ _ (fun _ _ _ _ hI => k.endDone (k.softReset hI)) h

theorem writeOther (code : Word) (h : I s) : I (writeOther code s) := by
  have coded : I (s.updCtl fun c => { c with code := code }) := k.alike (alike_ctl rfl fun _ => .inl) h
  unfold Machine.writeOther
  split
  · exact k.alike (s := s.updCtl _) ⟨rfl, rfl, fun _ => .inl⟩ coded
  · exact k.endFailed _ _ coded

theorem abandonCommand (h : I s) : I (abandonCommand s) := by
  unfold Machine.abandonCommand
  split
  · exact k.endFailed _ _ h
  · exact k.endFailed _ _ (k.alike (s := s) ⟨rfl, rfl, fun _ => .inl⟩ h)
  · exact h

theorem finishConfigure (b : BitVec 2048) (hp : ∃ a, s.ctl.phase = .busy (.configure a)) (h : I s) :
    I (finishConfigure b s) := by
  unfold Machine.finishConfigure
  split
  next new hv => exact k.applyConfig b new hp hv h
  next => exact k.endFailed _ _ h

/-! ### The internal moves -/

theorem flushExpired (h : I s) : I (flushExpired s) := k.settle (k.retireGrant _ h)

theorem tick (h : I s) : I (tick s) := by
  have enrolled : I (tickEnrollment s) := by
    unfold tickEnrollment
    split
    next hop _ =>
      split
      · exact k.expireWindow hop h
      · exact k.bus ⟨.inl rfl, rfl, .inl rfl, .refl _⟩ h
    next => exact h
  unfold Machine.tick tickFlush
  split
  next => exact enrolled
  next g hg =>
    split
    · exact k.flushExpired enrolled
    · exact k.tickGrant g _ hg enrolled

theorem idleStep (h : I s) : I (idleStep s) := by
  unfold Machine.idleStep
  split
  · exact k.tick h
  · exact k.nextOffer h

/-- Every command keeps `I`, by the parts it is made of. -/
theorem exec {c : Instr} {t : State} (h : I s) (e : exec c s = .next t) : I t := by
  cases c with
  | powerOn straps inputs => cases e; exact k.powered _ _ h
  | encoderStep p => cases e; exact k.encoderInputs p h
  | lineArrival px => cases e; exact k.lineArrives px h
  | localSplice =>
    cases e
    split
    next hop =>
      unfold takeSplice
      split
      · exact h
      · exact k.raise _ _ _ (k.requestWindow _ (.inl hop) h)
    next => exact h
  | localMark =>
    cases e
    split
    next hop =>
      unfold takeMark
      split
      · exact k.bump _ h
      · exact k.raise _ _ _ (k.offerMark _ _ (.inl hop) h)
    next => exact h
  | frameTransmitStart =>
    cases e
    split
    · exact h
    · split
      · exact k.startHead _ h
      · exact h
  | arbitrationLost n =>
    cases e
    split
    · exact h
    · split
      · exact k.fallBack _ _ (k.bump _ h)
      · exact h
  | bitError n =>
    cases e
    split
    · exact h
    · split
      · exact k.bitErrorAt _ _ h
      · exact h
  | badFrame f => cases e; exact k.receiveRaw f h
  | haltFrame | runFrame | alertFrame | summaryFrame | spanFrame => cases e; exact k.receiveFrame _ h
  | enrollmentWindowExpiry =>
    cases e
    split
    next hop => exact k.expireWindow hop h
    next => exact h
  | configure => cases e; exact k.writeConfigure h
  | configureReadDone b =>
    cases e
    split
    next hp => exact k.finishConfigure b ⟨_, hp⟩ h
    next => exact h
  | start => cases e; exact k.writeStart h
  | halt => cases e; exact k.writeHalt h
  | learn => cases e; exact k.writeLearn h
  | snapshot => cases e; exact k.writeSnapshot h
  | snapshotWriteDone =>
    cases e
    split
    · exact k.endDone (k.alike (s := s) ⟨rfl, rfl, fun _ => .inl⟩ h)
    · exact h
  | clear => cases e; exact k.writeClear h
  | reset => cases e; exact k.writeReset h
  | unknownCommand code =>
    cases e
    split
    · exact k.writeConfigure h
    · exact k.writeStart h
    · exact k.writeHalt h
    · exact k.writeLearn h
    · exact k.writeSnapshot h
    · exact k.writeClear h
    · exact k.writeReset h
    · exact k.writeOther code h
  | windowWrite offset data => cases e; exact k.alike (alike_writeBytes offset data s) h
  | grantSubmit tag => cases e; exact k.submitGrant tag h
  | grantOpen =>
    cases e
    split
    next hq _ hf _ => exact k.settle (k.openGrant _ _ _ _ hq hf h)
    next => exact h
  | recordWrite =>
    cases e
    split
    next hq hg _ =>
      split
      next hs => exact k.settle (k.writeHead _ _ _ hq hg hs h)
      next => exact h
    next => exact h
  | grantFlushTimerExpiry =>
    cases e
    split
    · exact k.flushExpired h
    · exact h
  | finaliseLine =>
    change execFinaliseLine s = _ at e
    unfold execFinaliseLine at e
    split at e
    · split at e
      next m hm => cases e; exact k.finaliseStep m hm h
      next => cases e
    · cases e; exact h
  | linkLoss => cases e; exact k.settle (k.haltAction (k.abandonCommand (k.dropLink h)))
  | linkUp => cases e; exact k.linkUp h
  | lineIdle =>
    cases e
    split
    · exact k.bus ⟨.inl rfl, rfl, .inl rfl, .refl _⟩ h
    · exact h

/-- Every step keeps `I`. -/
theorem step {t : State} (h : I s) (e : step s = .next t) : I t := by
  unfold Machine.step at e
  split at e
  · cases e
    exact k.idleStep h
  next c rest _ => exact k.exec (s := { s with pending := rest }) (k.alike (s := s) ⟨rfl, rfl, fun _ => .inl⟩ h) e

end KeptByCommands

end Sys2Proof.Machine
end

section
/-! Line events and closes, part by part: a property that each of their parts keeps is kept by every command. -/

namespace Sys2Proof.Machine

@[simp] theorem recordFor_index (ev : LineEvent) (notice : Bool) (s : State) :
    (recordFor ev notice s).index = if registersLine ev s then some (refIndex s) else none := rfl

theorem refIndex_lt_or_eq_zero (s : State) : refIndex s < s.ctl.cfg.l ∨ refIndex s = 0 := by
  unfold refIndex
  split
  next h => exact .inl h
  next => exact .inr rfl

/-- R47: the reference index of a line record is that of a reference line, or 0. -/
theorem trackLine_index {ev : LineEvent} {s : State} {r : Nat} (h : (trackLine ev s).2.index = some r) :
    r < s.ctl.cfg.l ∨ r = 0 := by
  have same : (takeMarks ev (beforeMarks ev s)).ctl = s.ctl := by simp
  change (if registersLine ev _ = true then some (refIndex (takeMarks ev (beforeMarks ev s))) else none) = _ at h
  split at h
  · cases h
    exact same ▸ refIndex_lt_or_eq_zero _
  · cases h

namespace KeptByParts

variable {I : State → Prop} (k : KeptByParts I) {s : State}
include k

/-! ### Closes -/

theorem overlap (l : List Nat) (h : I s) : I (s.updOverlap fun _ => l) := k.alike ⟨rfl, rfl, fun _ => .inl⟩ h

theorem updEntry (b : Nat) (f : Entry → Entry) (h : I s) : I (updEntry b f s) := k.entries _ rfl rfl h

theorem applyActions (acts : List TileAction) (n : Nat) (h : I s) : I (applyActions acts (s, n)).1 := by
  induction acts generalizing s n with
  | nil => exact h
  | cons a as ih =>
    refine ih _ ?_
    cases a with
    | nothing => exact h
    | suppress why =>
      cases why with
      | core => exact h
      | context => exact k.bump _ h
      | sample => exact k.bump _ h
    | offer t => exact k.offerTile _ h

theorem offerRest (o : Offering) (h : I s) : I (offerRest o s) := k.offerBand _ (k.applyActions _ _ h)

theorem offerSome (n : Nat) (o : Offering) (h : I s) : I (offerSome n o s) := k.offering _ (k.applyActions _ _ h)

theorem endOffers (o : Offering) (h : I s) : I (endOffers o s) := k.offerRest o (k.offering none h)

theorem closeEntry (e : Entry) (h : I s) : I (closeEntry e s) := by
  refine k.entries _ rfl rfl ?_
  unfold steer
  split
  · exact k.offerRest _ h
  · exact k.offerSome _ _ (k.overlap _ h)

theorem closingTest (h : I s) : I (closingTest s) := by
  have all : ∀ (n : Nat) (s : State), I s → I (closeAll n s) := by
    intro n
    induction n with
    | zero => exact fun _ h => h
    | succ n ih =>
      intro s h
      rw [closeAll]
      split
      · exact ih _ (k.closeEntry _ h)
      · exact h
  exact all _ _ h

theorem finishCloses (h : I s) : I (finishCloses s) := by
  unfold Machine.finishCloses
  split
  · exact h
  · exact k.overlap _ (k.closingTest (k.endOffers _ (k.overlap _ h)))

theorem scoreBand (b : Nat) (h : I s) : I (scoreBand b s) := by
  unfold Machine.scoreBand scoreEntry
  split
  · exact k.finishCloses h
  · refine k.closingTest ?_
    split
    · exact k.offerFrame _ (k.updEntry _ _ (k.finishCloses h))
    · exact k.updEntry _ _ (k.finishCloses h)

/-! ### Line events -/

theorem takeRecord (rec : LineRecord) (hrec : ∀ r, rec.index = some r → r < s.ctl.cfg.l ∨ r = 0) (h : I s) :
    I (takeRecord rec s) := by
  refine k.updEntry _ _ (k.learnFrom _ _ ?_ ?_)
  · split
    · rwa [repeatEnd_ctl]
    · exact hrec
  · split
    · exact k.repeatEnd _ h
    · exact h

theorem takeLine (ev : LineEvent) (h : I s) : I (takeLine ev s) := by
  have taken := k.takeRecord (Machine.trackLine ev (Machine.intakeEvent ev s)).2
    (s := markRegistered (Machine.trackLine ev (Machine.intakeEvent ev s)).2
      (Machine.trackLine ev (Machine.intakeEvent ev s)).1)
    (fun r hr => by simpa using trackLine_index hr) (k.updEntry _ _ (k.trackLine _ (k.intakeEvent _ h)))
  rw [Machine.takeLine]
  unfold afterRow
  split
  · exact k.scoreBand _ taken
  · exact taken

theorem retireStamps (sts : List Stamp) (h : I s) : I (retireStamps sts s) := by
  induction sts generalizing s with
  | nil =>
    rw [Machine.retireStamps]
    split
    · exact k.offering _ h
    · unfold scoreFilling
      split
      · exact h
      · exact k.scoreBand _ h
  | cons st sts ih =>
    rw [Machine.retireStamps]
    split
    · exact k.offering _ h
    · exact ih (k.takeLine _ h)

theorem windUp (sts : List Stamp) (h : I s) : I (windUp sts s) := by
  unfold Machine.windUp
  split
  · exact k.retireStamps _ (k.closingTest h)
  · exact k.closingTest h

/-! ### The commands made of them -/

theorem trigger (h : I s) : I (trigger s) := by
  refine k.bump _ (k.encoder _ ?_)
  have pulsed : I (emit .linePulse s) := k.alike ⟨rfl, rfl, fun _ => .inl⟩ h
  unfold makeRoom
  split
  · split
    · exact pulsed
    · exact k.takeLine _ (k.bump _ (k.encoder _ pulsed))
  · exact pulsed

theorem encoderInputs (p : ChannelPair) (h : I s) : I (encoderInputs p s) := by
  unfold Machine.encoderInputs
  split
  · exact h
  · split
    · dsimp only [forwardStep]
      split
      · dsimp only [forwardAdvance]
        split
        · split
          · exact k.encoder _ (k.encoder _ h)
          · exact k.trigger (k.encoder _ (k.encoder _ h))
        · exact k.encoder _ (k.encoder _ h)
      · exact k.encoder _ h
    · split
      · dsimp only [reverseStep]
        split
        · exact k.bump _ (k.encoder _ h)
        · exact k.encoder _ h
      · exact k.bump _ (k.encoder _ h)

theorem lineArrives (pixels : List Byte) (h : I s) : I (lineArrives pixels s) := by
  unfold Machine.lineArrives
  split
  · exact k.bump _ (k.buffer _ _ h)
  · refine k.takeLine _ ?_
    split
    · exact k.bump _ (k.buffer _ _ (k.encoder _ h))
    · exact k.buffer _ _ (k.encoder _ h)

theorem attachSummary (w : Which) (e : Entry) (z : Option Summary) (h : I s) : I (attachSummary w e z s) := by
  unfold Machine.attachSummary
  split
  · split
    · exact k.closingTest (k.updEntry _ _ h)
    · exact k.updEntry _ _ h
  · exact h

theorem placeAt (w : Which) (resolved : Option Nat) (z : Option Summary) (h : I s) : I (placeAt w resolved z s) := by
  unfold Machine.placeAt
  split
  · exact k.bump _ h
  · split
    · split
      · exact k.bump _ h
      · exact k.attachSummary _ _ _ h
    · split
      · exact k.enterEarly _ _ h
      · exact k.bump _ h

theorem takeSummary (sender : StationNo) (m : Half) (level : Byte) (left right : List ZoneCode) (h : I s) :
    I (takeSummary sender m level left right s) := by
  unfold Machine.takeSummary
  split
  · exact k.placeAt _ _ _ h
  · exact k.placeAt _ _ _ h
  · exact h

theorem settle (h : I s) : I (settle s) := by
  have retired : I (haltRetire s) := by
    unfold haltRetire
    split
    · exact k.retireGrant _ h
    · exact h
  dsimp only [Machine.settle]
  split
  next hc =>
    simp only [Bool.and_eq_true, beq_iff_eq] at hc
    exact k.raiseNow _ _ (k.toIdle hc.1.1 retired)
  next => exact retired

theorem nextOffer (h : I s) : I (nextOffer s) := by
  unfold Machine.nextOffer
  split
  · exact h
  · split
    · exact k.windUp _ (k.endOffers _ h)
    · exact k.offerSome _ _ h

theorem toCommands : KeptByCommands I where
  toKeptByOperations := k.toKeptByOperations
  encoderInputs := k.encoderInputs
  lineArrives := k.lineArrives
  takeSummary sender m level left right _ := k.takeSummary sender m level left right
  enterStopping hop h := k.windUp _ (k.encoder _ (k.stop hop h))
  settle := k.settle
  nextOffer := k.nextOffer

/-- Every step keeps `I`. -/
theorem step {t : State} (h : I s) (e : step s = .next t) : I t := k.toCommands.step h e

end KeptByParts

end Sys2Proof.Machine
end

section
/-! Chapter 4 of the manual: the DRAM stays in its canonical form (R55). -/

namespace Sys2Proof.Machine

theorem DramOk.congr {s t : State} (h : t.dram = s.dram) (hs : DramOk s) : DramOk t := by
  rwa [DramOk, h]

/-- R55: the accumulator row of a reference line, or of line 0, lies inside the DRAM. -/
theorem writeSums_keeps_dramOk {s : State} {r : Nat} {sums : List Nat} (h : DramOk s)
    (hr : r < s.ctl.cfg.l ∨ r = 0) (hp : sums.length ≤ s.ctl.cfg.w) : DramOk (writeSums r sums s) := by
  obtain hr | rfl := hr
  · exact writeSums_ok s h hr hp
  · refine dramWrite_ok h ?_
    have := s.ctl.cfg.fits.2
    rw [length_flatMap_le16, sumAddr, accumulatorBase, dramBytes]
    omega

theorem learnFrom_keeps_dramOk {s : State} {rec : LineRecord} (row : Row)
    (hrec : ∀ r, rec.index = some r → r < s.ctl.cfg.l ∨ r = 0) (h : DramOk s) : DramOk (learnFrom rec row s) := by
  unfold learnFrom
  split
  next hc =>
    obtain ⟨r, hr⟩ : ∃ r, rec.index = some r := by
      refine Option.isSome_iff_exists.1 ?_
      by_contra hn
      simp [contributes, Option.not_isSome_iff_eq_none.1 hn] at hc
    rw [hr]
    refine (writeSums_keeps_dramOk h (hrec r hr) ?_).congr rfl
    split <;> simp
  next => exact h

/-- R64: the line that finalisation writes next is one of the L reference lines. -/
theorem finaliseTarget_lt {s : State} {m : Nat} (hm : m < s.ctl.cfg.l) (hw : s.ref.written < s.ctl.cfg.l) :
    finaliseTarget m s.ref.written < s.ctl.cfg.l := by
  unfold finaliseTarget
  (repeat' split) <;> omega

theorem firstTouched_lt {i m : Nat} {cs : List Nat} (h : firstTouched i cs = some m) : m < i + cs.length := by
  induction cs generalizing i with
  | nil => cases h
  | cons c cs ih =>
    rw [firstTouched] at h
    rw [List.length_cons]
    split at h
    · have := ih h
      omega
    · cases h
      omega

theorem lowestTouched_lt {s : State} {m : Nat} (h : lowestTouched s = some m) : m < s.ctl.cfg.l := by
  have := firstTouched_lt h
  rw [List.length_take] at this
  omega

theorem finaliseRow_keeps_dramOk {s : State} {r : Nat} (m : Nat) (hr : r < s.ctl.cfg.l) (h : DramOk s) :
    DramOk (finaliseRow m r s) := by
  unfold finaliseRow
  split
  · exact (writeImage_ok s h hr (by simp [imageLine])).congr rfl
  · exact writeImage_ok s h hr (by simp [divideRow, sumRow, length_wordsOf])

theorem finaliseStep_keeps_dramOk {s : State} {m : Nat} (hm : lowestTouched s = some m) (h : DramOk s) :
    DramOk (finaliseStep m s) := by
  rw [finaliseStep]
  refine DramOk.congr (finaliseEnd_dram _) ?_
  split
  next hw => exact (finaliseRow_keeps_dramOk m (finaliseTarget_lt (lowestTouched_lt hm) hw) h).congr rfl
  next => exact h

theorem dramOk_keptByParts : KeptByParts DramOk where
  alike ha := .congr ha.dram
  powered _ _ _ := ⟨.nil, nofun⟩
  softReset := .congr rfl
  requestWindow _ _ := .congr (requestWindow_dram _ _ _)
  offerMark _ _ _ := .congr (offerMark_dram _ _ _)
  bus _ := .congr rfl
  hear _ _ := .congr rfl
  offerFrame _ := .congr (offerFrame_dram _ _)
  offerEvent _ := .congr (offerEvent_dram _ _)
  epochState _ := .congr rfl
  applyConfig _ _ _ _ := .congr (applyConfig_dram _ _)
  startLearning := .congr rfl
  dropLink := .congr rfl
  linkUp := .congr rfl
  submitGrant _ := .congr rfl
  openGrant _ _ _ _ _ _ := .congr ((writeHead_dram _ _ _).trans rfl)
  writeHead _ _ _ _ _ _ := .congr (writeHead_dram _ _ _)
  retireGrant _ := .congr (retireGrant_dram _ _)
  tickGrant _ _ _ := .congr rfl
  finaliseStep _ := finaliseStep_keeps_dramOk
  encoder _ := .congr rfl
  buffer _ _ := .congr rfl
  intakeEvent _ := .congr (intakeEvent_dram _ _)
  trackLine _ := .congr (trackLine_dram _ _)
  entries _ _ _ := .congr rfl
  enterEarly _ _ := .congr (enterEarly_dram _ _ _)
  repeatEnd _ := .congr (repeatEnd_dram _ _)
  learnFrom _ row := learnFrom_keeps_dramOk row
  offerTile _ := .congr (offerTile_dram _ _)
  offerBand _ := .congr (offerBand_dram _ _)
  offering _ := .congr rfl
  stop _ := .congr rfl
  toIdle _ := .congr rfl

/-- Settles O55: learning and finalisation alone write to the DRAM, and only within the rows of the reference
lines, which `StationConfig.fits` keeps inside it. -/
theorem stepKeepsDram : Obligations.StepKeepsDram := fun _ _ => dramOk_keptByParts.step

end Sys2Proof.Machine
end

section
/-! The blanking window list (R25 to R30): entering a window, forcing one into a full list, and the request for
one. -/

namespace Sys2Proof.Machine

/-- R28: windows in increasing order, each a range of lines a run can have, no two overlapping or adjoining. -/
def WindowsApart (ws : List Window) : Prop :=
  (∀ w ∈ ws, w.start ≤ w.stop ∧ w.stop ≤ maxLine) ∧ ws.Pairwise fun a b => a.stop + 1 < b.start

theorem windowsCanonical_iff {ws : List Window} : WindowsCanonical ws ↔ ws.length ≤ 4 ∧ WindowsApart ws := Iff.rfl

theorem touches_iff (w v : Window) : w.touches v = true ↔ Reaches w.start w.stop v := by
  rw [Window.touches, Reaches, Bool.and_eq_true, decide_eq_true_iff, decide_eq_true_iff, and_comm]

theorem holds_iff (line : Nat) (w : Window) : w.holds line = true ↔ w.start ≤ line ∧ line ≤ w.stop := by
  rw [Window.holds, Bool.and_eq_true, decide_eq_true_iff, decide_eq_true_iff]

theorem blankedAt_iff (line : Nat) (ws : List Window) :
    blankedAt line ws = true ↔ ∃ w ∈ ws, w.start ≤ line ∧ line ≤ w.stop := by
  simp [blankedAt, holds_iff]

theorem WindowsApart.sublist {ws ws' : List Window} (h : WindowsApart ws) (hs : ws'.Sublist ws) : WindowsApart ws' :=
  ⟨fun w hw => h.1 w (hs.subset hw), h.2.sublist hs⟩

/-- R28: two windows are one, or lie with a line between them. -/
def Window.SameOrApart (a b : Window) : Prop := a = b ∨ a.stop + 1 < b.start ∨ b.stop + 1 < a.start

/-- R28: of two windows of a list in form, either they are the same or one lies before the other with a line
between. -/
theorem WindowsApart.apart {ws : List Window} (h : WindowsApart ws) {a b : Window} (ha : a ∈ ws) (hb : b ∈ ws) :
    a.SameOrApart b := by
  have forth : ws.Pairwise Window.SameOrApart := h.2.imp fun hab => .inr (.inl hab)
  have back : ws.Pairwise (flip Window.SameOrApart) := h.2.imp fun hab => .inr (.inr hab)
  exact forth.forall_of_forall_of_flip (fun _ _ => .inl rfl) back ha hb

/-! ## Merging -/

/-- R28: the window that takes in `w` and some others starts with the first of them, ends with the last, and has
started when one of them had. -/
theorem foldl_join (us : List Window) (w z : Window) (hz : z = us.foldl Window.join w) :
    (∀ u ∈ w :: us, z.start ≤ u.start ∧ u.stop ≤ z.stop) ∧ (∃ u ∈ w :: us, z.start = u.start) ∧
      (∃ u ∈ w :: us, z.stop = u.stop) ∧ (z.started = true ↔ ∃ u ∈ w :: us, u.started = true) := by
  induction us generalizing w with
  | nil => subst hz; simp
  | cons u us ih =>
    obtain ⟨bounds, ⟨a, ha, hstart⟩, ⟨b, hb, hstop⟩, hstarted⟩ := ih (w.join u) hz
    have joined := bounds _ List.mem_cons_self
    simp only [Window.join] at joined
    refine ⟨fun v hv => ?_, ?_, ?_, ?_⟩
    · rcases List.mem_cons.1 hv with rfl | hv
      · omega
      · rcases List.mem_cons.1 hv with rfl | hv
        · omega
        · exact bounds v (List.mem_cons_of_mem _ hv)
    · rcases List.mem_cons.1 ha with rfl | ha
      · rcases Nat.le_total w.start u.start with hle | hle
        · exact ⟨w, by simp, by simp [hstart, Window.join, hle]⟩
        · exact ⟨u, by simp, by simp [hstart, Window.join, hle]⟩
      · exact ⟨a, by simp [ha], hstart⟩
    · rcases List.mem_cons.1 hb with rfl | hb
      · rcases Nat.le_total w.stop u.stop with hle | hle
        · exact ⟨u, by simp, by simp [hstop, Window.join, hle]⟩
        · exact ⟨w, by simp, by simp [hstop, Window.join, hle]⟩
      · exact ⟨b, by simp [hb], hstop⟩
    · simp [hstarted, Window.join, or_assoc]

theorem insertWindow_apart {w : Window} {ws : List Window} (h : WindowsApart ws)
    (hw : w.start ≤ w.stop ∧ w.stop ≤ maxLine)
    (hfree : ∀ v ∈ ws, v.stop + 1 < w.start ∨ w.stop + 1 < v.start) : WindowsApart (insertWindow w ws) := by
  refine ⟨fun v hv => ?_, ?_⟩
  · rcases List.mem_cons.1 ((insertWindow_perm w ws).mem_iff.1 hv) with rfl | hv
    · exact hw
    · exact h.1 v hv
  · obtain ⟨inside, apart⟩ := h
    induction ws with
    | nil => exact List.pairwise_singleton _ _
    | cons v vs ih =>
      obtain ⟨hv, hvs⟩ := List.pairwise_cons.1 apart
      have free := hfree v List.mem_cons_self
      have ordered := inside v List.mem_cons_self
      rw [insertWindow]
      split
      next hle =>
        refine List.pairwise_cons.2 ⟨fun u hu => ?_, ih (fun u hu => hfree u (List.mem_cons_of_mem _ hu))
          (fun u hu => inside u (List.mem_cons_of_mem _ hu)) hvs⟩
        rcases List.mem_cons.1 ((insertWindow_perm w vs).mem_iff.1 hu) with rfl | hu
        · omega
        · exact hv u hu
      next hle =>
        refine List.pairwise_cons.2 ⟨fun u hu => ?_, apart⟩
        rcases List.mem_cons.1 hu with rfl | hu
        · omega
        · have := hv u hu
          omega

/-- R28: what a window list in form becomes when a window is merged into it. -/
structure Merged (w : Window) (ws ws' : List Window) : Prop where
  apart : WindowsApart ws'
  blanked : ∀ m, blankedAt m ws' = true ↔ blankedAt m ws = true ∨ (w.start ≤ m ∧ m ≤ w.stop)
  started : ∀ v ∈ ws', v.started = true ↔
    ∃ u ∈ w :: ws, u.started = true ∧ v.start ≤ u.start ∧ u.stop ≤ v.stop
  covers : ∀ v ∈ ws', (v.start ≤ w.start ∧ w.stop ≤ v.stop) ∨ (v.stop + 1 < w.start ∨ w.stop + 1 < v.start)

theorem mergeWindow_merged {w : Window} {ws : List Window} (h : WindowsApart ws)
    (hw : w.start ≤ w.stop ∧ w.stop ≤ maxLine) : Merged w ws (mergeWindow w ws) := by
  obtain ⟨z, hz⟩ : ∃ z, z = (ws.filter (w.touches ·)).foldl Window.join w := ⟨_, rfl⟩
  obtain ⟨bounds, ⟨a, ha, hstart⟩, ⟨b, hb, hstop⟩, hstarted⟩ := foldl_join _ _ _ hz
  have merged : mergeWindow w ws = insertWindow z (ws.filter fun v => !w.touches v) := by rw [mergeWindow, hz]
  have touched : ∀ u, u ∈ w :: ws.filter (w.touches ·) ↔ u = w ∨ u ∈ ws ∧ Reaches w.start w.stop u := by
    simp [touches_iff]
  have rest : ∀ v, v ∈ ws.filter (fun v => !w.touches v) ↔ v ∈ ws ∧ ¬ Reaches w.start w.stop v := by
    simp [← touches_iff]
  simp only [touched] at bounds ha hb hstarted
  have outer := bounds w (.inl rfl)
  have hzr : z.start ≤ z.stop ∧ z.stop ≤ maxLine := by
    refine ⟨by omega, hstop ▸ ?_⟩
    obtain rfl | ⟨hb, _⟩ := hb
    · exact hw.2
    · exact (h.1 b hb).2
  have free : ∀ v ∈ ws, ¬ Reaches w.start w.stop v → v.stop + 1 < z.start ∨ z.stop + 1 < v.start := by
    intro v hv hn
    have hvr := h.1 v hv
    rw [hstart, hstop]
    rw [Reaches] at hn
    obtain rfl | ⟨ha, har⟩ := ha <;> obtain rfl | ⟨hb, hbr⟩ := hb
    · omega
    · have hvb := h.apart hv hb; have := h.1 b hb
      rw [Reaches] at hbr
      obtain rfl | hvb := hvb <;> omega
    · have hva := h.apart hv ha; have := h.1 a ha
      rw [Reaches] at har
      obtain rfl | hva := hva <;> omega
    · have hva := h.apart hv ha; have hvb := h.apart hv hb; have := h.1 a ha; have := h.1 b hb
      rw [Reaches] at har hbr
      obtain rfl | hva := hva
      · omega
      · obtain rfl | hvb := hvb <;> omega
  have mem : ∀ v, v ∈ mergeWindow w ws ↔ v = z ∨ v ∈ ws ∧ ¬ Reaches w.start w.stop v := by
    intro v
    rw [merged, (insertWindow_perm z _).mem_iff, List.mem_cons, rest]
  refine ⟨?_, fun m => ?_, fun v hv => ?_, fun v hv => ?_⟩
  · rw [merged]
    exact insertWindow_apart (h.sublist List.filter_sublist) hzr fun v hv => free v ((rest v).1 hv).1 ((rest v).1 hv).2
  · rw [blankedAt_iff, blankedAt_iff]
    constructor
    · rintro ⟨v, hv, hm⟩
      obtain rfl | ⟨hv, _⟩ := (mem v).1 hv
      · by_cases inside : w.start ≤ m ∧ m ≤ w.stop
        · exact .inr inside
        · refine .inl ?_
          rw [hstart, hstop] at hm
          rcases Nat.lt_or_ge m w.start with hlt | hge
          · obtain rfl | ⟨ha, har⟩ := ha
            · omega
            · exact ⟨a, ha, hm.1, by rw [Reaches] at har; omega⟩
          · obtain rfl | ⟨hb, hbr⟩ := hb
            · omega
            · exact ⟨b, hb, by rw [Reaches] at hbr; omega, hm.2⟩
      · exact .inl ⟨v, hv, hm⟩
    · rintro (⟨v, hv, hm⟩ | hm)
      · by_cases hr : Reaches w.start w.stop v
        · have := bounds v (.inr ⟨hv, hr⟩)
          exact ⟨z, (mem z).2 (.inl rfl), by omega⟩
        · exact ⟨v, (mem v).2 (.inr ⟨hv, hr⟩), hm⟩
      · exact ⟨z, (mem z).2 (.inl rfl), by omega⟩
  · obtain rfl | ⟨hv, hn⟩ := (mem v).1 hv
    · rw [hstarted]
      constructor
      · rintro ⟨u, hu, hs⟩
        exact ⟨u, List.mem_cons.2 (hu.imp_right And.left), hs, bounds u hu⟩
      · rintro ⟨u, hu, hs, hin⟩
        refine ⟨u, (List.mem_cons.1 hu).imp_right fun hu => ⟨hu, ?_⟩, hs⟩
        by_contra hn
        have := free u hu hn; have := h.1 u hu
        omega
    · constructor
      · exact fun hs => ⟨v, List.mem_cons_of_mem _ hv, hs, le_rfl, le_rfl⟩
      · rintro ⟨u, hu, hs, hin⟩
        have := h.1 v hv
        rcases List.mem_cons.1 hu with rfl | hu
        · rw [Reaches] at hn
          omega
        · have := h.1 u hu
          obtain rfl | hvu := h.apart hv hu
          · exact hs
          · omega
  · obtain rfl | ⟨hv, hn⟩ := (mem v).1 hv
    · exact .inl outer
    · rw [Reaches] at hn
      exact .inr (by omega)

theorem length_mergeWindow (w : Window) (ws : List Window) :
    (mergeWindow w ws).length + (ws.filter (w.touches ·)).length = ws.length + 1 := by
  rw [mergeWindow, (insertWindow_perm _ _).length_eq, List.length_cons,
    List.length_eq_length_filter_add (w.touches ·) (l := ws)]
  omega

theorem mergeWindow_of_free {w : Window} {ws : List Window} (h : ∀ v ∈ ws, ¬ Reaches w.start w.stop v) :
    mergeWindow w ws = insertWindow w ws := by
  have none : ws.filter (w.touches ·) = [] := List.filter_eq_nil_iff.2 fun v hv => (touches_iff w v).not.2 (h v hv)
  have all : ws.filter (fun v => !w.touches v) = ws :=
    List.filter_eq_self.2 fun v hv => by simpa [← touches_iff] using h v hv
  rw [mergeWindow, none, all]
  rfl

/-! ## Entering a window -/

/-- R28: a window not yet started that is merged into a list in form is entered in it, when four windows hold the
result. -/
theorem entered_of_merged {w : Window} {ws ws' : List Window} (h : Merged w ws ws') (hs : w.started = false)
    (hlen : ws'.length ≤ 4) : Entered w.start w.stop ws ws' := by
  refine ⟨⟨hlen, h.apart⟩, h.blanked, fun v hv => ?_⟩
  rw [h.started v hv, List.exists_mem_cons_iff]
  simp [hs]

theorem entered_mergeWindow {w : Window} {ws : List Window} (h : WindowsCanonical ws)
    (hw : w.start ≤ w.stop ∧ w.stop ≤ maxLine) (hs : w.started = false)
    (hroom : (∃ v ∈ ws, Reaches w.start w.stop v) ∨ ws.length < 4) :
    Entered w.start w.stop ws (mergeWindow w ws) := by
  refine entered_of_merged (mergeWindow_merged h.2 hw) hs ?_
  have len := length_mergeWindow w ws
  have := h.1
  obtain ⟨v, hv, hr⟩ | hlt := hroom
  · have : 0 < (ws.filter (w.touches ·)).length :=
      List.length_pos_of_mem (List.mem_filter.2 ⟨hv, (touches_iff w v).2 hr⟩)
    omega
  · omega

/-- R29: a window that reaches none of a full list is entered together with the last of them and the lines
between. -/
theorem entered_forceWindow {w z : Window} {ws : List Window} (h : WindowsCanonical ws)
    (hw : w.start ≤ w.stop ∧ w.stop ≤ maxLine) (hz : ws.getLast? = some z) :
    Entered (min z.start w.start) (max z.stop w.stop) ws (forceWindow w ws) := by
  obtain ⟨hlen, (hapart : WindowsApart ws)⟩ := h
  have split : ws = ws.dropLast ++ [z] := (List.dropLast_append_getLast? z hz).symm
  have mem : ∀ v, v ∈ ws ↔ v ∈ ws.dropLast ∨ v = z := fun v => by rw [split]; simp
  have hzr := hapart.1 z ((mem z).2 (.inr rfl))
  have merged := mergeWindow_merged (w := ⟨min z.start w.start, max z.stop w.stop, z.started⟩)
    (hapart.sublist ws.dropLast_sublist) ⟨by simp only; omega, by simp only; omega⟩
  have len := length_mergeWindow ⟨min z.start w.start, max z.stop w.stop, z.started⟩ ws.dropLast
  have forced : forceWindow w ws = mergeWindow ⟨min z.start w.start, max z.stop w.stop, z.started⟩ ws.dropLast := by
    rw [forceWindow, hz]
  rw [forced]
  refine ⟨⟨?_, merged.apart⟩, fun m => ?_, fun v hv => ?_⟩
  · have := ws.length_dropLast
    have := List.length_pos_of_mem ((mem z).2 (.inr rfl))
    omega
  · rw [merged.blanked m, blankedAt_iff, blankedAt_iff]
    simp only [mem]
    constructor
    · rintro (⟨v, hv, hm⟩ | hm)
      · exact .inl ⟨v, .inl hv, hm⟩
      · exact .inr hm
    · rintro (⟨v, hv | rfl, hm⟩ | hm)
      · exact .inl ⟨v, hv, hm⟩
      · exact .inr (by omega)
      · exact .inr hm
  · have place := merged.covers v hv
    simp only at place
    have ordered := merged.apart.1 v hv
    rw [merged.started v hv, List.exists_mem_cons_iff]
    simp only [mem]
    constructor
    · rintro (⟨hs, hin⟩ | ⟨u, hu, hs, hin⟩)
      · exact ⟨z, .inr rfl, hs, by omega, by omega⟩
      · exact ⟨u, .inl hu, hs, hin⟩
    · rintro ⟨u, hu | rfl, hs, hin⟩
      · exact .inr ⟨u, hu, hs, hin⟩
      · exact .inl ⟨hs, by omega⟩

/-- R28, R29: entering a window that has not started. -/
theorem enterWindow_cases {w : Window} {s : State} (h : WindowsCanonical s.intake.windows)
    (hw : w.start ≤ w.stop ∧ w.stop ≤ maxLine) (hs : w.started = false) :
    (((∃ v ∈ s.intake.windows, Reaches w.start w.stop v) ∨ s.intake.windows.length < 4) ∧
      ∃ ws, Entered w.start w.stop s.intake.windows ws ∧ enterWindow w s = setWindows ws s) ∨
    ((∀ v ∈ s.intake.windows, ¬ Reaches w.start w.stop v) ∧ s.intake.windows.length = 4 ∧
      ∃ z ws, s.intake.windows.getLast? = some z ∧
        Entered (min z.start w.start) (max z.stop w.stop) s.intake.windows ws ∧
        enterWindow w s = bump .spliceWindowsForced (setWindows ws s)) := by
  have any : (s.intake.windows.any (w.touches ·)) = true ↔ ∃ v ∈ s.intake.windows, Reaches w.start w.stop v := by
    simp [touches_iff]
  dsimp only [enterWindow]
  split
  next hr =>
    have hroom := Or.inl (b := s.intake.windows.length < 4) (any.1 hr)
    exact .inl ⟨hroom, _, entered_mergeWindow h hw hs hroom, rfl⟩
  next hr =>
    have free : ∀ v ∈ s.intake.windows, ¬ Reaches w.start w.stop v := fun v hv hv' => hr (any.2 ⟨v, hv, hv'⟩)
    rw [← mergeWindow_of_free free]
    split
    next hlt => exact .inl ⟨.inr hlt, _, entered_mergeWindow h hw hs (.inr hlt), rfl⟩
    next hlt =>
      obtain ⟨z, hz⟩ : ∃ z, s.intake.windows.getLast? = some z := by
        rw [← Option.isSome_iff_exists, List.getLast?_isSome]
        exact List.ne_nil_of_length_pos (by omega)
      exact .inr ⟨free, by have := h.1; omega, z, _, hz, entered_forceWindow h hw hz, rfl⟩

/-! ## The request for a window -/

/-- R27 to R29: a request for at least one line does what the rules say. -/
theorem requestWindow_requested {first last : Nat} {s : State} (h : WindowsCanonical s.intake.windows)
    (hle : first ≤ last) :
    Requested first last s.intake.nextLine s.intake.windows (requestWindow first last s).intake.windows
      s.counters.spliceWindowsLate (requestWindow first last s).counters.spliceWindowsLate
      s.counters.spliceWindowsForced (requestWindow first last s).counters.spliceWindowsForced := by
  rintro start stop rfl rfl
  dsimp only [requestWindow]
  split
  next hlate => exact ⟨fun _ => ⟨rfl, rfl, rfl⟩, fun _ => by omega, fun _ => by omega, fun _ => by omega, fun _ => by omega⟩
  next hlate =>
    split
    next hbeyond =>
      rw [maxLine] at hbeyond
      exact ⟨fun _ => by omega, fun _ => rfl, fun _ _ => ⟨rfl, rfl⟩, fun _ _ => by omega, fun _ _ => by omega⟩
    next hbeyond =>
      have hw : max first s.intake.nextLine ≤ min last maxLine ∧ min last maxLine ≤ maxLine := by omega
      rw [maxLine] at hbeyond hw
      obtain ⟨hroom, ws, entered, eq⟩ | ⟨hfree, hfull, z, ws, hz, entered, eq⟩ :=
        enterWindow_cases (w := ⟨max first s.intake.nextLine, min last 4294967295, false⟩) h hw rfl
      · rw [maxLine, eq]
        exact ⟨fun _ => by omega, fun _ => rfl, fun _ _ => by omega, fun _ _ _ => ⟨entered, rfl⟩, fun _ _ hn hlen => by
          obtain ⟨v, hv, hr⟩ | hlt := hroom
          · exact absurd hr (hn v hv)
          · omega⟩
      · rw [maxLine, eq]
        exact ⟨fun _ => by omega, fun _ => rfl, fun _ _ => by omega, fun _ _ hroom => by
          obtain ⟨v, hv, hr⟩ | hlt := hroom
          · exact absurd hr (hfree v hv)
          · omega, fun _ _ _ _ => ⟨z, hz, entered, rfl⟩⟩

theorem Entered.canonical {start stop : Nat} {ws ws' : List Window} (h : Entered start stop ws ws') :
    WindowsCanonical ws' := h.1

/-- R28: a request keeps the list in form. -/
theorem requestWindow_canonical {first last : Nat} {s : State} (h : WindowsCanonical s.intake.windows)
    (hle : first ≤ last) : WindowsCanonical (requestWindow first last s).intake.windows := by
  obtain ⟨late, _, beyond, entered, forced⟩ := requestWindow_requested h hle _ _ rfl rfl
  rcases Nat.lt_or_ge last s.intake.nextLine with hlate | hlate
  · rw [(late hlate).1]
    exact h
  · rcases Nat.lt_or_ge 4294967295 (max first s.intake.nextLine) with hb | hb
    · rw [(beyond hlate hb).1]
      exact h
    · by_cases hroom : (∃ w ∈ s.intake.windows, Reaches (max first s.intake.nextLine) (min last 4294967295) w) ∨
        s.intake.windows.length < 4
      · exact (entered hlate hb hroom).1.canonical
      · rw [not_or] at hroom
        obtain ⟨_, _, he, _⟩ := forced hlate hb (fun w hw hr => hroom.1 ⟨w, hw, hr⟩) (by have := h.1; omega)
        exact he.canonical

end Sys2Proof.Machine
end

section
/-! Chapters 1 and 2 of the manual: the stamps and the blanking windows stay in form. -/

namespace Sys2Proof.Machine

/-! ## The configuration that CONFIGURE accepts -/

/-- R176: an accepted block is clamped as `clampBlock` says, with L in its range. -/
theorem validate_accepted {b : BitVec 2048} {new : StationConfig} (h : validate b = .accepted new) :
    256 ≤ blockNat16 b 4 ∧ ∃ rounding context sample fits, new = clampBlock b rounding context sample fits := by
  dsimp only [validate] at h
  split at h
  · cases h
  split at h
  · cases h
  split at h
  · cases h
  split at h
  · cases h
  next hl =>
    split at h
    next fits =>
      split at h
      · cases h
      split at h
      · cases h
      split at h
      · cases h
      split at h
      · cases h
      split at h
      · cases h
      · cases h
        exact ⟨by omega, _, _, _, fits, rfl⟩
    next => cases h

/-- R176: the ranges that the invariants rely on. -/
theorem validate_ranges {b : BitVec 2048} {new : StationConfig} (h : validate b = .accepted new) :
    1 ≤ new.sb ∧ 256 ≤ new.l ∧ 2 ≤ new.hs ∧ new.hs ≤ 6 := by
  obtain ⟨hl, _, _, _, _, rfl⟩ := validate_accepted h
  refine ⟨?_, hl, ?_, ?_⟩ <;> simp only [clampBlock, clampNat] <;> omega

@[simp] theorem applyConfig_op (new : StationConfig) (s : State) : (applyConfig new s).bus.op = .idle := by
  simp [applyConfig, setOp]

@[simp] theorem applyConfig_cfg (new : StationConfig) (s : State) : (applyConfig new s).ctl.cfg = new := by
  simp [applyConfig, endDone_eq, Control.ended]

/-- R65, R179: REFERENCE_READY is not shared. -/
@[simp] theorem finaliseEnd_bus (s : State) : (finaliseEnd s).bus = s.bus := by
  rw [finaliseEnd]
  split
  · rfl
  · exact raise_bus _ _ _ _ rfl

@[simp] theorem finaliseStep_bus (m : Nat) (s : State) : (finaliseStep m s).bus = s.bus := by
  rw [finaliseStep, finaliseEnd_bus]
  split <;> simp

theorem not_unconfigured_of_inRun {s : State} (h : inRun s) : s.bus.op ≠ .unconfigured := by
  rintro hop
  rw [inRun, hop] at h
  exact h.elim nofun nofun

theorem not_unconfigured_of_startable {s : State} (h : Startable s) : s.bus.op ≠ .unconfigured := by
  rintro hop
  rw [Startable, hop] at h
  obtain ⟨h, _⟩ | h | h := h <;> cases h

/-- Moves of the Span Bus Controller leave an unconfigured station unconfigured. -/
theorem BusMoved.unconfigured {s : State} {b : SpanBus} (h : BusMoved s b) (hop : s.bus.op = .unconfigured) :
    b.op = .unconfigured := by
  obtain same | ⟨hs, _⟩ := h.op
  · exact same.trans hop
  · exact absurd hop (not_unconfigured_of_startable hs)

/-! ## The blanking windows -/

theorem WindowsCanonical.markStarted {ws : List Window} (line : Nat) (h : WindowsCanonical ws) :
    WindowsCanonical (markStarted line ws) := by
  have same : ∀ w : Window, (if w.holds line = true then { w with started := true } else w).start = w.start ∧
      (if w.holds line = true then { w with started := true } else w).stop = w.stop := by
    intro w
    split <;> exact ⟨rfl, rfl⟩
  obtain ⟨hlen, inside, apart⟩ := h
  refine ⟨by rwa [Machine.markStarted, List.length_map], fun w hw => ?_, ?_⟩
  · obtain ⟨v, hv, rfl⟩ := List.mem_map.1 hw
    rw [(same v).1, (same v).2]
    exact inside v hv
  · refine List.pairwise_map.2 (apart.imp fun {a b} hab => ?_)
    rwa [(same a).2, (same b).1]

theorem WindowsCanonical.dropEnded {ws : List Window} (line : Nat) (h : WindowsCanonical ws) :
    WindowsCanonical (dropEnded line ws) :=
  ⟨(List.length_filter_le _ _).trans h.1, WindowsApart.sublist h.2 List.filter_sublist⟩

theorem windowsCanonical_nil : WindowsCanonical [] := ⟨by decide, nofun, .nil⟩

theorem WindowsOk.congr {s t : State} (hw : t.intake.windows = s.intake.windows)
    (hop : s.bus.op = .unconfigured → t.bus.op = .unconfigured) (hc : t.ctl.cfg = s.ctl.cfg) (h : WindowsOk s) :
    WindowsOk t := by
  rw [WindowsOk, hw, hc]
  exact ⟨h.1, fun ht => h.2 (mt hop ht)⟩

theorem windowsOk_keptByParts : KeptByParts WindowsOk where
  alike ha := .congr (by rw [ha.intake]) (by rw [ha.bus]; exact id) ha.cfg
  powered _ _ _ := ⟨windowsCanonical_nil, fun h => absurd rfl h⟩
  softReset _ := ⟨windowsCanonical_nil, fun h => absurd rfl h⟩
  requestWindow start hrun h := by
    have := h.2 (not_unconfigured_of_inRun hrun)
    refine ⟨requestWindow_canonical h.1 (by omega), ?_⟩
    rw [requestWindow_bus, requestWindow_ctl]
    exact h.2
  offerMark start source _ := .congr (by simp) (by simp) (by simp)
  bus hb := .congr rfl hb.unconfigured rfl
  hear _ _ := .congr rfl id rfl
  offerFrame f := .congr (by simp) (by simp) (by simp)
  offerEvent e := .congr (by simp) (by simp) (by simp)
  epochState hs h := ⟨windowsCanonical_nil, fun _ => h.2 (not_unconfigured_of_startable hs)⟩
  applyConfig b new _ hv h := by
    refine ⟨?_, fun _ => ?_⟩
    · rw [applyConfig_intake]
      exact h.1
    · rw [applyConfig_cfg]
      exact (validate_ranges hv).1
  startLearning := .congr rfl id rfl
  dropLink := .congr rfl id rfl
  linkUp := .congr rfl id rfl
  submitGrant _ := .congr rfl id rfl
  openGrant g r _ _ _ _ := .congr (by simp [openGrant]) (by simp [openGrant]) (by simp [openGrant])
  writeHead _ _ _ _ _ _ := .congr (by simp) (by simp) (by simp)
  retireGrant _ := .congr (by simp) (by simp) (by simp)
  tickGrant _ _ _ := .congr rfl id rfl
  finaliseStep m _ := .congr (by simp) (by rw [finaliseStep_bus]; exact id) (by simp)
  encoder _ := .congr rfl id rfl
  buffer _ _ := .congr rfl id rfl
  intakeEvent ev h := by
    refine ⟨?_, by rw [intakeEvent_bus, intakeEvent_ctl]; exact h.2⟩
    rw [intakeEvent_intake]
    exact (h.1.markStarted _).dropEnded _
  trackLine ev := .congr (by simp) (by rw [(trackLine_addsEvents _ ev).2]; exact id) (by simp)
  entries _ _ _ := .congr rfl id rfl
  enterEarly _ _ := .congr (by simp) (by simp) (by simp)
  repeatEnd _ := .congr (by simp) (by simp) (by simp)
  learnFrom _ _ _ := .congr (by simp) (by simp) (by simp)
  offerTile _ := .congr (by simp) (by simp) (by simp)
  offerBand _ := .congr (by simp) (by simp) (by simp)
  offering _ := .congr rfl id rfl
  stop hop h := ⟨h.1, fun _ => h.2 (by rw [hop]; nofun)⟩
  toIdle hop h := ⟨h.1, fun _ => h.2 (by rw [hop]; nofun)⟩

/-! ## The stamps -/

/-- R8, R10: the stamps and the line counter of a unit in form. -/
def EncoderOk (c : Encoder) : Prop :=
  c.stamps.length ≤ 4 ∧
  (∀ i, (h : i < c.stamps.length) → c.stamps[i].line + c.stamps.length = c.lineCounter + i) ∧
  c.lineCounter ≤ 4294967296 ∧ (c.lineLimit = true ↔ c.lineCounter = 4294967296)

theorem EncoderOk.congr {c d : Encoder} (hs : d.stamps = c.stamps) (hn : d.lineCounter = c.lineCounter)
    (hl : d.lineLimit = c.lineLimit) (h : EncoderOk c) : EncoderOk d := by
  rwa [EncoderOk, hs, hn, hl]

/-- R8: a unit without stamps whose line counter is at 0. -/
theorem EncoderOk.of_fresh {c : Encoder} (hs : c.stamps = []) (hn : c.lineCounter = 0) (hl : c.lineLimit = false) :
    EncoderOk c := by
  simp [EncoderOk, hs, hn, hl]

theorem EncoderOk.noStamps {c : Encoder} (h : EncoderOk c) : EncoderOk { c with stamps := [] } :=
  ⟨by simp, nofun, h.2.2⟩

/-- R11, R12: taking the oldest stamp. -/
theorem EncoderOk.tail {c : Encoder} {oldest : Stamp} {rest : List Stamp} (h : EncoderOk c)
    (hs : c.stamps = oldest :: rest) : EncoderOk { c with stamps := rest } := by
  obtain ⟨hlen, hline, hcount⟩ := h
  rw [hs, List.length_cons] at hlen
  refine ⟨by simp only; omega, fun i hi => ?_, hcount⟩
  simp only at hi ⊢
  have := hline (i + 1) (by rw [hs, List.length_cons]; omega)
  simp only [hs, List.length_cons, List.getElem_cons_succ] at this
  omega

/-- R7, R8: a trigger of a unit with room for its stamp. -/
theorem EncoderOk.triggered {c : Encoder} (h : EncoderOk c) (hlen : c.stamps.length ≤ 3) (hl : c.lineLimit = false) :
    EncoderOk c.triggered := by
  obtain ⟨_, hline, hcount, hlimit⟩ := h
  have : c.lineCounter ≠ 4294967296 := fun hn => by simp [hlimit.2 hn] at hl
  refine ⟨by simp [Encoder.triggered]; omega, fun i hi => ?_, ?_, ?_⟩
  · simp only [Encoder.triggered, List.length_append, List.length_singleton] at hi ⊢
    rcases Nat.lt_or_ge i c.stamps.length with hlt | hge
    · have := hline i hlt
      rw [List.getElem_append_left hlt]
      omega
    · rw [List.getElem_append_right hge]
      simp only [List.getElem_singleton]
      omega
  · simp only [Encoder.triggered]
    omega
  · rw [Encoder.triggered, decide_eq_true_iff, maxLine]
    simp only
    omega

/-- R12: with the oldest stamp dropped there is room for another. -/
theorem makeRoom_encoder (s : State) :
    (s.encoder.stamps.length < 4 ∧ (makeRoom s).encoder = s.encoder) ∨
      (4 ≤ s.encoder.stamps.length ∧ ∃ oldest rest, s.encoder.stamps = oldest :: rest ∧
        (makeRoom s).encoder = { s.encoder with stamps := rest }) := by
  unfold makeRoom
  split
  next h4 =>
    split
    next hnil =>
      rw [hnil] at h4
      cases h4
    next oldest rest hcons =>
      refine .inr ⟨h4, oldest, rest, hcons, ?_⟩
      rw [missLine_encoder]
      rfl
  next h4 => exact .inl ⟨by omega, rfl⟩

theorem trigger_encoder (s : State) : (trigger s).encoder = (makeRoom (emit .linePulse s)).encoder.triggered := rfl

theorem trigger_keeps_stampsOk {s : State} (h : StampsOk s) (hl : s.encoder.lineLimit = false) :
    StampsOk (trigger s) := by
  change EncoderOk _
  rw [trigger_encoder]
  obtain ⟨hlt, same⟩ | ⟨h4, oldest, rest, hcons, same⟩ := makeRoom_encoder (emit .linePulse s)
  · rw [same]
    exact EncoderOk.triggered h (Nat.le_of_lt_succ hlt) hl
  · rw [same]
    have := h.1
    change s.encoder.stamps = _ at hcons
    refine EncoderOk.triggered (EncoderOk.tail h hcons) ?_ hl
    rw [hcons, List.length_cons] at this
    simp only
    omega

theorem encoderInputs_keeps_stampsOk {s : State} (p : ChannelPair) (h : StampsOk s) : StampsOk (encoderInputs p s) := by
  unfold encoderInputs
  split
  · exact h
  · split
    · dsimp only [forwardStep]
      split
      · dsimp only [forwardAdvance]
        split
        · split
          · exact h
          next hl => exact trigger_keeps_stampsOk h (Bool.eq_false_iff.2 hl)
        · exact h
      · exact h
    · split
      · dsimp only [reverseStep]
        split <;> exact h
      · exact h

theorem StampsOk.congr {s t : State} (h : t.encoder = s.encoder) (hs : StampsOk s) : StampsOk t := by
  change EncoderOk _
  rw [h]
  exact hs

theorem stampsOk_keptByCommands : KeptByCommands StampsOk where
  alike ha := .congr ha.encoder
  powered _ _ _ := EncoderOk.of_fresh rfl rfl rfl
  softReset _ := EncoderOk.of_fresh rfl rfl rfl
  requestWindow _ _ := .congr (by simp)
  offerMark _ _ _ := .congr (by simp)
  bus _ := .congr rfl
  hear _ _ := .congr rfl
  offerFrame _ := .congr (by simp)
  offerEvent _ := .congr (by simp)
  epochState _ _ := EncoderOk.of_fresh rfl rfl rfl
  applyConfig _ _ _ _ := .congr (by simp)
  startLearning := .congr rfl
  dropLink := .congr rfl
  linkUp := .congr rfl
  submitGrant _ := .congr rfl
  openGrant _ _ _ _ _ _ := .congr (by simp [openGrant])
  writeHead _ _ _ _ _ _ := .congr (by simp)
  retireGrant _ := .congr (by simp)
  tickGrant _ _ _ := .congr rfl
  finaliseStep _ _ := .congr (by simp)
  encoderInputs := encoderInputs_keeps_stampsOk
  lineArrives pixels h := by
    unfold lineArrives
    split
    · exact h
    next oldest rest hcons =>
      refine StampsOk.congr (takeLine_encoder _ _) ?_
      split <;> exact EncoderOk.tail h hcons
  takeSummary _ _ _ _ _ _ := .congr (by simp)
  enterStopping _ h := StampsOk.congr (windUp_encoder _ _) (EncoderOk.noStamps h)
  settle := .congr (by simp)
  nextOffer := .congr (by simp)

/-- Settles O53: of the stamps, by the one stamp that a trigger adds and the one that makes room for it; of the
windows, by what a request enters and a line event ends. -/
theorem stepKeepsStampsAndWindows : Obligations.StepKeepsStampsAndWindows :=
  fun _ _ hs hw hstep => ⟨stampsOk_keptByCommands.step hs hstep, windowsOk_keptByParts.step hw hstep⟩

end Sys2Proof.Machine
end

section
/-! Chapter 3 of the manual: the mark queue (R37), and what every step keeps of the tracker. -/

namespace Sys2Proof.Machine

/-! ## The mark queue -/

/-- R37: a list of marks stays in order, any two at least `k` lines apart, when one as far from all is inserted. -/
theorem insertMark_pairwise {m : MarkEntry} {ms : List MarkEntry} {k : Nat}
    (h : ms.Pairwise fun a b => a.start + k ≤ b.start) (hm : ∀ n ∈ ms, k ≤ natDist m.start n.start) :
    (insertMark m ms).Pairwise fun a b => a.start + k ≤ b.start := by
  induction ms with
  | nil => exact List.pairwise_singleton _ _
  | cons n ns ih =>
    obtain ⟨hn, hns⟩ := List.pairwise_cons.1 h
    have far := hm n List.mem_cons_self
    rw [natDist] at far
    rw [insertMark]
    split
    next hle =>
      refine List.pairwise_cons.2 ⟨fun b hb => ?_, ih hns fun b hb => hm b (List.mem_cons_of_mem _ hb)⟩
      rcases List.mem_cons.1 ((insertMark_perm m ns).mem_iff.1 hb) with rfl | hb
      · omega
      · exact hn b hb
    next hle =>
      refine List.pairwise_cons.2 ⟨fun b hb => ?_, h⟩
      rcases List.mem_cons.1 hb with rfl | hb
      · omega
      · have := hn b hb
        omega

theorem discardMark_iff (start : Nat) (s : State) : discardMark start s = true ↔ Discarded start s := by
  simp only [discardMark, duplicateMark, Bool.or_eq_true, decide_eq_true_iff, List.any_eq_true, Option.any_eq_true,
    or_assoc]
  rfl

/-- R37: an offered start line is counted as discarded, or becomes a mark of the queue. -/
theorem offerMark_discarded {start : Nat} {s : State} (source : MarkSource) (h : Discarded start s) :
    offerMark start source s = bump .marksDiscarded s := if_pos ((discardMark_iff start s).2 h)

theorem offerMark_inserted {start : Nat} {s : State} (source : MarkSource) (h : ¬ Discarded start s) :
    offerMark start source s = s.updTracker fun t =>
      { t with marks := insertMark { start := start, source := source } t.marks } :=
  if_neg ((discardMark_iff start s).not.2 h)

/-! ## The tracker in form -/

/-- R37, R45, R48: what the invariants ask of a tracker, during a run when `run` holds, for a repeat of `l` lines. -/
structure TrackerKept (run : Prop) (l : Nat) (t : Tracker) : Prop where
  count : t.marks.length ≤ 4
  sorted : t.marks.Pairwise fun a b => a.start ≤ b.start
  spaced : run → t.marks.Pairwise fun a b => a.start + l / 4 ≤ b.start
  stepLow : 49152 ≤ t.step
  stepHigh : t.step ≤ 81920
  phase : run → t.p < 65536 * l

/-- The invariants of the tracker. -/
def TrackerOk (s : State) : Prop :=
  TrackerKept (inRun s) s.ctl.cfg.l s.tracker ∧ (s.bus.op ≠ .unconfigured → 256 ≤ s.ctl.cfg.l)

theorem trackerOk_iff (s : State) : TrackerOk s ↔ MarksOk s ∧ PhaseOk s :=
  ⟨fun ⟨⟨count, sorted, spaced, low, high, phase⟩, hl⟩ => ⟨⟨count, sorted, spaced⟩, low, high, hl, phase⟩,
    fun ⟨⟨count, sorted, spaced⟩, low, high, hl, phase⟩ => ⟨⟨count, sorted, spaced, low, high, phase⟩, hl⟩⟩

namespace TrackerKept

variable {run : Prop} {l : Nat} {t u : Tracker}

theorem congr (hm : u.marks = t.marks) (hs : u.step = t.step) (hp : u.p = t.p) (h : TrackerKept run l t) :
    TrackerKept run l u :=
  ⟨hm ▸ h.count, hm ▸ h.sorted, hm ▸ h.spaced, hs ▸ h.stepLow, hs ▸ h.stepHigh, hp ▸ h.phase⟩

theorem outside {run' : Prop} (hr : run' → run) (h : TrackerKept run l t) : TrackerKept run' l t :=
  ⟨h.count, h.sorted, fun r => h.spaced (hr r), h.stepLow, h.stepHigh, fun r => h.phase (hr r)⟩

/-- R53: the tracker after power-on or an epoch. -/
theorem initial (hl : run → 0 < l) : TrackerKept run l .initial :=
  ⟨by decide, .nil, fun _ => .nil, by decide, by decide, fun r => Nat.mul_pos (by decide) (hl r)⟩

/-- R42, R44, R45: the phase starts again, under a step that is the old one or held to its range. -/
theorem restart (hl : run → 0 < l) (hm : u.marks = t.marks) (hp : u.p = 0)
    (hs : u.step = t.step ∨ ∃ n, u.step = clampStep n) (h : TrackerKept run l t) : TrackerKept run l u := by
  have range : 49152 ≤ u.step ∧ u.step ≤ 81920 := by
    obtain hs | ⟨n, hs⟩ := hs
    · rw [hs]
      exact ⟨h.stepLow, h.stepHigh⟩
    · rw [hs, clampStep]
      omega
  exact ⟨hm ▸ h.count, hm ▸ h.sorted, hm ▸ h.spaced, range.1, range.2, fun r => by
    have := hl r
    omega⟩

/-- R41: marks leave the queue at its head. -/
theorem dropMarks (n : Nat) (last : Option Nat) (h : TrackerKept run l t) :
    TrackerKept run l { t with marks := t.marks.drop n, lastTaken := last } where
  count := by
    have := h.count
    simp only [List.length_drop]
    omega
  sorted := h.sorted.sublist (List.drop_sublist _ _)
  spaced r := (h.spaced r).sublist (List.drop_sublist _ _)
  stepLow := h.stepLow
  stepHigh := h.stepHigh
  phase := h.phase

/-- R48: the phase stays below L × 65,536, since one step is less than that. -/
theorem advance (hl : run → 2 ≤ l) (h : TrackerKept run l t) : TrackerKept run l (t.advance (65536 * l)) := by
  have high := h.stepHigh
  unfold Tracker.advance
  split
  next hlt => exact ⟨h.count, h.sorted, h.spaced, h.stepLow, h.stepHigh, fun _ => hlt⟩
  next hlt =>
    exact ⟨h.count, h.sorted, h.spaced, h.stepLow, h.stepHigh, fun r => by
      have := h.phase r
      have := hl r
      simp only
      omega⟩

end TrackerKept

/-! ## A line event -/

theorem beforeMarks_tracker (ev : LineEvent) (s : State) :
    (beforeMarks ev s).tracker.marks = s.tracker.marks ∧ (beforeMarks ev s).tracker.step = s.tracker.step ∧
      (beforeMarks ev s).tracker.p = s.tracker.p := by
  have counted : ∀ u : State, (countLine ev u).tracker.marks = u.tracker.marks ∧
      (countLine ev u).tracker.step = u.tracker.step ∧ (countLine ev u).tracker.p = u.tracker.p := by
    intro u
    dsimp only [countLine]
    split
    · rw [(coast_eq ev _ _ rfl).1]
      exact ⟨rfl, rfl, rfl⟩
    · exact ⟨rfl, rfl, rfl⟩
  unfold beforeMarks
  split
  · exact counted (reseek s)
  · exact counted s

theorem takeDue_keeps {run : Prop} {l : Nat} {s : State} (line : Nat) (h : TrackerKept run l s.tracker) :
    TrackerKept run l (takeDue line s).tracker := by
  dsimp only [takeDue]
  split
  · exact h
  · exact h.dropMarks _ _

theorem actOnMark_keeps {run : Prop} {l : Nat} {s : State} (ev : LineEvent) (hl : run → 0 < l)
    (h : TrackerKept run l s.tracker) : TrackerKept run l (actOnMark ev s).tracker := by
  have acquired : TrackerKept run l (acquireMark ev s).tracker := by
    rw [acquireMark_tracker]
    exact .restart (t := s.tracker) hl rfl rfl (.inl rfl) h
  have accepted : TrackerKept run l (acceptMark ev s).tracker := by
    rw [acceptMark_tracker, acceptedBeforeLocked_tracker]
    refine .restart (t := s.tracker) hl rfl rfl ?_ h
    dsimp only [acceptedStep]
    split
    · exact .inr ⟨_, rfl⟩
    · exact .inl rfl
  unfold actOnMark
  split
  · exact acquired
  · exact acquired
  all_goals
    split
    · exact accepted
    · exact h

theorem takeMarks_keeps {run : Prop} {l : Nat} {s : State} (ev : LineEvent) (hl : run → 0 < l)
    (h : TrackerKept run l s.tracker) : TrackerKept run l (takeMarks ev s).tracker := by
  unfold takeMarks
  split
  · exact h
  · split
    · exact takeDue_keeps _ h
    · exact actOnMark_keeps ev hl (takeDue_keeps _ h)

theorem afterRecord_keeps {run : Prop} {s : State} (ev : LineEvent) (hl : run → 2 ≤ s.ctl.cfg.l)
    (h : TrackerKept run s.ctl.cfg.l s.tracker) : TrackerKept run s.ctl.cfg.l (afterRecord ev s).tracker := by
  unfold afterRecord
  split
  · exact .congr (t := (advancePhase s).tracker) rfl rfl rfl (h.advance hl)
  · exact .congr (t := s.tracker) rfl rfl rfl h

/-- R38 to R50: a line event leaves the tracker in form. -/
theorem trackLine_keeps {run : Prop} {s : State} (ev : LineEvent) (hl : run → 2 ≤ s.ctl.cfg.l)
    (h : TrackerKept run s.ctl.cfg.l s.tracker) : TrackerKept run s.ctl.cfg.l (trackLine ev s).1.tracker := by
  obtain ⟨hm, hs, hp⟩ := beforeMarks_tracker ev s
  have cfg : (takeMarks ev (beforeMarks ev s)).ctl.cfg.l = s.ctl.cfg.l := by simp
  have taken := takeMarks_keeps ev (fun r => Nat.lt_of_lt_of_le (by decide) (hl r)) (h.congr hm hs hp)
  have := afterRecord_keeps (s := takeMarks ev (beforeMarks ev s)) (run := run) ev (by rwa [cfg]) (by rwa [cfg])
  rwa [cfg] at this

/-! ## Every step -/

theorem offerMark_keeps {run : Prop} {s : State} (start : Nat) (source : MarkSource)
    (h : TrackerKept run s.ctl.cfg.l s.tracker) : TrackerKept run s.ctl.cfg.l (offerMark start source s).tracker := by
  by_cases hd : Discarded start s
  · rw [offerMark_discarded source hd]
    exact h
  · rw [offerMark_inserted source hd]
    simp only [Discarded, not_or, not_exists, not_and, not_lt, not_le] at hd
    obtain ⟨_, _, far, _, room⟩ := hd
    refine ⟨?_, ?_, fun r => insertMark_pairwise (h.spaced r) far, h.stepLow, h.stepHigh, h.phase⟩
    · simp only [State.updTracker_tracker, (insertMark_perm _ _).length_eq, List.length_cons]
      omega
    · exact insertMark_pairwise (k := 0) h.sorted fun _ _ => Nat.zero_le _

theorem TrackerOk.congr {s t : State} (ht : t.tracker = s.tracker) (hb : t.bus.op = s.bus.op)
    (hc : t.ctl.cfg = s.ctl.cfg) (h : TrackerOk s) : TrackerOk t := by
  rw [TrackerOk, inRun, ht, hb, hc]
  exact h

theorem TrackerOk.positive {s : State} (h : TrackerOk s) : inRun s → 2 ≤ s.ctl.cfg.l :=
  fun r => Nat.le_trans (by decide) (h.2 (not_unconfigured_of_inRun r))

theorem BusMoved.inRun {s : State} {b : SpanBus} (h : BusMoved s b) (hr : inRun { s with bus := b }) : inRun s := by
  obtain same | ⟨_, hop⟩ := h.op
  · rw [Machine.inRun] at hr ⊢
    rwa [← same]
  · rw [Machine.inRun] at hr
    obtain hop | hop | hop := hop <;> rw [hop] at hr <;> exact (hr.elim nofun nofun)

theorem trackerOk_keptByParts : KeptByParts TrackerOk where
  alike ha := .congr ha.tracker (by rw [ha.bus]) ha.cfg
  powered _ _ _ := ⟨.initial (fun r => (r.elim nofun nofun)), fun h => absurd rfl h⟩
  softReset _ := ⟨.initial (fun r => (r.elim nofun nofun)), fun h => absurd rfl h⟩
  requestWindow _ _ := .congr (by simp) (by simp) (by simp)
  offerMark start source _ h := by
    refine ⟨?_, ?_⟩
    · rw [inRun, offerMark_bus, offerMark_ctl]
      exact offerMark_keeps start source h.1
    · rw [offerMark_bus, offerMark_ctl]
      exact h.2
  bus hb h := ⟨h.1.outside hb.inRun, fun hop => h.2 (mt hb.unconfigured hop)⟩
  hear _ _ := .congr rfl rfl rfl
  offerFrame _ := .congr (by simp) (by simp) (by simp)
  offerEvent _ := .congr (by simp) (by simp) (by simp)
  epochState hs h := by
    have hl := h.2 (not_unconfigured_of_startable hs)
    exact ⟨.initial fun _ => Nat.lt_of_lt_of_le (by decide) hl, fun _ => hl⟩
  applyConfig b new _ hv h := by
    rw [TrackerOk, inRun, applyConfig_op, applyConfig_cfg, applyConfig_tracker]
    refine ⟨⟨h.1.count, h.1.sorted, fun r => ?_, h.1.stepLow, h.1.stepHigh, fun r => ?_⟩, fun _ => (validate_ranges hv).2.1⟩
    · exact r.elim nofun nofun
    · exact r.elim nofun nofun
  startLearning := .congr rfl rfl rfl
  dropLink := .congr rfl rfl rfl
  linkUp := .congr rfl rfl rfl
  submitGrant _ := .congr rfl rfl rfl
  openGrant _ _ _ _ _ _ := .congr (by simp [openGrant]) (by simp [openGrant]) (by simp [openGrant])
  writeHead _ _ _ _ _ _ := .congr (by simp) (by simp) (by simp)
  retireGrant _ := .congr (by simp) (by simp) (by simp)
  tickGrant _ _ _ := .congr rfl rfl rfl
  finaliseStep _ _ := .congr (by simp) (by simp) (by simp)
  encoder _ := .congr rfl rfl rfl
  buffer _ _ := .congr rfl rfl rfl
  intakeEvent _ := .congr (by simp) (by simp) (by simp)
  trackLine ev h := by
    rw [TrackerOk, inRun, (trackLine_addsEvents _ ev).2, trackLine_ctl]
    exact ⟨trackLine_keeps ev h.positive h.1, h.2⟩
  entries _ _ _ := .congr rfl rfl rfl
  enterEarly _ _ := .congr (by simp) (by simp) (by simp)
  repeatEnd _ := .congr (by simp) (by simp) (by simp)
  learnFrom _ _ _ := .congr (by simp) (by simp) (by simp)
  offerTile _ := .congr (by simp) (by simp) (by simp)
  offerBand _ := .congr (by simp) (by simp) (by simp)
  offering _ := .congr rfl rfl rfl
  stop hop h := ⟨h.1.outside fun _ => .inl hop, fun _ => h.2 (by rw [hop]; nofun)⟩
  toIdle hop h := ⟨h.1.outside fun _ => .inr hop, fun _ => h.2 (by rw [hop]; nofun)⟩

/-- Settles O54: a mark is inserted only where it stands floor(L / 4) lines from the others; the step is held to its
range; and one step never carries the phase past a whole repeat twice. -/
theorem stepKeepsTracker : Obligations.StepKeepsTracker := by
  intro s t hm hp hstep
  rw [← trackerOk_iff]
  exact trackerOk_keptByParts.step ((trackerOk_iff s).2 ⟨hm, hp⟩) hstep

end Sys2Proof.Machine
end

section
/-! Chapter 9 of the manual: the fill of the output queue and the grants, through every step. -/

namespace Sys2Proof.Machine

/-! ## The tracker's part in it -/

/-- The tracker's part of a line event is made of updates of the tracker, of counters and of events raised. -/
theorem KeptByOperations.trackLine {I : State → Prop} (k : KeptByOperations I)
    (tracker : ∀ {s} f, I s → I (s.updTracker f)) {s : State} (ev : LineEvent) (h : I s) : I (trackLine ev s).1 := by
  have added : ∀ {s} c n, I s → I (addTo c n s) := fun c n h => k.alike ⟨rfl, rfl, fun _ => .inl⟩ h
  have counted : ∀ {s}, I s → I (countLine ev s) := by
    intro s h
    dsimp only [countLine]
    split
    · exact k.raise _ _ _ (tracker _ (tracker _ h))
    · exact tracker _ h
  have due : ∀ {s}, I s → I (takeDue ev.line s) := by
    intro s h
    dsimp only [takeDue]
    split
    · exact h
    · exact added _ _ (tracker _ h)
  have offset : ∀ {s} e, I s → I (addOffset e s) := by
    intro s e h
    unfold addOffset
    split
    · exact added _ _ h
    · split
      · exact added _ _ h
      · exact h
  have stepped : ∀ {s}, I s → I (updateStep ev s) := by
    intro s h
    dsimp only [updateStep]
    split
    · exact tracker _ h
    · exact k.raise _ _ _ (tracker _ h)
  have locked : ∀ {s}, I s → I (lockOn s) := fun h => k.bump _ (tracker _ h)
  have accepted : ∀ {s}, I s → I (acceptMark ev s) := by
    intro s h
    have both : I (offsetAndStep s ev) := by
      unfold offsetAndStep
      split
      · exact stepped (offset _ h)
      · exact offset _ h
    have all : I (acceptedBeforeLocked s ev) := by
      unfold acceptedBeforeLocked
      split
      · exact locked both
      · exact locked (tracker _ both)
    rw [acceptMark_eq]
    split
    · exact k.raise _ _ _ all
    · exact all
  have acted : ∀ {s}, I s → I (actOnMark ev s) := by
    intro s h
    unfold actOnMark
    split
    · exact k.raise _ _ _ (locked (tracker _ h))
    · exact k.raise _ _ _ (locked (tracker _ h))
    all_goals
      split
      · exact accepted h
      · exact k.bump _ h
  have before : I (beforeMarks ev s) := by
    unfold beforeMarks
    split
    · exact counted (tracker _ h)
    · exact counted h
  have taken : I (takeMarks ev (beforeMarks ev s)) := by
    unfold takeMarks
    split
    · exact before
    · split
      · exact k.bump _ (due before)
      · exact acted (due before)
  change I (afterRecord ev _)
  unfold afterRecord
  split
  · exact tracker _ (tracker _ taken)
  · exact tracker _ taken

/-! ## The output queue and the grants -/

/-- The invariants of the output queue and the Host Port. -/
def PortOk (s : State) : Prop := FillOk s ∧ GrantsOk s

theorem spaceDue_congr {s t : State} (hq : t.port.queue = s.port.queue) (hg : t.port.grant = s.port.grant) :
    spaceDue t = spaceDue s := by
  rw [spaceDue, spaceDue, hq, hg]

theorem PortOk.congr {s t : State} (hq : t.port.queue = s.port.queue) (hf : t.port.fifo = s.port.fifo)
    (hg : t.port.grant = s.port.grant) (h : PortOk s) : PortOk t := by
  rw [PortOk, FillOk, fill, GrantsOk, hq, hf, hg, spaceDue_congr hq hg]
  exact h

theorem PortOk.of_port {s t : State} (hp : t.port = s.port) : PortOk s → PortOk t :=
  .congr (by rw [hp]) (by rw [hp]) (by rw [hp])

theorem spaceDue_of_no_grant {s : State} (h : s.port.grant = none) : spaceDue s = false := by
  rw [spaceDue, h]

/-- R157, R160: without an open grant the grants are in form when the FIFO is. -/
theorem PortOk.no_grant {s t : State} (h : PortOk s) (hq : t.port.queue = s.port.queue)
    (hf : t.port.fifo = s.port.fifo ∨ t.port.fifo = []) (hg : t.port.grant = none) : PortOk t := by
  obtain ⟨hfill, hlen, hform, _, _⟩ := h
  refine ⟨by rwa [FillOk, fill, hq], ?_, ?_, by rw [hg]; nofun, spaceDue_of_no_grant hg⟩
  · obtain hf | hf := hf <;> rw [hf]
    · exact hlen
    · exact Nat.zero_le _
  · obtain hf | hf := hf <;> rw [hf]
    · exact hform
    · nofun

/-- R160: the space test keeps the open grant or retires it. -/
theorem spaceTest_grant (s : State) : (spaceTest s).port.grant = s.port.grant ∨ (spaceTest s).port.grant = none := by
  unfold spaceTest
  split
  · exact .inr (retireGrant_grant _ _)
  · exact .inl rfl

/-- R151, R160: a state whose queue fits the capacity and whose grants are in form, after the space test. -/
theorem portOk_spaceTest {s : State} (hfill : FillOk s) (hlen : s.port.fifo.length ≤ 32)
    (hform : ∀ g ∈ s.port.fifo, g.wellFormed = true) (hgrant : ∀ o, s.port.grant = some o → o.grant.wellFormed = true) :
    PortOk (spaceTest s) := by
  refine ⟨by rwa [FillOk, fill, spaceTest_queue], by rwa [spaceTest_fifo], by rwa [spaceTest_fifo], fun o ho => ?_,
    spaceDue_spaceTest s⟩
  obtain hg | hg := spaceTest_grant s
  · exact hgrant o (hg ▸ ho)
  · rw [hg] at ho
    cases ho

/-- R151: a record that fits joins the queue. -/
theorem PortOk.joinQueue {s : State} {r : Rec} (h : PortOk s) (hfits : r.size + fill s ≤ capacity) :
    PortOk (joinQueue r s) := by
  obtain ⟨_, hlen, hform, hgrant, _⟩ := h
  refine portOk_spaceTest ?_ hlen hform hgrant
  rw [FillOk, fill]
  simp only [State.updPort_port, queueSize_append, queueSize]
  rw [fill] at hfits
  omega

theorem PortOk.offerBand {s : State} (b : BandRec) (h : PortOk s) : PortOk (offerBand b s) := by
  unfold Machine.offerBand
  split
  next hfits => exact PortOk.joinQueue (h.congr rfl rfl rfl) ((queueSize_le_of_fits s).1 hfits)
  next => exact h.congr rfl rfl rfl

theorem PortOk.offerTile {s : State} (t : TileRec) (h : PortOk s) : PortOk (offerTile t s) := by
  unfold Machine.offerTile
  split
  next hfits => exact h.joinQueue ((queueSize_le_of_fits s).1 hfits)
  next => cases t.reason <;> exact h.congr rfl rfl rfl

theorem PortOk.offerEvent {s : State} (e : EventRec) (h : PortOk s) : PortOk (offerEvent e s) := by
  unfold Machine.offerEvent
  split
  next hfits => exact h.joinQueue ((queueSize_le_of_fits s).1 hfits)
  next => exact h.congr rfl rfl rfl

theorem PortOk.raise {s : State} (code : EventCode) (line : Nat) (data : Word) (h : PortOk s) :
    PortOk (raise code line data s) := by
  refine PortOk.of_port (shareLocal_port _ _ _) ?_
  unfold reportLocal
  split
  · exact h.offerEvent _
  · exact h

theorem PortOk.finaliseEnd {s : State} (h : PortOk s) : PortOk (finaliseEnd s) := by
  unfold Machine.finaliseEnd
  split
  · exact h
  · exact PortOk.raise _ _ _ (h.congr rfl rfl rfl)

/-- R159: the head record leaves the queue. -/
theorem PortOk.writeHead {s : State} {r : Rec} {rest : List Rec} {g : OpenGrant} (h : PortOk s)
    (hq : s.port.queue = r :: rest) (hg : g.grant.wellFormed = true) : PortOk (writeHead g r s) := by
  obtain ⟨hfill, hlen, hform, _, _⟩ := h
  refine portOk_spaceTest ?_ hlen hform ?_
  · rw [FillOk, fill, hq, queueSize] at hfill
    rw [FillOk, fill]
    change queueSize s.port.queue.tail ≤ capacity
    rw [hq, List.tail_cons]
    omega
  · rintro o ⟨⟩
    exact hg

/-- R157: a grant that is accepted is in form and finds room in the FIFO. -/
theorem grantResult_accepted {g : Grant} {s : State} (h : grantResult g s = .accepted) :
    g.wellFormed = true ∧ s.port.fifo.length < 32 := by
  unfold grantResult at h
  split at h
  · cases h
  split at h
  · cases h
  next hform =>
    split at h
    · cases h
    next hroom => exact ⟨by simpa using hform, by omega⟩

theorem PortOk.submitGrant {s : State} (tag : Word) (h : PortOk s) : PortOk (submitGrant tag s) := by
  by_cases haccepted : grantResult (portGrant tag s) s = .accepted
  · obtain ⟨hfill, hlen, hform, hgrant, hdue⟩ := h
    obtain ⟨hwf, hroom⟩ := grantResult_accepted haccepted
    have fifo : (Machine.submitGrant tag s).port.fifo = s.port.fifo ++ [portGrant tag s] := if_pos haccepted
    refine ⟨hfill, ?_, fun g hg => ?_, hgrant, hdue⟩
    · rw [fifo, List.length_append, List.length_singleton]
      omega
    · rw [fifo, List.mem_append, List.mem_singleton] at hg
      obtain hg | rfl := hg
      · exact hform g hg
      · exact hwf
  · have fifo : (Machine.submitGrant tag s).port.fifo = s.port.fifo := if_neg haccepted
    exact .congr (s := s) rfl fifo rfl h

theorem PortOk.retireGrant {s : State} (flag : RetireFlag) (h : PortOk s) : PortOk (retireGrant flag s) :=
  h.no_grant (retireGrant_queue s flag) (.inl (retireGrant_fifo s flag)) (retireGrant_grant s flag)

/-! ## Every step -/

theorem PortOk.applyConfig {s : State} (new : StationConfig) (h : PortOk s) : PortOk (applyConfig new s) := by
  have port : (Machine.applyConfig new s).port = (refreshGrants s).port := by
    simp [Machine.applyConfig, endDone_eq, setOp]
  refine h.no_grant ?_ (.inr ?_) ?_ <;> rw [port]
  · exact retireGrant_queue _ _
  · rfl
  · exact retireGrant_grant _ _

theorem PortOk.initial (link : LinkState) {s : State} (h : s.port = .initial link) : PortOk s := by
  rw [PortOk, FillOk, fill, GrantsOk, h, spaceDue_of_no_grant (s := s) (by rw [h]; rfl)]
  exact ⟨Nat.zero_le _, Nat.zero_le _, nofun, nofun, rfl⟩

theorem portOk_keptByOperations : KeptByOperations PortOk where
  alike ha := .of_port ha.port
  powered _ _ _ := .initial _ rfl
  softReset _ := .initial _ rfl
  requestWindow _ _ := .of_port (by simp)
  offerMark _ _ _ := .of_port (by simp)
  bus _ := .congr rfl rfl rfl
  hear _ _ := .congr rfl rfl rfl
  offerFrame _ := .of_port (by simp)
  offerEvent e := .offerEvent e
  epochState _ := .congr rfl rfl rfl
  applyConfig _ new _ _ := .applyConfig new
  startLearning := .congr rfl rfl rfl
  dropLink h := h.no_grant rfl (.inr rfl) rfl
  linkUp := .congr rfl rfl rfl
  submitGrant tag := .submitGrant tag
  openGrant {s} g r more rest hq hf h := by
    refine PortOk.writeHead (s := s.updPort fun p => { p with fifo := p.fifo.tail }) (rest := more) ?_ hq ?_
    · obtain ⟨hfill, hlen, hform, hgrant, hdue⟩ := h
      refine ⟨hfill, ?_, ?_, hgrant, hdue⟩
      · simp only [State.updPort_port, List.length_tail]
        omega
      · exact fun x hx => hform x (List.mem_of_mem_tail hx)
    · exact h.2.2.1 g (hf ▸ List.mem_cons_self)
  writeHead g _ _ hq hg _ h := h.writeHead hq (h.2.2.2.1 g hg)
  retireGrant flag := .retireGrant flag
  tickGrant {s} g n hg h := by
    obtain ⟨hfill, hlen, hform, hgrant, hdue⟩ := h
    refine ⟨hfill, hlen, hform, ?_, ?_⟩
    · rintro o ⟨⟩
      exact hgrant g hg
    · rw [spaceDue, hg] at hdue
      exact hdue
  finaliseStep {s} m _ h := by
    have row : (if s.ref.written < s.ctl.cfg.l then (finaliseRow m (finaliseTarget m s.ref.written) s).updRef fun c =>
        { c with written := c.written + 1 } else s).port = s.port := by
      split <;> simp
    exact (PortOk.of_port row h).finaliseEnd

theorem portOk_keptByParts : KeptByParts PortOk where
  toKeptByOperations := portOk_keptByOperations
  encoder _ := .congr rfl rfl rfl
  buffer _ _ := .congr rfl rfl rfl
  intakeEvent _ := .of_port (by simp)
  trackLine ev h := portOk_keptByOperations.trackLine (fun _ => .congr rfl rfl rfl) ev h
  entries _ _ _ := .congr rfl rfl rfl
  enterEarly _ _ := .of_port (by simp)
  repeatEnd _ := .of_port (by simp)
  learnFrom _ _ _ := .of_port (by simp)
  offerTile t := .offerTile t
  offerBand b := .offerBand b
  offering _ := .congr rfl rfl rfl
  stop _ := .congr rfl rfl rfl
  toIdle _ := .congr rfl rfl rfl

/-- Settles O58: a record joins the queue only when it fits, the head that it may become is tested against the open
grant, and a grant joins the FIFO only when it is in form and finds room. -/
theorem stepKeepsPort : Obligations.StepKeepsPort := fun _ _ hf hg => portOk_keptByParts.step ⟨hf, hg⟩

end Sys2Proof.Machine
end

section
/-! Chapters 6 and 7 of the manual: the transmit queue (R114), the early-summary lists (R96) and the heard-station
list (R119), through every step. -/

namespace Sys2Proof.Machine

/-! ## What the operations do to the Span Bus Controller -/

theorem applyConfig_keeps_bus (new : StationConfig) (s : State) : (applyConfig new s).bus =
    { s.bus with
      op := .idle, idle := (applyConfig new s).bus.idle, reception := (applyConfig new s).bus.reception
      onLine := (applyConfig new s).bus.onLine } := by
  have moved : ∀ (on : Bool) (u : State), (refreshBus on u).bus = { u.bus with
      idle := (refreshBus on u).bus.idle, reception := (refreshBus on u).bus.reception
      onLine := (refreshBus on u).bus.onLine } := by
    intro on u
    unfold refreshBus
    (repeat' split) <;> rfl
  have bus : (applyConfig new s).bus =
      { (refreshBus (new.flags.getLsbD 0) (refreshReference new (refreshGrants s))).bus with op := .idle } := by
    simp [applyConfig, setOp]
  rw [bus, moved]
  simp

/-! ## The transmit queue -/

/-- R114: a transmit queue in form, `next` being the age of the next frame. -/
def QueueInOrder (q : List TxFrame) (next : Nat) : Prop :=
  q.length ≤ 8 ∧ q.Pairwise TxFrame.before ∧ ∀ t ∈ q, t.age < next

theorem QueueInOrder.of_keepsOrder {q q' : List TxFrame} {next : Nat} (hk : KeepsOrder q q') (h : QueueInOrder q next) :
    QueueInOrder q' next := by
  obtain ⟨hlen, hpair, hage⟩ := h
  refine ⟨?_, ?_, fun t ht => ?_⟩
  · have := hk.length_le
    simp only [List.length_map] at this
    omega
  · have keyed : (q.map fun u => (u.frame, u.age)).Pairwise fun a b => a.1.arb < b.1.arb ∨ a.1.arb = b.1.arb ∧ a.2 < b.2 :=
      List.pairwise_map.2 hpair
    have kept := List.pairwise_map.1 (List.Pairwise.sublist hk keyed)
    exact kept
  · obtain ⟨u, hu, heq⟩ := List.mem_map.1 (hk.subset (List.mem_map_of_mem ht))
    rw [← show u.age = t.age from congrArg Prod.snd heq]
    exact hage u hu

theorem QueueInOrder.insertTx {q : List TxFrame} {t : TxFrame} (hlen : q.length ≤ 7) (hpair : q.Pairwise TxFrame.before)
    (hage : ∀ u ∈ q, u.age < t.age) : QueueInOrder (insertTx t q) (t.age + 1) := by
  refine ⟨by rw [length_insertTx]; omega, insertTx_pairwise hpair hage, fun u hu => ?_⟩
  rcases List.mem_cons.1 ((insertTx_perm t q).mem_iff.1 hu) with rfl | hu
  · exact Nat.lt_succ_self _
  · exact Nat.lt_succ_of_lt (hage u hu)

/-- R114, R115: an offered frame takes its place in a queue in order, or leaves it as it is. -/
theorem offerFrame_keeps_txQueueOk {s : State} (f : Frame) (h : TxQueueOk s) : TxQueueOk (offerFrame f s) := by
  obtain ⟨hlen, hpair, hage⟩ := h
  obtain same | ⟨hlt, t, _, ht, _, eq⟩ | ⟨h8, t, old, _, ht, _, hold, _, eq⟩ | same := offerFrame_cases s f
  · rw [same]
    exact ⟨hlen, hpair, hage⟩
  · rw [eq]
    change QueueInOrder (insertTx t s.bus.queue) (s.bus.nextAge + 1)
    rw [← ht] at hage ⊢
    exact .insertTx (by omega) hpair hage
  · rw [eq]
    change QueueInOrder (insertTx t (s.bus.queue.erase old)) (s.bus.nextAge + 1)
    rw [← ht] at hage ⊢
    refine .insertTx ?_ (hpair.sublist List.erase_sublist) fun u hu => hage u (List.mem_of_mem_erase hu)
    rw [List.length_erase_of_mem hold]
    omega
  · rw [same]
    exact ⟨hlen, hpair, hage⟩

/-! ## The early-summary lists -/

theorem EarlyListOk.sublist {l l' : List EarlySummary} (hs : l'.Sublist l) (h : EarlyListOk l) : EarlyListOk l' :=
  ⟨hs.length_le.trans h.1, h.2.sublist hs⟩

/-- R96: a summary of another band takes its place in the list. -/
theorem insertEarly_pairwise {x : EarlySummary} {l : List EarlySummary} (h : l.Pairwise fun a b => a.band < b.band)
    (hx : ∀ y ∈ l, y.band ≠ x.band) : (insertEarly x l).Pairwise fun a b => a.band < b.band := by
  induction l with
  | nil => exact List.pairwise_singleton _ _
  | cons y ys ih =>
    obtain ⟨hy, hys⟩ := List.pairwise_cons.1 h
    have other := hx y List.mem_cons_self
    rw [insertEarly]
    split
    next hle =>
      refine List.pairwise_cons.2 ⟨fun z hz => ?_, ih hys fun z hz => hx z (List.mem_cons_of_mem _ hz)⟩
      rcases List.mem_cons.1 ((insertEarly_perm x ys).mem_iff.1 hz) with rfl | hz
      · omega
      · exact hy z hz
    next hle =>
      refine List.pairwise_cons.2 ⟨fun z hz => ?_, h⟩
      rcases List.mem_cons.1 hz with rfl | hz
      · omega
      · have := hy z hz
        omega

theorem setEarly_keeps {t : BandTable} {l : List EarlySummary} (w : Which) (hl : EarlyListOk l)
    (h : EarlyListOk t.leftEarly ∧ EarlyListOk t.rightEarly) :
    EarlyListOk (t.setEarly w l).leftEarly ∧ EarlyListOk (t.setEarly w l).rightEarly := by
  cases w with
  | left => exact ⟨hl, h.2⟩
  | right => exact ⟨h.1, hl⟩

theorem early_ok {s : State} (w : Which) (h : EarlyOk s) : EarlyListOk (s.table.early w) := by
  cases w with
  | left => exact h.1
  | right => exact h.2

theorem enterEarly_keeps_earlyOk {s : State} (w : Which) (x : EarlySummary) (h : EarlyOk s) :
    EarlyOk (enterEarly w x s) := by
  dsimp only [enterEarly]
  split
  · exact h
  next hnew =>
    obtain ⟨hlen, hpair⟩ := early_ok w h
    have other : ∀ y ∈ s.table.early w, y.band ≠ x.band := by simpa using hnew
    have inserted := insertEarly_pairwise hpair other
    have := (insertEarly_perm x (s.table.early w)).length_eq
    rw [List.length_cons] at this
    split
    next hle => exact setEarly_keeps w ⟨hle, inserted⟩ h
    next hle =>
      refine setEarly_keeps w ⟨?_, inserted.sublist (List.tail_sublist _)⟩ h
      rw [List.length_tail]
      omega

/-- R90: row 0 takes the summaries of its band out of the lists. -/
theorem intakeEvent_keeps_earlyOk {s : State} (ev : LineEvent) (h : EarlyOk s) : EarlyOk (intakeEvent ev s) := by
  rw [EarlyOk, intakeEvent_table, updEntry_table]
  split
  · exact ⟨h.1.sublist List.filter_sublist, h.2.sublist List.filter_sublist⟩
  · exact h

/-! ## Every step -/

/-- The invariants of the transmit queue and the early-summary lists. -/
def QueuesOk (s : State) : Prop := TxQueueOk s ∧ EarlyOk s

theorem QueuesOk.congr {s t : State} (hq : t.bus.queue = s.bus.queue) (hn : t.bus.nextAge = s.bus.nextAge)
    (ht : t.table = s.table) (h : QueuesOk s) : QueuesOk t := by
  rw [QueuesOk, TxQueueOk, EarlyOk, hq, hn, ht]
  exact h

theorem QueuesOk.of_blocks {s t : State} (hb : t.bus = s.bus) (ht : t.table = s.table) : QueuesOk s → QueuesOk t :=
  .congr (by rw [hb]) (by rw [hb]) ht

theorem earlyListOk_nil : EarlyListOk [] := ⟨Nat.zero_le _, .nil⟩

theorem queuesOk_fresh {s : State} (hb : s.bus = .initial) (ht : s.table = .initial) : QueuesOk s := by
  rw [QueuesOk, TxQueueOk, EarlyOk, hb, ht]
  exact ⟨⟨Nat.zero_le _, .nil, nofun⟩, earlyListOk_nil, earlyListOk_nil⟩

theorem queuesOk_keptByParts : KeptByParts QueuesOk where
  alike ha := .of_blocks ha.bus ha.table
  powered _ _ _ := queuesOk_fresh rfl rfl
  softReset _ := queuesOk_fresh rfl rfl
  requestWindow _ _ := .of_blocks (by simp) (by simp)
  offerMark _ _ _ := .of_blocks (by simp) (by simp)
  bus {s b} hb h := by
    refine ⟨?_, h.2⟩
    change QueueInOrder b.queue b.nextAge
    rw [hb.nextAge]
    exact .of_keepsOrder hb.queue h.1
  hear _ _ := .congr rfl rfl rfl
  offerFrame f h := ⟨offerFrame_keeps_txQueueOk f h.1, by rw [EarlyOk, offerFrame_table]; exact h.2⟩
  offerEvent _ := .of_blocks (by simp) (by simp)
  epochState {s} _ h := by
    refine ⟨?_, earlyListOk_nil, earlyListOk_nil⟩
    change QueueInOrder (withdrawEnrolling s.bus.queue) s.bus.nextAge
    exact .of_keepsOrder (.of_filter _ _) h.1
  applyConfig _ _ _ _ := .congr (by rw [applyConfig_keeps_bus]) (by rw [applyConfig_keeps_bus]) (by simp)
  startLearning := .congr rfl rfl rfl
  dropLink := .congr rfl rfl rfl
  linkUp := .congr rfl rfl rfl
  submitGrant _ := .congr rfl rfl rfl
  openGrant _ _ _ _ _ _ := .of_blocks (by simp [openGrant]) (by simp [openGrant])
  writeHead _ _ _ _ _ _ := .of_blocks (by simp) (by simp)
  retireGrant _ := .of_blocks (by simp) (by simp)
  tickGrant _ _ _ := .congr rfl rfl rfl
  finaliseStep _ _ := .of_blocks (by simp) (by simp)
  encoder _ := .congr rfl rfl rfl
  buffer _ _ := .congr rfl rfl rfl
  intakeEvent ev h := ⟨by rw [TxQueueOk, intakeEvent_bus]; exact h.1, intakeEvent_keeps_earlyOk ev h.2⟩
  trackLine ev := .of_blocks (trackLine_addsEvents _ ev).2 (by simp)
  entries t hl hr h := ⟨h.1, by rw [EarlyOk, hl, hr]; exact h.2⟩
  enterEarly w x h := ⟨by rw [TxQueueOk, enterEarly_bus]; exact h.1, enterEarly_keeps_earlyOk w x h.2⟩
  repeatEnd _ := .of_blocks (by simp) (by simp)
  learnFrom _ _ _ := .of_blocks (by simp) (by simp)
  offerTile _ := .of_blocks (by simp) (by simp)
  offerBand _ := .of_blocks (by simp) (by simp)
  offering _ := .congr rfl rfl rfl
  stop _ := .congr rfl rfl rfl
  toIdle _ h := ⟨⟨Nat.zero_le _, .nil, nofun⟩, h.2⟩

/-! ## The heard-station list -/

theorem HeardOk.congr {s t : State} (hb : t.bus.heard = s.bus.heard) (h : HeardOk s) : HeardOk t := by
  rw [HeardOk, hb]
  exact h

theorem HeardOk.of_bus {s t : State} (hb : t.bus = s.bus) : HeardOk s → HeardOk t := .congr (by rw [hb])

theorem heardOk_nil {s : State} (h : s.bus.heard = []) : HeardOk s := by
  rw [HeardOk, h]
  exact List.nodup_nil

/-- R119: a station joins the list when its number is not yet there. -/
theorem heardOk_hear {s : State} {h : Heard} (hnew : (s.bus.heard.any fun x => x.number == h.number) = false)
    (hs : HeardOk s) : HeardOk (s.updBus fun b => { b with heard := b.heard ++ [h], timer := some 50 }) := by
  change ((s.bus.heard ++ [h]).map (·.number)).Nodup
  rw [List.map_append, List.nodup_append]
  refine ⟨hs, List.nodup_singleton _, fun n hn m hm => ?_⟩
  obtain ⟨x, hx, rfl⟩ := List.mem_map.1 hn
  rw [List.map_singleton, List.mem_singleton] at hm
  subst hm
  simpa using List.any_eq_false.1 hnew x hx

@[simp] theorem offerFrame_heard (f : Frame) (s : State) : (offerFrame f s).bus.heard = s.bus.heard := by
  rw [(offerFrame_offered s f).1]

theorem heardOk_keptByParts : KeptByParts HeardOk where
  alike ha := .of_bus ha.bus
  powered _ _ _ := heardOk_nil rfl
  softReset _ := heardOk_nil rfl
  requestWindow _ _ := .of_bus (by simp)
  offerMark _ _ _ := .of_bus (by simp)
  bus hb h := hb.heard.elim (fun same => h.congr same) fun none => heardOk_nil none
  hear _ := heardOk_hear
  offerFrame _ := .congr (by simp)
  offerEvent _ := .of_bus (by simp)
  epochState _ := .congr rfl
  applyConfig _ _ _ _ := .congr (by rw [applyConfig_keeps_bus])
  startLearning := .of_bus rfl
  dropLink := .of_bus rfl
  linkUp := .of_bus rfl
  submitGrant _ := .of_bus rfl
  openGrant _ _ _ _ _ _ := .of_bus (by simp [openGrant])
  writeHead _ _ _ _ _ _ := .of_bus (by simp)
  retireGrant _ := .of_bus (by simp)
  tickGrant _ _ _ := .of_bus rfl
  finaliseStep _ _ := .of_bus (by simp)
  encoder _ := .of_bus rfl
  buffer _ _ := .of_bus rfl
  intakeEvent _ := .of_bus (by simp)
  trackLine ev := .of_bus (trackLine_addsEvents _ ev).2
  entries _ _ _ := .of_bus rfl
  enterEarly _ _ := .of_bus (by simp)
  repeatEnd _ := .of_bus (by simp)
  learnFrom _ _ _ := .of_bus (by simp)
  offerTile _ := .of_bus (by simp)
  offerBand _ := .of_bus (by simp)
  offering _ := .of_bus rfl
  stop _ := .congr rfl
  toIdle _ := .congr rfl

/-- Settles O56: a frame and a summary are put in their places, the list making room first, and a station joins the
heard list only when its number is new. -/
theorem stepKeepsQueues : Obligations.StepKeepsQueues :=
  ⟨fun _ _ ht he => queuesOk_keptByParts.step ⟨ht, he⟩, fun _ _ => heardOk_keptByParts.step⟩

end Sys2Proof.Machine
end

section
/-! Chapters 2, 6 and 7 of the manual: how lines, stamps and open bands stand together (R20, R89, R99, R102), through
line events and closes. -/

namespace Sys2Proof.Machine

/-! ## The order of the open bands -/

/-- Two lists of entries have the same bands in the same states. -/
def SameBands (es es' : List Entry) : Prop :=
  es'.map (fun e => (e.band, e.state)) = es.map fun e => (e.band, e.state)

theorem SameBands.of_map {f : Entry → Entry} (es : List Entry)
    (hf : ∀ e, (f e).band = e.band ∧ (f e).state = e.state) : SameBands es (es.map f) := by
  simp [SameBands, List.map_map, Function.comp_def, hf]

theorem SameBands.trans {a b c : List Entry} (h : SameBands a b) (k : SameBands b c) : SameBands a c :=
  Eq.trans k h

theorem SameBands.length {es es' : List Entry} (h : SameBands es es') : es'.length = es.length := by
  simpa using congrArg List.length h

theorem SameBands.bands {es es' : List Entry} (h : SameBands es es') : es'.map (·.band) = es.map (·.band) := by
  simpa [List.map_map, Function.comp_def] using congrArg (List.map Prod.fst) h

theorem SameBands.forall_state {es es' : List Entry} {st : EntryState} (h : SameBands es es')
    (hs : ∀ e ∈ es, e.state = st) : ∀ e ∈ es', e.state = st := by
  intro e he
  have : (e.band, e.state) ∈ es.map fun e => (e.band, e.state) := h ▸ List.mem_map_of_mem he
  obtain ⟨x, hx, heq⟩ := List.mem_map.1 this
  exact (congrArg Prod.snd heq).symm.trans (hs x hx)

theorem sameBands_updEntry {s : State} {b : Nat} {f : Entry → Entry}
    (hf : ∀ e, (f e).band = e.band ∧ (f e).state = e.state) :
    SameBands s.table.entries (updEntry b f s).table.entries := by
  refine .of_map _ fun e => ?_
  split
  · exact hf e
  · exact ⟨rfl, rfl⟩

/-- R89: the order of the open bands says of an entry its band and its state alone. -/
theorem BandsInOrder.of_sameBands {next hs : Nat} {es es' : List Entry} (h : SameBands es es')
    (hb : BandsInOrder next hs es) : BandsInOrder next hs es' := by
  obtain ⟨scored, hlen, hscored, hle, hcons, hes⟩ := hb
  have move : ∀ {l : List Entry}, SameBands scored l →
      l.length ≤ hs ∧ (∀ e ∈ l, e.state = .scored) ∧ l.length ≤ bandOf next ∧ Consecutive (bandOf next - l.length) l := by
    intro l hl
    rw [hl.length]
    exact ⟨hlen, hl.forall_state hscored, hle, consecutive_congr hl.bands hcons⟩
  split at hes
  next h0 =>
    subst hes
    obtain ⟨h1, h2, h3, h4⟩ := move h
    exact ⟨es', h1, h2, h3, h4, by rw [if_pos h0]⟩
  next h0 =>
    obtain ⟨f, rfl, hfill, hband⟩ := hes
    obtain ⟨l, r, rfl, hl, hr⟩ := List.map_eq_append_iff.1 (Eq.trans (show List.map _ es' = _ from h) List.map_append)
    obtain ⟨g, rfl, hg⟩ := List.map_eq_singleton_iff.1 hr
    obtain ⟨h1, h2, h3, h4⟩ := move hl
    refine ⟨l, h1, h2, h3, h4, ?_⟩
    rw [if_neg h0]
    exact ⟨g, rfl, (congrArg Prod.snd hg).trans hfill, (congrArg Prod.fst hg).trans hband⟩

/-- R89: the open bands are consecutive. -/
theorem BandsInOrder.consecutive {next hs : Nat} {es : List Entry} (h : BandsInOrder next hs es) :
    ∃ c, Consecutive c es := by
  obtain ⟨scored, _, _, hle, hcons, hes⟩ := h
  refine ⟨bandOf next - scored.length, ?_⟩
  split at hes
  · rwa [hes]
  · obtain ⟨f, rfl, _, hband⟩ := hes
    exact consecutive_append hcons ⟨by omega, trivial⟩

theorem BandsInOrder.length_le {next hs : Nat} {es : List Entry} (h : BandsInOrder next hs es) :
    es.length ≤ hs + 1 := by
  obtain ⟨scored, hlen, _, _, _, hes⟩ := h
  split at hes
  · rw [hes]
    omega
  · obtain ⟨f, rfl, _⟩ := hes
    simpa using hlen

theorem consecutive_drop {c : Nat} {l r : List Entry} (h : Consecutive c (l ++ r)) : Consecutive (c + l.length) r := by
  induction l generalizing c with
  | nil => exact h
  | cons e es ih =>
    rw [List.length_cons, show c + (es.length + 1) = c + 1 + es.length by omega]
    exact ih h.2

theorem consecutive_getElem {c : Nat} {l : List Entry} (h : Consecutive c l) (i : Nat) (hi : i < l.length) :
    l[i].band = c + i := by
  induction l generalizing c i with
  | nil => cases hi
  | cons e es ih =>
    cases i with
    | zero => exact h.1
    | succ i =>
      rw [List.getElem_cons_succ, ih h.2]
      omega

/-- R98: when the lowest of the open bands close, those that stay are in order. -/
theorem BandsInOrder.of_closes {next hs : Nat} {closed rest : List Entry} (h : BandsInOrder next hs (closed ++ rest))
    (hclosed : ∀ e ∈ closed, e.state = .scored) : BandsInOrder next hs rest := by
  obtain ⟨scored, hlen, hscored, hle, hcons, hes⟩ := h
  have part : ∀ {more : List Entry}, scored = closed ++ more →
      more.length ≤ hs ∧ (∀ e ∈ more, e.state = .scored) ∧ more.length ≤ bandOf next ∧
        Consecutive (bandOf next - more.length) more := by
    rintro more rfl
    rw [List.length_append] at hlen hle hcons
    refine ⟨by omega, fun e he => hscored e (List.mem_append_right _ he), by omega, ?_⟩
    have := consecutive_drop hcons
    rwa [show bandOf next - (closed.length + more.length) + closed.length = bandOf next - more.length by omega] at this
  split at hes
  next h0 =>
    obtain ⟨h1, h2, h3, h4⟩ := part hes.symm
    exact ⟨rest, h1, h2, h3, h4, by rw [if_pos h0]⟩
  next h0 =>
    obtain ⟨f, heq, hfill, hband⟩ := hes
    obtain ⟨more, hmore, hrest⟩ | ⟨more, hmore, hf⟩ := List.append_eq_append_iff.1 heq
    · obtain ⟨h1, h2, h3, h4⟩ := part hmore
      exact ⟨more, h1, h2, h3, h4, by rw [if_neg h0]; exact ⟨f, hrest, hfill, hband⟩⟩
    · cases more with
      | nil =>
        rw [List.append_nil] at hmore
        obtain ⟨h1, h2, h3, h4⟩ := part (more := []) (by rw [hmore, List.append_nil])
        exact ⟨[], h1, h2, h3, h4, by rw [if_neg h0]; exact ⟨f, hf.symm, hfill, hband⟩⟩
      | cons x xs =>
        obtain rfl : f = x := (List.cons.inj hf).1
        have := hclosed f (hmore ▸ List.mem_append_right _ List.mem_cons_self)
        rw [hfill] at this
        cases this

theorem closesInTurn_bandsInOrder {s t : State} {closed : List Entry} {next hs : Nat} (h : ClosesInTurn s closed t)
    (hb : BandsInOrder next hs s.table.entries) : BandsInOrder next hs t.table.entries := by
  obtain ⟨c, hc⟩ := hb.consecutive
  obtain ⟨hes, hclosed, _⟩ := closesInTurn_split s h hc
  exact (hes ▸ hb).of_closes hclosed

theorem closingTest_bandsInOrder {s : State} {next hs : Nat} (hb : BandsInOrder next hs s.table.entries) :
    BandsInOrder next hs (closingTest s).table.entries := by
  obtain ⟨closed, h⟩ := closingTest_closesInTurn s
  exact closesInTurn_bandsInOrder h hb

/-! ## The scoring of row 31 -/

/-- R98, R99: of Hs + 1 entries SCORED the lowest may close, Hs bands below the last. -/
theorem closes_to_settleDepth {v t : State} {closed : List Entry} {d : Nat} (h : ClosesInTurn v closed t)
    (hd : Consecutive d v.table.entries) (hscored : ∀ e ∈ v.table.entries, e.state = .scored)
    (hlen : v.table.entries.length ≤ v.ctl.cfg.hs + 1) (hnone : v.port.offering = none) :
    t.table.entries.length ≤ v.ctl.cfg.hs := by
  have split := congrArg List.length (closesInTurn_split v h hd).1
  rw [List.length_append] at split
  cases closed with
  | cons e es =>
    rw [List.length_cons] at split
    omega
  | nil =>
    obtain ⟨rfl, hstop⟩ := h
    by_contra hmany
    have hfull : t.table.entries.length = t.ctl.cfg.hs + 1 := by omega
    have first := consecutive_getElem hd 0 (by omega)
    have last := consecutive_getElem hd t.ctl.cfg.hs (by omega)
    have top : t.table.entries[t.ctl.cfg.hs] ∈ t.table.entries := List.getElem_mem _
    have bottom : t.table.entries[0] ∈ t.table.entries := List.getElem_mem _
    refine hstop.resolve_left (not_not.2 hnone) _ bottom
      ⟨hscored _ bottom, fun y hy => ?_, .inr (.inl ⟨_, top, hscored _ top, ?_⟩)⟩
    · have := (consecutive_bands hd hy).1
      omega
    · rw [first, last]
      omega

/-- R98, R99: the scoring of the band that is filling leaves at most Hs entries SCORED: of Hs + 1 the lowest may
close, Hs bands below the one just scored. -/
theorem scoreBand_bandsInOrder {s : State} {line : Nat} (h31 : line % 32 = 31)
    (hb : BandsInOrder line s.ctl.cfg.hs s.table.entries) :
    BandsInOrder (line + 1) s.ctl.cfg.hs (scoreBand (bandOf line) s).table.entries := by
  have before := hb
  obtain ⟨c, hc⟩ := hb.consecutive
  obtain ⟨scored, hlen, hscored, hle, hcons, hes⟩ := hb
  rw [if_neg (by omega)] at hes
  obtain ⟨f, hes, hfill, hband⟩ := hes
  have hf : findEntry (bandOf line) s = some f := by
    rw [findEntry, hes, List.find?_append, List.find?_eq_none.2 fun e he => ?_]
    · simp [hband]
    · have := (consecutive_bands hcons he)
      have := consecutive_pairwise (hes ▸ hc)
      have := (List.pairwise_append.1 this).2.2 e he f (List.mem_singleton_self f)
      simp only [beq_iff_eq]
      omega
  have made := finishCloses_ended s hc
  obtain ⟨hnone, closed, hsplit, hclosed, hc'⟩ := made.split hc
  have hf' := findEntry_drop hf hfill hsplit hclosed
  have mid : BandsInOrder line s.ctl.cfg.hs (finishCloses s).table.entries := (hsplit ▸ before).of_closes hclosed
  obtain ⟨g, level, v, more, _, hg, hv, _, _, hcloses, _⟩ := scoreEntry_scored (finishCloses s) hf' hc'
  have hae : ∃ f' before, (finishCloses s).table.entries = before ++ [f'] ∧ (∀ e ∈ before, e.state = .scored) ∧
      f'.band = bandOf line ∧ before.length ≤ s.ctl.cfg.hs ∧ before.length ≤ bandOf line ∧
      Consecutive (bandOf line - before.length) (before ++ [f']) := by
    obtain ⟨before, hlen, hscored, hle, hcons, hes⟩ := mid
    rw [if_neg (by omega)] at hes
    obtain ⟨f', hes, _, hband⟩ := hes
    exact ⟨f', before, hes, hscored, hband, hlen, hle, consecutive_append hcons ⟨by omega, trivial⟩⟩
  obtain ⟨f', before, hae, hbefore, hf'band, hlen, hle, hcons⟩ := hae
  have hgband : g.band = f.band := by rw [hg]
  have hgscored : g.state = .scored := by rw [hg]
  have hve : v.table.entries = (before ++ [f']).map fun x => if x.band = f.band then g else x := by rw [hv, ← hae]
  have hvc : Consecutive (bandOf line - before.length) v.table.entries := by
    refine consecutive_congr ?_ hcons
    rw [hve, List.map_map]
    refine List.map_congr_left fun x _ => ?_
    simp only [Function.comp_apply]
    split
    next hx => rw [hgband, hx]
    next => rfl
  have hvs : ∀ e ∈ v.table.entries, e.state = .scored := by
    rw [hve]
    intro e he
    obtain ⟨x, hx, rfl⟩ := List.mem_map.1 he
    split
    next => exact hgscored
    next hx' =>
      rcases List.mem_append.1 hx with hx | hx
      · exact hbefore x hx
      · rw [List.mem_singleton.1 hx, hf'band, hband] at hx'
        exact absurd rfl hx'
  have hvl : v.table.entries.length = before.length + 1 := by rw [hve]; simp
  have hvhs : v.ctl.cfg.hs = s.ctl.cfg.hs := by rw [hv]; simp
  have fewer := closes_to_settleDepth hcloses hvc hvs (by omega) (by rw [hv]; exact hnone)
  obtain ⟨hsplit', _, htc⟩ := closesInTurn_split v hcloses hvc
  have total := congrArg List.length hsplit'
  rw [List.length_append] at total
  have next : bandOf (line + 1) = bandOf line + 1 := by
    rw [bandOf, bandOf]
    omega
  change BandsInOrder _ _ (scoreEntry (bandOf line) (finishCloses s)).table.entries
  refine ⟨_, ?_, ?_, ?_, ?_, by rw [if_pos (by omega)]⟩
  · rw [← hvhs]
    exact fewer
  · exact fun e he => hvs e (hsplit' ▸ List.mem_append_right _ he)
  · omega
  · rw [next, show bandOf line + 1 - (scoreEntry (bandOf line) (finishCloses s)).table.entries.length =
      bandOf line - before.length + more.length by omega]
    exact htc

/-! ## A line event -/

theorem updRow_band_state (row : Nat) (f : Row → Row) (e : Entry) :
    (e.updRow row f).band = e.band ∧ (e.updRow row f).state = e.state := ⟨rfl, rfl⟩

theorem recordEntry_band_state (rec : LineRecord) (e : Entry) :
    (recordEntry rec e).band = e.band ∧ (recordEntry rec e).state = e.state := by
  dsimp only [recordEntry]
  split <;> exact ⟨rfl, rfl⟩

/-- The state in which a line event's record has been taken and its band is still to be scored. -/
def recordTaken (ev : LineEvent) (s : State) : State :=
  takeRecord (trackLine ev (intakeEvent ev s)).2
    (markRegistered (trackLine ev (intakeEvent ev s)).2 (trackLine ev (intakeEvent ev s)).1)

theorem takeLine_eq (ev : LineEvent) (s : State) : takeLine ev s = afterRow ev.line (recordTaken ev s) := rfl

/-- R23, R89: of the bands and their states, a line event changes, before row 31 scores its band, only what row 0
opens. -/
theorem recordTaken_sameBands (ev : LineEvent) (s : State) :
    SameBands (if rowOf ev.line = 0 then createEntry (bandOf ev.line) s else s).table.entries
      (recordTaken ev s).table.entries := by
  obtain ⟨slots, hslots⟩ := takeRecord_entry
    (markRegistered (trackLine ev (intakeEvent ev s)).2 (trackLine ev (intakeEvent ev s)).1)
    (trackLine ev (intakeEvent ev s)).2
  have intake : SameBands (if rowOf ev.line = 0 then createEntry (bandOf ev.line) s else s).table.entries
      (trackLine ev (intakeEvent ev s)).1.table.entries := by
    rw [trackLine_table, intakeEvent_table]
    exact sameBands_updEntry (updRow_band_state _ _)
  have registered := sameBands_updEntry (b := bandOf (trackLine ev (intakeEvent ev s)).2.line)
    (s := (trackLine ev (intakeEvent ev s)).1) (recordEntry_band_state (trackLine ev (intakeEvent ev s)).2)
  refine (intake.trans registered).trans ?_
  rw [recordTaken, hslots]
  exact sameBands_updEntry fun _ => ⟨rfl, rfl⟩

/-- R20, R23, R89: before row 31 scores its band, the bands are in order for the next line, or, for row 31, still for
this one. -/
theorem recordTaken_bandsInOrder {ev : LineEvent} {s : State} {hs : Nat} (h : BandsInOrder ev.line hs s.table.entries) :
    BandsInOrder (if rowOf ev.line = 31 then ev.line else ev.line + 1) hs (recordTaken ev s).table.entries := by
  refine BandsInOrder.of_sameBands (recordTaken_sameBands ev s) ?_
  obtain ⟨scored, hlen, hscored, hle, hcons, hes⟩ := h
  have hrow : rowOf ev.line = ev.line % 32 := rfl
  have next : ¬ rowOf ev.line = 31 → bandOf (ev.line + 1) = bandOf ev.line := by
    rw [bandOf, bandOf]
    omega
  by_cases h0 : rowOf ev.line = 0
  · rw [if_pos (hrow ▸ h0)] at hes
    rw [if_pos h0, if_neg (by omega)]
    refine ⟨scored, hlen, hscored, by rwa [next (by omega)], by rwa [next (by omega)], ?_⟩
    rw [if_neg (by omega)]
    exact ⟨_, congrArg (· ++ _) hes, rfl, (next (by omega)).symm⟩
  · rw [if_neg (hrow ▸ h0)] at hes
    rw [if_neg h0]
    split
    next h31 => exact ⟨scored, hlen, hscored, hle, hcons, by rwa [if_neg (by omega)]⟩
    next h31 =>
      refine ⟨scored, hlen, hscored, by rwa [next h31], by rwa [next h31], ?_⟩
      rwa [if_neg (by omega), next h31]

/-- R89, R99: a line event leaves the bands in order for the next line. -/
theorem takeLine_bandsInOrder {ev : LineEvent} {s : State} (h : BandsInOrder ev.line s.ctl.cfg.hs s.table.entries) :
    BandsInOrder (ev.line + 1) s.ctl.cfg.hs (takeLine ev s).table.entries := by
  have before := recordTaken_bandsInOrder h
  have ctl : (recordTaken ev s).ctl = s.ctl := by simp [recordTaken]
  rw [takeLine_eq]
  unfold afterRow
  split
  next h31 =>
    rw [if_pos h31] at before
    have := scoreBand_bandsInOrder (s := recordTaken ev s) h31 (by rwa [ctl])
    rwa [ctl] at this
  next h31 => rwa [if_neg h31] at before

@[simp] theorem scoreBand_op (b : Nat) (s : State) : (scoreBand b s).bus.op = s.bus.op := by
  unfold scoreBand scoreEntry
  split
  · rw [finishCloses_bus]
  · rw [closingTest_bus]
    split <;> simp

@[simp] theorem takeLine_op (ev : LineEvent) (s : State) : (takeLine ev s).bus.op = s.bus.op := by
  have before : (recordTaken ev s).bus = s.bus := by
    simp [recordTaken, (trackLine_addsEvents _ ev).2]
  rw [takeLine_eq]
  unfold afterRow
  split
  · rw [scoreBand_op, before]
  · rw [before]

@[simp] theorem takeLine_intake (ev : LineEvent) (s : State) : (takeLine ev s).intake = (intakeEvent ev s).intake := by
  rw [takeLine_eq, afterRow_intake, recordTaken]
  simp

@[simp] theorem takeLine_nextLine (ev : LineEvent) (s : State) : (takeLine ev s).intake.nextLine = ev.line + 1 := by
  rw [takeLine_intake, intakeEvent_intake]

end Sys2Proof.Machine
end

section
/-! Chapters 2, 6 and 7 of the manual: what every step keeps of lines, stamps, open bands and offers to come. -/

namespace Sys2Proof.Machine

/-! ## The offers to come -/

@[simp] theorem retireGrant_offering (flag : RetireFlag) (s : State) :
    (retireGrant flag s).port.offering = s.port.offering := by
  cases h : s.port.grant with
  | none => rw [retireGrant, h]
  | some g => rw [retireGrant_eq s flag h]

@[simp] theorem spaceTest_offering (s : State) : (spaceTest s).port.offering = s.port.offering := by
  rw [spaceTest_frame]

@[simp] theorem writeHead_offering (g : OpenGrant) (r : Rec) (s : State) :
    (writeHead g r s).port.offering = s.port.offering := by
  rw [writeHead, spaceTest_offering]
  rfl

@[simp] theorem offerEvent_offering (e : EventRec) (s : State) : (offerEvent e s).port.offering = s.port.offering := by
  rw [(offerEvent_eq s e).1]

@[simp] theorem raise_offering (code : EventCode) (line : Nat) (data : Word) (s : State) :
    (raise code line data s).port.offering = s.port.offering := by
  rw [(raise_raised s code line data).1]

@[simp] theorem offerFrame_offering (f : Frame) (s : State) : (offerFrame f s).port.offering = s.port.offering := by
  rw [offerFrame_port]

@[simp] theorem finaliseEnd_offering (s : State) : (finaliseEnd s).port.offering = s.port.offering := by
  unfold finaliseEnd
  split
  · rfl
  · exact raise_offering _ _ _ _

@[simp] theorem finaliseStep_offering (m : Nat) (s : State) : (finaliseStep m s).port.offering = s.port.offering := by
  rw [finaliseStep, finaliseEnd_offering]
  split <;> simp

/-- R148: a close that other commands fall into has no retired stamps waiting when it begins. -/
theorem closeEntry_retired {e : Entry} {s : State} (hn : s.port.offering = none) {o : Offering}
    (h : (closeEntry e s).port.offering = some o) : o.retired = [] := by
  change (steer (closeView s e) s).port.offering = some o at h
  cases hov : s.overlap with
  | nil =>
    rw [((steer_offered s _).1 hov).offering, hn] at h
    cases h
  | cons n later =>
    obtain ⟨_, _, _, _, eq⟩ := (steer_offered s (closeView s e)).2 n later hov
    rw [eq] at h
    cases h
    rfl

theorem closesInTurn_retired {s t : State} {closed : List Entry} (h : ClosesInTurn s closed t)
    (hn : s.port.offering = none) {o : Offering} (ho : t.port.offering = some o) : o.retired = [] := by
  induction closed generalizing s with
  | nil =>
    rw [h.1, hn] at ho
    cases ho
  | cons e es ih =>
    obtain ⟨_, _, _, rest⟩ := h
    cases hc : (closeEntry e s).port.offering with
    | none => exact ih rest hc
    | some x =>
      cases es with
      | nil =>
        rw [rest.1] at ho
        exact closeEntry_retired hn ho
      | cons _ _ =>
        have := rest.1
        rw [hc] at this
        cases this

theorem closingTest_of_offering {s : State} (h : s.port.offering ≠ none) : closingTest s = s := by
  rw [closingTest]
  cases s.table.entries.length with
  | zero => rfl
  | succ n =>
    rw [closeAll]
    split
    next hn _ => exact absurd hn h
    next => rfl

theorem closingTest_of_no_entries {s : State} (h : s.table.entries = []) : closingTest s = s := by
  rw [closingTest, h]
  rfl

/-! ## Stopping -/

/-- R14, R102: what `RunOk` asks of the bands, the retired stamps and the offers to come in STOPPING. -/
def StoppingOk (s : State) : Prop :=
  (s.port.offering = none → s.table.entries = []) ∧
  ∀ o, s.port.offering = some o → StampsFrom s o.retired ∧
    ((o.retired = [] ∧ s.table.entries = []) ∨ BandsInOrder s.intake.nextLine s.ctl.cfg.hs s.table.entries)

theorem StoppingAt.bandsInOrder {n hs : Nat} {s : State} (h : StoppingAt n s) :
    BandsInOrder n hs s.table.entries := by
  obtain ⟨_, hes⟩ := h
  refine ⟨[], Nat.zero_le _, List.forall_mem_nil _, Nat.zero_le _, trivial, ?_⟩
  split at hes
  next h0 => rwa [if_pos h0]
  next h0 =>
    rw [if_neg h0]
    exact hes

theorem StampsFrom.congr {s t : State} {l : List Stamp} (hn : t.intake.nextLine = s.intake.nextLine)
    (hc : t.encoder.lineCounter = s.encoder.lineCounter) (h : StampsFrom s l) : StampsFrom t l := by
  rw [StampsFrom, hn, hc]
  exact h

/-- R14: the stamps that wait once the first line has gone through. -/
theorem StampsFrom.tail {s t : State} {st : Stamp} {l : List Stamp} (h : StampsFrom s (st :: l))
    (hn : t.intake.nextLine = s.intake.nextLine + 1) (hc : t.encoder.lineCounter = s.encoder.lineCounter) :
    StampsFrom t l := by
  obtain ⟨hlen, hline, hcount⟩ := h
  rw [List.length_cons] at hlen hcount
  refine ⟨by omega, fun i hi => ?_, by omega⟩
  have := hline (i + 1) (Nat.succ_lt_succ hi)
  rw [List.getElem_cons_succ] at this
  omega

theorem StampsFrom.head {s : State} {st : Stamp} {l : List Stamp} (h : StampsFrom s (st :: l)) :
    st.line = s.intake.nextLine := h.2.1 0 (Nat.zero_lt_succ _)

theorem keepRetired_stoppingOk {s : State} {l : List Stamp} (ho : s.port.offering.isSome = true) (hl : StampsFrom s l)
    (hb : (l = [] ∧ s.table.entries = []) ∨ BandsInOrder s.intake.nextLine s.ctl.cfg.hs s.table.entries) :
    StoppingOk (keepRetired l s) := by
  obtain ⟨o, ho⟩ := Option.isSome_iff_exists.1 ho
  have kept : (keepRetired l s).port.offering = some { o with retired := l } := by
    rw [keepRetired, State.updPort_port, ho]
    rfl
  refine ⟨fun hn => ?_, fun o' ho' => ?_⟩
  · rw [kept] at hn
    cases hn
  · rw [kept] at ho'
    cases ho'
    exact ⟨hl.congr rfl rfl, hb⟩

/-- R102: the scoring and the close of the entry still FILLING leave no band open. -/
theorem scoreFilling_stoppingOk {s : State} (h : OneFilling s) (hn : s.port.offering = none) (hl : StampsFrom s []) :
    StoppingOk (scoreFilling s) := by
  obtain ⟨hop, hes⟩ := h
  obtain hes | ⟨f, hes, hfill⟩ := hes
  · have same : scoreFilling s = s := by
      rw [scoreFilling, fillingBand, hes]
      rfl
    rw [same]
    refine ⟨fun _ => hes, fun o ho => ?_⟩
    rw [hn] at ho
    cases ho
  · have scored : scoreFilling s = scoreBand f.band s := by
      rw [scoreFilling, fillingBand, hes, List.find?_cons_of_pos (by simp [hfill])]
      rfl
    have hf := findEntry_single s hes rfl
    have hc : Consecutive f.band s.table.entries := by
      rw [hes]
      exact ⟨rfl, trivial⟩
    obtain ⟨g, hg⟩ := scoreBand_scored s hf hfill hc
    obtain ⟨_, empty, _⟩ := scored_stopping s hg hop hes hfill
    rw [scored]
    refine ⟨fun _ => empty, fun o ho => ?_⟩
    obtain ⟨_, a, v, closed, ⟨same, _⟩, _, _, hv, _, _, hcloses, _⟩ := hg
    have hvn : v.port.offering = none := by rw [hv, same hn]; exact hn
    have retired := closesInTurn_retired hcloses hvn ho
    rw [retired]
    exact ⟨hl.congr (by simp) (by simp), .inl ⟨rfl, empty⟩⟩

/-- R14, R102: the retirement of stamps in STOPPING, from a state in which the bands stand for the next line or what
is left waits for a close. -/
theorem retireStamps_stoppingOk {l : List Stamp} {s : State} (hl : StampsFrom s l)
    (hb : StoppingAt s.intake.nextLine s ∨ (l = [] ∧ s.table.entries = [] ∧ s.bus.op = .stopping) ∨
      (s.port.offering ≠ none ∧ BandsInOrder s.intake.nextLine s.ctl.cfg.hs s.table.entries)) :
    StoppingOk (retireStamps l s) := by
  induction l generalizing s with
  | nil =>
    rw [retireStamps]
    split
    next ho => exact keepRetired_stoppingOk ho hl (hb.elim (fun h => .inr h.bandsInOrder) fun h =>
        h.elim (fun h => .inl ⟨h.1, h.2.1⟩) fun h => .inr h.2)
    next ho =>
      have hn : s.port.offering = none := by simpa using ho
      refine scoreFilling_stoppingOk ?_ hn hl
      obtain h | ⟨_, hes, hop⟩ | ⟨h, _⟩ := hb
      · exact h.oneFilling
      · exact ⟨hop, .inl hes⟩
      · exact absurd hn h
  | cons st sts ih =>
    rw [retireStamps]
    split
    next ho => exact keepRetired_stoppingOk ho hl (hb.elim (fun h => .inr h.bandsInOrder) fun h =>
        h.elim (fun h => .inl ⟨h.1, h.2.1⟩) fun h => .inr h.2)
    next ho =>
      have hn : s.port.offering = none := by simpa using ho
      obtain h | ⟨h, _⟩ | ⟨h, _⟩ := hb
      · have next : (missLine st s).intake.nextLine = st.line + 1 := takeLine_nextLine _ _
        rw [← hl.head] at h
        refine ih (hl.tail (by rw [next, hl.head]) (by simp)) (.inl ?_)
        rw [next]
        exact (missLine_through s h).2
      · cases h
      · exact absurd hn h

/-- R102: once no close waits, the SCORED bands have closed in STOPPING. -/
theorem closingTest_stoppingAt {s : State} {n hs : Nat} (hop : s.bus.op = .stopping)
    (hb : BandsInOrder n hs s.table.entries) (hn : (closingTest s).port.offering = none) :
    StoppingAt n (closingTest s) := by
  obtain ⟨closed, h⟩ := closingTest_closesInTurn s
  obtain ⟨c, hc⟩ := hb.consecutive
  obtain ⟨scored, _, hscored, _, _, hes⟩ := hb
  refine ⟨by rw [closingTest_bus, hop], ?_⟩
  split
  next h0 =>
    rw [if_pos h0] at hes
    exact closesInTurn_stopping s (rest := []) h hop (by rw [hes, List.append_nil]) hc hscored (List.forall_mem_nil _) hn
  next h0 =>
    rw [if_neg h0] at hes
    obtain ⟨f, hes, hfill, hband⟩ := hes
    refine ⟨f, closesInTurn_stopping s h hop hes hc hscored (fun e he => ?_) hn, hfill, hband⟩
    rw [List.mem_singleton.1 he]
    exact hfill

/-- R14, R98, R102: what is due at the Band Table in STOPPING. -/
theorem windUp_stoppingOk {l : List Stamp} {s : State} (hop : s.bus.op = .stopping) (hl : StampsFrom s l)
    (hb : (l = [] ∧ s.table.entries = []) ∨ BandsInOrder s.intake.nextLine s.ctl.cfg.hs s.table.entries) :
    StoppingOk (windUp l s) := by
  rw [windUp, if_pos hop]
  refine retireStamps_stoppingOk (hl.congr (by simp) (by simp)) ?_
  obtain ⟨h, hes⟩ | hb := hb
  · rw [closingTest_of_no_entries hes]
    exact .inr (.inl ⟨h, hes, hop⟩)
  · rw [closingTest_intake, closingTest_ctl]
    cases hn : (closingTest s).port.offering with
    | none => exact .inl (closingTest_stoppingAt hop hb hn)
    | some o => exact .inr (.inr ⟨nofun, closingTest_bandsInOrder hb⟩)

theorem retireStamps_op (l : List Stamp) (s : State) : (retireStamps l s).bus.op = s.bus.op := by
  induction l generalizing s with
  | nil =>
    rw [retireStamps]
    split
    · rw [keepRetired_bus]
    · unfold scoreFilling
      split
      · rfl
      · exact scoreBand_op _ _
  | cons st sts ih =>
    rw [retireStamps]
    split
    · rw [keepRetired_bus]
    · rw [ih]
      exact takeLine_op _ _

@[simp] theorem windUp_op (l : List Stamp) (s : State) : (windUp l s).bus.op = s.bus.op := by
  unfold windUp
  split
  · rw [retireStamps_op, closingTest_bus]
  · rw [closingTest_bus]

end Sys2Proof.Machine
end

section
/-! Chapters 2, 6 and 7 of the manual: the order of lines, stamps and open bands holds on (R20, R89, R99, R102), and
offers of a close are to come in a run alone (R126, R131). -/

namespace Sys2Proof.Machine

/-! ## The operating states -/

/-- R102, R103: outside a run no stamp is pending and no band is open. -/
theorem RunOk.resting {s : State} (h : RunOk s) (hop : ¬ inRun s) : s.encoder.stamps = [] ∧ s.table.entries = [] := by
  obtain ⟨_, _, h⟩ := h
  split at h
  next heq => exact absurd (.inl heq) hop
  next heq => exact absurd (.inr heq) hop
  all_goals exact h

theorem RunOk.running {s : State} (h : RunOk s) (hop : s.bus.op = .running) :
    StampsFrom s s.encoder.stamps ∧ BandsInOrder s.intake.nextLine s.ctl.cfg.hs s.table.entries := by
  obtain ⟨_, _, h⟩ := h
  rwa [hop] at h

theorem RunOk.stopping {s : State} (h : RunOk s) (hop : s.bus.op = .stopping) :
    s.encoder.stamps = [] ∧ StoppingOk s := by
  obtain ⟨_, _, h⟩ := h
  rwa [hop] at h

section
variable {s : State} (hs : s.bus.op ≠ .unconfigured → 2 ≤ s.ctl.cfg.hs ∧ s.ctl.cfg.hs ≤ 6)
  (phase : ∀ a, s.ctl.phase = .busy (.configure a) → s.bus.op = .unconfigured ∨ s.bus.op = .idle)
include hs phase

theorem runOk_of_resting (hop : ¬ inRun s) (hst : s.encoder.stamps = []) (hes : s.table.entries = []) : RunOk s := by
  refine ⟨hs, phase, ?_⟩
  split
  next heq => exact absurd (.inl heq) hop
  next heq => exact absurd (.inr heq) hop
  all_goals exact ⟨hst, hes⟩

theorem runOk_of_running (hop : s.bus.op = .running) (hst : StampsFrom s s.encoder.stamps)
    (hes : BandsInOrder s.intake.nextLine s.ctl.cfg.hs s.table.entries) : RunOk s := by
  refine ⟨hs, phase, ?_⟩
  rw [hop]
  exact ⟨hst, hes⟩

theorem runOk_of_stopping (hop : s.bus.op = .stopping) (hst : s.encoder.stamps = []) (h : StoppingOk s) : RunOk s := by
  refine ⟨hs, phase, ?_⟩
  rw [hop]
  exact ⟨hst, h⟩

end

theorem StoppingOk.congr {s t : State} (hc : t.encoder.lineCounter = s.encoder.lineCounter)
    (hn : t.intake.nextLine = s.intake.nextLine) (he : SameBands s.table.entries t.table.entries)
    (ho : t.port.offering = s.port.offering) (hcfg : t.ctl.cfg = s.ctl.cfg) (h : StoppingOk s) : StoppingOk t := by
  have none_of : s.table.entries = [] → t.table.entries = [] := fun hes =>
    List.length_eq_zero_iff.1 (he.length.trans (congrArg List.length hes))
  obtain ⟨hnone, hsome⟩ := h
  rw [← ho] at hnone
  refine ⟨fun hn => none_of (hnone hn), fun o hoff => ?_⟩
  obtain ⟨hst, hes⟩ := hsome o (ho ▸ hoff)
  refine ⟨hst.congr hn hc, hes.imp (fun h => ⟨h.1, none_of h.2⟩) fun h => ?_⟩
  rw [hn, hcfg]
  exact h.of_sameBands he

/-- `RunOk` looks at the operating state, the stamps, the line numbers, the open bands, the offers to come and
CONFIGURE alone. -/
theorem RunOk.congr {s t : State} (h : RunOk s) (hop : t.bus.op = s.bus.op) (hst : t.encoder.stamps = s.encoder.stamps)
    (hc : t.encoder.lineCounter = s.encoder.lineCounter) (hn : t.intake.nextLine = s.intake.nextLine)
    (he : SameBands s.table.entries t.table.entries) (ho : t.port.offering = s.port.offering)
    (hcfg : t.ctl.cfg = s.ctl.cfg)
    (phase : ∀ a, t.ctl.phase = .busy (.configure a) → s.ctl.phase = .busy (.configure a) ∨ configurable s = true) :
    RunOk t := by
  have range : t.bus.op ≠ .unconfigured → 2 ≤ t.ctl.cfg.hs ∧ t.ctl.cfg.hs ≤ 6 := by
    rw [hop, hcfg]
    exact h.1
  have phase : ∀ a, t.ctl.phase = .busy (.configure a) → t.bus.op = .unconfigured ∨ t.bus.op = .idle := by
    intro a ha
    rw [hop]
    obtain hs | hs := phase a ha
    · exact h.2.1 a hs
    · simpa [configurable] using hs
  by_cases hrun : inRun s
  · obtain hr | hr := hrun
    · obtain ⟨hstamps, hes⟩ := h.running hr
      refine runOk_of_running range phase (hop.trans hr) (hst ▸ hstamps.congr hn hc) ?_
      rw [hn, hcfg]
      exact hes.of_sameBands he
    · obtain ⟨hstamps, hes⟩ := h.stopping hr
      exact runOk_of_stopping range phase (hop.trans hr) (hst.trans hstamps) (hes.congr hc hn he ho hcfg)
  · obtain ⟨hstamps, hes⟩ := h.resting hrun
    refine runOk_of_resting range phase (by rwa [inRun, hop]) (hst.trans hstamps) ?_
    exact List.length_eq_zero_iff.1 (he.length.trans (congrArg List.length hes))

theorem SameBands.refl (es : List Entry) : SameBands es es := rfl

/-! ## Line events -/

/-- R20: the line of the oldest stamp goes through the station, and its stamp off the queue. -/
theorem RunOk.lineTaken {s u : State} {oldest : Stamp} {rest : List Stamp} {ev : LineEvent} (h : RunOk s)
    (hcons : s.encoder.stamps = oldest :: rest) (hline : ev.line = oldest.line)
    (henc : u.encoder = { s.encoder with stamps := rest })
    (hes : u.table.entries = s.table.entries) (hbus : u.bus = s.bus) (hctl : u.ctl = s.ctl) :
    s.bus.op = .running ∧ RunOk (takeLine ev u) := by
  have hop : s.bus.op = .running := by
    by_cases hrun : inRun s
    · obtain hr | hr := hrun
      · exact hr
      · rw [(h.stopping hr).1] at hcons
        cases hcons
    · rw [(h.resting hrun).1] at hcons
      cases hcons
  obtain ⟨hst, hbands⟩ := h.running hop
  rw [hcons] at hst
  have next : (takeLine ev u).intake.nextLine = s.intake.nextLine + 1 := by
    rw [takeLine_nextLine, hline, hst.head]
  have op : (takeLine ev u).bus.op = .running := by rw [takeLine_op, hbus, hop]
  refine ⟨hop, runOk_of_running ?_ ?_ op ?_ ?_⟩
  · rw [op, takeLine_ctl, hctl]
    exact fun _ => h.1 (by rw [hop]; nofun)
  · rw [takeLine_ctl, hctl]
    intro a ha
    have := h.2.1 a ha
    rw [hop] at this
    exact this.elim nofun nofun
  · rw [takeLine_encoder, henc]
    refine hst.tail next ?_
    rw [takeLine_encoder, henc]
  · rw [next, takeLine_ctl, ← hst.head, ← hline]
    refine takeLine_bandsInOrder ?_
    rwa [hes, hctl, hline, hst.head]

/-- R12: with the oldest stamp dropped there is room for another. -/
theorem makeRoom_runOk {s : State} (h : RunOk s) :
    RunOk (makeRoom s) ∧ (s.bus.op = .running → (makeRoom s).encoder.stamps.length ≤ 3) := by
  unfold makeRoom
  split
  next h4 =>
    split
    next hnil =>
      rw [hnil] at h4
      cases h4
    next oldest rest hcons =>
      obtain ⟨hop, ok⟩ := h.lineTaken (u := bump .stampOverflows (s.updEncoder fun c => { c with stamps := rest }))
        (ev := lineEventOf oldest false [] false _) hcons rfl rfl rfl rfl rfl
      refine ⟨ok, fun _ => ?_⟩
      have := (h.running hop).1.1
      rw [hcons, List.length_cons] at this
      rw [missLine_encoder]
      exact Nat.le_of_succ_le_succ this
  next h4 => exact ⟨h, fun _ => by omega⟩

/-- R7, R8: a trigger of a unit with room for its stamp. -/
theorem StampsFrom.triggered {s : State} (h : StampsFrom s s.encoder.stamps) (hlen : s.encoder.stamps.length ≤ 3) :
    StampsFrom (s.updEncoder Encoder.triggered) s.encoder.triggered.stamps := by
  obtain ⟨_, hline, hcount⟩ := h
  refine ⟨by simp [Encoder.triggered]; omega, fun i hi => ?_, by simp [Encoder.triggered]; omega⟩
  simp only [Encoder.triggered, List.length_append, List.length_singleton] at hi ⊢
  rcases Nat.lt_or_ge i s.encoder.stamps.length with hlt | hge
  · rw [List.getElem_append_left hlt]
    exact hline i hlt
  · rw [List.getElem_append_right hge]
    simp only [List.getElem_singleton]
    change s.encoder.lineCounter = s.intake.nextLine + i
    omega

@[simp] theorem makeRoom_op (s : State) : (makeRoom s).bus.op = s.bus.op := by
  unfold makeRoom
  split
  · split
    · rfl
    · exact takeLine_op _ _
  · rfl

theorem trigger_op (s : State) : (trigger s).bus.op = s.bus.op := makeRoom_op _

theorem trigger_runOk {s : State} (hop : s.bus.op = .running) (h : RunOk s) : RunOk (trigger s) := by
  have emitted : RunOk (emit .linePulse s) := h.congr rfl rfl rfl rfl rfl rfl rfl fun _ => .inl
  obtain ⟨ok, room⟩ := makeRoom_runOk emitted
  have hopr : (makeRoom (emit .linePulse s)).bus.op = .running := (makeRoom_op _).trans hop
  obtain ⟨hst, hes⟩ := ok.running hopr
  exact runOk_of_running ok.1 ok.2.1 hopr (hst.triggered (room hop)) hes

theorem forwardAdvance_op (s : State) : (forwardAdvance s).bus.op = s.bus.op := by
  unfold forwardAdvance
  split
  · dsimp only
    split
    · rfl
    · exact trigger_op _
  · rfl

theorem encoderInputs_op (p : ChannelPair) (s : State) : (encoderInputs p s).bus.op = s.bus.op := by
  unfold encoderInputs
  split
  · rfl
  split
  · dsimp only [forwardStep]
    split
    · exact forwardAdvance_op _
    · rfl
  split
  · dsimp only [reverseStep]
    split <;> rfl
  · rfl

theorem RunOk.withEncoder {s : State} {c : Encoder} (h : RunOk s) (hst : c.stamps = s.encoder.stamps)
    (hc : c.lineCounter = s.encoder.lineCounter) : RunOk { s with encoder := c } :=
  h.congr rfl hst hc rfl rfl rfl rfl fun _ => .inl

theorem RunOk.bump {s : State} (h : RunOk s) (c : Counter) : RunOk (bump c s) :=
  h.congr rfl rfl rfl rfl rfl rfl rfl fun _ => .inl

theorem encoderInputs_runOk {s : State} (p : ChannelPair) (h : RunOk s) : RunOk (encoderInputs p s) := by
  unfold encoderInputs
  split
  · exact h
  split
  · dsimp only [forwardStep]
    split
    next hrun =>
      dsimp only [forwardAdvance]
      split
      · split
        · exact h.withEncoder rfl rfl
        · exact trigger_runOk hrun.1 (h.withEncoder rfl rfl)
      · exact h.withEncoder rfl rfl
    · exact h.withEncoder rfl rfl
  split
  · dsimp only [reverseStep]
    split
    · exact RunOk.bump (h.withEncoder rfl rfl) .reverseSteps
    · exact h.withEncoder rfl rfl
  · exact RunOk.bump (h.withEncoder rfl rfl) .encoderGlitches

theorem lineArrives_runOk {s : State} (pixels : List Byte) (h : RunOk s) :
    RunOk (lineArrives pixels s) ∧ (lineArrives pixels s).bus.op = s.bus.op ∧
      (s.bus.op ≠ .running → (lineArrives pixels s).port.offering = s.port.offering) := by
  unfold lineArrives
  split
  · exact ⟨h.congr rfl rfl rfl rfl rfl rfl rfl fun _ => .inl, rfl, fun _ => rfl⟩
  next oldest rest hcons =>
    have taken : ∀ (u : State) (ev : LineEvent), ev.line = oldest.line →
        u.encoder = { s.encoder with stamps := rest } → u.table.entries = s.table.entries → u.bus = s.bus →
        u.ctl = s.ctl → RunOk (takeLine ev u) ∧ (takeLine ev u).bus.op = s.bus.op ∧
          (s.bus.op ≠ .running → (takeLine ev u).port.offering = s.port.offering) := by
      intro u ev hline henc hes hbus hctl
      obtain ⟨hop, ok⟩ := h.lineTaken hcons hline henc hes hbus hctl
      exact ⟨ok, (takeLine_op _ _).trans (by rw [hbus]), fun hn => absurd hop hn⟩
    dsimp only [arriveAt]
    split
    · exact taken _ _ rfl rfl rfl rfl rfl
    · exact taken _ _ rfl rfl rfl rfl rfl

/-! ## Summaries, closes and the end of a run -/

theorem closingTest_runOk {s : State} (h : RunOk s) : RunOk (closingTest s) := by
  by_cases hop : s.bus.op = .running
  · obtain ⟨hst, hes⟩ := h.running hop
    refine runOk_of_running ?_ ?_ ?_ ?_ ?_
    · rw [closingTest_bus, closingTest_ctl]; exact h.1
    · rw [closingTest_bus, closingTest_ctl]; exact h.2.1
    · rw [closingTest_bus, hop]
    · rw [closingTest_encoder]
      exact hst.congr (by simp) (by simp)
    · rw [closingTest_intake, closingTest_ctl]
      exact closingTest_bandsInOrder hes
  · have same : closingTest s = s := by
      by_cases hes : s.table.entries = []
      · exact closingTest_of_no_entries hes
      · refine closingTest_of_offering fun ho => ?_
        by_cases hst : s.bus.op = .stopping
        · exact hes ((h.stopping hst).2.1 ho)
        · exact hes (h.resting fun h => h.elim hop hst).2
    rwa [same]

theorem attachSummary_runOk {s : State} (w : Which) (e : Entry) (z : Option Summary) (h : RunOk s) :
    RunOk (attachSummary w e z s) := by
  have set : RunOk (updEntry e.band (Entry.setSide w (sideOf z)) s) :=
    h.congr rfl rfl rfl rfl (sameBands_updEntry fun e => by cases w <;> exact ⟨rfl, rfl⟩) rfl rfl fun _ => .inl
  unfold attachSummary
  split
  · dsimp only
    split
    · exact closingTest_runOk set
    · exact set
  · exact h

theorem placeSummary_runOk {s : State} (w : Which) (m : Nat) (z : Option Summary) (h : RunOk s) :
    RunOk (placeSummary w m z s) := by
  have late : RunOk (bump .summariesLate s) := h.congr rfl rfl rfl rfl rfl rfl rfl fun _ => .inl
  unfold placeSummary placeAt
  split
  · exact late
  · split
    · split
      · exact late
      · exact attachSummary_runOk w _ z h
    · split
      · dsimp only [enterEarly]
        split
        · exact h
        · split <;> cases w <;> exact h.congr rfl rfl rfl rfl rfl rfl rfl fun _ => .inl
      · exact late

theorem takeSummary_runOk {s : State} (sender : StationNo) (m : Half) (level : Byte) (left right : List ZoneCode)
    (h : RunOk s) : RunOk (takeSummary sender m level left right s) := by
  unfold takeSummary
  split
  · exact placeSummary_runOk _ _ _ h
  · exact placeSummary_runOk _ _ _ h
  · exact h

theorem RunOk.not_configuring {s : State} (h : RunOk s) (hop : ¬ s.bus.op = .unconfigured) (hi : ¬ s.bus.op = .idle)
    (a : BitVec 64) : s.ctl.phase ≠ .busy (.configure a) := fun hp => (h.2.1 a hp).elim hop hi

theorem enterStopping_runOk {s : State} (hop : s.bus.op = .running) (h : RunOk s) : RunOk (enterStopping s) := by
  obtain ⟨hst, hes⟩ := h.running hop
  refine runOk_of_stopping (fun _ => ?_) (fun a ha => ?_) (windUp_op _ _) ?_ ?_
  · rw [enterStopping_ctl]
    exact h.1 (by rw [hop]; nofun)
  · rw [enterStopping_ctl] at ha
    exact absurd ha (h.not_configuring (by rw [hop]; nofun) (by rw [hop]; nofun) a)
  · rw [enterStopping, windUp_encoder]
    rfl
  · exact windUp_stoppingOk rfl (hst.congr rfl rfl) (.inr hes)

@[simp] theorem haltRetire_offering (s : State) : (haltRetire s).port.offering = s.port.offering := by
  unfold haltRetire
  split
  · exact retireGrant_offering _ _
  · rfl

theorem returnToIdle_op (s : State) : (returnToIdle s).bus.op = .idle := raiseNow_op _ _ _

theorem returnToIdle_offering (s : State) : (returnToIdle s).port.offering = s.port.offering := raise_offering _ _ _ _

theorem drained_iff {s : State} :
    drained s = true ↔ s.table.entries = [] ∧ s.port.queue = [] ∧ s.port.offering = none := by
  simp [drained, and_assoc]

/-- R126: the end of STOPPING leaves no offer of a close to come. -/
theorem settle_cases (s : State) :
    (settle s = haltRetire s) ∨
      (s.bus.op = .stopping ∧ s.table.entries = [] ∧ s.port.offering = none ∧ settle s = returnToIdle (haltRetire s)) := by
  dsimp only [settle]
  split
  next h =>
    rw [Bool.and_eq_true, Bool.and_eq_true, beq_iff_eq, drained_iff] at h
    obtain ⟨⟨hop, hes, _, hoff⟩, _⟩ := h
    rw [haltRetire_bus] at hop
    rw [haltRetire_table] at hes
    rw [haltRetire_offering] at hoff
    exact .inr ⟨hop, hes, hoff, rfl⟩
  next => exact .inl rfl

theorem settle_runOk {s : State} (h : RunOk s) : RunOk (settle s) := by
  obtain same | ⟨hop, hes, _, same⟩ := settle_cases s
  · rw [same]
    refine h.congr ?_ ?_ ?_ ?_ ?_ ?_ ?_ ?_ <;> simp [SameBands]
    exact fun _ => .inl
  · rw [same]
    refine runOk_of_resting (fun _ => ?_) (fun a ha => .inr (returnToIdle_op _)) ?_ ?_ ?_
    · rw [returnToIdle_ctl, haltRetire_ctl]
      exact h.1 (by rw [hop]; nofun)
    · rw [inRun, returnToIdle_op]
      exact fun h => h.elim nofun nofun
    · rw [returnToIdle_encoder, haltRetire_encoder]
      exact (h.stopping hop).1
    · rw [returnToIdle_table, haltRetire_table, hes]

theorem nextOffer_op (s : State) : (nextOffer s).bus.op = s.bus.op := by
  unfold nextOffer
  split
  · rfl
  · split
    · rw [windUp_op, endOffers_bus]
    · simp

theorem windUp_of_not_stopping {s : State} (l : List Stamp) (hop : s.bus.op ≠ .stopping) :
    windUp l s = closingTest s := by
  rw [windUp, if_neg hop]

/-- R131: what becomes of the port does not touch the order of the bands outside STOPPING. -/
theorem RunOk.ofPort {s t : State} (h : RunOk s) (hop : s.bus.op ≠ .stopping)
    (same : t = { s with port := t.port, counters := t.counters, outputs := t.outputs }) : RunOk t := by
  by_cases hr : s.bus.op = .running
  · obtain ⟨hst, hes⟩ := h.running hr
    rw [same]
    exact runOk_of_running h.1 h.2.1 hr hst hes
  · have hrun : ¬ inRun s := fun h => h.elim hr hop
    obtain ⟨hst, hes⟩ := h.resting hrun
    rw [same]
    exact runOk_of_resting h.1 h.2.1 hrun hst hes

/-- R131: the offers of a close keep the order of the bands, and what waits for it. -/
theorem nextOffer_runOk {s : State} (h : RunOk s) : RunOk (nextOffer s) := by
  cases ho : s.port.offering with
  | none =>
    rw [nextOffer, ho]
    exact h
  | some o =>
    by_cases ha : o.actions = []
    · have ends : nextOffer s = windUp o.retired (endOffers o s) := by simp [nextOffer, ho, ha]
      rw [ends]
      by_cases hop : s.bus.op = .stopping
      · obtain ⟨hst, _, hsome⟩ := h.stopping hop
        obtain ⟨hret, hes⟩ := hsome o ho
        refine runOk_of_stopping ?_ ?_ ?_ ?_ ?_
        · simpa using h.1
        · simpa using h.2.1
        · simpa using hop
        · simpa using hst
        · refine windUp_stoppingOk (by simpa using hop) (hret.congr (by simp) (by simp)) ?_
          simpa using hes
      · rw [windUp_of_not_stopping _ (by rwa [endOffers_bus])]
        exact closingTest_runOk (h.ofPort hop (endOffers_made s o).keeps)
    · obtain ⟨taken, _, u, done, same⟩ := nextOffer_begun s ho ha
      have keeps := done.keeps
      by_cases hop : s.bus.op = .stopping
      · obtain ⟨hst, _, hsome⟩ := h.stopping hop
        rw [same, keeps]
        refine runOk_of_stopping h.1 h.2.1 hop hst ⟨nofun, fun o' ho' => ?_⟩
        cases ho'
        exact hsome o ho
      · refine h.ofPort hop ?_
        rw [same, keeps]

end Sys2Proof.Machine
end

section
/-! Chapters 2, 6 and 7 of the manual: `RunOk` and `OfferingOk` through every command. -/

namespace Sys2Proof.Machine

/-- R102, R106, R118, R120, R121: the moves of the Span Bus Controller outside a run find no stamp and no band. -/
theorem busMoved_runOk {s : State} {b : SpanBus} (hb : BusMoved s b) (h : RunOk s) : RunOk { s with bus := b } := by
  obtain same | ⟨hs, hop⟩ := hb.op
  · exact h.congr same rfl rfl rfl rfl rfl rfl fun _ => .inl
  · have hrun : ¬ inRun s := by
      obtain ⟨h, _⟩ | h | h := hs <;> rw [inRun, h] <;> exact fun h => h.elim nofun nofun
    obtain ⟨hst, hes⟩ := h.resting hrun
    refine runOk_of_resting (fun _ => h.1 (not_unconfigured_of_startable hs)) (fun a ha => ?_) ?_ hst hes
    · obtain ⟨_, hu⟩ | hs | hs := hs
      · exact absurd ha (hu _)
      · exact absurd ha (h.not_configuring (by rw [hs]; nofun) (by rw [hs]; nofun) a)
      · exact absurd ha (h.not_configuring (by rw [hs]; nofun) (by rw [hs]; nofun) a)
    · change ¬ (b.op = .running ∨ b.op = .stopping)
      obtain hop | hop | hop := hop <;> rw [hop] <;> exact fun h => h.elim nofun nofun

theorem Startable.not_inRun {s : State} (hs : Startable s) : ¬ inRun s := by
  obtain ⟨h, _⟩ | h | h := hs <;> rw [inRun, h] <;> exact fun h => h.elim nofun nofun

/-- R5, R105, R124: a run starts at line 0 with no stamp and no band. -/
theorem epochState_runOk {s : State} (hs : Startable s) (h : RunOk s) : RunOk (epochState s) := by
  refine runOk_of_running (fun _ => h.1 (not_unconfigured_of_startable hs)) (fun a ha => ?_) rfl ?_ ?_
  · obtain ⟨_, hu⟩ | hs | hs := hs
    · exact absurd ha (hu _)
    · exact absurd ha (h.not_configuring (by rw [hs]; nofun) (by rw [hs]; nofun) a)
    · exact absurd ha (h.not_configuring (by rw [hs]; nofun) (by rw [hs]; nofun) a)
  · exact ⟨Nat.zero_le _, nofun, rfl⟩
  · have : (epochState s).table.entries = [] := (h.resting hs.not_inRun).2
    rw [this]
    exact ⟨[], Nat.zero_le _, List.forall_mem_nil _, Nat.zero_le _, trivial, rfl⟩

/-- R171, R174: a configuration comes into force in a station that is in no run. -/
theorem applyConfig_runOk {s : State} {b : BitVec 2048} {new : StationConfig}
    (hp : ∃ a, s.ctl.phase = .busy (.configure a)) (hv : validate b = .accepted new) (h : RunOk s) :
    RunOk (applyConfig new s) := by
  obtain ⟨a, hp⟩ := hp
  have hrun : ¬ inRun s := by
    obtain hop | hop := h.2.1 a hp <;> rw [inRun, hop] <;> exact fun h => h.elim nofun nofun
  obtain ⟨hst, hes⟩ := h.resting hrun
  obtain ⟨_, _, hlow, hhigh⟩ := validate_ranges hv
  refine runOk_of_resting (fun _ => ?_) (fun _ _ => .inr (applyConfig_op _ _)) ?_ ?_ ?_
  · rw [applyConfig_cfg]
    exact ⟨hlow, hhigh⟩
  · rw [inRun, applyConfig_op]
    exact fun h => h.elim nofun nofun
  · rw [applyConfig_encoder, hst]
  · rw [applyConfig_table, hes]

theorem not_inRun_of_unconfigured {s : State} (h : s.bus.op = .unconfigured) : ¬ inRun s := by
  rw [inRun, h]
  exact fun h => h.elim nofun nofun

theorem sameBands_of_table {s t : State} (h : t.table = s.table) : SameBands s.table.entries t.table.entries := by
  rw [h]
  rfl

/-- R27 to R29: a window request leaves the next line. -/
theorem requestWindow_nextLine (first last : Nat) (s : State) :
    (requestWindow first last s).intake.nextLine = s.intake.nextLine := by
  simp only [requestWindow]
  split
  · rfl
  split
  · rfl
  · rw [enterWindow]
    split
    · rfl
    · split <;> rfl

theorem runOk_keptByCommands : KeptByCommands RunOk where
  alike ha h := h.congr (by rw [ha.bus]) (by rw [ha.encoder]) (by rw [ha.encoder]) (by rw [ha.intake])
    (sameBands_of_table ha.table) (by rw [ha.port]) ha.cfg ha.phase
  powered _ _ _ := runOk_of_resting (fun h => absurd rfl h) nofun (not_inRun_of_unconfigured rfl) rfl rfl
  softReset _ := runOk_of_resting (fun h => absurd rfl h) nofun (not_inRun_of_unconfigured rfl) rfl rfl
  requestWindow _ _ h := h.congr (by simp) (by simp) (by simp) (requestWindow_nextLine _ _ _) (sameBands_of_table (by simp)) (by simp)
    (by simp) fun _ ha => .inl (by simpa using ha)
  offerMark _ _ _ h := h.congr (by simp) (by simp) (by simp) (by simp) (sameBands_of_table (by simp)) (by simp)
    (by simp) fun _ ha => .inl (by simpa using ha)
  bus := busMoved_runOk
  hear _ _ h := h.congr rfl rfl rfl rfl rfl rfl rfl fun _ => .inl
  offerFrame _ h := h.congr (by simp) (by simp) (by simp) (by simp) (sameBands_of_table (by simp)) (by simp)
    (by simp) fun _ ha => .inl (by simpa using ha)
  offerEvent _ h := h.congr (by simp) (by simp) (by simp) (by simp) (sameBands_of_table (by simp)) (by simp)
    (by simp) fun _ ha => .inl (by simpa using ha)
  epochState := epochState_runOk
  applyConfig _ _ := applyConfig_runOk
  startLearning h := h.congr rfl rfl rfl rfl rfl rfl rfl fun _ => .inl
  dropLink h := h.congr rfl rfl rfl rfl rfl rfl rfl fun _ => .inl
  linkUp h := h.congr rfl rfl rfl rfl rfl rfl rfl fun _ => .inl
  submitGrant _ h := h.congr rfl rfl rfl rfl rfl rfl rfl fun _ ha => .inl ha
  openGrant _ _ _ _ _ _ h := h.congr (by simp [openGrant]) (by simp [openGrant]) (by simp [openGrant])
    (by simp [openGrant]) (sameBands_of_table (by simp [openGrant])) (by simp [openGrant]) (by simp [openGrant])
    fun _ ha => .inl (by simpa [openGrant] using ha)
  writeHead _ _ _ _ _ _ h := h.congr (by simp) (by simp) (by simp) (by simp) (sameBands_of_table (by simp)) (by simp)
    (by simp) fun _ ha => .inl (by simpa using ha)
  retireGrant _ h := h.congr (by simp) (by simp) (by simp) (by simp) (sameBands_of_table (by simp)) (by simp)
    (by simp) fun _ ha => .inl (by simpa using ha)
  tickGrant _ _ _ h := h.congr rfl rfl rfl rfl rfl rfl rfl fun _ => .inl
  finaliseStep _ _ h := h.congr (by simp) (by simp) (by simp) (by simp) (sameBands_of_table (by simp)) (by simp)
    (by simp) fun _ ha => .inl (by simpa using ha)
  encoderInputs := encoderInputs_runOk
  lineArrives pixels h := (lineArrives_runOk pixels h).1
  takeSummary _ _ _ _ _ _ := takeSummary_runOk _ _ _ _ _
  enterStopping := enterStopping_runOk
  settle := settle_runOk
  nextOffer := nextOffer_runOk

/-! ## The offers to come -/

/-- A run that goes on may have offers to come, and outside one there are none still. -/
theorem OfferingOk.congr {s t : State} (h : OfferingOk s) (hop : t.bus.op = s.bus.op)
    (ho : ¬ inRun s → t.port.offering = s.port.offering) : OfferingOk t := by
  intro hn
  rw [inRun, hop]
  by_cases hrun : inRun s
  · exact hrun
  · exact h (ho hrun ▸ hn)

theorem OfferingOk.none {s : State} (h : OfferingOk s) (hop : ¬ inRun s) : s.port.offering = none :=
  Classical.byContradiction fun hn => hop (h hn)

theorem offeringOk_of_none {s : State} (h : s.port.offering = none) : OfferingOk s := fun hn => absurd h hn

theorem applyConfig_offering (new : StationConfig) (s : State) :
    (applyConfig new s).port.offering = s.port.offering := by
  rw [applyConfig, endDone_eq]
  simp [refreshGrants, setOp]

/-- R126: with offers to come a run goes on. -/
theorem settle_offeringOk {s : State} (h : OfferingOk s) : OfferingOk (settle s) := by
  obtain same | ⟨_, _, hoff, same⟩ := settle_cases s
  · rw [same]
    exact h.congr (by simp) fun _ => by simp
  · refine offeringOk_of_none ?_
    rw [same, returnToIdle_offering, haltRetire_offering, hoff]

/-- R3: without a run no trigger is issued. -/
theorem encoderInputs_offering {s : State} (p : ChannelPair) (hop : s.bus.op ≠ .running) :
    (encoderInputs p s).port.offering = s.port.offering := by
  unfold encoderInputs
  split
  · rfl
  split
  · dsimp only [forwardStep]
    rw [if_neg fun h => hop h.1]
    rfl
  split
  · dsimp only [reverseStep]
    rw [if_neg hop]
    rfl
  · rfl

theorem nextOffer_offeringOk {s : State} (h : OfferingOk s) : OfferingOk (nextOffer s) := by
  refine h.congr (nextOffer_op s) fun hrun => ?_
  have hn := h.none hrun
  rw [nextOffer, hn]
  exact hn

theorem runOfferingOk_keptByCommands : KeptByCommands fun s => RunOk s ∧ OfferingOk s where
  alike ha h := ⟨runOk_keptByCommands.alike ha h.1, h.2.congr (by rw [ha.bus]) fun _ => by rw [ha.port]⟩
  powered st inp h := ⟨runOk_keptByCommands.powered st inp h.1, offeringOk_of_none rfl⟩
  softReset h := ⟨runOk_keptByCommands.softReset h.1, offeringOk_of_none rfl⟩
  requestWindow start hrun h :=
    ⟨runOk_keptByCommands.requestWindow start hrun h.1, h.2.congr (by simp) fun _ => by simp⟩
  offerMark start source hrun h :=
    ⟨runOk_keptByCommands.offerMark start source hrun h.1, h.2.congr (by simp) fun _ => by simp⟩
  bus hb h := by
    refine ⟨runOk_keptByCommands.bus hb h.1, ?_⟩
    obtain same | ⟨hs, _⟩ := hb.op
    · exact h.2.congr same fun _ => rfl
    · exact offeringOk_of_none (h.2.none hs.not_inRun)
  hear x hnew h := ⟨runOk_keptByCommands.hear x hnew h.1, h.2.congr rfl fun _ => rfl⟩
  offerFrame f h := ⟨runOk_keptByCommands.offerFrame f h.1, h.2.congr (by simp) fun _ => by simp⟩
  offerEvent e h := ⟨runOk_keptByCommands.offerEvent e h.1, h.2.congr (by simp) fun _ => by simp⟩
  epochState hs h := ⟨runOk_keptByCommands.epochState hs h.1, offeringOk_of_none (h.2.none hs.not_inRun)⟩
  applyConfig b new hp hv h := by
    refine ⟨runOk_keptByCommands.applyConfig b new hp hv h.1, offeringOk_of_none ?_⟩
    obtain ⟨a, hp⟩ := hp
    rw [applyConfig_offering]
    refine h.2.none ?_
    obtain hop | hop := h.1.2.1 a hp <;> rw [inRun, hop] <;> exact fun h => h.elim nofun nofun
  startLearning h := ⟨runOk_keptByCommands.startLearning h.1, h.2.congr rfl fun _ => rfl⟩
  dropLink h := ⟨runOk_keptByCommands.dropLink h.1, h.2.congr rfl fun _ => rfl⟩
  linkUp h := ⟨runOk_keptByCommands.linkUp h.1, h.2.congr rfl fun _ => rfl⟩
  submitGrant tag h := ⟨runOk_keptByCommands.submitGrant tag h.1, h.2.congr rfl fun _ => rfl⟩
  openGrant g r more rest hq hf h :=
    ⟨runOk_keptByCommands.openGrant g r more rest hq hf h.1, h.2.congr (by simp [openGrant]) fun _ => by simp [openGrant]⟩
  writeHead g r rest hq hg hsize h :=
    ⟨runOk_keptByCommands.writeHead g r rest hq hg hsize h.1, h.2.congr (by simp) fun _ => by simp⟩
  retireGrant flag h := ⟨runOk_keptByCommands.retireGrant flag h.1, h.2.congr (by simp) fun _ => by simp⟩
  tickGrant g n hg h := ⟨runOk_keptByCommands.tickGrant g n hg h.1, h.2.congr rfl fun _ => rfl⟩
  finaliseStep m hm h := ⟨runOk_keptByCommands.finaliseStep m hm h.1, h.2.congr (by simp) fun _ => by simp⟩
  encoderInputs p h := by
    refine ⟨runOk_keptByCommands.encoderInputs p h.1, h.2.congr (encoderInputs_op p _) fun hrun => ?_⟩
    exact encoderInputs_offering p (fun hop => hrun (.inl hop))
  lineArrives pixels h := by
    obtain ⟨ok, op, off⟩ := lineArrives_runOk pixels h.1
    exact ⟨ok, h.2.congr op fun hrun => off fun hop => hrun (.inl hop)⟩
  takeSummary sender m level left right hrun h :=
    ⟨runOk_keptByCommands.takeSummary sender m level left right hrun h.1, h.2.congr (by simp) fun hn => absurd hrun hn⟩
  enterStopping hop h :=
    ⟨runOk_keptByCommands.enterStopping hop h.1, fun _ => .inr (windUp_op _ _)⟩
  settle h := ⟨runOk_keptByCommands.settle h.1, settle_offeringOk h.2⟩
  nextOffer h := ⟨runOk_keptByCommands.nextOffer h.1, nextOffer_offeringOk h.2⟩

/-- Settles O57: every part of a command keeps the stamps from the next line up to the line counter and the open bands
in order below it, in RUNNING by `takeLine_bandsInOrder`, in STOPPING by `windUp_stoppingOk`. -/
theorem stepKeepsRun : Obligations.StepKeepsRun := by
  intro s t h hstep
  have ok := runOk_keptByCommands.step h hstep
  exact ⟨ok, fun hop => (ok.running hop).2.length_le, fun ho => (runOfferingOk_keptByCommands.step ⟨h, ho⟩ hstep).2⟩

end Sys2Proof.Machine
end

section
/-! Chapter 1 of the manual, the tick and reset: what a step carries out, the encoder step with and without a
trigger (R1, R3, R7, R8), power-on and RESET (R16, R183, R184). -/

namespace Sys2Proof.Machine

/-! ## The queue of commands and the tick -/

theorem step_of_pending {s : State} {c : Instr} {rest : List Instr} (h : s.pending = c :: rest) :
    step s = exec c { s with pending := rest } := by
  rw [step, h]

theorem step_of_offering {s : State} {o : Offering} (hp : s.pending = []) (ho : s.port.offering = some o) :
    step s = .next (nextOffer s) := by
  rw [step, hp]
  simp only [idleStep, ho]

theorem step_of_tick {s : State} (hp : s.pending = []) (ho : s.port.offering = none) :
    step s = .next (tickFlush (tickEnrollment s)) := by
  rw [step, hp]
  simp only [idleStep, ho, tick]

theorem exec_enrollmentWindowExpiry {s : State} (hop : s.bus.op = .enrolling) :
    exec .enrollmentWindowExpiry s = .next (expireWindow s) :=
  congrArg Host.Outcome.next (if_pos hop)

theorem exec_grantFlush {s : State} {g : OpenGrant} (hg : s.port.grant = some g) :
    exec .grantFlushTimerExpiry s = .next (flushExpired s) :=
  congrArg Host.Outcome.next (if_pos (by rw [hg]; rfl))

/-- R118, R120: the enrollment timer counts down in ENROLLING, and at 0 the window expires. -/
theorem tickEnrollment_expired {s : State} {n : Nat} (hop : s.bus.op = .enrolling) (ht : s.bus.timer = some n)
    (hn : n ≤ 1) : tickEnrollment s = expireWindow s := by
  simp only [tickEnrollment, hop, ht, if_pos hn]

theorem tickEnrollment_running {s : State} (h : s.bus.op = .enrolling → ∀ n, s.bus.timer = some n → 2 ≤ n) :
    tickEnrollment s = { s with bus := { s.bus with
      timer := if s.bus.op = .enrolling then s.bus.timer.map (· - 1) else s.bus.timer } } := by
  unfold tickEnrollment
  split
  next n hop ht =>
    have := h hop n ht
    rw [if_neg (by omega), if_pos hop, ht]
    rfl
  next hnot =>
    by_cases hop : s.bus.op = .enrolling
    · rw [if_pos hop]
      cases ht : s.bus.timer with
      | none => rw [Option.map_none, ← ht]
      | some n => exact absurd ht (hnot n hop)
    · rw [if_neg hop]

/-- Settles O1: by what `step` does with the queue's front, the next offer and the tick. -/
theorem stepRunsFrontCommand : Obligations.StepRunsFrontCommand := by
  intro s
  refine ⟨fun c rest => step_of_pending, fun o hp ho => ⟨nextOffer s, step_of_offering hp ho, ?_⟩, fun hp ho => ?_⟩
  · exact ⟨nextOffer_ended s ho, nextOffer_begun s ho⟩
  · refine ⟨tickEnrollment s, ?_, tickEnrollment_running, ?_, ?_⟩
    · rintro hop ⟨n, ht, hn⟩
      rw [tickEnrollment_expired hop ht hn]
      exact exec_enrollmentWindowExpiry hop
    · rintro ⟨g, hg, ht⟩
      rw [step_of_tick hp ho, exec_grantFlush hg, tickFlush, hg]
      exact congrArg Host.Outcome.next (if_pos ht)
    · intro h
      rw [step_of_tick hp ho, tickFlush]
      split
      next hg => rw [hg, Option.map_none, ← hg]
      next g hg =>
        have := h g hg
        rw [if_neg (by omega), hg]
        rfl

/-! ## Reset and power -/

/-- Settles O2: the state after reset, written out. -/
theorem resetValues : Obligations.ResetValues := by
  refine ⟨rfl, rfl, rfl, rfl, rfl, rfl, rfl, rfl, ?_, fun k => ?_, rfl, rfl, rfl, rfl, rfl, rfl⟩
  · decide +kernel
  · cases k <;> rfl

theorem exec_reset (s : State) (hu : Unoccupied s) : exec .reset s = .next (endDone (softReset
    { s with ctl := { s.ctl with code := 7, commandLost := false } })) := by
  obtain ⟨_, _, _, accepted⟩ := submit_cases s 7 true true fun t => endDone (softReset t)
  exact congrArg Host.Outcome.next (accepted hu rfl rfl)

/-- Settles O3: POWER_ON and an accepted RESET, written out. -/
theorem powerOnAndReset : Obligations.PowerOnAndReset := by
  refine ⟨fun n p s => rfl, fun s hu => ?_⟩
  rw [exec_reset s hu, endDone_eq]
  rfl

/-- Settles O59: after reset every list is empty and every count is 0. -/
theorem resetIsSound : Obligations.ResetIsSound := by
  refine ⟨EncoderOk.of_fresh rfl rfl rfl, ⟨windowsCanonical_nil, fun h => absurd rfl h⟩, ?_, ?_, reset_dramOk, ?_, ?_, ?_,
    runOk_of_resting (fun h => absurd rfl h) nofun (not_inRun_of_unconfigured rfl) rfl rfl, offeringOk_of_none rfl,
    ?_, ?_⟩
  · exact ⟨Nat.zero_le _, .nil, fun _ => .nil⟩
  · exact ⟨by decide, by decide, fun h => absurd rfl h, fun h => absurd h (not_inRun_of_unconfigured rfl)⟩
  · exact ⟨by decide, .nil, nofun⟩
  · exact List.nodup_nil
  · exact ⟨⟨by decide, .nil⟩, by decide, .nil⟩
  · exact Nat.zero_le _
  · exact ⟨by decide, nofun, nofun, rfl⟩

/-! ## The encoder step -/

theorem mem_forwardCycle_iff (q p : ChannelPair) : (q, p) ∈ forwardCycle ↔ p = nextForward q := by
  obtain ⟨a, b⟩ := q
  obtain ⟨c, d⟩ := p
  revert a b c d
  decide

/-- R1: the next pair of the cycle is neither the pair itself nor the one before it. -/
theorem nextForward_ne (q : ChannelPair) : nextForward q ≠ q ∧ nextForward (nextForward q) ≠ q := by
  obtain ⟨a, b⟩ := q
  revert a b
  decide

theorem encoderInputs_forward {p : ChannelPair} {s : State} (h : (s.encoder.pair, p) ∈ forwardCycle) :
    encoderInputs p s = forwardStep p s := by
  have hp := (mem_forwardCycle_iff _ _).1 h
  rw [encoderInputs, if_neg (hp ▸ (nextForward_ne _).1), if_pos hp]

theorem encoderInputs_reverse {p : ChannelPair} {s : State} (h : (p, s.encoder.pair) ∈ forwardCycle) :
    encoderInputs p s = reverseStep p s := by
  have hp := (mem_forwardCycle_iff _ _).1 h
  rw [encoderInputs, if_neg, if_neg, if_pos hp]
  · rw [hp]
    exact (nextForward_ne p).2.symm
  · rw [hp]
    exact (nextForward_ne p).1.symm

/-- R1, R3: a forward advance is a forward step in RUNNING from E = H. -/
theorem forwardStep_advance {p : ChannelPair} {s : State} (hop : s.bus.op = .running) (he : s.encoder.e = s.encoder.high) :
    forwardStep p s = forwardAdvance (s.updEncoder fun c => { c with pair := p, e := c.e + 1 }) := by
  dsimp only [forwardStep]
  rw [if_pos ⟨hop, congrArg (· + 1) he⟩]

theorem forwardStep_only {p : ChannelPair} {s : State} (h : ¬ (s.bus.op = .running ∧ s.encoder.e = s.encoder.high)) :
    forwardStep p s = s.updEncoder fun c => { c with pair := p, e := c.e + 1 } := by
  dsimp only [forwardStep]
  refine if_neg fun ⟨hop, he⟩ => h ⟨hop, ?_⟩
  exact add_right_cancel he

/-- Settles O5: the cases of `encoderInputs` that issue no trigger, each written out. -/
theorem encoderStepWithoutTrigger : Obligations.EncoderStepWithoutTrigger := by
  intro p s
  simp only [exec_encoderStep]
  refine ⟨fun h => ?_, fun h => ?_, fun h hnot => ?_, fun h hop he hd => ?_, fun h hop he hd hl => ?_⟩
  · rw [encoderInputs, if_pos h]
  · rw [encoderInputs_reverse h]
    dsimp only [reverseStep]
    split <;> rfl
  · rw [encoderInputs_forward h, forwardStep_only hnot]
    rfl
  · rw [encoderInputs_forward h, forwardStep_advance hop he, forwardAdvance, if_neg (by exact hd)]
    rfl
  · rw [encoderInputs_forward h, forwardStep_advance hop he, forwardAdvance, if_pos (by exact hd)]
    exact congrArg Host.Outcome.next (if_pos hl)

/-- R7, R8: the trigger of a unit with room for its stamp, written out. -/
theorem trigger_eq {s : State} (h : s.encoder.stamps.length < 4) : trigger s = { s with
    encoder := s.encoder.triggered
    counters := { s.counters with linesTriggered := satInc s.counters.linesTriggered }
    outputs := s.outputs ++ [.linePulse] } := by
  rw [trigger, makeRoom, if_neg (by exact Nat.not_le.2 h)]
  rfl

/-- Settles O6: the forward advance that completes D, with room for its stamp. -/
theorem encoderTrigger : Obligations.EncoderTrigger := by
  intro p s h hop he hd hl hlen
  rw [exec_encoderStep, encoderInputs_forward h, forwardStep_advance hop he, forwardAdvance, if_pos (by exact hd)]
  dsimp only
  rw [if_neg (by rw [State.updEncoder_encoder, hl]; nofun), trigger_eq (by exact hlen)]
  rfl

end Sys2Proof.Machine
end

section
/-! Chapter 7 of the manual, sections 7.2 to 7.6: the line, arbitration and bit errors (R106, R111, R112), and the
frames that have no effect (R113, R117). -/

namespace Sys2Proof.Machine

/-! ## Local events -/

/-- R151, R155, R179: a local event that is not shared, written out as far as its record goes. -/
theorem raise_eq {code : EventCode} (line : Nat) (data : Word) (s : State) (h : sharedAs code = none) :
    raise code line data s = { s with
      port := { s.port with
        queue := queueAfterEvent code line data s
        grant := (raise code line data s).port.grant
        nextSeq := (raise code line data s).port.nextSeq }
      counters := { s.counters with eventRecordsDropped := droppedAfterEvent code s }
      outputs := (raise code line data s).outputs } := by
  obtain ⟨port, dropped, _⟩ := raise_raised s code line data
  have counters := raise_counters line data s h
  rw [dropped] at counters
  have fields : ∀ t : State, t.encoder = s.encoder → t.intake = s.intake → t.tracker = s.tracker → t.ref = s.ref →
      t.table = s.table → t.bus = s.bus → t.ctl = s.ctl → t.dram = s.dram → t.powerCycles = s.powerCycles →
      t.draws = s.draws → t.pending = s.pending → t.overlap = s.overlap →
      t = { s with port := t.port, counters := t.counters, outputs := t.outputs } := by
    intro t
    cases t
    rintro rfl rfl rfl rfl rfl rfl rfl rfl rfl rfl rfl rfl
    rfl
  have same := fields (raise code line data s) (by simp) (by simp) (by simp) (by simp) (by simp)
    (raise_bus s code line data h) (by simp) (by simp) (by simp) (by simp) (by simp) (by simp)
  rwa [port, counters] at same

/-! ## Starting a frame -/

theorem mayStart_iff (s : State) : mayStart s = true ↔
    busEnabled s = true ∧ s.bus.idle = 11 ∧ s.bus.reception = none ∧ s.bus.onLine = none := by
  simp [mayStart, lineIsIdle, and_assoc]

theorem exec_lineIdle (s : State) : exec .lineIdle s =
    .next (if busEnabled s = true ∧ s.bus.reception = none then s.updBus fun b => { b with idle := 11 } else s) := rfl

theorem exec_frameTransmitStart_nil {s : State} (h : s.bus.queue = []) : exec .frameTransmitStart s = .next s := by
  change execFrameTransmitStart s = _
  simp only [execFrameTransmitStart, h]

theorem exec_frameTransmitStart_cons {s : State} {t : TxFrame} {rest : List TxFrame} (h : s.bus.queue = t :: rest) :
    exec .frameTransmitStart s = .next (if mayStart s = true then startHead t.frame s else s) := by
  change execFrameTransmitStart s = _
  simp only [execFrameTransmitStart, h]

/-- Settles O13: LINE_IDLE by its condition, FRAME_TRANSMIT_START by what `mayStart` asks. -/
theorem lineIdleAndTransmitStart : Obligations.LineIdleAndTransmitStart := by
  intro s
  refine ⟨fun hb hr => ?_, fun h => ?_, fun head rest hq hb hi hr ho => ?_, fun h => ?_⟩
  · rw [exec_lineIdle, if_pos ⟨hb, hr⟩]
    rfl
  · rw [exec_lineIdle, if_neg]
    rintro ⟨hb, hr⟩
    exact h.elim (fun h => by rw [hb] at h; cases h) fun h => h hr
  · rw [exec_frameTransmitStart_cons hq, if_pos ((mayStart_iff s).2 ⟨hb, hi, hr, ho⟩)]
    simp only [startHead, State.updBus, hq, markHead]
  · cases hq : s.bus.queue with
    | nil => exact exec_frameTransmitStart_nil hq
    | cons t rest =>
      rw [exec_frameTransmitStart_cons hq, if_neg]
      intro hm
      obtain ⟨hb, hi, hr, ho⟩ := (mayStart_iff s).1 hm
      obtain h | h | h | h | h := h
      · rw [hq] at h; cases h
      · rw [hb] at h; cases h
      · exact h hi
      · exact h hr
      · exact h ho

/-! ## Arbitration -/

theorem exec_arbitrationLost_none {s : State} (n : Nat) (h : s.bus.onLine = none) :
    exec (.arbitrationLost n) s = .next s := by
  change execArbitrationLost n s = _
  simp only [execArbitrationLost, h]

theorem exec_arbitrationLost_some {s : State} {f : Frame} (n : Nat) (h : s.bus.onLine = some f) :
    exec (.arbitrationLost n) s =
      .next (if canLose f n = true then fallBack f n (bump .busArbitrationLosses s) else s) := by
  change execArbitrationLost n s = _
  simp only [execArbitrationLost, h]

theorem canLose_iff (f : Frame) (n : Nat) :
    canLose f n = true ↔ n < 8 ∧ (BitVec.ofNat 8 f.arb).getLsbD (7 - n) = true := by
  rw [canLose, Bool.and_eq_true, decide_eq_true_iff]
  exact and_congr_right fun hn => by rw [bits_arbitration f hn]

/-- Settles O14: a bit sent recessive is one that is set, and the bit read there is dominant. -/
theorem arbitrationLost : Obligations.ArbitrationLost := by
  intro s n
  refine ⟨exec_arbitrationLost_none n, fun f hf => ⟨fun hn hbit => ?_, fun h => ?_⟩⟩
  · rw [exec_arbitrationLost_some n hf, if_pos ((canLose_iff f n).2 ⟨hn, hbit⟩), fallBack, bits_arbitration f hn, hbit]
    rfl
  · rw [exec_arbitrationLost_some n hf, if_neg]
    intro hl
    obtain ⟨hn, hbit⟩ := (canLose_iff f n).1 hl
    obtain h | h := h
    · omega
    · rw [hbit] at h
      cases h

/-! ## Bit errors -/

/-- R111, R112: the station follows the rest of the frame, the frames of its queue waiting. -/
theorem fallBack_eq {s : State} {q : List TxFrame} (f : Frame) (n : Nat)
    (hq : s.bus.queue.map (fun t => { t with sending := false }) = q) :
    fallBack f n s = { s with bus := { s.bus with
      onLine := none
      reception := some (f.bits.take n ++ [!(f.bits.getD n false)])
      queue := q } } := by
  rw [← hq]
  rfl


theorem exec_bitError_none {s : State} (n : Nat) (h : s.bus.onLine = none) : exec (.bitError n) s = .next s := by
  change execBitError n s = _
  simp only [execBitError, h]

theorem exec_bitError_some {s : State} {f : Frame} (n : Nat) (h : s.bus.onLine = some f) :
    exec (.bitError n) s = .next (if canErr f n = true then bitErrorAt f n s else s) := by
  change execBitError n s = _
  simp only [execBitError, h]

theorem canErr_iff (f : Frame) (n : Nat) : canErr f n = true ↔ 8 ≤ n ∧ n < 32 + 8 * f.body.length := by
  simp [canErr, length_bits]

theorem countError_of_waiting {l : List TxFrame} (h : ∀ u ∈ l, u.sending = false) : l.map countError = l := by
  refine (List.map_congr_left fun u hu => ?_).trans (List.map_id l)
  rw [countError, h u hu]
  rfl

theorem notSending_of_waiting {l : List TxFrame} (h : ∀ u ∈ l, u.sending = false) :
    l.map (fun t => { t with sending := false }) = l := by
  refine (List.map_congr_left fun u hu => ?_).trans (List.map_id l)
  obtain ⟨f, errors, sending, age⟩ := u
  have := h _ hu
  cases this
  rfl

theorem worn_of_waiting {l : List TxFrame} (h : ∀ u ∈ l, u.sending = false) : ∀ u ∈ l, worn u = false := by
  intro u hu
  rw [worn, h u hu]
  rfl

/-- R112: a frame that has had fewer than 8 bit errors stays in the queue. -/
theorem dropWorn_of_none {f : Frame} {s : State} (h : ∀ u ∈ s.bus.queue, worn u = false) : dropWorn f s = s := by
  rw [dropWorn, if_neg]
  rw [List.any_eq_true]
  rintro ⟨u, hu, hw⟩
  rw [h u hu] at hw
  cases hw

section
variable {s : State} {before after : List TxFrame} {t : TxFrame} (hq : s.bus.queue = before ++ t :: after)
  (ht : t.sending = true) (hothers : ∀ u ∈ before ++ after, u.sending = false)
include hq ht hothers

/-- R112: a bit error is counted for the frame being sent alone. -/
theorem countError_queue :
    s.bus.queue.map countError = before ++ { t with errors := t.errors + 1 } :: after := by
  rw [hq, List.map_append, List.map_cons, countError_of_waiting fun u hu => hothers u (List.mem_append_left _ hu),
    countError_of_waiting fun u hu => hothers u (List.mem_append_right _ hu), countError, if_pos ht]

/-- R112: the frame stays in the queue while it has had fewer than 8 bit errors. -/
theorem bitErrorAt_kept (f : Frame) (n : Nat) (he : t.errors < 7) : bitErrorAt f n s = { s with
    bus := { s.bus with
      onLine := none
      reception := some (f.bits.take n ++ [!(f.bits.getD n false)])
      queue := before ++ { t with errors := t.errors + 1, sending := false } :: after }
    counters := { s.counters with busBitErrors := satInc s.counters.busBitErrors } } := by
  have hb := fun u hu => hothers u (List.mem_append_left after hu)
  have ha := fun u hu => hothers u (List.mem_append_right before hu)
  have none_worn : ∀ u ∈ before ++ { t with errors := t.errors + 1 } :: after, worn u = false := by
    intro u hu
    obtain hu | hu := List.mem_append.1 hu
    · exact worn_of_waiting hb u hu
    · obtain rfl | hu := List.mem_cons.1 hu
      · rw [worn, Bool.and_eq_false_iff, decide_eq_false_iff_not]
        exact .inr (by simp only; omega)
      · exact worn_of_waiting ha u hu
  rw [bitErrorAt, countError_queue hq ht hothers, dropWorn_of_none (by exact none_worn)]
  refine (fallBack_eq f n ?_).trans rfl
  rw [setTxQueue, State.updBus_bus, List.map_append, List.map_cons, notSending_of_waiting hb, notSending_of_waiting ha]

/-- R112: the eighth bit error drops the frame. -/
theorem bitErrorAt_dropped (f : Frame) (n : Nat) (he : t.errors = 7) : bitErrorAt f n s = fallBack f n
    (raiseNow .busTrouble (BitVec.ofNat 32 f.arb) (bump .busFramesDropped (setTxQueue (before ++ after)
      (bump .busBitErrors s)))) := by
  have hb := fun u hu => hothers u (List.mem_append_left after hu)
  have ha := fun u hu => hothers u (List.mem_append_right before hu)
  have it : worn { t with errors := t.errors + 1 } = true := by
    rw [worn, Bool.and_eq_true, decide_eq_true_iff]
    exact ⟨ht, by simp only; omega⟩
  have stay : ∀ {l : List TxFrame}, (∀ u ∈ l, u.sending = false) → l.filter (fun u => !worn u) = l := by
    intro l hl
    refine List.filter_eq_self.2 fun u hu => ?_
    rw [worn_of_waiting hl u hu]
    rfl
  rw [bitErrorAt, countError_queue hq ht hothers, dropWorn, if_pos]
  · refine congrArg (fallBack f n) (congrArg (raiseNow .busTrouble (BitVec.ofNat 32 f.arb)) (congrArg (bump .busFramesDropped) ?_))
    simp only [setTxQueue, State.updBus_bus, List.filter_append, List.filter_cons, it, stay hb, stay ha]
    rfl
  · refine List.any_eq_true.2 ⟨_, ?_, it⟩
    simp [setTxQueue]

end

/-- R112: with no frame of the queue on the line, a bit error is the station's alone (log entry 13). -/
theorem bitErrorAt_cleared {s : State} (f : Frame) (n : Nat) (h : ∀ u ∈ s.bus.queue, u.sending = false) :
    bitErrorAt f n s = { s with
      bus := { s.bus with
        onLine := none
        reception := some (f.bits.take n ++ [!(f.bits.getD n false)]) }
      counters := { s.counters with busBitErrors := satInc s.counters.busBitErrors } } := by
  rw [bitErrorAt, countError_of_waiting h, dropWorn_of_none (by exact worn_of_waiting h)]
  exact fallBack_eq f n (notSending_of_waiting h)

/-- Settles O15: by the fewer than 8 bit errors of the frame being sent, its eighth, and no such frame. -/
theorem bitError : Obligations.BitError := by
  intro s n
  refine ⟨exec_bitError_none n, fun f hf => ⟨fun h => ?_, fun h8 hn => ?_⟩⟩
  · rw [exec_bitError_some n hf, if_neg]
    rw [canErr_iff]
    omega
  · rw [exec_bitError_some n hf, if_pos ((canErr_iff f n).2 ⟨h8, hn⟩)]
    refine ⟨fun before t after hq ht he ho => ?_, fun before t after hq ht he ho => ⟨_, rfl, ?_⟩, fun h => ?_⟩
    · rw [bitErrorAt_kept hq ht ho f n he]
    · have hall := notSending_of_waiting ho
      rw [bitErrorAt_dropped hq ht ho f n he, raiseNow, raise_eq _ _ _ rfl]
      rw [fallBack_eq f n (q := before ++ after) hall]
      exact ⟨rfl, rfl, rfl, rfl, rfl, rfl, rfl, rfl, rfl, rfl, rfl, rfl, rfl, rfl⟩
    · rw [bitErrorAt_cleared f n h]

/-! ## Frames without effect -/

theorem haltTaken_of_resting {s : State} (h : s.bus.op = .unconfigured ∨ s.bus.op = .idle ∨ s.bus.op = .stopping) :
    haltTaken s = s := by
  obtain h | h | h := h <;> rw [haltTaken, h]

theorem runTaken_of_not_waiting {s : State}
    (h : s.bus.op = .unconfigured ∨ s.bus.op = .idle ∨ s.bus.op = .running ∨ s.bus.op = .stopping) :
    runTaken s = s := by
  obtain h | h | h | h := h <;> rw [runTaken, h]

theorem actOnPeer_ignored {h : HeardFrame} {s : State} (hi : ignoresPeer h s.bus.op) : actOnPeer h s = s := by
  cases h with
  | halt n => exact haltTaken_of_resting hi
  | run n => exact runTaken_of_not_waiting hi
  | alert n k line => obtain h | h | h | h := hi <;> simp only [actOnPeer, h]
  | summary n m p l r => obtain h | h := hi <;> simp only [actOnPeer, h]
  | span n c0 w fp =>
    change s.bus.op ≠ .enrolling at hi
    cases hop : s.bus.op <;> simp_all [actOnPeer]

theorem actOnEcho_ignored {h : HeardFrame} {s : State} (hi : ignoresEcho h s.bus.op) : actOnEcho h s = s := by
  cases h with
  | halt n => exact haltTaken_of_resting hi
  | run n => exact runTaken_of_not_waiting hi
  | alert n k line => rfl
  | summary n m p l r => rfl
  | span n c0 w fp => rfl

/-- R93, R117: a peer's summary in a run. -/
theorem actOnPeer_summary {s : State} (hrun : inRun s) (n : StationNo) (m : Half) (p : Byte) (l r : List ZoneCode) :
    actOnPeer (.summary n m p l r) s = takeSummary n m p l r s := by
  obtain hop | hop := hrun <;> simp only [actOnPeer, hop]

/-- R93: a summary of a sender that is no neighbour. -/
theorem takeSummary_of_stranger {s : State} {n : StationNo} (hl : ∀ x, s.bus.left = some x → x.number ≠ n)
    (hr : ∀ x, s.bus.right = some x → x.number ≠ n) (m : Half) (p : Byte) (l r : List ZoneCode) :
    takeSummary n m p l r s = s := by
  have no : ∀ {o : Option Neighbour}, (∀ x, o = some x → x.number ≠ n) →
      o.filter (fun x => x.number == n) = none := by
    intro o ho
    refine Option.filter_eq_none_iff.2 fun x hx => ?_
    simpa using ho x hx
  rw [takeSummary, no hl, no hr]

/-- Settles O17: what each kind of frame finds in the operating states that ignore it. -/
theorem framesWithoutEffect : Obligations.FramesWithoutEffect := by
  intro s h
  refine ⟨fun hp hi => ?_, fun he hi => ?_, fun ho hop => ?_, ?_⟩
  · rw [exec_of_fromPeer s hp, actOnPeer_ignored (by exact hi), endOfFrame_eq]
  · rw [exec_of_ownEcho s he, actOnEcho_ignored (by exact hi), endOfFrame_removeSent_eq]
  · rw [exec_of_ownNumber s ho, actOnDuplicate, endOfFrame_eq]
    obtain hop | hop := hop <;> simp only [frameEnded, hop]
  · rintro n m p l r rfl hp hrun hl hr
    rw [exec_of_fromPeer s hp, endOfFrame_eq, actOnPeer_summary (by exact hrun),
      takeSummary_of_stranger (by exact hl) (by exact hr)]

end Sys2Proof.Machine
end

section
/-! Chapter 7 of the manual, sections 7.2 and 7.3: a frame on the line and what it is read back as (R106 to R110). -/

namespace Sys2Proof.Machine

/-! ## Fields and bytes -/

theorem toNat_byte (n : Nat) : (byte n).toNat = n % 256 := by simp [byte]

theorem byte_toNat (b : Byte) : byte b.toNat = b := by simp [byte]

theorem half_be16 (x : Half) : be16 x.toNat = [byte (x.toNat / 256), byte x.toNat] ∧
    half (byte (x.toNat / 256)) (byte x.toNat) = x := by
  refine ⟨rfl, BitVec.eq_of_toNat_eq ?_⟩
  have := x.isLt
  simp only [half, toNat_byte, BitVec.toNat_ofNat]
  omega

theorem be16_half (hi lo : Byte) : be16 (half hi lo).toNat = [hi, lo] := by
  have h1 := hi.isLt
  have h0 := lo.isLt
  have e : (half hi lo).toNat = 256 * hi.toNat + lo.toNat := by
    simp only [half, BitVec.toNat_ofNat]
    omega
  have : byte (256 * hi.toNat + lo.toNat) = lo := BitVec.eq_of_toNat_eq (by rw [toNat_byte]; omega)
  have : byte ((256 * hi.toNat + lo.toNat) / 256) = hi := BitVec.eq_of_toNat_eq (by rw [toNat_byte]; omega)
  rw [e]
  rw [be16]
  exact congrArg₂ (fun a b => [a, b]) ‹byte (_ / 256) = hi› ‹byte (_ + _) = lo›

theorem zoneOfBytes_zoneBytes (zs : List ZoneCode) : zoneOfBytes (zoneBytes zs) = zs := by
  induction zs with
  | nil => rfl
  | cons z zs ih => rw [zoneBytes, zoneOfBytes, ih]

theorem length_zoneBytes (zs : List ZoneCode) : (zoneBytes zs).length = 2 * zs.length := by
  induction zs with
  | nil => rfl
  | cons z zs ih =>
    rw [zoneBytes, List.length_cons, List.length_cons, ih, List.length_cons]
    omega

theorem zoneBytes_zoneOfBytes {n : Nat} {bs : List Byte} (h : bs.length = 2 * n) :
    zoneBytes (zoneOfBytes bs) = bs ∧ (zoneOfBytes bs).length = n := by
  induction n generalizing bs with
  | zero =>
    rw [List.length_eq_zero_iff.1 h]
    exact ⟨rfl, rfl⟩
  | succ n ih =>
    match bs, h with
    | c :: v :: bs, h =>
      obtain ⟨hb, hl⟩ := ih (bs := bs) (by simp only [List.length_cons] at h; omega)
      exact ⟨by rw [zoneOfBytes, zoneBytes, hb], by rw [zoneOfBytes, List.length_cons, hl]⟩

/-! ## A frame read back -/

theorem goodCrc_raw (h : HeardFrame) : goodCrc h.raw = true := by
  rw [goodCrc, beq_iff_eq, HeardFrame.raw, Frame.fields]

theorem kind_code_lt (k : FrameKind) : k.code < 16 := by cases k <;> decide

/-- R107: the arbitration byte holds the kind and the sender. -/
theorem arbitration_parts (h : HeardFrame) : h.raw.arbitration.toNat / 16 = h.frame.kind.code ∧
    BitVec.ofNat 4 h.raw.arbitration.toNat = h.frame.sender := by
  have hk := kind_code_lt h.frame.kind
  have hs := h.frame.sender.isLt
  have e : h.raw.arbitration.toNat = h.frame.kind.code * 16 + h.frame.sender.toNat := by
    rw [HeardFrame.raw, toNat_byte, Frame.arb]
    omega
  rw [e]
  refine ⟨by omega, BitVec.eq_of_toNat_eq ?_⟩
  rw [BitVec.toNat_ofNat]
  omega

/-- R107: a body whose length stands in one byte is as long as the length field says. -/
theorem length_raw {h : HeardFrame} (hb : h.frame.body.length ≤ 255) :
    h.raw.length.toNat = h.frame.body.length := by
  rw [HeardFrame.raw, toNat_byte]
  omega

section
variable {f : RawFrame} (hlen : f.body.length = f.length.toNat)
include hlen

theorem parseFrame_halt (hk : f.arbitration.toNat / 16 = 1) (hb : f.body = []) :
    parseFrame f = some (.halt (BitVec.ofNat 4 f.arbitration.toNat)) := by
  dsimp only [parseFrame]
  rw [if_pos hlen, hk, hb]
  rfl

theorem parseFrame_run (hk : f.arbitration.toNat / 16 = 2) (hb : f.body = []) :
    parseFrame f = some (.run (BitVec.ofNat 4 f.arbitration.toNat)) := by
  dsimp only [parseFrame]
  rw [if_pos hlen, hk, hb]
  rfl

theorem parseFrame_alert {a b c d : Byte} (k : AlertKind) (hk : f.arbitration.toNat / 16 = 3)
    (hb : f.body = [byte (alertCode k), a, b, c, d]) :
    parseFrame f = some (.alert (BitVec.ofNat 4 f.arbitration.toNat) k
      (BitVec.ofNat 32 (65536 * (half a b).toNat + (half c d).toNat))) := by
  dsimp only [parseFrame]
  rw [if_pos hlen, hk, hb]
  cases k with
  | splice => exact if_pos rfl
  | mark => exact (if_neg (by decide)).trans (if_pos rfl)

theorem parseFrame_summary {b1 b0 p l r : Byte} {zone : List Byte} (hk : f.arbitration.toNat / 16 = 4)
    (hb : f.body = b1 :: b0 :: p :: l :: r :: zone) (hz : zone.length = 2 * (l.toNat + r.toNat)) :
    parseFrame f = some (.summary (BitVec.ofNat 4 f.arbitration.toNat) (half b1 b0) p
      (zoneOfBytes (zone.take (2 * l.toNat))) (zoneOfBytes (zone.drop (2 * l.toNat)))) := by
  dsimp only [parseFrame]
  rw [if_pos hlen, hk, hb]
  exact if_pos hz

theorem parseFrame_span {c1 c0 w1 w0 f1 f0 : Byte} (hk : f.arbitration.toNat / 16 = 5)
    (hb : f.body = [c1, c0, w1, w0, f1, f0]) (hs : spanForm (half c1 c0).toNat (half w1 w0).toNat = true) :
    parseFrame f = some (.span (BitVec.ofNat 4 f.arbitration.toNat) (half c1 c0) (half w1 w0) (half f1 f0)) := by
  dsimp only [parseFrame]
  rw [if_pos hlen, hk, hb]
  exact if_pos hs

end

theorem word_be32 (x : Word) : be32 x.toNat = [byte (x.toNat / 65536 / 256), byte (x.toNat / 65536),
      byte (x.toNat / 256), byte x.toNat] ∧
    BitVec.ofNat 32 (65536 * (half (byte (x.toNat / 65536 / 256)) (byte (x.toNat / 65536))).toNat +
      (half (byte (x.toNat / 256)) (byte x.toNat)).toNat) = x := by
  refine ⟨rfl, BitVec.eq_of_toNat_eq ?_⟩
  have := x.isLt
  simp only [half, toNat_byte, BitVec.toNat_ofNat]
  omega

/-- R107 to R110: what a well-formed frame says is what its fields spell. -/
theorem parseFrame_raw {h : HeardFrame} (hw : h.wellFormed = true) : parseFrame h.raw = some h := by
  obtain ⟨kind, sender⟩ := arbitration_parts h
  cases h with
  | halt n => rw [parseFrame_halt rfl kind rfl, sender]; rfl
  | run n => rw [parseFrame_run rfl kind rfl, sender]; rfl
  | alert n k line =>
    rw [parseFrame_alert rfl k kind rfl, sender]
    exact congrArg (fun x => some (HeardFrame.alert n k x)) (word_be32 line).2
  | summary n m p l r =>
    have hlen : 5 + 2 * (l.length + r.length) ≤ 255 := of_decide_eq_true hw
    have hbody : (HeardFrame.summary n m p l r).frame.body.length = 5 + 2 * (l.length + r.length) := by
      simp [HeardFrame.frame, be16, length_zoneBytes]
      omega
    have hl : (byte l.length).toNat = l.length := by rw [toNat_byte]; omega
    have hr : (byte r.length).toNat = r.length := by rw [toNat_byte]; omega
    rw [parseFrame_summary (zone := zoneBytes l ++ zoneBytes r) (length_raw (by omega)).symm kind
      (b1 := byte (m.toNat / 256)) (b0 := byte m.toNat) (p := p) (l := byte l.length) (r := byte r.length)
      (by simp [HeardFrame.raw, HeardFrame.frame, (half_be16 m).1])
      (by rw [List.length_append, length_zoneBytes, length_zoneBytes, hl, hr]; omega), sender, (half_be16 m).2, hl,
      List.take_left' (length_zoneBytes l), List.drop_left' (length_zoneBytes l), zoneOfBytes_zoneBytes,
      zoneOfBytes_zoneBytes]
    rfl
  | span n c0 w fp =>
    rw [parseFrame_span (c1 := byte (c0.toNat / 256)) (c0 := byte c0.toNat) (w1 := byte (w.toNat / 256))
      (w0 := byte w.toNat) (f1 := byte (fp.toNat / 256)) (f0 := byte fp.toNat) rfl kind rfl
      (by rw [(half_be16 c0).2, (half_be16 w).2]; exact hw), sender, (half_be16 c0).2, (half_be16 w).2, (half_be16 fp).2]
    rfl

/-- Settles O51: the CRC agrees, and `parseFrame` reads each field from the bytes it was written to. -/
theorem frameRoundTrip : Obligations.FrameRoundTrip := fun h hw => by
  rw [readFrame, if_pos (goodCrc_raw h), parseFrame_raw hw]

/-! ## Frames in form -/

theorem bodyAt_zero {raw : RawFrame} {k : Byte} {rest : List Byte} (h : raw.body = k :: rest) :
    bodyAt raw 0 = k.toNat := by
  rw [bodyAt, h, List.getD_cons_zero]

theorem toNat_half (hi lo : Byte) : (half hi lo).toNat = 256 * hi.toNat + lo.toNat := by
  have h1 := hi.isLt
  have h0 := lo.isLt
  simp only [half, BitVec.toNat_ofNat]
  omega

theorem be16_congr {m n : Nat} (h : m % 65536 = n % 65536) : be16 m = be16 n := by
  have high : BitVec.ofNat 8 (m / 256) = BitVec.ofNat 8 (n / 256) := by
    refine BitVec.eq_of_toNat_eq ?_
    rw [BitVec.toNat_ofNat, BitVec.toNat_ofNat]
    omega
  have low : BitVec.ofNat 8 m = BitVec.ofNat 8 n := by
    refine BitVec.eq_of_toNat_eq ?_
    rw [BitVec.toNat_ofNat, BitVec.toNat_ofNat]
    omega
  rw [be16, high, low, be16]

theorem be32_halves (a b c d : Byte) :
    be32 (BitVec.ofNat 32 (65536 * (half a b).toNat + (half c d).toNat)).toNat = [a, b, c, d] := by
  have h1 := (half a b).isLt
  have h0 := (half c d).isLt
  have high := be16_congr (m := (65536 * (half a b).toNat + (half c d).toNat) / 65536) (n := (half a b).toNat) (by omega)
  have low := be16_congr (m := 65536 * (half a b).toNat + (half c d).toNat) (n := (half c d).toNat) (by omega)
  rw [BitVec.toNat_ofNat, be32, Nat.mod_eq_of_lt (by omega), high, low, be16_half, be16_half]
  rfl

theorem spanForm_iff (c0 w : Nat) : spanForm c0 w = true ↔ c0 % 32 = 0 ∧ w % 32 = 0 ∧ 512 ≤ w ∧ w ≤ 8192 := by
  simp [spanForm, and_assoc]

/-- R107: the fields that spell a frame are the frame's own, when they bear its kind, sender and body. -/
theorem raw_eq {raw : RawFrame} {h : HeardFrame} (hk : raw.arbitration.toNat / 16 = h.frame.kind.code)
    (hs : h.frame.sender = BitVec.ofNat 4 raw.arbitration.toNat) (hb : h.frame.body = raw.body)
    (hlen : raw.body.length = raw.length.toNat)
    (hcrc : crc16 (raw.arbitration :: raw.length :: raw.body) = raw.crc) : h.raw = raw := by
  have arb : byte h.frame.arb = raw.arbitration := by
    have lt := raw.arbitration.isLt
    have code := kind_code_lt h.frame.kind
    have sender : h.frame.sender.toNat = raw.arbitration.toNat % 16 := by rw [hs, BitVec.toNat_ofNat]
    refine BitVec.eq_of_toNat_eq ?_
    rw [toNat_byte, Frame.arb]
    omega
  have len : byte h.frame.body.length = raw.length := by rw [hb, hlen, byte_toNat]
  rw [HeardFrame.raw, Frame.fields, arb, len, hb, hcrc]

/-- R108, R110: fields that pass the test of form spell a well-formed frame. -/
theorem inForm_spells {raw : RawFrame} (h : InForm raw)
    (hcrc : crc16 (raw.arbitration :: raw.length :: raw.body) = raw.crc) :
    ∃ f : HeardFrame, f.raw = raw ∧ f.wellFormed = true := by
  obtain ⟨hlen, hform⟩ := h
  split at hform
  next hk => exact ⟨.halt _, raw_eq hk rfl (List.length_eq_zero_iff.1 (hlen.trans hform)).symm hlen hcrc, rfl⟩
  next hk => exact ⟨.run _, raw_eq hk rfl (List.length_eq_zero_iff.1 (hlen.trans hform)).symm hlen hcrc, rfl⟩
  next hk =>
    obtain ⟨h5, hkind⟩ := hform
    obtain ⟨k, a, b, c, d, hb⟩ : ∃ k a b c d, raw.body = [k, a, b, c, d] := by
      have h5 := hlen.trans h5
      match raw.body, h5 with
      | [k, a, b, c, d], _ => exact ⟨k, a, b, c, d, rfl⟩
    rw [bodyAt_zero hb] at hkind
    obtain ⟨kind, hcode⟩ : ∃ kind, k = byte (alertCode kind) := by
      obtain h | h := hkind
      · exact ⟨.splice, BitVec.eq_of_toNat_eq h⟩
      · exact ⟨.mark, BitVec.eq_of_toNat_eq h⟩
    refine ⟨.alert _ kind (BitVec.ofNat 32 (65536 * (half a b).toNat + (half c d).toNat)), raw_eq hk rfl ?_ hlen hcrc, rfl⟩
    rw [HeardFrame.frame, be32_halves a b c d, hb, hcode]
  next hk =>
    obtain ⟨h5, hcounts⟩ := hform
    obtain ⟨b1, b0, p, l, r, zone, hb⟩ : ∃ b1 b0 p l r zone, raw.body = b1 :: b0 :: p :: l :: r :: zone := by
      have h5 : 5 ≤ raw.body.length := by omega
      match raw.body, h5 with
      | b1 :: b0 :: p :: l :: r :: zone, _ => exact ⟨b1, b0, p, l, r, zone, rfl⟩
    have hl : bodyAt raw 3 = l.toNat := by rw [bodyAt, hb]; rfl
    have hr : bodyAt raw 4 = r.toNat := by rw [bodyAt, hb]; rfl
    rw [hl, hr] at hcounts
    have hz : zone.length = 2 * (l.toNat + r.toNat) := by
      rw [hb] at hlen
      simp only [List.length_cons] at hlen
      omega
    obtain ⟨left, nleft⟩ := zoneBytes_zoneOfBytes (n := l.toNat) (bs := zone.take (2 * l.toNat))
      (by rw [List.length_take]; omega)
    obtain ⟨right, nright⟩ := zoneBytes_zoneOfBytes (n := r.toNat) (bs := zone.drop (2 * l.toNat))
      (by rw [List.length_drop]; omega)
    refine ⟨.summary _ (half b1 b0) p (zoneOfBytes (zone.take (2 * l.toNat))) (zoneOfBytes (zone.drop (2 * l.toNat))),
      raw_eq hk rfl ?_ hlen hcrc, ?_⟩
    · rw [HeardFrame.frame, left, right, nleft, nright, byte_toNat, byte_toNat, be16_half, hb, List.append_assoc,
        List.take_append_drop]
      rfl
    · have := raw.length.isLt
      rw [HeardFrame.wellFormed, nleft, nright, decide_eq_true_iff]
      omega
  next hk =>
    obtain ⟨h6, hc, hw, hlow, hhigh⟩ := hform
    obtain ⟨c1, c0, w1, w0, f1, f0, hb⟩ : ∃ c1 c0 w1 w0 f1 f0, raw.body = [c1, c0, w1, w0, f1, f0] := by
      have h6 := hlen.trans h6
      match raw.body, h6 with
      | [c1, c0, w1, w0, f1, f0], _ => exact ⟨c1, c0, w1, w0, f1, f0, rfl⟩
    simp only [bodyAt, hb, List.getD_cons_zero, List.getD_cons_succ] at hc hw hlow hhigh
    refine ⟨.span _ (half c1 c0) (half w1 w0) (half f1 f0), raw_eq hk rfl ?_ hlen hcrc, ?_⟩
    · rw [HeardFrame.frame, be16_half, be16_half, be16_half, hb]
      rfl
    · rw [HeardFrame.wellFormed, spanForm_iff, toNat_half, toNat_half]
      exact ⟨hc, hw, hlow, hhigh⟩
  next => exact hform.elim

/-- R108, R110: what is read back is in form. -/
theorem inForm_of_parseFrame {raw : RawFrame} {f : HeardFrame} (h : parseFrame raw = some f) : InForm raw := by
  dsimp only [parseFrame] at h
  split at h
  next hlen =>
    refine ⟨hlen, ?_⟩
    split at h
    next hk hb =>
      rw [hk]
      rw [hb] at hlen
      exact hlen.symm
    next hk hb =>
      rw [hk]
      rw [hb] at hlen
      exact hlen.symm
    next k a b c d hk hb =>
      rw [hk]
      rw [hb] at hlen
      refine ⟨hlen.symm, ?_⟩
      rw [bodyAt_zero hb]
      split at h
      next hone => exact .inl (congrArg BitVec.toNat hone)
      next =>
        split at h
        next htwo => exact .inr (congrArg BitVec.toNat htwo)
        next => cases h
    next b1 b0 p l r zone hk hb =>
      rw [hk]
      split at h
      next hz =>
        rw [hb] at hlen
        have hl : bodyAt raw 3 = l.toNat := by rw [bodyAt, hb]; rfl
        have hr : bodyAt raw 4 = r.toNat := by rw [bodyAt, hb]; rfl
        simp only [List.length_cons] at hlen
        simp only [hl, hr]
        omega
      next => cases h
    next c1 c0 w1 w0 f1 f0 hk hb =>
      rw [hk]
      split at h
      next hs =>
        rw [spanForm_iff, toNat_half, toNat_half] at hs
        rw [hb] at hlen
        refine ⟨hlen.symm, ?_⟩
        simpa only [bodyAt, hb, List.getD_cons_zero, List.getD_cons_succ] using hs
      next => cases h
    next => cases h
  next => cases h

/-! ## The end of a frame -/

theorem exec_badFrame (raw : RawFrame) (s : State) : exec (.badFrame raw) s = .next (receiveRaw raw s) := rfl

theorem exec_command (h : HeardFrame) (s : State) : exec h.command s = .next (receiveFrame h s) := by cases h <;> rfl

theorem missFrame_enabled {s : State} (h : busEnabled s = true) :
    missFrame s = { s with bus := { s.bus with idle := 0 } } := by
  rw [missFrame, if_pos h]
  rfl

theorem missFrame_disabled {s : State} (h : busEnabled s = false) : missFrame s = s := by
  rw [missFrame, if_neg (by rw [h]; nofun)]

theorem not_follows_of_disabled {s : State} (h : busEnabled s = false) : follows s = false := by
  rw [follows, h]
  rfl

theorem receiveRaw_missed {s : State} (raw : RawFrame) (h : follows s = false) : receiveRaw raw s = missFrame s := by
  rw [receiveRaw, h]
  rfl

theorem receiveFrame_missed {s : State} (f : HeardFrame) (h : follows s = false) : receiveFrame f s = missFrame s := by
  rw [receiveFrame, h]
  rfl

/-- R108, R110: a followed frame that is not read back is discarded. -/
theorem receiveRaw_bad {s : State} {raw : RawFrame} (hf : follows s = true)
    (h : crc16 (raw.arbitration :: raw.length :: raw.body) ≠ raw.crc ∨ ¬ InForm raw) :
    receiveRaw raw s = discardFrame s := by
  have unread : readFrame raw = none := by
    rw [readFrame]
    split
    next hg =>
      obtain h | h := h
      · exact absurd (beq_iff_eq.1 hg) h
      · exact Option.eq_none_iff_forall_ne_some.2 fun f hp => h (inForm_of_parseFrame hp)
    next => rfl
  rw [receiveRaw, hf, unread]
  rfl

theorem receiveFrame_bad {s : State} {f : HeardFrame} (hf : follows s = true) (hw : f.wellFormed = false) :
    receiveFrame f s = discardFrame s := by
  rw [receiveFrame, hf, hw]
  rfl

/-- R108, R110: fields that spell a well-formed frame are taken as that frame. -/
theorem receiveRaw_raw {f : HeardFrame} (hw : f.wellFormed = true) (s : State) :
    receiveRaw f.raw s = receiveFrame f s := by
  rw [receiveRaw, receiveFrame, frameRoundTrip f hw, hw]
  rfl

/-- Settles O16: bits that fail the CRC or the test of form are not read back, those that pass are the frame they
spell, and a frame that is not followed is missed. -/
theorem framesDiscarded : Obligations.FramesDiscarded := by
  intro s c
  refine ⟨fun hc hf => ?_, fun raw hc hform hcrc => ?_, fun hc => ?_⟩
  · have discarded : exec c s = .next (discardFrame s) := by
      obtain ⟨raw, rfl, hbad⟩ | ⟨h, rfl, hw⟩ := hc
      · rw [exec_badFrame, receiveRaw_bad hf hbad]
      · rw [exec_command, receiveFrame_bad hf hw]
    rw [discarded, discardFrame, endOfFrame_eq]
    rfl
  · obtain ⟨h, hraw, hw⟩ := inForm_spells hform hcrc
    refine ⟨h, hraw, hw, ?_⟩
    rw [hc, exec_badFrame, ← hraw, receiveRaw_raw hw, exec_command]
  · have missed : follows s = false → exec c s = .next (missFrame s) := by
      intro hf
      obtain ⟨raw, rfl⟩ | ⟨h, rfl⟩ := hc
      · rw [exec_badFrame, receiveRaw_missed raw hf]
      · rw [exec_command, receiveFrame_missed h hf]
    refine ⟨fun hb hf => ?_, fun hb => ?_⟩
    · rw [missed hf, missFrame_enabled hb]
    · rw [missed (not_follows_of_disabled hb), missFrame_disabled hb]

end Sys2Proof.Machine
end

section
/-! Chapter 10 of the manual, sections 10.2 and 10.4: the host commands, accepted and turned away (R171 to R173, R177),
and the submission of a grant (R156, R157). -/

namespace Sys2Proof.Machine

/-! ## The command slot -/

theorem exec_configure (s : State) : exec .configure s = .next (writeConfigure s) := rfl
theorem exec_start (s : State) : exec .start s = .next (writeStart s) := rfl
theorem exec_halt (s : State) : exec .halt s = .next (writeHalt s) := rfl
theorem exec_learn (s : State) : exec .learn s = .next (writeLearn s) := rfl
theorem exec_snapshot (s : State) : exec .snapshot s = .next (writeSnapshot s) := rfl
theorem exec_clear (s : State) : exec .clear s = .next (writeClear s) := rfl

/-- R171: the state in which an accepted command is carried out. -/
def accepted (code : Word) (s : State) : State := { s with ctl := { s.ctl with code := code, commandLost := false } }

section
variable {s : State} (hu : Unoccupied s)
include hu

theorem submit_accepted {code : Nat} {stateOk argOk : Bool} (act : State → State) (hs : stateOk = true)
    (ha : argOk = true) : submit code stateOk argOk act s = act (accepted (BitVec.ofNat 32 code) s) :=
  (submit_cases s code stateOk argOk act).2.2.2 hu hs ha

theorem submit_wrongState {code : Nat} {stateOk argOk : Bool} (act : State → State) (hs : stateOk = false) :
    submit code stateOk argOk act s =
      failed (BitVec.ofNat 32 code) .wrongState (BitVec.ofNat 8 s.bus.op.code) s :=
  (submit_cases s code stateOk argOk act).2.1 hu hs

theorem submit_badArgument {code : Nat} {stateOk argOk : Bool} (act : State → State) (hs : stateOk = true)
    (ha : argOk = false) :
    submit code stateOk argOk act s = failed (BitVec.ofNat 32 code) .badArgument 0 s :=
  (submit_cases s code stateOk argOk act).2.2.1 hu hs ha

end

theorem submit_lost {s : State} (hu : ¬ Unoccupied s) (code : Nat) (stateOk argOk : Bool) (act : State → State) :
    submit code stateOk argOk act s = { s with
      ctl := { s.ctl with code := BitVec.ofNat 32 code, commandLost := true }
      counters := { s.counters with commandsLost := satInc s.counters.commandsLost } } :=
  (submit_cases s code stateOk argOk act).1 hu

theorem argumentOk_iff (n : Nat) (s : State) :
    argumentOk n s = true ↔ s.ctl.argAddress.toNat % 4 = 0 ∧ n ≤ s.ctl.argLength.toNat := by
  simp [argumentOk]

theorem configurable_iff (s : State) : configurable s = true ↔ s.bus.op = .unconfigured ∨ s.bus.op = .idle := by
  simp [configurable]

/-- Settles O29: an accepted CONFIGURE, written out. -/
theorem configureAccepted : Obligations.ConfigureAccepted := by
  intro s hu hop haddr hlen
  rw [exec_configure, writeConfigure, submit_accepted hu _ ((configurable_iff s).2 hop)
    ((argumentOk_iff 256 s).2 ⟨haddr, hlen⟩)]
  rfl

/-! ## LEARN, CLEAR and SNAPSHOT -/

theorem endDone_accepted (code : Word) (s t : State)
    (h : t.ctl = { s.ctl with code := code, commandLost := false }) :
    endDone t = succeeded code { t with ctl := s.ctl } := by
  rw [endDone_eq, h]
  rfl

/-- Settles O34: an accepted LEARN and an accepted CLEAR, written out. -/
theorem learnAndClear : Obligations.LearnAndClear := by
  intro s hu
  refine ⟨fun hop => ?_, {}, fun k => by cases k <;> rfl, ?_⟩
  · rw [exec_learn, writeLearn, submit_accepted hu _ (bne_iff_ne.2 hop) rfl, endDone_accepted 4 s _ rfl]
    rfl
  · rw [exec_clear, writeClear, submit_accepted hu _ rfl rfl, endDone_accepted 6 s _ rfl]
    rfl

theorem le32_eq (w : Word) : le32 w.toNat =
    [w.setWidth 8, (w >>> 8).setWidth 8, (w >>> 16).setWidth 8, (w >>> 24).setWidth 8] := by
  have low : ∀ n k, n = w.toNat / 2 ^ k → BitVec.ofNat 8 n = (w >>> k).setWidth 8 := by
    rintro n k rfl
    refine BitVec.eq_of_toNat_eq ?_
    rw [BitVec.toNat_ofNat, BitVec.toNat_setWidth, BitVec.toNat_ushiftRight, Nat.shiftRight_eq_div_pow]
  have h0 : BitVec.ofNat 8 w.toNat = w.setWidth 8 := (low _ 0 (Nat.div_one _).symm).trans (by rw [BitVec.ushiftRight_zero])
  rw [le32, le16, le16, low (w.toNat / 256) 8 rfl, low (w.toNat / 65536) 16 rfl,
    low (w.toNat / 65536 / 256) 24 (Nat.div_div_eq_div_mul _ _ _), h0]
  rfl

theorem wordBytes_eq (ws : List Word) : wordBytes ws = ws.flatMap fun (w : Word) =>
    [w.setWidth 8, (w >>> 8).setWidth 8, (w >>> 16).setWidth 8, (w >>> 24).setWidth 8] := by
  simp only [wordBytes, le32_eq]

theorem exec_snapshotWriteDone_inFlight {s : State} {a : BitVec 64} {words : List Word}
    (h : s.ctl.phase = .busy (.snapshot a words)) : exec .snapshotWriteDone s = .next (finishSnapshot a words s) := by
  change execSnapshotWriteDone s = _
  simp only [execSnapshotWriteDone, h]

theorem exec_snapshotWriteDone_none {s : State} (h : ∀ a words, s.ctl.phase ≠ .busy (.snapshot a words)) :
    exec .snapshotWriteDone s = .next s := by
  change execSnapshotWriteDone s = _
  unfold execSnapshotWriteDone
  split
  next a words hp => exact absurd hp (h a words)
  next => rfl

/-- Settles O35: the words captured and the one write of them, written out. -/
theorem snapshot : Obligations.Snapshot := by
  intro s
  refine ⟨fun hu haddr hlen => ?_, fun a words hp => ?_, exec_snapshotWriteDone_none⟩
  · rw [exec_snapshot, writeSnapshot, submit_accepted hu _ rfl ((argumentOk_iff 128 s).2 ⟨haddr, hlen⟩)]
    rfl
  · rw [exec_snapshotWriteDone_inFlight hp, finishSnapshot, endDone_eq, wordBytes_eq]
    simp [emit, State.updOutputs]

/-! ## Commands turned away -/

theorem attention_eq (s : State) : attention s = { s with outputs := s.outputs ++ messageOf s.port.link } := by
  unfold attention
  cases h : s.port.link with
  | up => rfl
  | down => rw [messageOf, List.append_nil]

/-- R172: a command that fails, written out. -/
theorem endFailed_eq (result : ResultCode) (detail : Nat) (s : State) : endFailed result detail s = { s with
    ctl := s.ctl.ended .failed result (BitVec.ofNat 8 detail)
    counters := { s.counters with commandsFailed := satInc s.counters.commandsFailed }
    outputs := s.outputs ++ messageOf s.port.link } := by
  rw [endFailed, attention_eq]
  rfl

theorem hostCommand_lost {s : State} (hu : ¬ Unoccupied s) {c : Instr} {code : Word} (hc : (c, code) ∈ hostCommands) :
    exec c s = .next { s with
      ctl := { s.ctl with code := code, commandLost := true }
      counters := { s.counters with commandsLost := satInc s.counters.commandsLost } } := by
  simp only [hostCommands, List.mem_cons, Prod.mk.injEq, List.not_mem_nil, or_false] at hc
  obtain ⟨rfl, rfl⟩ | ⟨rfl, rfl⟩ | ⟨rfl, rfl⟩ | ⟨rfl, rfl⟩ | ⟨rfl, rfl⟩ | ⟨rfl, rfl⟩ | ⟨rfl, rfl⟩ := hc <;>
    exact congrArg Host.Outcome.next (submit_lost hu _ _ _ _)

theorem writeOther_lost {s : State} (hu : ¬ Unoccupied s) (code : Word) : writeOther code s = { s with
    ctl := { s.ctl with code := code, commandLost := true }
    counters := { s.counters with commandsLost := satInc s.counters.commandsLost } } := by
  rw [writeOther, if_pos ((busy_eq_true_iff s).2 hu)]
  rfl

/-- R172: a code of 0 or above 7 fails, the code up to 255 being the detail. -/
theorem writeOther_failed {s : State} (hu : Unoccupied s) (code : Word) : writeOther code s =
    failed code .unknownCommand (BitVec.ofNat 8 (min code.toNat 255)) s := by
  have detail : (if code.toNat < 256 then code.toNat else 255) = min code.toNat 255 := by
    split <;> omega
  rw [writeOther, if_neg (by rw [(busy_eq_false_iff s).2 hu]; nofun), detail]
  exact endFailed_eq _ _ _

theorem exec_unknownCommand_other {w : Word} (s : State) (hw : w.toNat = 0 ∨ 8 ≤ w.toNat) :
    exec (.unknownCommand w) s = .next (writeOther w s) := by
  change execUnknownCommand w s = _
  unfold execUnknownCommand
  split <;> first | rfl | omega

/-- R171: whichever command a code names, it is lost while one is in flight. -/
theorem unknownCommand_lost {s : State} (hu : ¬ Unoccupied s) (w : Word) :
    exec (.unknownCommand w) s = .next { s with
      ctl := { s.ctl with code := w, commandLost := true }
      counters := { s.counters with commandsLost := satInc s.counters.commandsLost } } := by
  have named : ∀ n, w.toNat = n → BitVec.ofNat 32 n = w := by
    rintro n rfl
    exact BitVec.eq_of_toNat_eq (by rw [BitVec.toNat_ofNat]; exact Nat.mod_eq_of_lt w.isLt)
  change execUnknownCommand w s = _
  unfold execUnknownCommand
  split
  case h_8 => rw [writeOther_lost hu]
  all_goals
    next h =>
      rw [← named _ h]
      exact congrArg Host.Outcome.next (submit_lost hu _ _ _ _)

/-- Settles O36: by the tests of a command code in their order. -/
theorem commandsTurnedAway : Obligations.CommandsTurnedAway := by
  intro s
  refine ⟨fun hu c code hc => ?_, ?_, fun hu h1 h2 => ?_, fun hu hop => ?_, fun hu hop => ?_,
    fun hu hop harg => ?_, fun hu harg => ?_⟩
  · obtain hc | ⟨w, rfl, rfl⟩ := hc
    · exact hostCommand_lost hu hc
    · exact unknownCommand_lost hu _
  · intro hu w hw
    rw [exec_unknownCommand_other s hw, writeOther_failed hu]
  · rw [exec_configure, writeConfigure, submit_wrongState hu]
    · rfl
    · exact Bool.eq_false_iff.2 fun h => ((configurable_iff s).1 h).elim h1 h2
  · rw [exec_start, writeStart, submit_wrongState hu]
    · rfl
    · exact beq_eq_false_iff_ne.2 hop
  · rw [exec_learn, writeLearn, submit_wrongState hu, hop]
    · rfl
    · rw [hop]; rfl
  · rw [exec_configure, writeConfigure, submit_badArgument hu _ ((configurable_iff s).2 hop)]
    · rfl
    · refine Bool.eq_false_iff.2 fun h => ?_
      obtain ⟨haddr, hlen⟩ := (argumentOk_iff 256 s).1 h
      omega
  · rw [exec_snapshot, writeSnapshot, submit_badArgument hu _ rfl]
    · rfl
    · refine Bool.eq_false_iff.2 fun h => ?_
      obtain ⟨haddr, hlen⟩ := (argumentOk_iff 128 s).1 h
      omega

/-! ## GRANT_SUBMIT -/

theorem exec_grantSubmit (tag : Word) (s : State) : exec (.grantSubmit tag) s = .next (submitGrant tag s) := rfl

theorem portGrant_wellFormed_iff (tag : Word) (s : State) : (portGrant tag s).wellFormed = true ↔
    256 ∣ s.ctl.grantAddress.toNat ∧ 256 ∣ s.ctl.grantLength.toNat ∧ 4096 ≤ s.ctl.grantLength.toNat ∧
      s.ctl.grantLength.toNat ≤ 1048576 ∧ s.ctl.grantAddress.toNat + s.ctl.grantLength.toNat ≤ 2 ^ 64 := by
  simp only [Grant.wellFormed, Bool.and_eq_true, decide_eq_true_eq, Nat.dvd_iff_mod_eq_zero, and_assoc]
  exact Iff.rfl

/-- Settles O38: the tests of `grantResult` in their order. -/
theorem grantSubmit : Obligations.GrantSubmit := by
  intro s tag inForm hform
  rw [← portGrant_wellFormed_iff tag s] at hform
  refine ⟨grantResult (portGrant tag s) s, _, (exec_grantSubmit tag s).trans rfl, fun hop => ?_, fun hop hn => ?_,
    fun hop hf hlen => ?_, fun hop hf hlen => ?_⟩
  · have : grantResult (portGrant tag s) s = .state := if_pos hop
    rw [this]
    exact ⟨rfl, rfl⟩
  · have : grantResult (portGrant tag s) s = .invalid := by
      rw [grantResult, if_neg hop, if_pos]
      simpa using fun h => hn (hform.2 h)
    rw [this]
    exact ⟨rfl, rfl⟩
  · have : grantResult (portGrant tag s) s = .full := by
      rw [grantResult, if_neg hop, hform.1 hf, if_neg (by decide), if_pos hlen]
    rw [this]
    exact ⟨rfl, rfl⟩
  · have : grantResult (portGrant tag s) s = .accepted := by
      rw [grantResult, if_neg hop, hform.1 hf, if_neg (by decide), if_neg (by omega)]
    rw [this]
    exact ⟨rfl, rfl⟩

end Sys2Proof.Machine
end

section
/-! Chapter 7 of the manual, sections 7.5 to 7.9: offers to the transmit queue, enrollment and the neighbour table
(R115, R118 to R124), the epoch, and standing down (R121, R125). -/

namespace Sys2Proof.Machine

/-! ## The transmit queue -/

/-- R114, R115: an offer looks at the queue, its next age and the frame on the line alone. -/
theorem Offered.congr {f : Frame} {b b' c c' : SpanBus} {d d' : Word} (h : Offered f b b' d d')
    (hq : c.queue = b.queue) (ha : c.nextAge = b.nextAge) (hl : c.onLine = b.onLine)
    (hc : c' = { c with queue := b'.queue, nextAge := b'.nextAge }) : Offered f c c' d d' := by
  obtain ⟨_, h2, h3, h4, h5⟩ := h
  subst hc
  simp only [Offered, AlreadyOffered, Fresh, hq, ha, hl]
  exact ⟨trivial, h2, h3, h4, h5⟩

theorem queueAfterEvent_congr {s t : State} (code : EventCode) (line : Nat) (data : Word) (hc : t.ctl = s.ctl)
    (hq : t.port.queue = s.port.queue) : queueAfterEvent code line data t = queueAfterEvent code line data s := by
  unfold queueAfterEvent fill
  rw [hc, hq]

theorem queueAfterEvents_congr {s t : State} (es : List (EventCode × Word)) (hc : t.ctl = s.ctl)
    (hq : t.port.queue = s.port.queue) (hn : t.intake.nextLine = s.intake.nextLine) :
    queueAfterEvents es t = queueAfterEvents es s := by
  induction es generalizing s t with
  | nil => exact hq
  | cons e es ih =>
    rw [queueAfterEvents, queueAfterEvents]
    refine ih hc ?_ hn
    rw [queueAfterEvent_congr _ _ _ hc hq, hn]

/-! ## Events raised in turn -/

/-- The events of a list, raised in turn. -/
def raiseEach (es : List (EventCode × Word)) (s : State) : State := es.foldl (fun t e => raiseNow e.1 e.2 t) s

theorem raiseEach_queue (es : List (EventCode × Word)) (s : State) :
    (raiseEach es s).port.queue = queueAfterEvents es s := by
  induction es generalizing s with
  | nil => rfl
  | cons e es ih =>
    refine (ih _).trans ?_
    rw [queueAfterEvents]
    exact queueAfterEvents_congr es (by simp) (raiseNow_queue _ _ _) (by simp)

/-- R151, R155, R160: `t` is `s` with EVENT records queued or dropped, and what that makes of the open grant. -/
def EventsOnly (s t : State) : Prop :=
  ∃ queue grant seq dropped outputs, t = { s with
    port := { s.port with queue := queue, grant := grant, nextSeq := seq }
    counters := { s.counters with eventRecordsDropped := dropped }
    outputs := outputs }

theorem EventsOnly.trans {s t u : State} (h : EventsOnly s t) (k : EventsOnly t u) : EventsOnly s u := by
  obtain ⟨_, _, _, _, _, rfl⟩ := h
  obtain ⟨q, g, n, d, o, rfl⟩ := k
  exact ⟨q, g, n, d, o, rfl⟩

/-- R179: an event that is not shared. -/
theorem raise_eventsOnly {code : EventCode} (line : Nat) (data : Word) (s : State) (h : sharedAs code = none) :
    EventsOnly s (raise code line data s) := ⟨_, _, _, _, _, raise_eq line data s h⟩

theorem raiseEach_eventsOnly {es : List (EventCode × Word)} (hes : ∀ e ∈ es, sharedAs e.1 = none) (s : State) :
    EventsOnly s (raiseEach es s) := by
  induction es generalizing s with
  | nil => exact ⟨_, _, _, _, _, rfl⟩
  | cons e es ih =>
    obtain ⟨he, hes⟩ := List.forall_mem_cons.1 hes
    exact (raise_eventsOnly _ _ s he).trans (ih hes _)

/-! ## The heard stations -/

theorem heardInOrder_pairwise (s : State) :
    (heardInOrder s).Pairwise fun a b => a.number.toNat < b.number.toNat := by
  have number : ∀ n h, (s.bus.heard.find? fun h => decide (h.number.toNat = n)) = some h → h.number.toNat = n :=
    fun n h hf => of_decide_eq_true (List.find?_some (p := fun h : Heard => decide (h.number.toNat = n)) hf)
  refine List.pairwise_filterMap.2 (List.pairwise_lt_range.imp fun {m n} hmn a ha b hb => ?_)
  rw [number m a ha, number n b hb]
  exact hmn

theorem mem_heardInOrder {s : State} (hs : HeardOk s) (h : Heard) : h ∈ heardInOrder s ↔ h ∈ s.bus.heard := by
  rw [heardInOrder, List.mem_filterMap]
  refine ⟨fun ⟨n, _, hf⟩ => List.mem_of_find?_eq_some hf, fun hmem => ⟨h.number.toNat, List.mem_range.2 h.number.isLt, ?_⟩⟩
  cases hf : s.bus.heard.find? fun x => decide (x.number.toNat = h.number.toNat) with
  | none => exact absurd (decide_eq_true rfl) (List.find?_eq_none.1 hf h hmem)
  | some x =>
    have same : x.number = h.number :=
      BitVec.eq_of_toNat_eq (of_decide_eq_true (List.find?_some (p := fun x : Heard => decide (x.number.toNat = h.number.toNat)) hf))
    rw [List.inj_on_of_nodup_map hs (List.mem_of_find?_eq_some hf) hmem same]

/-! ## The four cases of two spans -/

theorem caseOf_onLeft_iff (cfg : StationConfig) (h : Heard) (n : Nat) : caseOf cfg h = .onLeft n ↔
    h.c0 < cfg.c0 ∧ cfg.c0 < h.c0 + h.w ∧ h.c0 + h.w < cfg.c0 + cfg.w ∧ (h.c0 + h.w - cfg.c0) / 32 = n := by
  unfold caseOf spanCase
  dsimp only
  split_ifs <;> simp only [SpanCase.onLeft.injEq, false_iff] <;> omega

theorem caseOf_onRight_iff (cfg : StationConfig) (h : Heard) (n : Nat) : caseOf cfg h = .onRight n ↔
    cfg.c0 < h.c0 ∧ h.c0 < cfg.c0 + cfg.w ∧ cfg.c0 + cfg.w < h.c0 + h.w ∧ (cfg.c0 + cfg.w - h.c0) / 32 = n := by
  unfold caseOf spanCase
  dsimp only
  split_ifs <;> simp only [SpanCase.onRight.injEq, false_iff] <;> omega

theorem caseOf_contained_iff (cfg : StationConfig) (h : Heard) : caseOf cfg h = .contained ↔
    cfg.c0 < h.c0 + h.w ∧ h.c0 < cfg.c0 + cfg.w ∧
      ((h.c0 ≤ cfg.c0 ∧ cfg.c0 + cfg.w ≤ h.c0 + h.w) ∨ (cfg.c0 ≤ h.c0 ∧ h.c0 + h.w ≤ cfg.c0 + cfg.w)) := by
  unfold caseOf spanCase
  dsimp only
  split_ifs <;> simp only [false_iff, true_iff] <;> omega

theorem conflicts_iff (cfg : StationConfig) (h : Heard) : conflicts cfg h = true ↔ InConflict cfg h := by
  have left := caseOf_onLeft_iff cfg h
  have right := caseOf_onRight_iff cfg h
  have inside := caseOf_contained_iff cfg h
  unfold conflicts InConflict
  cases hc : caseOf cfg h with
  | disjoint =>
    simp only [hc, reduceCtorEq, false_iff] at left right inside
    have := left ((h.c0 + h.w - cfg.c0) / 32)
    have := right ((cfg.c0 + cfg.w - h.c0) / 32)
    simp only [Bool.false_eq_true, false_iff]
    omega
  | contained =>
    obtain ⟨h1, h2, h3⟩ := inside.1 hc
    simp only [true_iff]
    omega
  | onLeft n =>
    obtain ⟨h1, h2, h3, rfl⟩ := (left n).1 hc
    rw [decide_eq_true_iff]
    omega
  | onRight n =>
    obtain ⟨h1, h2, h3, rfl⟩ := (right n).1 hc
    rw [decide_eq_true_iff]
    omega

theorem leftNeighbour?_iff (cfg : StationConfig) (h : Heard) (x : Neighbour) : leftNeighbour? cfg h = some x ↔
    OverlapsLeft cfg h ∧
      x = { number := h.number, c0 := h.c0, w := h.w, overlap := (h.c0 + h.w - cfg.c0) / 32 } := by
  have left := caseOf_onLeft_iff cfg h
  unfold leftNeighbour? OverlapsLeft
  split
  next n hc =>
    obtain ⟨h1, h2, h3, rfl⟩ := (left n).1 hc
    split
    next hn => simp only [h1, h2, h3, hn.1, hn.2, Option.some.injEq, eq_comm, true_and, and_true]
    next hn => simp only [reduceCtorEq, h1, h2, h3, true_and, false_iff]; exact fun h => hn h.1
  next hc =>
    simp only [reduceCtorEq, false_iff]
    rintro ⟨⟨h1, h2, h3, _⟩, _⟩
    exact hc _ ((left _).2 ⟨h1, h2, h3, rfl⟩)

theorem rightNeighbour?_iff (cfg : StationConfig) (h : Heard) (x : Neighbour) : rightNeighbour? cfg h = some x ↔
    OverlapsRight cfg h ∧
      x = { number := h.number, c0 := h.c0, w := h.w, overlap := (cfg.c0 + cfg.w - h.c0) / 32 } := by
  have right := caseOf_onRight_iff cfg h
  unfold rightNeighbour? OverlapsRight
  split
  next n hc =>
    obtain ⟨h1, h2, h3, rfl⟩ := (right n).1 hc
    split
    next hn => simp only [h1, h2, h3, hn.1, hn.2, Option.some.injEq, eq_comm, true_and, and_true]
    next hn => simp only [reduceCtorEq, h1, h2, h3, true_and, false_iff]; exact fun h => hn h.1
  next hc =>
    simp only [reduceCtorEq, false_iff]
    rintro ⟨⟨h1, h2, h3, _⟩, _⟩
    exact hc _ ((right _).2 ⟨h1, h2, h3, rfl⟩)

/-! ## The best of some neighbours -/

/-- The best of a list in increasing number is one that no other of the list precedes: `before` orders neighbours as
`better` does, and those that tie by number. -/
theorem bestOf_spec {better : Neighbour → Neighbour → Bool} {before : Neighbour → Neighbour → Prop}
    (refl : ∀ x, before x x) (trans : ∀ x y z, before x y → before y z → before x z)
    (later : ∀ x y, better x y = true → before x y)
    (earlier : ∀ x y, better x y = false → y.number.toNat < x.number.toNat → before y x)
    {l : List Neighbour} (hl : l.Pairwise fun a b => a.number.toNat < b.number.toNat) :
    (bestOf better l = none ↔ l = []) ∧
      ∀ x, bestOf better l = some x → x ∈ l ∧ ∀ y ∈ l, before x y := by
  induction l with
  | nil => exact ⟨⟨fun _ => rfl, fun _ => rfl⟩, nofun⟩
  | cons n ns ih =>
    obtain ⟨hn, hns⟩ := List.pairwise_cons.1 hl
    obtain ⟨none_iff, best⟩ := ih hns
    rw [bestOf]
    cases hb : bestOf better ns with
    | none =>
      have hnil := none_iff.1 hb
      refine ⟨⟨nofun, nofun⟩, fun x hx => ?_⟩
      cases hx
      rw [hnil]
      exact ⟨List.mem_singleton_self _, fun y hy => List.mem_singleton.1 hy ▸ refl _⟩
    | some m =>
      obtain ⟨hm, hfirst⟩ := best m hb
      dsimp only
      split
      next hbetter =>
        refine ⟨⟨nofun, nofun⟩, fun x hx => ?_⟩
        cases hx
        refine ⟨List.mem_cons_of_mem _ hm, fun y hy => ?_⟩
        obtain rfl | hy := List.mem_cons.1 hy
        · exact later _ _ hbetter
        · exact hfirst y hy
      next hbetter =>
        refine ⟨⟨nofun, nofun⟩, fun x hx => ?_⟩
        cases hx
        refine ⟨List.mem_cons_self, fun y hy => ?_⟩
        obtain rfl | hy := List.mem_cons.1 hy
        · exact refl _
        · exact trans _ _ _ (earlier m n (Bool.eq_false_iff.2 hbetter) (hn m hm)) (hfirst y hy)

/-- R123: the order in which a left neighbour is chosen. -/
def LeftBefore (x y : Neighbour) : Prop :=
  y.c0 < x.c0 ∨ (y.c0 = x.c0 ∧ (y.overlap < x.overlap ∨ (y.overlap = x.overlap ∧ x.number.toNat ≤ y.number.toNat)))

/-- R123: the order in which a right neighbour is chosen. -/
def RightBefore (x y : Neighbour) : Prop :=
  x.c0 < y.c0 ∨ (y.c0 = x.c0 ∧ (y.overlap < x.overlap ∨ (y.overlap = x.overlap ∧ x.number.toNat ≤ y.number.toNat)))

theorem bestOf_betterLeft {l : List Neighbour} (hl : l.Pairwise fun a b => a.number.toNat < b.number.toNat) :
    (bestOf betterLeft l = none ↔ l = []) ∧
      ∀ x, bestOf betterLeft l = some x → x ∈ l ∧ ∀ y ∈ l, LeftBefore x y := by
  refine bestOf_spec (fun _ => .inr ⟨rfl, .inr ⟨rfl, le_rfl⟩⟩) ?_ ?_ ?_ hl <;> simp only [LeftBefore, betterLeft, Bool.or_eq_true, Bool.and_eq_true,
    Bool.or_eq_false_iff, Bool.and_eq_false_iff, decide_eq_true_eq, decide_eq_false_iff_not] <;> intros <;> omega

theorem bestOf_betterRight {l : List Neighbour} (hl : l.Pairwise fun a b => a.number.toNat < b.number.toNat) :
    (bestOf betterRight l = none ↔ l = []) ∧
      ∀ x, bestOf betterRight l = some x → x ∈ l ∧ ∀ y ∈ l, RightBefore x y := by
  refine bestOf_spec (fun _ => .inr ⟨rfl, .inr ⟨rfl, le_rfl⟩⟩) ?_ ?_ ?_ hl <;> simp only [RightBefore, betterRight, Bool.or_eq_true, Bool.and_eq_true,
    Bool.or_eq_false_iff, Bool.and_eq_false_iff, decide_eq_true_eq, decide_eq_false_iff_not] <;> intros <;> omega

/-! ## The neighbour table -/

theorem mem_candidates {s : State} (hs : HeardOk s) (h : Heard) : h ∈ candidates s ↔
    h ∈ s.bus.heard ∧ h.fingerprint = fingerprint s.ctl.cfg.d s.ctl.cfg.l := by
  rw [candidates, List.mem_filter, mem_heardInOrder hs, beq_iff_eq]
  rfl

theorem candidates_pairwise (s : State) : (candidates s).Pairwise fun a b => a.number.toNat < b.number.toNat :=
  (heardInOrder_pairwise s).filter _

/-- R123: the neighbours a list of heard stations may give on one side, in increasing number. -/
theorem filterMap_pairwise {f : Heard → Option Neighbour} (hf : ∀ h x, f h = some x → x.number = h.number)
    {l : List Heard} (hl : l.Pairwise fun a b => a.number.toNat < b.number.toNat) :
    (l.filterMap f).Pairwise fun a b => a.number.toNat < b.number.toNat := by
  refine List.pairwise_filterMap.2 (hl.imp fun {a b} hab x hx y hy => ?_)
  rw [hf a x hx, hf b y hy]
  exact hab

/-- R122, R123: the neighbours that `bestOf` chooses. -/
theorem neighboursChosen {s : State} (hs : HeardOk s) : NeighboursChosen s.ctl.cfg s.bus.heard
    (bestOf betterLeft ((candidates s).filterMap (leftNeighbour? s.ctl.cfg)))
    (bestOf betterRight ((candidates s).filterMap (rightNeighbour? s.ctl.cfg))) := by
  obtain ⟨noLeft, left⟩ := bestOf_betterLeft (filterMap_pairwise
    (fun h x hx => by rw [((leftNeighbour?_iff s.ctl.cfg h x).1 hx).2]) (candidates_pairwise s))
  obtain ⟨noRight, right⟩ := bestOf_betterRight (filterMap_pairwise
    (fun h x hx => by rw [((rightNeighbour?_iff s.ctl.cfg h x).1 hx).2]) (candidates_pairwise s))
  refine ⟨?_, ?_, fun x hx => ?_, fun x hx => ?_⟩
  · rw [noLeft, List.filterMap_eq_nil_iff]
    refine ⟨fun h y hy hf ho => ?_, fun h y hy => ?_⟩
    · have := h y ((mem_candidates hs y).2 ⟨hy, hf⟩)
      rw [(leftNeighbour?_iff _ _ _).2 ⟨ho, rfl⟩] at this
      cases this
    · obtain ⟨hy, hf⟩ := (mem_candidates hs y).1 hy
      exact Option.eq_none_iff_forall_ne_some.2 fun x hx => h y hy hf ((leftNeighbour?_iff _ _ _).1 hx).1
  · rw [noRight, List.filterMap_eq_nil_iff]
    refine ⟨fun h y hy hf ho => ?_, fun h y hy => ?_⟩
    · have := h y ((mem_candidates hs y).2 ⟨hy, hf⟩)
      rw [(rightNeighbour?_iff _ _ _).2 ⟨ho, rfl⟩] at this
      cases this
    · obtain ⟨hy, hf⟩ := (mem_candidates hs y).1 hy
      exact Option.eq_none_iff_forall_ne_some.2 fun x hx => h y hy hf ((rightNeighbour?_iff _ _ _).1 hx).1
  · obtain ⟨hmem, hfirst⟩ := left x hx
    obtain ⟨h, hh, hx⟩ := List.mem_filterMap.1 hmem
    obtain ⟨ho, rfl⟩ := (leftNeighbour?_iff _ _ _).1 hx
    obtain ⟨hheard, hprint⟩ := (mem_candidates hs h).1 hh
    refine ⟨h, hheard, hprint, ho, rfl, fun y hy hf hyo => ?_⟩
    exact hfirst _ (List.mem_filterMap.2 ⟨y, (mem_candidates hs y).2 ⟨hy, hf⟩, (leftNeighbour?_iff _ _ _).2 ⟨hyo, rfl⟩⟩)
  · obtain ⟨hmem, hfirst⟩ := right x hx
    obtain ⟨h, hh, hx⟩ := List.mem_filterMap.1 hmem
    obtain ⟨ho, rfl⟩ := (rightNeighbour?_iff _ _ _).1 hx
    obtain ⟨hheard, hprint⟩ := (mem_candidates hs h).1 hh
    refine ⟨h, hheard, hprint, ho, rfl, fun y hy hf hyo => ?_⟩
    exact hfirst _ (List.mem_filterMap.2 ⟨y, (mem_candidates hs y).2 ⟨hy, hf⟩, (rightNeighbour?_iff _ _ _).2 ⟨hyo, rfl⟩⟩)

/-- R122, R123: the events of the neighbour table, in their order. -/
def neighbourEvents (s : State) : List (EventCode × Word) :=
  (excluded s).map (fun h => (.fingerprintMismatch, BitVec.ofNat 32 (h.number.toNat + 65536 * h.fingerprint.toNat))) ++
    ((candidates s).filter (conflicts s.ctl.cfg)).map fun h => (.spanConflict, BitVec.ofNat 32 h.number.toNat)

/-- R123: the station with its neighbours chosen. -/
def neighboured (s : State) : State := s.updBus fun b => { b with
  left := bestOf betterLeft ((candidates s).filterMap (leftNeighbour? s.ctl.cfg))
  right := bestOf betterRight ((candidates s).filterMap (rightNeighbour? s.ctl.cfg)) }

theorem buildNeighbours_eq (s : State) : buildNeighbours s = raiseEach (neighbourEvents s) (neighboured s) := by
  rw [raiseEach, neighbourEvents, List.foldl_append, List.foldl_map, List.foldl_map]
  rfl

theorem buildNeighbours_eventsOnly (s : State) : EventsOnly (neighboured s) (buildNeighbours s) := by
  rw [buildNeighbours_eq]
  refine raiseEach_eventsOnly (fun e he => ?_) _
  obtain he | he := List.mem_append.1 he <;> obtain ⟨_, _, rfl⟩ := List.mem_map.1 he <;> rfl

theorem buildNeighbours_bus (s : State) : (buildNeighbours s).bus = (neighboured s).bus := by
  obtain ⟨_, _, _, _, _, h⟩ := buildNeighbours_eventsOnly s
  rw [h]

theorem buildNeighbours_queue {s t : State} (hc : t.ctl = s.ctl) (hq : t.port.queue = s.port.queue)
    (hn : t.intake.nextLine = s.intake.nextLine) (hh : t.bus.heard = s.bus.heard) (hs : HeardOk s) :
    NeighbourEvents s (buildNeighbours t).port.queue := by
  have ht : HeardOk t := by rwa [HeardOk, hh]
  refine ⟨excluded t, (candidates t).filter (conflicts t.ctl.cfg), (heardInOrder_pairwise t).filter _,
    (candidates_pairwise t).filter _, fun h => ?_, fun h => ?_, ?_⟩
  · rw [excluded, List.mem_filter, mem_heardInOrder ht, bne_iff_ne, hh, ← hc]
    rfl
  · rw [List.mem_filter, mem_candidates ht, conflicts_iff, hh, hc, and_assoc]
  · rw [buildNeighbours_eq, raiseEach_queue]
    exact queueAfterEvents_congr _ hc hq hn

theorem exec_enrollmentWindowExpiry_idle {s : State} (hop : s.bus.op ≠ .enrolling) :
    exec .enrollmentWindowExpiry s = .next s := congrArg Host.Outcome.next (if_neg hop)

/-- R115, R120: the state after the expiry of the enrollment window. -/
theorem expireWindow_eq (s : State) : expireWindow s = { offerFrame (runFrameOf s) (buildNeighbours s) with
    bus := { (offerFrame (runFrameOf s) (buildNeighbours s)).bus with op := .armed, timer := none } } := by
  have : runFrameOf (buildNeighbours s) = runFrameOf s := by
    obtain ⟨_, _, _, _, _, h⟩ := buildNeighbours_eventsOnly s
    rw [h]
    rfl
  rw [expireWindow, this]
  rfl

/-- Settles O28: the expiry builds the neighbour table, and its RUN frame leaves it. -/
theorem neighbourTable : Obligations.NeighbourTable := by
  intro s t hop hs ht
  rw [exec_enrollmentWindowExpiry hop] at ht
  cases ht
  have bus := (offerFrame_offered (buildNeighbours s) (runFrameOf s)).1
  rw [expireWindow_eq]
  refine ⟨?_, ?_⟩
  · change NeighboursChosen _ _ (offerFrame _ _).bus.left (offerFrame _ _).bus.right
    rw [bus, buildNeighbours_bus]
    exact neighboursChosen hs
  · change NeighbourEvents s (offerFrame _ _).port.queue
    rw [offerFrame_port]
    exact buildNeighbours_queue rfl rfl rfl rfl hs

/-- Settles O27: the neighbours change the bus and the records, the RUN frame is offered, and the station is armed. -/
theorem enrollmentWindowExpiry : Obligations.EnrollmentWindowExpiry := by
  refine fun s => ⟨exec_enrollmentWindowExpiry_idle, fun hop => ⟨_, exec_enrollmentWindowExpiry hop, ?_⟩⟩
  have offered := offerFrame_offered (buildNeighbours s) (runFrameOf s)
  have same := offerFrame_eq (buildNeighbours s) (runFrameOf s)
  have alone : s.bus.heard = [] → (buildNeighbours s).bus.left = none ∧ (buildNeighbours s).bus.right = none ∧
      (buildNeighbours s).port = s.port := by
    intro hn
    have none_heard : heardInOrder s = [] := by simp [heardInOrder, hn]
    have none_cand : candidates s = [] := by simp [candidates, none_heard]
    have events : neighbourEvents s = [] := by simp [neighbourEvents, excluded, none_heard, none_cand]
    rw [buildNeighbours_eq, events, raiseEach, List.foldl_nil, neighboured, none_cand]
    exact ⟨rfl, rfl, rfl⟩
  have bus : (offerFrame (runFrameOf s) (buildNeighbours s)).bus = { (neighboured s).bus with
      queue := (offerFrame (runFrameOf s) (buildNeighbours s)).bus.queue
      nextAge := (offerFrame (runFrameOf s) (buildNeighbours s)).bus.nextAge } := by
    rw [← buildNeighbours_bus]
    exact offered.1
  obtain ⟨queue, grant, seq, dropped, outputs, built⟩ := buildNeighbours_eventsOnly s
  have discards : (buildNeighbours s).counters.busQueueDiscards = s.counters.busQueueDiscards := by
    rw [built]
    rfl
  have unit := buildNeighbours_bus s
  rw [discards] at offered
  rw [expireWindow_eq]
  refine ⟨rfl, rfl, ?_, ?_, ?_, ?_, ?_, ?_, fun hn => ?_, ?_, ?_, ?_, ?_, ?_, ?_, ?_, ?_⟩
  · exact (congrArg SpanBus.heard bus :)
  · exact (congrArg SpanBus.idle bus :)
  · exact (congrArg SpanBus.reception bus :)
  · exact (congrArg SpanBus.onLine bus :)
  · exact (congrArg SpanBus.dupReported bus :)
  · refine offered.congr ?_ ?_ ?_ ?_
    · rw [unit]; rfl
    · rw [unit]; rfl
    · rw [unit]; rfl
    · simp only
      rw [bus]
      rfl
  · obtain ⟨left, right, port⟩ := alone hn
    rw [unit] at left right
    refine ⟨(congrArg SpanBus.left bus).trans left, (congrArg SpanBus.right bus).trans right, ?_⟩
    exact (offerFrame_port _ _).trans port
  · exact (offerFrame_encoder _ _).trans (by rw [built]; rfl)
  · exact (offerFrame_intake _ _).trans (by rw [built]; rfl)
  · exact (offerFrame_tracker _ _).trans (by rw [built]; rfl)
  · exact (offerFrame_ref _ _).trans (by rw [built]; rfl)
  · exact (offerFrame_table _ _).trans (by rw [built]; rfl)
  · exact (offerFrame_ctl _ _).trans (by rw [built]; rfl)
  · exact (offerFrame_dram _ _).trans (by rw [built]; rfl)
  · exact (offerFrame_pending _ _).trans (by rw [built]; rfl)

end Sys2Proof.Machine
end

section
/-! Chapter 7 of the manual, sections 7.6 to 7.9: SPAN and RUN frames (R119, R124), START and HALT (R6, R118, R125), and
standing down (R121, R125). -/

namespace Sys2Proof.Machine

/-! ## Frames taken -/

theorem exec_haltFrame_taken {s base : State} {n : StationNo} (h : Taken (.halt n) s base) :
    exec (.haltFrame n) s = .next (haltTaken base) := by
  obtain ⟨hp, rfl⟩ | ⟨he, rfl⟩ := h
  · exact exec_of_fromPeer s hp
  · rw [← endOfFrame_removeSent_eq]
    exact exec_of_ownEcho s he

theorem exec_runFrame_taken {s base : State} {n : StationNo} (h : Taken (.run n) s base) :
    exec (.runFrame n) s = .next (runTaken base) := by
  obtain ⟨hp, rfl⟩ | ⟨he, rfl⟩ := h
  · exact exec_of_fromPeer s hp
  · rw [← endOfFrame_removeSent_eq]
    exact exec_of_ownEcho s he

/-- R106, R112: the end of a frame leaves everything but the bus, and of the bus what says nothing of frames. -/
theorem Taken.base {h : HeardFrame} {s base : State} (ht : Taken h s base) :
    ∃ q, base = { s with bus := { s.bus with idle := 0, reception := none, onLine := none, queue := q } } := by
  obtain ⟨_, rfl⟩ | ⟨_, rfl⟩ := ht
  · exact ⟨_, rfl⟩
  · exact ⟨_, rfl⟩

theorem haltTaken_standDown {s : State} (hop : s.bus.op = .enrolling ∨ s.bus.op = .armed) :
    haltTaken s = stoodDown s := by
  obtain hop | hop := hop <;> rw [haltTaken, hop] <;> rfl

theorem haltAction_standDown {s : State} (hop : s.bus.op = .enrolling ∨ s.bus.op = .armed) :
    haltAction s = stoodDown s := by
  obtain hop | hop := hop <;> rw [haltAction, hop] <;> rfl

/-! ## Standing down -/

/-- An event that is not shared and a stand-down after it. -/
theorem raised_stoodDown {code : EventCode} (hs : sharedAs code = none) (data : Word) (s : State) :
    ∃ grant seq outputs, standDown (raiseNow code data s) = stoodDown { s with
      port := { s.port with queue := queueAfterEvent code s.intake.nextLine data s, grant := grant, nextSeq := seq }
      counters := { s.counters with eventRecordsDropped := droppedAfterEvent code s }
      outputs := outputs } := by
  refine ⟨_, _, _, (congrArg standDown (raise_eq s.intake.nextLine data s hs)).trans rfl⟩

/-- Settles O19: `standDown` is what every one of these comes to, with the event before it that R113 and R121 name. -/
theorem standDowns : Obligations.StandDowns := by
  intro s hop
  refine ⟨fun n base ht => ?_, fun hu => ?_, fun h hh => ?_⟩
  · rw [exec_haltFrame_taken ht, haltTaken_standDown]
    obtain ⟨q, rfl⟩ := ht.base
    exact hop
  · rw [exec_halt, writeHalt, submit_accepted hu _ rfl rfl, haltAction_standDown (by exact hop)]
    rw [endDone_accepted 3 s _ rfl]
    rfl
  · have taken : ∃ code data, sharedAs code = none ∧
        exec h.command s = .next (standDown (raiseNow code data (frameEnded s))) ∧
        (if h.sender = s.ctl.station then
          queueAfterEvent .duplicateStation s.intake.nextLine (BitVec.ofNat 32 h.frame.arb) s
        else queueAfterEvent .lateForRun s.intake.nextLine (BitVec.ofNat 32 h.sender.toNat) s) =
          queueAfterEvent code s.intake.nextLine data s := by
      obtain ⟨n, m, p, l, r, rfl, hp⟩ | ho := hh
      · refine ⟨.lateForRun, _, rfl, ?_, if_neg hp.2.2.1⟩
        rw [exec_of_fromPeer s hp, endOfFrame_eq]
        have hop : (frameEnded s).bus.op = .enrolling ∨ (frameEnded s).bus.op = .armed := hop
        obtain hop | hop := hop <;> simp only [actOnPeer, hop] <;> rfl
      · refine ⟨.duplicateStation, _, rfl, ?_, if_pos ho.2.2.1⟩
        rw [exec_of_ownNumber s ho, endOfFrame_eq]
        have hop : (frameEnded s).bus.op = .enrolling ∨ (frameEnded s).bus.op = .armed := hop
        obtain hop | hop := hop <;> simp only [actOnDuplicate, hop] <;> rfl
    obtain ⟨code, data, hs, hexec, hq⟩ := taken
    obtain ⟨_, _, _, same⟩ := raised_stoodDown hs data (frameEnded s)
    refine ⟨_, hexec, ?_⟩
    rw [same, hq]
    exact ⟨rfl, rfl, rfl, rfl, rfl, rfl, rfl, rfl, rfl, rfl⟩

/-! ## SPAN frames -/

/-- R119: a station joins the heard list and the enrollment window starts anew. -/
def heardToo (h : Heard) (s : State) : State :=
  { s with bus := { s.bus with heard := s.bus.heard ++ [h], timer := some 50 } }

theorem hearSpan_known {h : Heard} {s : State} (hk : ∃ x ∈ s.bus.heard, x.number = h.number) : hearSpan h s = s := by
  obtain ⟨x, hx, hn⟩ := hk
  exact if_pos (List.any_eq_true.2 ⟨x, hx, by simpa using hn⟩)

theorem hearSpan_new {h : Heard} {s : State} (hn : ∀ x ∈ s.bus.heard, x.number ≠ h.number) :
    hearSpan h s = offerFrame (spanFrameOf s) (heardToo h s) := by
  refine if_neg ?_
  rw [List.any_eq_true]
  rintro ⟨x, hx, he⟩
  exact hn x hx (by simpa using he)

/-- Settles O25: what `hearSpan` does with a known and with a new sender. -/
theorem spanFrame : Obligations.SpanFrame := by
  intro s n c0 w fp hop hp
  have taken : exec (.spanFrame n c0 w fp) s = .next (hearSpan
      { number := n, c0 := c0.toNat, w := w.toNat, fingerprint := fp } (frameEnded s)) := by
    refine (exec_of_fromPeer s hp).trans ?_
    rw [endOfFrame_eq]
    have hop : (frameEnded s).bus.op = .enrolling := hop
    simp only [actOnPeer, hop]
  refine ⟨fun hk => ?_, fun hnew => ?_⟩
  · rw [taken, hearSpan_known (by exact hk)]
  · have offered := offerFrame_offered (heardToo { number := n, c0 := c0.toNat, w := w.toNat, fingerprint := fp }
      (frameEnded s)) (spanFrameOf (frameEnded s))
    have ⟨bus, waiting, joins, _⟩ := offered
    rw [taken, hearSpan_new (by exact hnew)]
    refine ⟨_, rfl, ?_, ?_, ?_, ?_, ?_, ?_, ?_, ?_, offered, fun ⟨u, hu, hk⟩ => ?_, fun hspan hlen => ?_, ?_⟩
    · exact (congrArg SpanBus.heard bus :)
    · exact (congrArg SpanBus.timer bus :)
    · exact (congrArg SpanBus.op bus :).trans hop
    · exact (congrArg SpanBus.idle bus :)
    · exact (congrArg SpanBus.reception bus :)
    · exact (congrArg SpanBus.onLine bus :)
    · exact (congrArg SpanBus.left bus :)
    · exact (congrArg SpanBus.right bus :)
    · exact (waiting ⟨.inr rfl, .inl ⟨_, List.mem_map_of_mem hu, hk⟩⟩).1
    · have fresh : ¬ AlreadyOffered (spanFrameOf (frameEnded s))
          (heardToo { number := n, c0 := c0.toNat, w := w.toNat, fingerprint := fp } (frameEnded s)).bus := by
        rintro ⟨_, ⟨u, hu, hk⟩ | ⟨g, hg, _⟩⟩
        · obtain ⟨v, hv, rfl⟩ := List.mem_map.1 hu
          exact hspan v hv hk
        · cases hg
      obtain ⟨⟨u, ⟨hf, he, hs, _⟩, hperm⟩, _⟩ := joins fresh (by exact (List.length_map _).trans_lt hlen)
      exact ⟨u, hf, he, hs, hperm⟩
    · simp [heardToo, frameEnded]

/-! ## The epoch -/

/-- R5, R124: what a station that takes the epoch is, beside the record of RUN_STARTED. -/
theorem takeEpoch_eq (s : State) : ∃ grant seq dropped outputs, takeEpoch s = { epochState s with
    port := { s.port with queue := queueAfterEvent .runStarted 0 s.encoder.e s, grant := grant, nextSeq := seq }
    counters := { s.counters with eventRecordsDropped := dropped }
    outputs := outputs } := by
  have raised := raise_eq (code := .runStarted) 0 s.encoder.e (epochState s) rfl
  exact ⟨_, _, _, _, raised⟩

theorem withdrawEnrolling_eq (q : List TxFrame) :
    withdrawEnrolling q = q.filter fun u => u.frame.kind != .span && u.frame.kind != .run := by
  simp only [withdrawEnrolling, Bool.not_or]
  rfl

/-- Settles O20: the neighbours are built in ENROLLING, and then every block takes up its run state. -/
theorem runFrameTakesEpoch : Obligations.RunFrameTakesEpoch := by
  intro s base n hop ht
  obtain ⟨q, hbase⟩ := ht.base
  rw [exec_runFrame_taken ht]
  obtain ⟨u, hu, events, bus, armed, enrolling⟩ : ∃ u, runTaken base = takeEpoch u ∧
      EventsOnly { base with bus := u.bus } u ∧
      u.bus = { base.bus with left := u.bus.left, right := u.bus.right } ∧
      (s.bus.op = .armed → u = base) ∧ (s.bus.op = .enrolling → u = buildNeighbours base) := by
    have hb : base.bus.op = s.bus.op := by rw [hbase]
    obtain hop | hop := hop
    · refine ⟨buildNeighbours base, ?_, ?_, ?_, ?_, fun _ => rfl⟩
      · simp only [runTaken, hb, hop]
      · rw [buildNeighbours_bus]
        exact buildNeighbours_eventsOnly base
      · rw [buildNeighbours_bus]
        rfl
      · rw [hop]; nofun
    · refine ⟨base, ?_, ⟨_, _, _, _, _, rfl⟩, rfl, fun _ => rfl, ?_⟩
      · simp only [runTaken, hb, hop]
      · rw [hop]; nofun
  obtain ⟨_, _, _, _, hepoch⟩ := takeEpoch_eq u
  obtain ⟨_, _, _, _, _, hev⟩ := events
  have encoder : u.encoder = s.encoder := by rw [hev, hbase]
  have intake : u.intake = s.intake := by rw [hev, hbase]
  have table : u.table = s.table := by rw [hev, hbase]
  have ref : u.ref = s.ref := by rw [hev, hbase]
  have ctl : u.ctl = s.ctl := by rw [hev, hbase]
  have dram : u.dram = s.dram := by rw [hev, hbase]
  have pending : u.pending = s.pending := by rw [hev, hbase]
  have started : ∀ q, u.port.queue = q → queueAfterEvent .runStarted 0 u.encoder.e u =
      queueAfterEvent .runStarted 0 s.encoder.e { s with port := { s.port with queue := q } } := by
    rintro q rfl
    rw [encoder]
    exact queueAfterEvent_congr _ _ _ ctl rfl
  refine ⟨_, rfl, ?_⟩
  rw [hu, hepoch]
  refine ⟨?_, ?_, rfl, ?_, rfl, ?_, ?_, ?_, rfl, rfl, ?_, ?_, fun ha => ?_, fun he hs => ?_, ref, ctl, dram, pending⟩
  · simp only [epochState, Encoder.atEpoch, encoder]
  · simp only [epochState, intake]
  · simp only [epochState, BandTable.atEpoch, table]
  · exact (congrArg SpanBus.idle bus :).trans (by rw [hbase])
  · exact (congrArg SpanBus.reception bus :).trans (by rw [hbase])
  · exact (congrArg SpanBus.onLine bus :).trans (by rw [hbase])
  · exact (congrArg SpanBus.heard bus :).trans (by rw [hbase])
  · refine (withdrawEnrolling_eq _).trans ?_
    rw [bus]
  · have same := armed ha
    refine ⟨?_, ?_, ?_⟩
    · exact (congrArg (·.bus.left) same).trans (by rw [hbase])
    · exact (congrArg (·.bus.right) same).trans (by rw [hbase])
    · refine (started s.port.queue ?_).trans rfl
      rw [same, hbase]
  · have same := enrolling he
    refine ⟨?_, u.port.queue, ?_, started _ rfl⟩
    · have : HeardOk base := by
        rw [hbase]
        exact hs
      have chosen := neighboursChosen this
      have hl : (epochState u).bus.left = (neighboured base).bus.left := by
        rw [← buildNeighbours_bus, ← same]
        rfl
      have hr : (epochState u).bus.right = (neighboured base).bus.right := by
        rw [← buildNeighbours_bus, ← same]
        rfl
      change NeighboursChosen _ _ (epochState u).bus.left (epochState u).bus.right
      rw [hl, hr]
      have hcfg : base.ctl = s.ctl := by rw [hbase]
      have hheard : base.bus.heard = s.bus.heard := by rw [hbase]
      rw [← hcfg, ← hheard]
      exact chosen
    · rw [same]
      exact buildNeighbours_queue (by rw [hbase]) (by rw [hbase]) (by rw [hbase]) (by rw [hbase]) hs

/-! ## START and HALT -/

theorem busEnabled_accepted (code : Word) (s : State) : busEnabled (accepted code s) = busEnabled s := rfl

theorem offerFrame_waiting {f : Frame} {s : State} (h : AlreadyOffered f s.bus) : offerFrame f s = s :=
  if_pos ((alreadyQueued_iff f s.bus).2 h)

theorem offerFrame_empty {f : Frame} {s : State} (h : ¬ AlreadyOffered f s.bus) (hq : s.bus.queue = []) :
    offerFrame f s = { s with bus := { s.bus with
      nextAge := s.bus.nextAge + 1
      queue := [{ frame := f, errors := 0, sending := false, age := s.bus.nextAge }] } } := by
  dsimp only [offerFrame]
  rw [if_neg (mt (alreadyQueued_iff f s.bus).1 h), hq]
  rfl

/-- Settles O32: `beginEnrolling` with and without a SPAN on the line, and `runAlone`. -/
theorem startCommand : Obligations.StartCommand := by
  intro s hu hop
  have taken : exec .start s = .next (endDone (startRun (accepted 2 s))) := by
    rw [exec_start, writeStart, submit_accepted hu _ (beq_iff_eq.2 hop) rfl]
    rfl
  refine ⟨fun hb hl => ?_, fun hb ⟨f, hf, hk⟩ => ?_, fun hb => ?_⟩
  · rw [taken, startRun, if_pos (by exact hb)]
    dsimp only [beginEnrolling]
    rw [offerFrame_empty ?_ rfl, endDone_accepted 2 s _ rfl]
    · rfl
    · rintro ⟨_, ⟨u, hu, _⟩ | ⟨g, hg, hk⟩⟩
      · cases hu
      · exact hl g hg hk
  · rw [taken, startRun, if_pos (by exact hb)]
    dsimp only [beginEnrolling]
    rw [offerFrame_waiting (by exact ⟨.inr rfl, .inr ⟨f, hf, hk⟩⟩), endDone_accepted 2 s _ rfl]
    rfl
  · obtain ⟨_, _, _, _, hepoch⟩ := takeEpoch_eq ((accepted 2 s).updBus fun b => { b with heard := [], left := none, right := none })
    rw [taken, startRun, if_neg (by rw [busEnabled_accepted, hb]; nofun), runAlone, hepoch, endDone_eq]
    refine ⟨_, rfl, rfl, rfl, rfl, rfl, ?_, rfl, rfl, rfl, rfl, rfl⟩
    rw [← withdrawEnrolling_eq]
    rfl

/-- Settles O33: `haltAction` where it ends no run. -/
theorem haltCommand : Obligations.HaltCommand := by
  intro s hu
  have taken : exec .halt s = .next (endDone (haltAction (accepted 3 s))) := by
    rw [exec_halt, writeHalt, submit_accepted hu _ rfl rfl]
    rfl
  refine ⟨fun hop => ?_, fun hop hb => ?_⟩
  · have same : haltAction (accepted 3 s) = accepted 3 s := by
      have hop : (accepted 3 s).bus.op = .unconfigured ∨ (accepted 3 s).bus.op = .idle ∨
        (accepted 3 s).bus.op = .stopping := hop
      obtain hop | hop | hop := hop <;> simp only [haltAction, hop]
    rw [taken, same, endDone_accepted 3 s _ rfl]
    rfl
  · have offered : haltAction (accepted 3 s) = offerFrame (haltFrameOf s) (accepted 3 s) := by
      have hop : (accepted 3 s).bus.op = .running := hop
      simp only [haltAction, hop]
      exact if_pos hb
    rw [taken, offered]
    refine ⟨fun h => ?_, _, _, offerFrame_offered (accepted 3 s) (haltFrameOf s), ?_⟩
    · rw [offerFrame_waiting (by exact ⟨.inl rfl, h⟩), endDone_accepted 3 s _ rfl]
      rfl
    · rw [endDone_accepted 3 s _ (by rw [offerFrame_ctl]; rfl), offerFrame_eq]
      rfl

end Sys2Proof.Machine
end

section
/-! Chapters 2, 3, 6 and 7 of the manual: local splices and marks (R25, R35, R128, R179), alerts (R180), and the band a
summary names (R94). -/

namespace Sys2Proof.Machine

/-! ## Local events that may be shared -/

theorem reportLocal_eventsOnly (code : EventCode) (line : Nat) (data : Word) (s : State) :
    EventsOnly s (reportLocal code line data s) := by
  unfold reportLocal
  split
  · exact ⟨_, _, _, _, _, (offerEvent_eq s _).1⟩
  · exact ⟨_, _, _, _, _, rfl⟩

/-- R179: what raising a local event may change. -/
theorem raise_frame (code : EventCode) (line : Nat) (data : Word) (s : State) :
    ∃ bus queue grant seq dropped discards outputs, raise code line data s = { s with
      bus := bus
      port := { s.port with queue := queue, grant := grant, nextSeq := seq }
      counters := { s.counters with eventRecordsDropped := dropped, busQueueDiscards := discards }
      outputs := outputs } := by
  obtain ⟨_, _, _, _, _, report⟩ := reportLocal_eventsOnly code line data s
  rw [raise]
  unfold shareLocal
  split
  · rw [report]
    exact ⟨_, _, _, _, _, _, _, rfl⟩
  · split
    · rw [offerFrame_eq, report]
      exact ⟨_, _, _, _, _, _, _, rfl⟩
    · rw [report]
      exact ⟨_, _, _, _, _, _, _, rfl⟩

theorem shares_iff (code : EventCode) (s : State) :
    (s.ctl.cfg.share.getLsbD code.code && s.bus.op == .running && busEnabled s) = true ↔ Shares code s := by
  simp [Shares, and_assoc]

/-- R128, R179: the alert of a local splice or mark. -/
theorem raise_sharedAlert {code : EventCode} {k : AlertKind} (h : sharedAs code = some k) (line : Nat) (data : Word)
    (s : State) : SharedAlert code k line s (raise code line data s) := by
  obtain ⟨_, _, _, _, _, report⟩ := reportLocal_eventsOnly code line data s
  have bus : (reportLocal code line data s).bus = s.bus := by rw [report]
  have ctl : (reportLocal code line data s).ctl = s.ctl := by rw [report]
  have discards : (reportLocal code line data s).counters.busQueueDiscards = s.counters.busQueueDiscards := by
    rw [report]
  have cond : Shares code (reportLocal code line data s) ↔ Shares code s := by
    simp only [Shares, busEnabled, bus, ctl]
  rw [raise, shareLocal, h]
  dsimp only
  refine ⟨fun hs => ?_, fun hs => ?_⟩
  · rw [if_pos ((shares_iff _ _).2 (cond.2 hs)), alertFrameOf, ctl]
    have offered := offerFrame_offered (reportLocal code line data s)
      (HeardFrame.alert s.ctl.station k (BitVec.ofNat 32 line)).frame
    rwa [bus, discards] at offered
  · rw [if_neg (mt (shares_iff _ _).1 (mt cond.1 hs))]
    exact ⟨bus, discards⟩

theorem SharedAlert.of_eq {code : EventCode} {k : AlertKind} {line : Nat} {s u t : State} (hb : u.bus = s.bus)
    (hc : u.ctl = s.ctl) (hd : u.counters.busQueueDiscards = s.counters.busQueueDiscards)
    (h : SharedAlert code k line u t) : SharedAlert code k line s t := by
  simpa only [SharedAlert, Shares, busEnabled, hb, hc, hd] using h

/-! ## Splices -/

/-- R27 to R29: what a window request may change. -/
theorem requestWindow_eq (first last : Nat) (s : State) : ∃ late forced, requestWindow first last s = { s with
    intake := { s.intake with windows := (requestWindow first last s).intake.windows }
    counters := { s.counters with spliceWindowsLate := late, spliceWindowsForced := forced } } := by
  dsimp only [requestWindow]
  split
  · exact ⟨_, _, rfl⟩
  split
  · exact ⟨_, _, rfl⟩
  · rw [enterWindow]
    split
    · exact ⟨_, _, rfl⟩
    · split <;> exact ⟨_, _, rfl⟩

theorem exec_localSplice_idle {s : State} (h : s.bus.op ≠ .running) : exec .localSplice s = .next s :=
  congrArg Host.Outcome.next (if_neg h)

theorem exec_localSplice {s : State} (h : s.bus.op = .running) :
    exec .localSplice s = .next (takeSplice (s.encoder.lastLine + s.ctl.cfg.soff) s) :=
  congrArg Host.Outcome.next (if_pos h)

/-- Settles O11: a start line beyond the last line, and otherwise the window requested and the event raised. -/
theorem localSplice : Obligations.LocalSplice := by
  refine fun s => ⟨exec_localSplice_idle, fun hbeyond => ?_, fun hw hop start hstart hle => ?_⟩
  · by_cases hop : s.bus.op = .running
    · rw [exec_localSplice hop, takeSplice, if_pos (by exact hbeyond)]
    · exact exec_localSplice_idle hop
  · have sb := hw.2 (by rw [hop]; nofun)
    have requested := requestWindow_requested (s := s) hw.1 (first := start) (last := start + s.ctl.cfg.sb - 1) (by omega)
    have canonical := requestWindow_canonical (s := s) hw.1 (first := start) (last := start + s.ctl.cfg.sb - 1) (by omega)
    obtain ⟨late, forced, window⟩ := requestWindow_eq start (start + s.ctl.cfg.sb - 1) s
    rw [exec_localSplice hop, ← hstart, takeSplice, if_neg (by rw [maxLine]; omega)]
    have raised := raise_raised (requestWindow start (start + s.ctl.cfg.sb - 1) s) .splice start s.encoder.lastPosition
    have shared := raise_sharedAlert (code := .splice) rfl start s.encoder.lastPosition
      (requestWindow start (start + s.ctl.cfg.sb - 1) s)
    obtain ⟨_, _, _, _, _, _, _, frame⟩ := raise_frame .splice start s.encoder.lastPosition
      (requestWindow start (start + s.ctl.cfg.sb - 1) s)
    have late' : (raise .splice start s.encoder.lastPosition
        (requestWindow start (start + s.ctl.cfg.sb - 1) s)).counters.spliceWindowsLate =
          (requestWindow start (start + s.ctl.cfg.sb - 1) s).counters.spliceWindowsLate := by rw [frame]
    have forced' : (raise .splice start s.encoder.lastPosition
        (requestWindow start (start + s.ctl.cfg.sb - 1) s)).counters.spliceWindowsForced =
          (requestWindow start (start + s.ctl.cfg.sb - 1) s).counters.spliceWindowsForced := by rw [frame]
    refine ⟨_, rfl, ?_, ?_, ?_, ?_, ?_, ?_⟩
    · rw [raise_intake, late', forced']
      exact requested
    · rw [raise_intake]; exact canonical
    · rw [raise_intake, window]
    · exact raised.of_eq (by rw [window]) (by rw [window]) (by rw [window]) (by rw [window])
    · exact shared.of_eq (by rw [window]) (by rw [window]) (by rw [window])
    · simp

/-! ## Marks -/

theorem exec_localMark_idle {s : State} (h : s.bus.op ≠ .running) : exec .localMark s = .next s :=
  congrArg Host.Outcome.next (if_neg h)

theorem exec_localMark {s : State} (h : s.bus.op = .running) :
    exec .localMark s = .next (takeMark (s.encoder.lastLine + s.ctl.cfg.moff) s) :=
  congrArg Host.Outcome.next (if_pos h)

/-- R37: what the offer of a mark may change. -/
theorem offerMark_eq (start : Nat) (source : MarkSource) (s : State) : ∃ discarded, offerMark start source s = { s with
    tracker := { s.tracker with marks := (offerMark start source s).tracker.marks }
    counters := { s.counters with marksDiscarded := discarded } } := by
  obtain same | ⟨_, same⟩ := offerMark_cases s start source <;> rw [same] <;> exact ⟨_, rfl⟩

/-- R37: an offered mark is counted as discarded or stands in the queue. -/
theorem offerMark_offered (start : Nat) (source : MarkSource) (s : State) :
    (Discarded start s → (offerMark start source s).tracker = s.tracker ∧
      (offerMark start source s).counters.marksDiscarded = satInc s.counters.marksDiscarded) ∧
    (¬ Discarded start s →
      (offerMark start source s).tracker = { s.tracker with marks := (offerMark start source s).tracker.marks } ∧
      (offerMark start source s).tracker.marks.Perm ({ start := start, source := source } :: s.tracker.marks) ∧
      (offerMark start source s).counters.marksDiscarded = s.counters.marksDiscarded ∧
      (s.tracker.marks.Pairwise (fun a b => a.start ≤ b.start) →
        (offerMark start source s).tracker.marks.Pairwise fun a b => a.start ≤ b.start)) := by
  refine ⟨fun h => ?_, fun h => ?_⟩
  · rw [offerMark_discarded source h]
    exact ⟨rfl, rfl⟩
  · rw [offerMark_inserted source h]
    exact ⟨rfl, insertMark_perm _ _, rfl, fun hs => insertMark_pairwise (k := 0) hs fun _ _ => Nat.zero_le _⟩

/-- Settles O12: a start line beyond the last line, and otherwise the mark offered and the event raised. -/
theorem localMark : Obligations.LocalMark := by
  refine fun s => ⟨exec_localMark_idle, fun hop hbeyond => ?_, fun hop start hstart hle => ?_⟩
  · rw [exec_localMark hop, takeMark, if_pos (by exact hbeyond)]
    rfl
  · obtain ⟨discarded, offer⟩ := offerMark_eq start .own s
    obtain ⟨dropped, inserted⟩ := offerMark_offered start .own s
    rw [exec_localMark hop, ← hstart, takeMark, if_neg (by rw [maxLine]; omega)]
    have raised := raise_raised (offerMark start .own s) .mark start s.encoder.lastPosition
    have shared := raise_sharedAlert (code := .mark) rfl start s.encoder.lastPosition (offerMark start .own s)
    obtain ⟨_, _, _, _, _, _, _, frame⟩ := raise_frame .mark start s.encoder.lastPosition (offerMark start .own s)
    have counted : (raise .mark start s.encoder.lastPosition (offerMark start .own s)).counters.marksDiscarded =
        (offerMark start .own s).counters.marksDiscarded := by rw [frame]
    refine ⟨_, rfl, fun h => ?_, fun h => ?_, ?_, ?_, ?_⟩
    · rw [raise_tracker, counted]
      exact dropped h
    · obtain ⟨h1, h2, h3, h4⟩ := inserted h
      rw [raise_tracker, counted]
      exact ⟨h1, h2, h4, h3⟩
    · exact raised.of_eq (by rw [offer]) (by rw [offer]) (by rw [offer]) (by rw [offer])
    · exact shared.of_eq (by rw [offer]) (by rw [offer]) (by rw [offer])
    · simp

/-! ## Alerts of peers -/

/-- R180: the EVENT record of a peer's alert. -/
def alertRecord (n : StationNo) (k : AlertKind) (line : Word) : EventRec :=
  { code := alertEvent k, origin := n, peer := true, line := line, data := 0 }

/-- R180: the station once a peer's alert has been reported, as its REPORT bit says. -/
def alertReported (n : StationNo) (k : AlertKind) (line : Word) (s : State) : State :=
  if peerReports k s = true then offerEvent (alertRecord n k line) s else s

theorem routeAlert_eq (n : StationNo) (k : AlertKind) (line : Word) (s : State) : routeAlert n k line s =
    if peerActs k s = true then actOnAlert n k line (alertReported n k line s) else alertReported n k line s := rfl

/-- R151, R155, R160, R180: the record of a peer's alert. -/
theorem alertReported_eq (n : StationNo) (k : AlertKind) (line : Word) (s : State) :
    (∃ grant seq outputs, alertReported n k line s = { s with
      port := { s.port with
        queue := if peerReports k s = true ∧ 16 + fill s ≤ 2097152 then s.port.queue ++ [.event (alertRecord n k line)]
          else s.port.queue
        grant := grant
        nextSeq := seq }
      counters := { s.counters with
        eventRecordsDropped := if peerReports k s = true ∧ 2097152 < 16 + fill s then
            satInc s.counters.eventRecordsDropped
          else s.counters.eventRecordsDropped }
      outputs := outputs }) ∧ SpaceTested s (alertReported n k line s) := by
  unfold alertReported
  split
  next h =>
    obtain ⟨offered, tested⟩ := offerEvent_eq s (alertRecord n k line)
    simp only [h, true_and]
    exact ⟨⟨_, _, _, offered⟩, tested⟩
  next h =>
    simp only [h]
    exact ⟨⟨_, _, _, rfl⟩, .of_eq rfl rfl rfl rfl⟩

theorem SpaceTested.of_same {s u t : State} (h : SpaceTested s u) (hp : t.port = u.port) (ho : t.outputs = u.outputs) :
    SpaceTested s t := by
  simpa only [SpaceTested, hp, ho] using h

/-- Settles O21: the record of the alert, and the window or the mark it asks for. -/
theorem alertFrame : Obligations.AlertFrame := by
  intro s n k line hrun hp
  have taken : exec (.alertFrame n k line) s = .next (routeAlert n k line (frameEnded s)) := by
    refine (exec_of_fromPeer s hp).trans ?_
    rw [endOfFrame_eq]
    have hrun : (frameEnded s).bus.op = .running ∨ (frameEnded s).bus.op = .stopping := hrun
    obtain hop | hop := hrun <;> simp only [actOnPeer, hop]
  obtain ⟨⟨grant, seq, outputs, report⟩, tested⟩ := alertReported_eq n k line (frameEnded s)
  have acted : ∃ intake tracker counters, routeAlert n k line (frameEnded s) =
      { alertReported n k line (frameEnded s) with intake := intake, tracker := tracker, counters := counters } ∧
      counters.eventRecordsDropped = (alertReported n k line (frameEnded s)).counters.eventRecordsDropped := by
    rw [routeAlert_eq]
    split
    · cases k with
      | splice =>
        obtain ⟨_, _, window⟩ := requestWindow_eq line.toNat
          (line.toNat + (alertReported n .splice line (frameEnded s)).ctl.cfg.sb - 1) (alertReported n .splice line (frameEnded s))
        exact ⟨_, _, _, window, rfl⟩
      | mark =>
        obtain ⟨_, offer⟩ := offerMark_eq line.toNat (.peer n) (alertReported n .mark line (frameEnded s))
        exact ⟨_, _, _, offer, rfl⟩
    · exact ⟨_, _, _, rfl, rfl⟩
  have acts : peerActs k (frameEnded s) = peerActs k s := by cases k <;> rfl
  have fields : (alertReported n k line (frameEnded s)).intake = s.intake ∧
      (alertReported n k line (frameEnded s)).tracker = s.tracker ∧
      (alertReported n k line (frameEnded s)).ctl = s.ctl ∧
      (alertReported n k line (frameEnded s)).counters.spliceWindowsLate = s.counters.spliceWindowsLate ∧
      (alertReported n k line (frameEnded s)).counters.spliceWindowsForced = s.counters.spliceWindowsForced ∧
      (alertReported n k line (frameEnded s)).counters.marksDiscarded = s.counters.marksDiscarded := by
    rw [report]
    exact ⟨rfl, rfl, rfl, rfl, rfl, rfl⟩
  obtain ⟨intake, tracker, ctl, late, forced, discarded⟩ := fields
  obtain ⟨i', t', c', frame, dropped⟩ := acted
  refine ⟨_, taken, ?_, ?_, ?_, ?_, fun ha => ?_, fun ha hk => ?_, fun ha hk hw => ?_, ?_⟩
  · rw [frame, report]
    cases k <;> rfl
  · rw [frame]
    change c'.eventRecordsDropped = _
    rw [dropped, report]
    cases k <;> rfl
  · rw [frame, report]
    rfl
  · have same := tested.of_same (t := routeAlert n k line (frameEnded s)) (by rw [frame]) (by rw [frame])
    exact same
  · rw [routeAlert_eq, acts, if_neg (by rw [ha]; nofun)]
    exact ⟨intake, tracker⟩
  · subst hk
    have offered := offerMark_offered line.toNat (.peer n) (alertReported n .mark line (frameEnded s))
    have same : Discarded line.toNat (alertReported n .mark line (frameEnded s)) ↔ Discarded line.toNat s := by
      simp only [Discarded, intake, tracker, ctl]
    rw [same, tracker, discarded] at offered
    rw [routeAlert_eq, acts, if_pos ha, actOnAlert]
    refine ⟨(offerMark_intake _ _ _).trans intake, offered.1, fun h => ?_⟩
    obtain ⟨h1, h2, h3, _⟩ := offered.2 h
    exact ⟨h1, h2, h3⟩
  · subst hk
    have sb := hw.2 (not_unconfigured_of_inRun hrun)
    have canonical : WindowsCanonical (alertReported n .splice line (frameEnded s)).intake.windows := by
      rw [intake]
      exact hw.1
    have hle : line.toNat ≤ line.toNat + s.ctl.cfg.sb - 1 := by omega
    have requested := requestWindow_requested canonical hle
    have inForm := requestWindow_canonical canonical hle
    obtain ⟨_, _, window⟩ := requestWindow_eq line.toNat (line.toNat + s.ctl.cfg.sb - 1)
      (alertReported n .splice line (frameEnded s))
    rw [intake, late, forced] at requested
    rw [routeAlert_eq, acts, if_pos ha, actOnAlert, ctl]
    refine ⟨(requestWindow_tracker _ _ _).trans tracker, requested, inForm, ?_⟩
    rw [window, intake]
  · rw [frame, report]
    exact ⟨rfl, rfl, rfl, rfl, rfl, rfl, rfl⟩

/-! ## The band a summary names -/

theorem resolveBand_iff {current m : Nat} (hm : m < 65536) (b : Nat) : resolveBand current m = some b ↔
    b % 65536 = m ∧ current ≤ b + 32768 ∧ b ≤ current + 32767 := by
  dsimp only [resolveBand]
  split
  · simp only [Option.some.injEq]
    omega
  · split
    · simp only [Option.some.injEq]
      omega
    · simp only [reduceCtorEq, false_iff]
      omega

end Sys2Proof.Machine
end

section
/-! Chapter 6 of the manual: a neighbour's summary is attached, or is a duplicate, late or early (R93 to R97), and the
band it names (R94). -/

namespace Sys2Proof.Machine

/-! ## The facing zone -/

theorem TileClass.ofCode_of_le {c : Nat} (h : c ≤ 4) : ∃ k, TileClass.ofCode c = some k ∧ k.code = c := by
  interval_cases c <;> exact ⟨_, rfl, rfl⟩

theorem TileClass.ofCode_of_gt {c : Nat} (h : ¬ c ≤ 4) : TileClass.ofCode c = none := by
  obtain ⟨d, rfl⟩ : ∃ d, c = d + 5 := ⟨c - 5, by omega⟩
  rfl

/-- R93: a zone whose codes all name classes, entry by entry. -/
theorem zoneFrom_some {codes : List ZoneCode} (h : ∀ z ∈ codes, z.cls.toNat ≤ 4) (g : Nat) :
    ∃ zone, zoneFrom g codes = some zone ∧ zone.map (fun e => (e.g, e.cls.code, e.severity)) =
      codes.mapIdx fun i c => (g + i, c.cls.toNat, c.severity.toNat) := by
  induction codes generalizing g with
  | nil => exact ⟨[], rfl, rfl⟩
  | cons z zs ih =>
    obtain ⟨k, hk, hcode⟩ := TileClass.ofCode_of_le (h z (by simp))
    obtain ⟨zone, hzone, held⟩ := ih (fun y hy => h y (by simp [hy])) (g + 1)
    refine ⟨{ g := g, cls := k, severity := z.severity.toNat } :: zone, by simp [zoneFrom, hk, hzone], ?_⟩
    simp only [List.map_cons, held, hcode, List.mapIdx_cons, Nat.add_zero]
    congr 2
    funext i c
    rw [Nat.add_assoc, Nat.add_comm 1 i]

/-- R93: one code that names no class spoils the zone. -/
theorem zoneFrom_none {codes : List ZoneCode} (h : ∃ z ∈ codes, ¬ z.cls.toNat ≤ 4) (g : Nat) :
    zoneFrom g codes = none := by
  induction codes generalizing g with
  | nil => obtain ⟨_, hz, _⟩ := h; cases hz
  | cons z zs ih =>
    rw [zoneFrom]
    by_cases hz : z.cls.toNat ≤ 4
    · obtain ⟨y, hy, hcls⟩ := h
      rcases List.mem_cons.1 hy with rfl | hy
      · exact absurd hz hcls
      · rw [ih ⟨y, hy, hcls⟩]
        split
        · next habs => cases habs
        · rfl
    · rw [TileClass.ofCode_of_gt hz]

/-- R93: a facing zone in form is held column by column, with the pressure held to 3. -/
theorem facingZone_inForm {x : Neighbour} {codes : List ZoneCode} (h : ZoneInForm x codes) (g : Nat) (p : Byte) :
    ∃ z, facingZone g x.overlap codes p = some z ∧ HoldsZone z g codes p := by
  obtain ⟨hlen, hcls⟩ := h
  obtain ⟨zone, hzone, held⟩ := zoneFrom_some hcls g
  exact ⟨{ zone := zone, pressure := min p.toNat 3 }, by rw [facingZone, if_pos hlen, hzone]; rfl, rfl, held⟩

theorem facingZone_notInForm {x : Neighbour} {codes : List ZoneCode} (h : ¬ ZoneInForm x codes) (g : Nat) (p : Byte) :
    facingZone g x.overlap codes p = none := by
  unfold facingZone
  split
  · next hlen =>
    rw [zoneFrom_none, Option.map_none]
    by_contra hall
    exact h ⟨hlen, fun z hz => by_contra fun hcls => hall ⟨z, hz, hcls⟩⟩
  · rfl

/-! ## The side and the band of a summary -/

/-- R93: a neighbour's summary is placed on its side. -/
theorem takeSummary_of_side {s : State} {w : Which} {n : StationNo} {x : Neighbour} (h : SideOf w n s x) (m : Half)
    (p : Byte) (l r : List ZoneCode) : takeSummary n m p l r s =
      placeSummary w m.toNat (facingZone (facingStart w s x) x.overlap (facingCodes w l r) p) s := by
  obtain ⟨hside, hnumber, hother⟩ := h
  cases w with
  | left =>
    have found : s.bus.left.filter (fun y => y.number == n) = some x := by
      rw [show s.bus.left = some x from hside]; simp [Option.filter, hnumber]
    rw [takeSummary, found]
    rfl
  | right =>
    have found : s.bus.right.filter (fun y => y.number == n) = some x := by
      rw [show s.bus.right = some x from hside]; simp [Option.filter, hnumber]
    have other : s.bus.left.filter (fun y => y.number == n) = none :=
      Option.filter_eq_none_iff.2 fun y hy => by simpa using hother rfl y hy
    rw [takeSummary, found, other]
    rfl

/-- R93, R94: the frame as a command: its end, and its summary placed at the band it names. -/
theorem exec_summaryFrame {s : State} {w : Which} {x : Neighbour} {n : StationNo} {m : Half} {p : Byte}
    {l r : List ZoneCode} (hrun : inRun s) (hp : FromPeer (.summary n m p l r) s) (h : SideOf w n s x) :
    exec (.summaryFrame n m p l r) s = .next (placeAt w (resolveBand (s.intake.nextLine / 32) m.toNat)
      (facingZone (facingStart w s x) x.overlap (facingCodes w l r) p) (frameEnded s)) := by
  refine (exec_of_fromPeer s hp).trans ?_
  rw [endOfFrame_eq, actOnPeer_summary (by exact hrun), takeSummary_of_side (w := w) (x := x) (by cases w <;> exact h)]
  cases w <;> rfl

theorem findEntry_frameEnded (band : Nat) (s : State) : findEntry band (frameEnded s) = findEntry band s := rfl

theorem resolveBand_add {current m d : Nat} (hm : m < 65536) (hd : d < 65536) (h : (current + d) % 65536 = m) :
    (65536 + m - current % 65536) % 65536 = d := by omega

/-- Settles O24: the difference modulo 65,536, and a band that would lie below 0. -/
theorem resolveBand_holds : Obligations.ResolveBand := by
  refine ⟨fun current m hm => ⟨resolveBand_iff hm, fun d hd h => ?_⟩, fun s w x n m p l r hrun hp hside hnone => ?_⟩
  · have diff := resolveBand_add hm hd h
    simp only [Machine.resolveBand, diff]
    refine ⟨fun h1 => if_pos h1, fun h1 h2 => ?_, fun h1 h2 => ?_⟩
    · rw [if_neg (by omega), if_pos h2]
    · rw [if_neg (by omega), if_neg (by omega)]
  · rw [exec_summaryFrame hrun hp hside, hnone]
    rfl

/-! ## Summaries that find no side to set -/

theorem attachSummary_set {w : Which} {e : Entry} (h : e.side w ≠ .none) (z : Option Summary) (s : State) :
    attachSummary w e z s = s := by
  unfold attachSummary
  split
  · next hnone => exact absurd hnone h
  · rfl

theorem stopsWith_iff {e : Entry} {s : State} : stopsWith e s = true ↔ s.bus.op = .stopping ∧ e.state = .scored := by
  simp [stopsWith]

theorem not_stopsWith {e : Entry} {s : State} (h : s.bus.op = .running ∨ e.state = .filling) :
    ¬ stopsWith e s = true := by
  rw [stopsWith_iff]
  rintro ⟨hop, hst⟩
  rcases h with h | h
  · rw [h] at hop; cases hop
  · rw [h] at hst; cases hst

/-- R96: an early list takes one more summary, and of five loses the lowest. -/
theorem enterEarly_entered {s : State} {w : Which} {x : EarlySummary} (hnew : ∀ y ∈ s.table.early w, y.band ≠ x.band)
    (hok : EarlyListOk (s.table.early w)) :
    EarlyListOk ((enterEarly w x s).table.early w) ∧
    (enterEarly w x s).table = s.table.setEarly w ((enterEarly w x s).table.early w) ∧
    ((s.table.early w).length < 4 →
      ((enterEarly w x s).table.early w).Perm (x :: s.table.early w) ∧ (enterEarly w x s).counters = s.counters) ∧
    ((s.table.early w).length = 4 →
      (∃ lost, (lost :: (enterEarly w x s).table.early w).Perm (x :: s.table.early w) ∧
        ∀ v ∈ (enterEarly w x s).table.early w, lost.band < v.band) ∧
      (enterEarly w x s).counters = { s.counters with
        summariesEarlyLost := satInc s.counters.summariesEarlyLost }) := by
  obtain ⟨hlen, hpair⟩ := hok
  have perm := insertEarly_perm x (s.table.early w)
  have sorted := insertEarly_pairwise hpair hnew
  have absent : ((s.table.early w).any fun y => y.band == x.band) = false := by simpa using hnew
  have len := perm.length_eq
  rw [List.length_cons] at len
  by_cases hfull : (s.table.early w).length < 4
  · have entered : enterEarly w x s = s.updTable (BandTable.setEarly w (insertEarly x (s.table.early w))) := by
      simp only [enterEarly, absent, Bool.false_eq_true, if_false]
      rw [if_pos (by omega)]
    have early : (enterEarly w x s).table.early w = insertEarly x (s.table.early w) := by
      rw [entered]; cases w <;> rfl
    rw [early, entered]
    exact ⟨⟨by omega, sorted⟩, rfl, fun _ => ⟨perm, rfl⟩, fun h => absurd h (by omega)⟩
  · have entered : enterEarly w x s =
        bump .summariesEarlyLost (s.updTable (BandTable.setEarly w (insertEarly x (s.table.early w)).tail)) := by
      simp only [enterEarly, absent, Bool.false_eq_true, if_false]
      rw [if_neg (by omega)]
    have early : (enterEarly w x s).table.early w = (insertEarly x (s.table.early w)).tail := by
      rw [entered]; cases w <;> rfl
    rw [early, entered]
    obtain ⟨lost, rest, hl⟩ : ∃ lost rest, insertEarly x (s.table.early w) = lost :: rest :=
      List.exists_cons_of_length_pos (by omega)
    rw [hl] at perm sorted len ⊢
    obtain ⟨below, above⟩ := List.pairwise_cons.1 sorted
    rw [List.length_cons] at len
    exact ⟨⟨by rw [List.tail_cons]; omega, above⟩, rfl, fun h => absurd h hfull, fun _ => ⟨⟨lost, perm, below⟩, rfl⟩⟩

/-- Settles O23: a side that is set, a band that closes with the entry to STOPPING, and a band with no open entry. -/
theorem summaryNotAttached : Obligations.SummaryNotAttached := by
  intro s w x n m p l r hrun hp hside
  rw [exec_summaryFrame hrun hp hside]
  refine ⟨fun band e hb he hset hst => ?_, fun band e hb he hop hst => ?_, fun band hb he => ⟨fun hlate => ?_, fun hle => ?_⟩⟩
  · rw [hb, placeAt]
    simp only [findEntry_frameEnded, he]
    rw [if_neg (not_stopsWith (by exact hst)), attachSummary_set hset]
  · rw [hb, placeAt]
    simp only [findEntry_frameEnded, he]
    rw [if_pos (stopsWith_iff.2 ⟨by exact hop, hst⟩)]
    rfl
  · rw [hb, placeAt]
    simp only [findEntry_frameEnded, he]
    rw [if_neg (Nat.not_le.2 (by exact hlate))]
    rfl
  · rw [hb, placeAt]
    simp only [findEntry_frameEnded, he]
    rw [if_pos (by exact hle)]
    refine ⟨fun ⟨y, hy, hband⟩ => ?_, fun hnew hok => ?_⟩
    · rw [enterEarly, if_pos]
      exact List.any_eq_true.2 ⟨y, hy, by simpa using hband⟩
    · obtain ⟨ok, table, room, full⟩ := enterEarly_entered (s := frameEnded s)
        (x := EarlySummary.mk band (facingZone (facingStart w s x) x.overlap (facingCodes w l r) p)) hnew hok
      exact ⟨_, _, rfl, rfl, fun hz => facingZone_inForm hz _ _, fun hz => facingZone_notInForm hz _ _, ok, table,
        room, full, by simp, by simp; rfl, by simp; rfl, by simp; rfl, by simp; rfl, by simp; rfl, by simp; rfl,
        by simp; rfl, by simp; rfl⟩

/-! ## Summaries that are attached -/

theorem ActionsDone.summariesLate {acts : List TileAction} {taken dropped : List TileRec} {s t : State}
    (h : ActionsDone acts taken dropped s t) : t.counters.summariesLate = s.counters.summariesLate := by
  obtain ⟨-, h, -⟩ := h
  rw [h]

theorem BandOffered.summariesLate {b : BandRec} {s t : State} (h : BandOffered b s t) :
    t.counters.summariesLate = s.counters.summariesLate := by
  obtain ⟨fits, full, -⟩ := h
  by_cases hfit : queueSize s.port.queue + 32 ≤ 2097152
  · rw [fits hfit]
  · rw [full (by omega)]

/-- R151: the offers of a close count nothing of the summaries received. -/
theorem steer_summariesLate (v : CloseView) (s : State) :
    (steer v s).counters.summariesLate = s.counters.summariesLate := by
  obtain ⟨whole, begun⟩ := steer_offered s v
  cases ho : s.overlap with
  | nil =>
    obtain ⟨_, _, _, acts, band⟩ := whole ho
    rw [band.summariesLate, acts.summariesLate]
  | cons n later =>
    obtain ⟨_, _, u, acts, ht⟩ := begun n later ho
    rw [ht]
    exact acts.summariesLate

/-- R101: a close leaves the early lists and the summaries counted as late. -/
theorem closeEntry_received (e : Entry) (s : State) :
    (closeEntry e s).counters.summariesLate = s.counters.summariesLate ∧
    (closeEntry e s).table.leftEarly = s.table.leftEarly ∧ (closeEntry e s).table.rightEarly = s.table.rightEarly :=
  ⟨steer_summariesLate _ s, (congrArg BandTable.leftEarly (steer_table s (closeView s e)) :),
    (congrArg BandTable.rightEarly (steer_table s (closeView s e)) :)⟩

theorem closesInTurn_received {s t : State} {closed : List Entry} (h : ClosesInTurn s closed t) :
    t.counters.summariesLate = s.counters.summariesLate ∧
    t.table.leftEarly = s.table.leftEarly ∧ t.table.rightEarly = s.table.rightEarly := by
  induction closed generalizing s with
  | nil => rw [h.1]; exact ⟨rfl, rfl, rfl⟩
  | cons e es ih =>
    obtain ⟨-, -, -, rest⟩ := h
    obtain ⟨late, left, right⟩ := ih rest
    obtain ⟨late', left', right'⟩ := closeEntry_received e s
    exact ⟨late.trans late', left.trans left', right.trans right'⟩

theorem findEntry_closeEntry_ne {band : Nat} {e : Entry} (h : e.band ≠ band) (s : State) :
    findEntry band (closeEntry e s) = findEntry band s := by
  rw [findEntry, closeEntry_entries, List.find?_filter, findEntry]
  congr 1
  funext x
  by_cases hx : x.band = band <;> simp [hx, Ne.symm h]

theorem findEntry_closeEntry_self (e : Entry) (s : State) : findEntry e.band (closeEntry e s) = none := by
  rw [findEntry, closeEntry_entries, List.find?_filter, List.find?_eq_none]
  simp

/-- R98, R101: entries that close in turn leave every other where it is found. -/
theorem closesInTurn_findEntry {s t : State} {closed : List Entry} (h : ClosesInTurn s closed t) (band : Nat) :
    findEntry band t = findEntry band s ∨ findEntry band t = none := by
  induction closed generalizing s with
  | nil => rw [h.1]; exact .inl rfl
  | cons e es ih =>
    obtain ⟨-, -, -, rest⟩ := h
    by_cases he : e.band = band
    · subst he
      have gone := findEntry_closeEntry_self e s
      exact .inr ((ih rest).elim (·.trans gone) id)
    · rw [← findEntry_closeEntry_ne he s]
      exact ih rest

/-- R98: a band with no SCORED entry does not close. -/
theorem closesInTurn_findEntry_unscored {s t : State} {closed : List Entry} (h : ClosesInTurn s closed t) {band : Nat}
    (hb : ∀ x ∈ s.table.entries, x.band = band → x.state ≠ .scored) : findEntry band t = findEntry band s := by
  induction closed generalizing s with
  | nil => rw [h.1]
  | cons e es ih =>
    obtain ⟨-, hmem, ⟨hscored, -⟩, rest⟩ := h
    rw [← findEntry_closeEntry_ne (fun he => hb e hmem he hscored) s]
    refine ih rest fun x hx => hb x ?_
    rw [closeEntry_entries] at hx
    exact (List.mem_filter.1 hx).1

theorem attachSummary_none {w : Which} {e : Entry} (h : e.side w = .none) (z : Option Summary) (s : State) :
    attachSummary w e z s = if z.isSome then closingTest (updEntry e.band (Entry.setSide w (sideOf z)) s)
      else updEntry e.band (Entry.setSide w (sideOf z)) s := by
  unfold attachSummary
  rw [h]

theorem setSide_same (w : Which) (d : Side) (e : Entry) :
    (e.setSide w d).band = e.band ∧ (e.setSide w d).state = e.state := by
  cases w <;> exact ⟨rfl, rfl⟩

/-- R20, R89: the open entries hold consecutive bands. -/
theorem RunOk.consecutive {s : State} (h : RunOk s) : ∃ c, Consecutive c s.table.entries := by
  have none_open : s.table.entries = [] → ∃ c, Consecutive c s.table.entries := fun hes => by
    rw [hes]; exact ⟨0, trivial⟩
  by_cases hop : s.bus.op = .running
  · exact (h.running hop).2.consecutive
  by_cases hst : s.bus.op = .stopping
  · obtain ⟨-, drained, waiting⟩ := h.stopping hst
    cases ho : s.port.offering with
    | none => exact none_open (drained ho)
    | some o => exact (waiting o ho).2.elim (fun h => none_open h.2) (·.consecutive)
  · exact none_open (h.resting fun hr => hr.elim hop hst).2

/-- R89: of entries with distinct bands the one found under a band is the only one. -/
theorem eq_of_findEntry {s : State} {band : Nat} {e x : Entry} (he : findEntry band s = some e)
    (hnodup : (s.table.entries.map (·.band)).Nodup) (hx : x ∈ s.table.entries) (hband : x.band = band) : x = e :=
  List.inj_on_of_nodup_map hnodup hx (List.mem_of_find?_eq_some he) (hband.trans (findEntry_band s he).symm)

/-- Settles O22: the side is set, and a side RECEIVED is followed by the closing test. -/
theorem summaryAttached : Obligations.SummaryAttached := by
  intro s w x n m p l r band e hrun hp hside hb he hnone hst
  have hband := findEntry_band s he
  obtain ⟨z, hz⟩ : ∃ z, z = facingZone (facingStart w s x) x.overlap (facingCodes w l r) p := ⟨_, rfl⟩
  obtain ⟨u, hu⟩ : ∃ u, u = updEntry band (Entry.setSide w (sideOf z)) (frameEnded s) := ⟨_, rfl⟩
  have run : exec (.summaryFrame n m p l r) s = .next (if z.isSome then closingTest u else u) := by
    rw [exec_summaryFrame hrun hp hside, ← hz, hb, placeAt]
    simp only [findEntry_frameEnded, he]
    rw [if_neg (not_stopsWith (by exact hst)), attachSummary_none hnone, hband, ← hu]
  have found : findEntry band u = some (e.setSide w (sideOf z)) := by
    rw [hu, findEntry_updEntry _ _ _ (fun e => (setSide_same w _ e).1), findEntry_frameEnded, he]
    rfl
  by_cases hform : ZoneInForm x (facingCodes w l r)
  · obtain ⟨zone, hzone, holds⟩ := facingZone_inForm hform (facingStart w s x) p
    rw [hzone] at hz
    subst hz
    rw [Option.isSome_some, if_pos rfl] at run
    obtain ⟨closed, hclosed⟩ := closingTest_closesInTurn u
    obtain ⟨late, left, right⟩ := closesInTurn_received hclosed
    refine ⟨_, run, fun _ => ⟨zone, holds, ?_, fun hfill hnodup => ?_, closed, ?_, fun hok => ?_⟩,
      fun h => absurd hform h, ?_⟩
    · exact (closesInTurn_findEntry hclosed band).imp_left (·.trans found)
    · refine (closesInTurn_findEntry_unscored hclosed fun y hy hyb => ?_).trans found
      rw [hu] at hy
      obtain ⟨v, hv, hvy⟩ := List.mem_map.1 hy
      have hvb : v.band = band := by
        by_cases hvb : v.band = band
        · exact hvb
        · rw [if_neg hvb] at hvy
          rw [hvy]; exact hyb
      rw [if_pos hvb, eq_of_findEntry he hnodup hv hvb] at hvy
      rw [← hvy, (setSide_same w _ e).2, hfill]
      nofun
    · rw [hu] at hclosed ⊢
      exact hclosed
    · obtain ⟨c, hc⟩ := hok.consecutive
      refine closesInTurn_pairwise u hclosed (b := c) (consecutive_congr ?_ hc)
      rw [hu]
      exact (sameBands_updEntry fun e => setSide_same w _ e).bands
    · rw [late, left, right]
      simp [hu]
      exact ⟨rfl, rfl, rfl, rfl, rfl, rfl, rfl, rfl, rfl, rfl⟩
  · rw [facingZone_notInForm hform] at hz
    subst hz
    refine ⟨_, run, fun h => absurd h hform, fun _ => ?_, ?_⟩ <;> rw [hu]
    · rfl
    · exact ⟨rfl, rfl, rfl, rfl, rfl, rfl, rfl, rfl, rfl, rfl, rfl⟩

end Sys2Proof.Machine
end

section
/-! Chapter 10 of the manual, sections 10.1 and 10.3: a configuration block is tested, clamped, applied and read back
(R166, R170, R174 to R176), the host window (R169, R170), and the rounding that the configuration names (R33). -/

namespace Sys2Proof.Machine

/-! ## The rounded division -/

/-- R33: the mode's row of the table allows one integer at most. -/
theorem roundsTo_unique {mode : Rounding} {a : Int} {b : Nat} (hb : 0 < b) {n m : Int} (hn : RoundsTo mode a b n)
    (hm : RoundsTo mode a b m) : n = m := by
  have apart : ∀ x y : Int, x < y → x * b + b ≤ y * b := fun x y h => by
    have := Int.mul_le_mul_of_nonneg_right (show x + 1 ≤ y from h) (Int.natCast_nonneg b)
    rwa [add_mul, one_mul] at this
  have next : ∀ x y : Int, x + 1 < y → x * b + 2 * b ≤ y * b := fun x y h => by
    have := apart (x + 1) y h
    rw [add_mul, one_mul] at this
    omega
  have up : ∀ x : Int, (x + 1) * b = x * b + b := fun x => by ring
  have down : ∀ x : Int, (x - 1) * b = x * b - b := fun x => by ring
  have half : ∀ x y : Int, x < y → RoundsTo mode a b x → RoundsTo mode a b y → False := by
    intro x y hxy hx hy
    have := apart x y hxy
    have neg : x < 0 → x * b + b ≤ 0 := fun h => by simpa using apart x 0 h
    have nonneg : 0 ≤ x → 0 ≤ x * b := fun h => by simpa using apart (-1) x (by omega)
    have pos : 0 < y → b ≤ y * b := fun h => by simpa using apart 0 y h
    cases mode with
    | floor | ceiling | truncate =>
      simp only [RoundsTo, up, down] at hx hy
      omega
    | nearestEven =>
      simp only [RoundsTo] at hx hy
      have close : ¬ x + 1 < y := fun h => by have := next x y h; omega
      omega
    | nearestAway =>
      simp only [RoundsTo] at hx hy
      have close : ¬ x + 1 < y := fun h => by have := next x y h; omega
      omega
  rcases lt_trichotomy n m with h | h | h
  · exact (half n m h hn hm).elim
  · exact h
  · exact (half m n h hm hn).elim

/-- Settles O47: the integer that `roundDiv` gives is allowed, and no other. -/
theorem roundedDivision : Obligations.RoundedDivision := fun mode a _ hb =>
  ⟨roundsTo_roundDiv mode a hb, fun _ hn => roundsTo_unique hb hn (roundsTo_roundDiv mode a hb)⟩

/-! ## The block in force -/

theorem exec_configureReadDone {s : State} {a : BitVec 64} (h : s.ctl.phase = .busy (.configure a)) (b : BitVec 2048) :
    exec (.configureReadDone b) s = .next (finishConfigure b s) := by
  change execConfigureReadDone b s = _
  simp only [execConfigureReadDone, h]

theorem exec_configureReadDone_idle {s : State} (h : ∀ a, s.ctl.phase ≠ .busy (.configure a)) (b : BitVec 2048) :
    exec (.configureReadDone b) s = .next s := by
  change execConfigureReadDone b s = _
  unfold execConfigureReadDone
  split
  next a hp => exact absurd hp (h a)
  next => rfl

/-- R163, R166: what the host is sent of the open grant when a block comes into force. -/
def grantPuts (s : State) : List Output :=
  match s.port.grant with
  | none => []
  | some g => retirementPuts g .byHalt s

/-- R166: an accepted block retires the open grant and forgets the grants. -/
theorem refreshGrants_eq (s : State) : refreshGrants s = { s with
    port := { s.port with fifo := [], grant := none, nextSeq := 1, grantStatus := .accepted }
    outputs := s.outputs ++ grantPuts s } := by
  unfold refreshGrants grantPuts
  cases hg : s.port.grant with
  | none =>
    simp only [retireGrant, hg, State.updPort, List.append_nil]
  | some g =>
    rw [retireGrant_eq s .byHalt hg]
    rfl

theorem refreshReference_ref (new : StationConfig) (s : State) : (refreshReference new s).ref =
    if s.ctl.cfg.c0 = new.c0 ∧ s.ctl.cfg.w = new.w ∧ s.ctl.cfg.l = new.l then s.ref
    else { s.ref with
      state := .empty, counts := List.replicate new.l 0, shortLines := 0, touched := 0,
      learned := 0, depth := 1, endingLine := 0 } := by
  unfold refreshReference
  split <;> rfl

/-- R106: a block that turns the bus on or off. -/
theorem refreshBus_bus (on : Bool) (s : State) : (refreshBus on s).bus = { s.bus with
    idle := if busEnabled s = false ∧ on = true then 0 else s.bus.idle
    reception := if busEnabled s = true ∧ on = false then none else s.bus.reception
    onLine := if busEnabled s = true ∧ on = false then none else s.bus.onLine } := by
  unfold refreshBus
  cases busEnabled s <;> cases on <;> rfl

theorem busEnabled_congr {s t : State} (h : t.ctl.cfg = s.ctl.cfg) : busEnabled t = busEnabled s := by
  rw [busEnabled, busEnabled, h]

/-- R166, R174: an accepted block, applied. -/
theorem applyConfig_eq (new : StationConfig) (s : State) : applyConfig new s = { s with
    ctl := { s.ctl.ended .done .ok 0 with cfg := new }
    port := { s.port with fifo := [], grant := none, nextSeq := 1, grantStatus := .accepted }
    outputs := s.outputs ++ grantPuts s ++ messageOf s.port.link
    ref := (refreshReference new s).ref
    bus := { (refreshBus (new.flags.getLsbD 0) s).bus with op := .idle } } := by
  have reference : ∀ u : State, refreshReference new u = { u with ref := (refreshReference new u).ref } := fun u => by
    unfold refreshReference; split <;> rfl
  have bus : ∀ u : State, refreshBus (new.flags.getLsbD 0) u =
      { u with bus := (refreshBus (new.flags.getLsbD 0) u).bus } := fun u => by
    unfold refreshBus; (repeat' split) <;> rfl
  dsimp only [applyConfig]
  rw [endDone_eq, bus, reference, refreshBus_bus, refreshReference_ref, refreshGrants_eq, refreshReference_ref,
    refreshBus_bus]
  rfl

/-- Settles O31: the block refused or applied, written out. -/
theorem configureReadDone : Obligations.ConfigureReadDone := by
  refine fun s b => ⟨fun h => exec_configureReadDone_idle h b, fun a hp => ⟨fun o ho => ?_, fun new hnew => ?_⟩⟩
  · rw [exec_configureReadDone hp, finishConfigure, ho]
    exact congrArg Host.Outcome.next (endFailed_eq _ _ _)
  · have run : exec (.configureReadDone b) s = .next (applyConfig new s) := by
      rw [exec_configureReadDone hp, finishConfigure, hnew]
    have on : busEnabled (applyConfig new s) = new.flags.getLsbD 0 := by
      rw [busEnabled, applyConfig_cfg]
    refine ⟨_, run, ?_⟩
    rw [on, applyConfig_eq, refreshReference_ref, refreshBus_bus]
    refine ⟨rfl, rfl, ?_, rfl, rfl, rfl, rfl, rfl, rfl, rfl, rfl, rfl⟩
    unfold grantPuts
    cases hg : s.port.grant <;> rfl

end Sys2Proof.Machine
end

section
/-! Chapter 10 of the manual, sections 10.1 and 10.3: the tests and clamps of a configuration block (R175, R176), the
host window (R169, R170), and the block read back. -/

namespace Sys2Proof.Machine

/-! ## Codes -/

theorem Rounding.ofCode_eq_none {n : Nat} : Rounding.ofCode n = none ↔ ¬ n ≤ 4 := by
  unfold Rounding.ofCode
  split <;> simp_all
  omega

theorem Rounding.ofCode_eq_some {n : Nat} {r : Rounding} : Rounding.ofCode n = some r ↔ r.code = n := by
  unfold Rounding.ofCode
  split <;> cases r <;> simp_all [Rounding.code]
  all_goals omega

theorem Fidelity.ofCode_eq_some {n : Nat} {f : Fidelity} : Fidelity.ofCode n = some f ↔ f.code = n := by
  unfold Fidelity.ofCode
  split <;> cases f <;> simp_all [Fidelity.code]
  all_goals omega

theorem Fidelity.ofCode_eq_none {n : Nat} : Fidelity.ofCode n = none ↔ ¬ n ≤ 3 := by
  unfold Fidelity.ofCode
  split <;> simp_all
  omega

theorem contextOf_eq_none {n : Nat} : contextOf n = none ↔ ¬ n ≤ 2 := by
  unfold contextOf
  split
  · rw [Fidelity.ofCode_eq_none]; omega
  next h => simpa using h

theorem contextOf_code {n : Nat} {f : Fidelity} (h : contextOf n = some f) : f.code = n := by
  unfold contextOf at h
  split at h
  · exact Fidelity.ofCode_eq_some.1 h
  · cases h

theorem sampleOf_eq_none {n : Nat} : sampleOf n = none ↔ ¬ (1 ≤ n ∧ n ≤ 3) := by
  unfold sampleOf
  split
  · simp; omega
  · rw [Fidelity.ofCode_eq_none]; omega

theorem sampleOf_code {n : Nat} {f : Fidelity} (h : sampleOf n = some f) : f.code = n := by
  unfold sampleOf at h
  split at h
  · cases h
  · exact Fidelity.ofCode_eq_some.1 h

/-! ## The tests of a block -/

/-- R176: the tests of a block, each with the offset of its field. -/
def testsOf (b : BitVec 2048) : List (Nat × Bool) :=
  configTests (blockNat16 b 0) (blockNat16 b 2) (blockNat16 b 4) (blockNat16 b 6) (blockByte b 8).toNat
    (blockByte b 23).toNat (blockByte b 24).toNat (blockNat64 b 32)

/-- R176: the field of the first test a block fails, if it fails one. -/
def firstFailed (b : BitVec 2048) : Option (Nat × Bool) := (testsOf b).find? fun x => !x.2

/-- R176: a block is refused by the first test it fails, and otherwise clamped. -/
theorem validate_cases (b : BitVec 2048) :
    (∃ o, validate b = .refused o ∧ firstFailed b = some (o, false)) ∨
    (firstFailed b = none ∧ ∃ rounding context sample fits,
      validate b = .accepted (clampBlock b rounding context sample fits) ∧ rounding.code = (blockByte b 8).toNat ∧
        context.code = (blockByte b 23).toNat ∧ sample.code = (blockByte b 24).toNat) := by
  have passed : ∀ {p : Prop} [Decidable p] {o : Nat} {l : List (Nat × Bool)}, p →
      ((o, decide p) :: l).find? (fun x => !x.2) = l.find? fun x => !x.2 := fun {p} _ {o l} h => by simp [h]
  have failed : ∀ {p : Prop} [Decidable p] {o : Nat} {l : List (Nat × Bool)}, ¬ p →
      ((o, decide p) :: l).find? (fun x => !x.2) = some (o, false) := fun {p} _ {o l} h => by simp [h]
  simp only [firstFailed, testsOf, configTests]
  dsimp only [validate]
  split
  next h => exact .inl ⟨0, rfl, failed h⟩
  next h =>
  rw [passed (Decidable.of_not_not h)]
  split
  next h => exact .inl ⟨2, rfl, failed (by omega)⟩
  next h =>
  rw [passed (by omega)]
  split
  next h => exact .inl ⟨2, rfl, failed (by omega)⟩
  next h =>
  rw [passed (by omega)]
  split
  next h => exact .inl ⟨4, rfl, failed (by omega)⟩
  next h =>
  rw [passed (by omega)]
  split
  next fits =>
    rw [passed fits.1]
    split
    next h => exact .inl ⟨6, rfl, failed (by omega)⟩
    next h =>
    rw [passed (by omega)]
    split
    next h => exact .inl ⟨8, rfl, failed (Rounding.ofCode_eq_none.1 h)⟩
    next rounding hr =>
    have hcode := Rounding.ofCode_eq_some.1 hr
    rw [passed (by rw [← hcode]; cases rounding <;> decide)]
    split
    next h => exact .inl ⟨23, rfl, failed (contextOf_eq_none.1 h)⟩
    next context hc =>
    rw [passed (by_contra fun h => by rw [contextOf_eq_none.2 h] at hc; cases hc)]
    split
    next h => exact .inl ⟨24, rfl, failed (sampleOf_eq_none.1 h)⟩
    next sample hs =>
    rw [passed (by_contra fun h => by rw [sampleOf_eq_none.2 h] at hs; cases hs)]
    split
    next h => exact .inl ⟨32, rfl, failed h⟩
    next h =>
    rw [passed (Decidable.of_not_not h)]
    exact .inr ⟨rfl, rounding, context, sample, fits, rfl, hcode, contextOf_code hc, sampleOf_code hs⟩
  next h => exact .inl ⟨4, rfl, failed (by omega)⟩

theorem validate_refused_iff (b : BitVec 2048) (o : Nat) :
    validate b = .refused o ↔ firstFailed b = some (o, false) := by
  obtain ⟨p, refused, first⟩ | ⟨first, _, _, _, _, taken, -⟩ := validate_cases b
  · rw [refused, first]
    simp
  · rw [taken, first]
    simp

/-- R176: an accepted block, with the codes its modes stand for. -/
theorem validate_accepted_iff {b : BitVec 2048} {cfg : StationConfig} : validate b = .accepted cfg ↔
    firstFailed b = none ∧ ∃ rounding context sample fits,
      cfg = clampBlock b rounding context sample fits ∧ rounding.code = (blockByte b 8).toNat ∧
        context.code = (blockByte b 23).toNat ∧ sample.code = (blockByte b 24).toNat := by
  obtain ⟨p, refused, first⟩ | ⟨first, rounding, context, sample, fits, taken, hr, hc, hs⟩ := validate_cases b
  · rw [refused, first]
    simp
  · rw [taken, first]
    refine ⟨fun h => ⟨rfl, rounding, context, sample, fits, (Validated.accepted.inj h).symm, hr, hc, hs⟩, ?_⟩
    rintro ⟨-, rounding', context', sample', fits', rfl, hr', hc', hs'⟩
    rw [Rounding.ofCode_eq_some.2 hr |>.symm.trans (Rounding.ofCode_eq_some.2 hr') |> Option.some.inj,
      Fidelity.ofCode_eq_some.2 hc |>.symm.trans (Fidelity.ofCode_eq_some.2 hc') |> Option.some.inj,
      Fidelity.ofCode_eq_some.2 hs |>.symm.trans (Fidelity.ofCode_eq_some.2 hs') |> Option.some.inj]

/-! ## The clamps -/

theorem clampNat_heldTo {lo hi : Nat} (h : lo ≤ hi) (n : Nat) : HeldTo lo hi n (clampNat lo hi n) := by
  simp only [HeldTo, clampNat]; omega

theorem clampThreshold_heldTo (x : Int) : HeldTo (-512) 511 x (clampThreshold x) := by
  simp only [HeldTo, clampThreshold]; omega

theorem clampK_mem (n : Nat) : clampK n ∈ [1, 2, 4, 8, 16] := by
  unfold clampK
  (repeat' split) <;> decide

/-- R176: K becomes the greatest of its values that is not above the one given. -/
theorem clampK_greatest {n : Nat} (h : n ≠ 0) :
    clampK n ≤ n ∧ ∀ k ∈ [1, 2, 4, 8, 16], k ≤ n → k ≤ clampK n := by
  unfold clampK
  refine ⟨by (repeat' split) <;> omega, fun k hk => ?_⟩
  simp only [List.mem_cons, List.not_mem_nil, or_false] at hk
  (repeat' split) <;> omega

/-! ## The configuration in the window -/

theorem le16_length (n : Nat) : (le16 n).length = 2 := rfl
theorem le32_length (n : Nat) : (le32 n).length = 4 := rfl
theorem le64_length (n : Nat) : (le64 n).length = 8 := rfl

/-- R175: the bytes of the block that its layout names. -/
def StationConfig.named (c : StationConfig) : List Byte :=
  [le16 c.c0, le16 c.w, le16 c.l, le16 c.d,
   [byte c.rounding.code, c.flags, byte c.k, byte c.hs],
   le16 c.wc, le16 c.moff, le16 c.soff, le16 c.sb, le16 c.glareLimit,
   [c.combination, byte c.contextFidelity.code, byte c.sampleFidelity.code, 0],
   le16 c.ps, le16 c.flush, [0, 0], le64 c.ring, c.mad.bytes, c.shift.bytes, c.peak.bytes,
   le16 c.report.toNat, le16 c.share.toNat, [c.peerRouting]].flatten

theorem StationConfig.bytes_eq (c : StationConfig) : c.bytes = c.named ++ List.replicate 193 0 := by
  delta StationConfig.bytes
  simp only [named, List.flatten_cons, List.flatten_nil, List.append_assoc, List.append_nil]

theorem StationConfig.named_length (c : StationConfig) : c.named.length = 63 := rfl

theorem StationConfig.bytes_length (c : StationConfig) : c.bytes.length = 256 := by
  rw [bytes_eq, List.length_append, named_length, List.length_replicate]

theorem fieldByte_skip {offset o : Nat} {bs : List Byte} (h : offset < o ∨ o + bs.length ≤ offset)
    (rest : List (Nat × List Byte)) : fieldByte offset ((o, bs) :: rest) = fieldByte offset rest :=
  if_neg (by omega)

theorem fieldByte_hit {offset o : Nat} {bs : List Byte} (i : Nat) (h : offset = o + i) (hi : i < bs.length)
    (rest : List (Nat × List Byte)) : fieldByte offset ((o, bs) :: rest) = bs[i]? := by
  subst h
  exact (if_pos (by omega)).trans (by rw [Nat.add_sub_cancel_left])

/-- R170: the configuration in force reads at its offsets of the window. -/
theorem windowRead_config (s : State) {i : Nat} (hi : i < 256) : windowRead s (256 + i) = s.ctl.cfg.bytes.getD i 0 := by
  have hlen : i < s.ctl.cfg.bytes.length := by rwa [StationConfig.bytes_length]
  rw [windowRead, windowFields]
  iterate 12 rw [fieldByte_skip]
  · rw [fieldByte_hit (o := 0x100) i rfl hlen, List.getElem?_eq_getElem hlen, List.getD_eq_getElem _ _ hlen,
      Option.getD_some]
  all_goals
    simp only [le16_length, le32_length, le64_length, List.length_cons, List.length_nil]
    omega

/-- Settles O30: the tests in their order, the clamps, and the fields read back. -/
theorem configValidation : Obligations.ConfigValidation := by
  rintro b c0 w l d rfl rfl rfl rfl
  refine ⟨validate_refused_iff b, fun hno => ?_, fun s a cfg hp hcfg => ?_⟩
  · obtain ⟨o, refused, -⟩ | ⟨-, rounding, context, sample, fits, taken, hr, hc, hs⟩ := validate_cases b
    · exact absurd refused (hno o)
    · refine ⟨_, taken, rfl, rfl, rfl, rfl, hr, rfl, rfl, rfl, rfl, hc, hs, rfl, rfl, rfl, rfl, rfl, rfl,
        fun h0 => ?_, fun h0 => ⟨clampK_mem _, clampK_greatest h0⟩, clampNat_heldTo (by decide) _,
        clampNat_heldTo (by decide) _, ?_, clampNat_heldTo (by decide) _, fun o t ht => ?_⟩
      · exact (congrArg clampK h0).trans rfl
      · simp only [HeldTo, clampBlock]; omega
      · simp only [List.mem_cons, List.not_mem_nil, or_false, Prod.mk.injEq] at ht
        obtain ⟨rfl, rfl⟩ | ⟨rfl, rfl⟩ | ⟨rfl, rfl⟩ := ht <;>
          exact ⟨rfl, clampThreshold_heldTo _, clampThreshold_heldTo _⟩
  · obtain ⟨t, run, hctl, hport, -, -, -, -, -, -, -, hcounters, -⟩ := ((configureReadDone s b).2 a hp).2 cfg hcfg
    have inForce : t.ctl.cfg = cfg := by rw [hctl]
    refine ⟨t, run, inForce, hcounters, by rw [hport], fun i hi => ?_⟩
    rw [windowRead_config t (i := i), inForce]
    have : ∀ i ∈ [10, 11, 12, 13, 18, 19, 20, 21, 28, 29, 42, 43, 44, 45, 48, 49, 50, 51, 54, 55, 56, 57], i < 256 := by
      decide
    exact this i hi

end Sys2Proof.Machine
end

section
/-! Chapter 10 of the manual, section 10.1: what the host reads in the window and writes to it (R169, R170). -/

namespace Sys2Proof.Machine

/-! ## Numbers in bytes -/

section
variable {b : Nat → Byte} {o n : Nat}

theorem numberAt_byte (h : b o = byte n) : numberAt b o 1 = n % 256 ^ 1 := by
  rw [numberAt, numberAt, h]
  simp [byte]

theorem numberAt_le16 (h : [b o, b (o + 1)] = le16 n) : numberAt b o 2 = n % 256 ^ 2 := by
  simp only [le16, List.cons.injEq, and_true] at h
  obtain ⟨h0, h1⟩ := h
  simp only [numberAt, h0, h1, BitVec.toNat_ofNat]
  omega

theorem numberAt_le32 (h : [b o, b (o + 1), b (o + 2), b (o + 3)] = le32 n) : numberAt b o 4 = n % 256 ^ 4 := by
  simp only [le32, le16, List.cons_append, List.nil_append, List.cons.injEq, and_true] at h
  obtain ⟨h0, h1, h2, h3⟩ := h
  simp only [numberAt, Nat.add_assoc, Nat.reduceAdd, h0, h1, h2, h3, BitVec.toNat_ofNat]
  omega

theorem numberAt_add (b : Nat → Byte) (o m n : Nat) :
    numberAt b o (m + n) = numberAt b o m + 256 ^ m * numberAt b (o + m) n := by
  induction m generalizing o with
  | zero => simp [numberAt]
  | succ m ih =>
    rw [show m + 1 + n = m + n + 1 by omega, numberAt, numberAt, ih, show o + 1 + m = o + (m + 1) by omega]
    ring

theorem numberAt_le64
    (h : [b o, b (o + 1), b (o + 2), b (o + 3), b (o + 4), b (o + 5), b (o + 6), b (o + 7)] = le64 n) :
    numberAt b o 8 = n % 256 ^ 8 := by
  obtain ⟨low, high⟩ := List.append_inj (s₁ := [b o, b (o + 1), b (o + 2), b (o + 3)]) h rfl
  rw [numberAt_add b o 4 4, numberAt_le32 low, numberAt_le32 high, show (256 : Nat) ^ 8 = 256 ^ 4 * 256 ^ 4 from rfl,
    Nat.mod_mul]
  rfl

end

/-! ## What the host reads -/

theorem phaseIs_code (p : CmdPhase) : PhaseIs p p.code := by
  cases p with
  | busy w => exact .inr (.inl ⟨⟨w, rfl⟩, rfl⟩)
  | _ => simp [PhaseIs, CmdPhase.code]

/-- R169: the groups of the window. -/
theorem windowShows (s : State) : WindowShows s := by
  refine ⟨s.bus.op.code, s.ref.state.code, s.tracker.mode.code, pressure s, s.ctl.phase.code, s.ctl.result.code,
    s.port.grantStatus.code, by cases s.bus.op <;> decide, by cases s.ref.state <;> decide,
    by cases s.tracker.mode <;> decide, levelOf_spec _, phaseIs_code _, by cases s.ctl.result <;> decide,
    by cases s.port.grantStatus <;> decide, ?_⟩
  simp only [holdsFields_cons, holdsFields_nil, and_true]
  refine ⟨numberAt_le16 rfl, numberAt_le16 rfl, numberAt_byte rfl, numberAt_byte rfl, numberAt_byte rfl,
    numberAt_byte rfl, numberAt_byte rfl, numberAt_byte rfl, ?_, numberAt_byte rfl, numberAt_byte rfl, ?_, ?_,
    numberAt_le64 rfl, numberAt_le32 rfl, numberAt_le32 rfl, numberAt_le64 rfl, numberAt_le32 rfl, numberAt_le32 rfl,
    numberAt_byte rfl⟩
  · exact (numberAt_byte (n := s.port.link.code) rfl).trans (by cases s.port.link <;> rfl)
  · exact (numberAt_byte (n := s.ctl.detail.toNat) (BitVec.eq_of_toNat_eq (by simp [byte]; rfl)))
  · exact (numberAt_byte (n := bit s.ctl.commandLost 1) rfl)

/-! ## What the host writes -/

/-- R169: byte `k` of a field after byte `i` has been replaced. -/
theorem extract_setByte {n i k : Nat} (hi : 8 * i + 8 ≤ n) (hk : 8 * k + 8 ≤ n) (b : Byte) (v : BitVec n) :
    (setByte i b v).extractLsb' (8 * k) 8 = if k = i then b else v.extractLsb' (8 * k) 8 := by
  have mask : ∀ j, (255 : Nat).testBit j = decide (j < 8) := fun j => Nat.testBit_two_pow_sub_one 8 j
  refine BitVec.eq_of_getLsbD_eq fun j hj => ?_
  have outside : ∀ m, 8 ≤ m → b.toNat.testBit m = false := fun m hm =>
    Nat.testBit_lt_two_pow (b.isLt.trans_le (Nat.pow_le_pow_right (by decide) hm))
  simp only [setByte, BitVec.getLsbD_extractLsb', BitVec.getLsbD_or, BitVec.getLsbD_and, BitVec.getLsbD_not,
    BitVec.getLsbD_ofNat, Nat.testBit_shiftLeft, mask]
  have inside : 8 * k + j < n := by omega
  rcases Nat.lt_trichotomy k i with h | rfl | h
  · simp [hj, inside, show ¬ 8 * i ≤ 8 * k + j by omega, show k ≠ i by omega]
  · simp [hj, inside, BitVec.getLsbD]
  · have := outside (8 * k + j - 8 * i) (by omega)
    simp [hj, inside, this, show ¬ 8 * k + j - 8 * i < 8 by omega, show k ≠ i by omega]

theorem le64_getElem? (v : BitVec 64) {k : Nat} (hk : k < 8) :
    (le64 v.toNat)[k]? = some (v.extractLsb' (8 * k) 8) := by
  interval_cases k <;> refine congrArg some (BitVec.eq_of_toNat_eq ?_) <;>
    simp [BitVec.extractLsb'_toNat, Nat.shiftRight_eq_div_pow, Nat.div_div_eq_div_mul]

theorem le32_getElem? (v : Word) {k : Nat} (hk : k < 4) :
    (le32 v.toNat)[k]? = some (v.extractLsb' (8 * k) 8) := by
  interval_cases k <;> refine congrArg some (BitVec.eq_of_toNat_eq ?_) <;>
    simp [BitVec.extractLsb'_toNat, Nat.shiftRight_eq_div_pow, Nat.div_div_eq_div_mul]

section
variable (s : State) {k : Nat}

theorem windowRead_argAddress (hk : k < 8) :
    windowRead s (32 + k) = s.ctl.argAddress.extractLsb' (8 * k) 8 := by
  rw [windowRead, windowFields]
  iterate 5 rw [fieldByte_skip]
  · rw [fieldByte_hit (o := 32) k rfl (by rwa [le64_length]), le64_getElem? _ hk, Option.getD_some]
  all_goals
    simp only [le16_length, List.length_cons, List.length_nil]
    omega

theorem windowRead_argLength (hk : k < 4) :
    windowRead s (40 + k) = s.ctl.argLength.extractLsb' (8 * k) 8 := by
  rw [windowRead, windowFields]
  iterate 6 rw [fieldByte_skip]
  · rw [fieldByte_hit (o := 40) k rfl (by rwa [le32_length]), le32_getElem? _ hk, Option.getD_some]
  all_goals
    simp only [le16_length, le64_length, List.length_cons, List.length_nil]
    omega

theorem windowRead_grantAddress (hk : k < 8) :
    windowRead s (64 + k) = s.ctl.grantAddress.extractLsb' (8 * k) 8 := by
  rw [windowRead, windowFields]
  iterate 8 rw [fieldByte_skip]
  · rw [fieldByte_hit (o := 64) k rfl (by rwa [le64_length]), le64_getElem? _ hk, Option.getD_some]
  all_goals
    simp only [le16_length, le32_length, le64_length, List.length_cons, List.length_nil]
    omega

theorem windowRead_grantLength (hk : k < 4) :
    windowRead s (72 + k) = s.ctl.grantLength.extractLsb' (8 * k) 8 := by
  rw [windowRead, windowFields]
  iterate 9 rw [fieldByte_skip]
  · rw [fieldByte_hit (o := 72) k rfl (by rwa [le32_length]), le32_getElem? _ hk, Option.getD_some]
  all_goals
    simp only [le16_length, le32_length, le64_length, List.length_cons, List.length_nil]
    omega

end

/-- R169: the offsets of the argument and grant fields, which the host may write. -/
def Writable (i : Nat) : Prop := (32 ≤ i ∧ i < 44) ∨ (64 ≤ i ∧ i < 76)

/-- R169: a state whose control differs in the argument and grant fields alone. -/
def WrittenTo (s t : State) : Prop :=
  t = { s with
    ctl := { s.ctl with
      argAddress := t.ctl.argAddress
      argLength := t.ctl.argLength
      grantAddress := t.ctl.grantAddress
      grantLength := t.ctl.grantLength } }

theorem WrittenTo.trans {s t u : State} (h : WrittenTo s t) (k : WrittenTo t u) : WrittenTo s u := by
  rw [WrittenTo, k, h]

theorem fieldByte_cons_congr {offset : Nat} {l l' : List (Nat × List Byte)} (h : fieldByte offset l = fieldByte offset l')
    (f : Nat × List Byte) : fieldByte offset (f :: l) = fieldByte offset (f :: l') := by
  rw [fieldByte, fieldByte, h]

/-- R169: every other byte of the window reads as before. -/
theorem WrittenTo.windowRead_eq {s t : State} (h : WrittenTo s t) {i : Nat} (hi : ¬ Writable i) :
    windowRead t i = windowRead s i := by
  have outside : ∀ {o : Nat} {bs bs' : List Byte} {l l' : List (Nat × List Byte)}, (32 ≤ o ∧ o + bs.length ≤ 44) ∨
      (64 ≤ o ∧ o + bs.length ≤ 76) → bs'.length = bs.length → fieldByte i l' = fieldByte i l →
      fieldByte i ((o, bs') :: l') = fieldByte i ((o, bs) :: l) := by
    intro o bs bs' l l' ho hlen hl
    have out : i < o ∨ o + bs.length ≤ i := by rw [Writable] at hi; omega
    rw [fieldByte_skip (by rwa [hlen]), fieldByte_skip out, hl]
  rw [h, windowRead, windowRead]
  refine congrArg (fun x : Option Byte => x.getD (Config.windowGap i)) ?_
  iterate 5 refine fieldByte_cons_congr ?_ _
  refine outside (.inl (by rw [le64_length]; decide)) rfl (outside (.inl (by rw [le32_length]; decide)) rfl (fieldByte_cons_congr ?_ _))
  exact outside (.inr (by rw [le64_length]; decide)) rfl (outside (.inr (by rw [le32_length]; decide)) rfl rfl)

/-- R169: the field that a byte written goes into. -/
theorem writeByte_eq (o : Nat) (b : Byte) (c : Control) : writeByte o b c = { c with
    argAddress := if 32 ≤ o ∧ o < 40 then setByte (o - 32) b c.argAddress else c.argAddress
    argLength := if 40 ≤ o ∧ o < 44 then setByte (o - 40) b c.argLength else c.argLength
    grantAddress := if 64 ≤ o ∧ o < 72 then setByte (o - 64) b c.grantAddress else c.grantAddress
    grantLength := if 72 ≤ o ∧ o < 76 then setByte (o - 72) b c.grantLength else c.grantLength } := by
  unfold writeByte
  split
  next h => rw [if_neg (by omega), if_neg (by omega), if_neg (by omega)]
  next =>
  split
  next h => rw [if_neg (by omega), if_neg (by omega)]
  next =>
  split
  next h => rw [if_neg (by omega)]
  next => split <;> rfl

/-- R169: the bytes of a field of the window, which starts at `lo`, after a byte has been written at `o`. -/
theorem extract_written {lo o n k : Nat} (hk : 8 * k + 8 ≤ 8 * n) (b : Byte) (v : BitVec (8 * n)) :
    (if lo ≤ o ∧ o < lo + n then setByte (o - lo) b v else v).extractLsb' (8 * k) 8 =
      if lo + k = o then b else v.extractLsb' (8 * k) 8 := by
  split
  next h =>
    rw [extract_setByte (by omega) hk]
    exact if_congr (by omega) rfl rfl
  next h => rw [if_neg (by omega)]

/-- R169: one byte written to the window. -/
def withByte (o : Nat) (b : Byte) (s : State) : State := s.updCtl (writeByte o b)

theorem withByte_ctl (o : Nat) (b : Byte) (s : State) : (withByte o b s).ctl = writeByte o b s.ctl := rfl

theorem withByte_writtenTo (o : Nat) (b : Byte) (s : State) : WrittenTo s (withByte o b s) := by
  rw [WrittenTo, withByte, State.updCtl, writeByte_eq]

/-- R169: of the window, a byte written changes the byte at its offset, if that may be written. -/
theorem windowRead_withByte (o : Nat) (b : Byte) (s : State) {i : Nat} (hi : Writable i) :
    windowRead (withByte o b s) i = if i = o then b else windowRead s i := by
  have region : (∃ k, k < 8 ∧ i = 32 + k) ∨ (∃ k, k < 4 ∧ i = 40 + k) ∨ (∃ k, k < 8 ∧ i = 64 + k) ∨
      ∃ k, k < 4 ∧ i = 72 + k := by
    rcases hi with hi | hi
    · by_cases h : i < 40
      · exact .inl ⟨i - 32, by omega, by omega⟩
      · exact .inr (.inl ⟨i - 40, by omega, by omega⟩)
    · by_cases h : i < 72
      · exact .inr (.inr (.inl ⟨i - 64, by omega, by omega⟩))
      · exact .inr (.inr (.inr ⟨i - 72, by omega, by omega⟩))
  obtain ⟨k, hk, rfl⟩ | ⟨k, hk, rfl⟩ | ⟨k, hk, rfl⟩ | ⟨k, hk, rfl⟩ := region
  · rw [windowRead_argAddress _ hk, windowRead_argAddress _ hk, withByte_ctl, writeByte_eq]
    exact extract_written (n := 8) (by omega) b _
  · rw [windowRead_argLength _ hk, windowRead_argLength _ hk, withByte_ctl, writeByte_eq]
    exact extract_written (n := 4) (by omega) b _
  · rw [windowRead_grantAddress _ hk, windowRead_grantAddress _ hk, withByte_ctl, writeByte_eq]
    exact extract_written (n := 8) (by omega) b _
  · rw [windowRead_grantLength _ hk, windowRead_grantLength _ hk, withByte_ctl, writeByte_eq]
    exact extract_written (n := 4) (by omega) b _

theorem WrittenTo.refl (s : State) : WrittenTo s s := rfl

/-- R169: a run of bytes written from an offset upward. -/
theorem writeBytes_written (data : List Byte) (o : Nat) (s : State) :
    WrittenTo s (s.updCtl (writeBytes o data)) ∧ ∀ i, Writable i → windowRead (s.updCtl (writeBytes o data)) i =
      if o ≤ i then (data[i - o]?).getD (windowRead s i) else windowRead s i := by
  induction data generalizing o s with
  | nil => exact ⟨.refl s, fun i _ => by simp [writeBytes, State.updCtl]⟩
  | cons b bs ih =>
    obtain ⟨written, reads⟩ := ih (o + 1) (withByte o b s)
    have step : s.updCtl (writeBytes o (b :: bs)) = (withByte o b s).updCtl (writeBytes (o + 1) bs) := rfl
    rw [step]
    refine ⟨(withByte_writtenTo o b s).trans written, fun i hi => ?_⟩
    rw [reads i hi, windowRead_withByte o b s hi]
    rcases Nat.lt_trichotomy i o with h | rfl | h
    · rw [if_neg (by omega), if_neg (by omega), if_neg (by omega)]
    · simp
    · rw [if_pos (by omega), if_neg (by omega), if_pos (by omega), show i - o = i - (o + 1) + 1 by omega,
        List.getElem?_cons_succ]

/-- Settles O37: the groups of the window, and the bytes that a write changes. -/
theorem windowWrite : Obligations.WindowWrite := by
  refine ⟨fun s => ⟨windowShows s, fun i hi => windowRead_config s hi⟩, fun s offset data => ?_⟩
  obtain ⟨written, reads⟩ := writeBytes_written data offset s
  refine ⟨_, rfl, written, fun i => ?_⟩
  by_cases hi : Writable i
  · rw [reads i hi]
    exact (if_pos hi).symm
  · rw [written.windowRead_eq hi]
    exact (if_neg hi).symm

end Sys2Proof.Machine
end

section
/-! Chapter 10 of the manual, sections 10.1 and 10.3: the configuration read back is accepted as itself (R170, R175,
R176). -/

namespace Sys2Proof.Machine

/-! ## Bytes of a block -/

theorem blockByte_blockOf (bs : List Byte) {i : Nat} (hi : i < 256) : blockByte (blockOf bs) i = bs.getD i 0 := by
  induction bs generalizing i with
  | nil => simp [blockOf, blockByte]
  | cons b bs ih =>
    refine BitVec.eq_of_getLsbD_eq fun j hj => ?_
    rw [blockByte, blockOf, BitVec.getLsbD_extractLsb', BitVec.getLsbD_or, BitVec.getLsbD_shiftLeft,
      BitVec.getLsbD_setWidth]
    have inside : 8 * i + j < 2048 := by omega
    cases i with
    | zero => simp [hj, show j < 2048 by omega]
    | succ i =>
      have above : b.getLsbD (8 * (i + 1) + j) = false := BitVec.getLsbD_of_ge _ _ (by omega)
      have rest := congrArg (fun x : Byte => x.getLsbD j) (ih (i := i) (by omega))
      simp only [blockByte, BitVec.getLsbD_extractLsb', hj, decide_true, Bool.true_and] at rest
      simp [hj, inside, above, show ¬ 8 * (i + 1) + j < 8 by omega, show 8 * (i + 1) + j - 8 = 8 * i + j by omega, rest]

theorem blockNat16_eq (b : BitVec 2048) (i : Nat) :
    blockNat16 b i = (blockByte b i).toNat + 256 * (blockByte b (i + 1)).toNat := by
  have shift : b.toNat >>> (8 * (i + 1)) = (b.toNat >>> (8 * i)) / 256 := by
    rw [Nat.shiftRight_eq_div_pow, Nat.shiftRight_eq_div_pow, Nat.div_div_eq_div_mul, mul_add, pow_add]
    rfl
  rw [blockNat16, blockHalf, blockByte, blockByte, BitVec.extractLsb'_toNat, BitVec.extractLsb'_toNat,
    BitVec.extractLsb'_toNat, shift]
  omega

theorem blockNat64_eq (b : BitVec 2048) (i : Nat) :
    blockNat64 b i = blockNat16 b i + 65536 * blockNat16 b (i + 2) + 4294967296 * blockNat16 b (i + 4) +
      281474976710656 * blockNat16 b (i + 6) := by
  have shift : ∀ k, b.toNat >>> (8 * (i + k)) = (b.toNat >>> (8 * i)) / 2 ^ (8 * k) := fun k => by
    rw [Nat.shiftRight_eq_div_pow, Nat.shiftRight_eq_div_pow, Nat.div_div_eq_div_mul, mul_add, pow_add]
  simp only [blockNat64, blockNat16, blockHalf, BitVec.extractLsb'_toNat, shift]
  omega

/-- R175: a 16-bit field whose bytes are those of `n`. -/
theorem blockNat16_of_le16 {b : BitVec 2048} {i n : Nat} (h : [blockByte b i, blockByte b (i + 1)] = le16 n) :
    blockNat16 b i = n % 65536 := by
  simp only [le16, List.cons.injEq, and_true] at h
  obtain ⟨low, high⟩ := h
  rw [blockNat16_eq, low, high, BitVec.toNat_ofNat, BitVec.toNat_ofNat]
  omega

/-- R170: a byte of the block read back. -/
theorem blockByte_readBack (c : StationConfig) {i : Nat} (hi : i < 63) :
    blockByte (blockOf c.bytes) i = c.named.getD i 0 := by
  rw [blockByte_blockOf _ (by omega), c.bytes_eq, List.getD_append _ _ _ _ (by rwa [c.named_length])]

/-- R170: a 16-bit field of the block read back. -/
theorem blockNat16_readBack (c : StationConfig) {i n : Nat} (hi : i < 62)
    (h : [c.named.getD i 0, c.named.getD (i + 1) 0] = le16 n) : blockNat16 (blockOf c.bytes) i = n % 65536 :=
  blockNat16_of_le16 (by rw [blockByte_readBack c (by omega), blockByte_readBack c (by omega), h])

theorem blockNat16_lt (b : BitVec 2048) (i : Nat) : blockNat16 b i < 65536 := (blockHalf b i).isLt

theorem clampThreshold_toInt (x : Int) : (BitVec.ofInt 16 (clampThreshold x)).toInt = clampThreshold x := by
  rw [BitVec.toInt_ofInt]
  have : -512 ≤ clampThreshold x ∧ clampThreshold x ≤ 511 := by rw [clampThreshold]; omega
  exact Int.bmod_eq_of_le (by omega) (by omega)

theorem clampThreshold_idem (x : Int) : clampThreshold (clampThreshold x) = clampThreshold x := by
  rw [clampThreshold, clampThreshold]; omega

theorem blockHalf_readBack (c : StationConfig) {i : Nat} {h : Half} (hi : i < 62)
    (hbytes : [c.named.getD i 0, c.named.getD (i + 1) 0] = le16 h.toNat) : blockHalf (blockOf c.bytes) i = h :=
  BitVec.eq_of_toNat_eq ((blockNat16_readBack c hi hbytes).trans (Nat.mod_eq_of_lt h.isLt))

theorem blockNat64_readBack (c : StationConfig) : blockNat64 (blockOf c.bytes) 32 = c.ring % 18446744073709551616 := by
  rw [blockNat64_eq, blockNat16_readBack c (n := c.ring) (by decide) rfl,
    blockNat16_readBack c (i := 34) (n := c.ring / 65536) (by decide) rfl,
    blockNat16_readBack c (i := 36) (n := c.ring / 4294967296) (by decide) rfl,
    blockNat16_readBack c (i := 38) (n := c.ring / 4294967296 / 65536) (by decide) rfl]
  omega

/-- R87, R170: a measure's setting is read back as it is held. -/
theorem blockThreshold_readBack (c : StationConfig) {b : BitVec 2048} {i : Nat} {t : Threshold}
    (ht : t = blockThreshold b i) (hi : i < 57) (setting : c.named.getD i 0 = t.setting)
    (above : [c.named.getD (i + 2) 0, c.named.getD (i + 3) 0] = leSigned t.overAt)
    (below : [c.named.getD (i + 4) 0, c.named.getD (i + 5) 0] = leSigned t.underAt) :
    blockThreshold (blockOf c.bytes) i = blockThreshold b i := by
  subst ht
  rw [blockThreshold, blockHalf_readBack c (by omega) above, blockHalf_readBack c (by omega) below,
    blockByte_readBack c (by omega), setting]
  simp only [blockThreshold, clampThreshold_toInt, clampThreshold_idem]

theorem clampK_le (k : Nat) : clampK k ≤ 16 := by
  unfold clampK; (repeat' split) <;> omega

theorem clampK_idem (k : Nat) : clampK (clampK k) = clampK k := by
  unfold clampK; (repeat' split) <;> omega

theorem clampNat_idem {lo hi : Nat} (n : Nat) : clampNat lo hi (clampNat lo hi n) = clampNat lo hi n := by
  rw [clampNat, clampNat]; omega

/-- Settles O52: every field is held as given or clamped, and its clamp leaves what is read back. -/
theorem configRoundTrip : Obligations.ConfigRoundTrip := by
  refine fun b cfg h => ⟨cfg.bytes_length, ?_⟩
  obtain ⟨first, rounding, context, sample, fits, hcfg, hr, hc, hs⟩ := validate_accepted_iff.1 h
  have small : ∀ {i n m : Nat}, i < 62 → n = m → m < 65536 → [cfg.named.getD i 0, cfg.named.getD (i + 1) 0] = le16 n →
      blockNat16 (blockOf cfg.bytes) i = m := by
    rintro i n m hi rfl hn hbytes
    exact (blockNat16_readBack cfg hi hbytes).trans (Nat.mod_eq_of_lt hn)
  have half : ∀ {i n : Nat}, i < 62 → n = blockNat16 b i → [cfg.named.getD i 0, cfg.named.getD (i + 1) 0] = le16 n →
      blockNat16 (blockOf cfg.bytes) i = blockNat16 b i := by
    rintro i n hi rfl hbytes
    exact small hi rfl (blockNat16_lt b i) hbytes
  have c0 : blockNat16 (blockOf cfg.bytes) 0 = blockNat16 b 0 := half (by decide) (congrArg StationConfig.c0 hcfg) rfl
  have w : blockNat16 (blockOf cfg.bytes) 2 = blockNat16 b 2 := half (by decide) (congrArg StationConfig.w hcfg) rfl
  have l : blockNat16 (blockOf cfg.bytes) 4 = blockNat16 b 4 := half (by decide) (congrArg StationConfig.l hcfg) rfl
  have d : blockNat16 (blockOf cfg.bytes) 6 = blockNat16 b 6 := half (by decide) (congrArg StationConfig.d hcfg) rfl
  have moff : blockNat16 (blockOf cfg.bytes) 14 = blockNat16 b 14 :=
    half (by decide) (congrArg StationConfig.moff hcfg) rfl
  have soff : blockNat16 (blockOf cfg.bytes) 16 = blockNat16 b 16 :=
    half (by decide) (congrArg StationConfig.soff hcfg) rfl
  have ps : blockNat16 (blockOf cfg.bytes) 26 = blockNat16 b 26 := half (by decide) (congrArg StationConfig.ps hcfg) rfl
  have wc : blockNat16 (blockOf cfg.bytes) 12 = clampWc (blockNat16 b 4) (blockNat16 b 12) :=
    small (by decide) (congrArg StationConfig.wc hcfg) (by rw [clampWc]; omega) rfl
  have sb : blockNat16 (blockOf cfg.bytes) 18 = clampNat 1 4096 (blockNat16 b 18) :=
    small (by decide) (congrArg StationConfig.sb hcfg) (by rw [clampNat]; omega) rfl
  have glare : blockNat16 (blockOf cfg.bytes) 20 = min (blockNat16 b 20) 1024 :=
    small (by decide) (congrArg StationConfig.glareLimit hcfg) (by omega) rfl
  have flush : blockNat16 (blockOf cfg.bytes) 28 = clampNat 1 1000 (blockNat16 b 28) :=
    small (by decide) (congrArg StationConfig.flush hcfg) (by rw [clampNat]; omega) rfl
  have ring : blockNat64 (blockOf cfg.bytes) 32 = blockNat64 b 32 :=
    (blockNat64_readBack cfg).trans (by rw [congrArg StationConfig.ring hcfg]; exact Nat.mod_eq_of_lt (BitVec.isLt _))
  have whole : ∀ {i : Nat} {x : Byte}, i < 63 → x = blockByte b i → cfg.named.getD i 0 = x →
      blockByte (blockOf cfg.bytes) i = blockByte b i :=
    fun hi hx hbyte => (blockByte_readBack cfg hi).trans (hbyte.trans hx)
  have number : ∀ {i n m : Nat}, i < 63 → n = m → m < 256 → cfg.named.getD i 0 = byte n →
      (blockByte (blockOf cfg.bytes) i).toNat = m := by
    rintro i n m hi rfl hn hbyte
    rw [blockByte_readBack cfg hi, hbyte, byte, BitVec.toNat_ofNat]
    exact Nat.mod_eq_of_lt hn
  have mode : (blockByte (blockOf cfg.bytes) 8).toNat = (blockByte b 8).toNat :=
    number (by decide) ((congrArg (·.rounding.code) hcfg).trans hr) (BitVec.isLt _) rfl
  have contextCode : (blockByte (blockOf cfg.bytes) 23).toNat = (blockByte b 23).toNat :=
    number (by decide) ((congrArg (·.contextFidelity.code) hcfg).trans hc) (BitVec.isLt _) rfl
  have sampleCode : (blockByte (blockOf cfg.bytes) 24).toNat = (blockByte b 24).toNat :=
    number (by decide) ((congrArg (·.sampleFidelity.code) hcfg).trans hs) (BitVec.isLt _) rfl
  have k : (blockByte (blockOf cfg.bytes) 10).toNat = clampK (blockByte b 10).toNat :=
    number (by decide) (congrArg StationConfig.k hcfg) (by have := clampK_le (blockByte b 10).toNat; omega) rfl
  have hs' : (blockByte (blockOf cfg.bytes) 11).toNat = clampNat 2 6 (blockByte b 11).toNat :=
    number (by decide) (congrArg StationConfig.hs hcfg) (by rw [clampNat]; omega) rfl
  have mad : blockThreshold (blockOf cfg.bytes) 40 = blockThreshold b 40 :=
    blockThreshold_readBack cfg (congrArg StationConfig.mad hcfg) (by decide) rfl rfl rfl
  have shift : blockThreshold (blockOf cfg.bytes) 46 = blockThreshold b 46 :=
    blockThreshold_readBack cfg (congrArg StationConfig.shift hcfg) (by decide) rfl rfl rfl
  have peak : blockThreshold (blockOf cfg.bytes) 52 = blockThreshold b 52 :=
    blockThreshold_readBack cfg (congrArg StationConfig.peak hcfg) (by decide) rfl rfl rfl
  have report : blockHalf (blockOf cfg.bytes) 58 = blockHalf b 58 :=
    (blockHalf_readBack cfg (h := cfg.report) (by decide) rfl).trans (congrArg StationConfig.report hcfg)
  have share : blockHalf (blockOf cfg.bytes) 60 = blockHalf b 60 :=
    (blockHalf_readBack cfg (h := cfg.share) (by decide) rfl).trans (congrArg StationConfig.share hcfg)
  refine validate_accepted_iff.2 ⟨?_, rounding, context, sample, by rwa [l, w], ?_, hr.trans mode.symm,
    hc.trans contextCode.symm, hs.trans sampleCode.symm⟩
  · rw [firstFailed, testsOf, c0, w, l, d, mode, contextCode, sampleCode, ring]
    exact first
  · refine hcfg.trans ?_
    simp only [clampBlock, StationConfig.mk.injEq]
    rw [c0, w, l, d, k, hs', wc, moff, soff, sb, glare, ps, flush, ring, mad, shift, peak, report, share,
      clampK_idem, clampNat_idem, clampNat_idem, clampNat_idem,
      whole (by decide) (congrArg StationConfig.flags hcfg) rfl,
      whole (by decide) (congrArg StationConfig.combination hcfg) rfl,
      whole (by decide) (congrArg StationConfig.peerRouting hcfg) rfl]
    simp [clampWc]

end Sys2Proof.Machine
end

section
/-! Chapter 9 of the manual: a record written into the open grant (R158 to R160, R163, R164), the flush timer (R161),
and the end of STOPPING (R116, R126, R162). -/

namespace Sys2Proof.Machine

/-! ## The end of STOPPING -/

/-- R126: a run whose end is still to come is not settled. -/
theorem settle_waiting {s : State}
    (h : s.bus.op ≠ .stopping ∨ s.table.entries ≠ [] ∨ s.port.queue ≠ [] ∨ s.port.offering ≠ none) : settle s = s := by
  have waits : (s.bus.op == .stopping && drained s) = false := by
    rw [Bool.eq_false_iff, ne_eq, Bool.and_eq_true, beq_iff_eq, drained_iff]
    rintro ⟨hop, hes, hq, ho⟩
    exact h.elim (absurd hop) (Or.rec (absurd hes) (Or.rec (absurd hq) (absurd ho)))
  have retire : haltRetire s = s := by rw [haltRetire, waits]; rfl
  dsimp only [settle]
  rw [retire, waits]
  rfl

section
variable {s : State} (hop : s.bus.op = .stopping) (hes : s.table.entries = []) (hq : s.port.queue = [])
  (ho : s.port.offering = none)

/-- R116, R126: the return to IDLE of a station whose queue is empty and which holds no grant. -/
theorem returnToIdle_eq (hq : s.port.queue = []) (hg : s.port.grant = none) : returnToIdle s = { s with
    bus := { s.bus with op := .idle, queue := [] }
    port := { s.port with
      queue := queueAfterEvent .runEnded s.intake.nextLine (BitVec.ofNat 32 ((s.intake.nextLine + 31) / 32)) s } } := by
  obtain ⟨u, hu⟩ : ∃ u, u = s.updBus fun b => { b with op := .idle, queue := [] } := ⟨_, rfl⟩
  have raised := raise_raised u .runEnded s.intake.nextLine (BitVec.ofNat 32 (bandsClosed s))
  have grantless : ∀ g, u.port.grant = some g → False := fun g h => by
    rw [hu] at h
    exact absurd (hg.symm.trans h) nofun
  obtain ⟨grant, seq, outputs⟩ := raised.2.2.2 fun g h => (grantless g h).elim
  have kept : droppedAfterEvent .runEnded u = u.counters.eventRecordsDropped := by
    have : fill u = 0 := by rw [hu]; exact congrArg queueSize hq
    rw [droppedAfterEvent, this, if_neg]
    rintro ⟨_, h⟩
    exact absurd h (by decide)
  have eq := raise_eq (code := .runEnded) s.intake.nextLine (BitVec.ofNat 32 (bandsClosed s)) u rfl
  rw [grant, seq, outputs, kept] at eq
  have raises : returnToIdle s = raise .runEnded s.intake.nextLine (BitVec.ofNat 32 (bandsClosed s)) u := by
    rw [hu]
    rfl
  refine (raises.trans eq).trans ?_
  rw [hu]
  rfl

include hop hes hq ho

theorem haltRetire_drained : haltRetire s = retireGrant .byHalt s := by
  rw [haltRetire, if_pos]
  rw [Bool.and_eq_true, beq_iff_eq, drained_iff]
  exact ⟨hop, hes, hq, ho⟩

theorem settle_returns (u : State) (hu : haltRetire s = u) (hg : u.port.grant = none) : settle s = returnToIdle u := by
  dsimp only [settle]
  rw [hu, if_pos]
  rw [Bool.and_eq_true, Bool.and_eq_true, beq_iff_eq, drained_iff, hg, ← hu]
  refine ⟨⟨by simpa, by simpa, ?_, by simpa⟩, rfl⟩
  rwa [haltRetire_drained hop hes hq ho, retireGrant_queue]

/-- R126, R162: with nothing queued, no band open and no grant, the station returns to IDLE. -/
theorem settle_drained (hg : s.port.grant = none) : settle s = { s with
    bus := { s.bus with op := .idle, queue := [] }
    port := { s.port with
      queue := queueAfterEvent .runEnded s.intake.nextLine (BitVec.ofNat 32 ((s.intake.nextLine + 31) / 32)) s } } := by
  have none_open : haltRetire s = s := by
    rw [haltRetire_drained hop hes hq ho]
    simp only [retireGrant, hg]
  rw [settle_returns hop hes hq ho s none_open hg, returnToIdle_eq hq hg]

/-- R126, R162: an open grant is retired at halt first. -/
theorem settle_drained_grant {g : OpenGrant} (hg : s.port.grant = some g) : settle s = { s with
    bus := { s.bus with op := .idle, queue := [] }
    port := { s.port with
      grant := none
      nextSeq := s.port.nextSeq + 1
      queue := queueAfterEvent .runEnded s.intake.nextLine (BitVec.ofNat 32 ((s.intake.nextLine + 31) / 32)) s }
    outputs := s.outputs ++ retirementPuts g .byHalt s } := by
  have retired := (haltRetire_drained hop hes hq ho).trans (retireGrant_eq s .byHalt hg)
  rw [settle_returns hop hes hq ho _ retired rfl, returnToIdle_eq (by exact hq) rfl]
  rfl

end

/-! ## The flush timer -/

theorem exec_grantFlush_retired {s : State} {g : OpenGrant} (hg : s.port.grant = some g) :
    exec .grantFlushTimerExpiry s = .next (settle { s with
      port := { s.port with grant := none, nextSeq := s.port.nextSeq + 1 }
      outputs := s.outputs ++ retirementPuts g .byTimer s }) := by
  refine congrArg Host.Outcome.next ((if_pos (by rw [hg]; rfl)).trans ?_)
  rw [flushExpired, retireGrant_eq s .byTimer hg]

/-- Settles O40: the grant retired by timer, and the end of the run. -/
theorem grantFlush : Obligations.GrantFlush := by
  refine fun s => ⟨fun hg => ?_, fun g outputs hg hout => ⟨fun hwait => ?_, fun hop hes hq ho => ?_⟩⟩
  · exact congrArg Host.Outcome.next (if_neg (by rw [hg]; nofun))
  · rw [exec_grantFlush_retired hg, settle_waiting (by exact hwait), hout]
    rfl
  · rw [exec_grantFlush_retired hg, settle_drained (by exact hop) (by exact hes) (by exact hq) (by exact ho) rfl, hout]
    rfl

/-! ## The write of a record -/

/-- R159: what a grant holds once a record has been written into it. -/
theorem OpenGrant.wrote_spec (g : OpenGrant) (r : Rec) :
    (g.wrote r).grant = g.grant ∧ (g.wrote r).used = g.used + r.size ∧ (g.wrote r).records = g.records + 1 ∧
    (g.wrote r).timer = g.timer ∧
    (∀ b, r.band? = some b → (g.wrote r).lastBand = some b ∧ (g.wrote r).firstBand = some (g.firstBand.getD b)) ∧
    (r.band? = none → (g.wrote r).lastBand = g.lastBand ∧ (g.wrote r).firstBand = g.firstBand) := by
  refine ⟨rfl, rfl, rfl, rfl, fun b hb => ?_, fun hb => ?_⟩ <;> simp [OpenGrant.wrote, hb]

/-- R158, R159: the write of the head record `r` by the command `c` into the grant `g`, which a GRANT_OPEN opens, with
the grants `fifo` left waiting. -/
def Writes (c : Instr) (r : Rec) (g : OpenGrant) (fifo : List Grant) (s : State) : Prop :=
  (c = .recordWrite ∧ s.port.grant = some g ∧ g.used + r.size ≤ g.grant.length.toNat ∧ fifo = s.port.fifo) ∨
    (c = .grantOpen ∧ s.port.grant = none ∧ s.port.fifo = g.grant :: fifo ∧ g.used = 0 ∧
      g.records = 0 ∧ g.firstBand = none ∧ g.lastBand = none ∧ g.timer = s.ctl.cfg.flush)

section
variable {s : State} {c : Instr} {r : Rec} {rest : List Rec} {g : OpenGrant} {fifo : List Grant}

theorem exec_writes (hw : Writes c r g fifo s) (hq : s.port.queue = r :: rest) (hl : s.port.link = .up) :
    exec c s = .next (settle (writeHead g r { s with port := { s.port with fifo := fifo } })) := by
  obtain ⟨rfl, hg, hfit, rfl⟩ | ⟨rfl, hg, hfifo, hused, hrecords, hfirst, hlast, htimer⟩ := hw
  · refine (show execRecordWrite s = .next (settle (writeHead g r s)) from ?_).trans rfl
    simp only [execRecordWrite, hq, hg, hl]
    rw [if_pos (by rw [OpenGrant.space]; omega)]
  · have fresh : freshGrant s.ctl.cfg.flush g.grant = g := by
      cases g
      cases hused
      cases hrecords
      cases hfirst
      cases hlast
      cases htimer
      rfl
    have opens : openGrant g.grant r s = writeHead g r { s with port := { s.port with fifo := fifo } } := by
      rw [openGrant, fresh, State.updPort, hfifo]
      rfl
    rw [← opens]
    change execGrantOpen s = _
    simp only [execGrantOpen, hq, hg, hfifo, hl]

/-- R159: the record in host memory, before the tests for space. -/
def recordOut (g : OpenGrant) (r : Rec) (s : State) : State := { s with
  port := { s.port with queue := s.port.queue.tail, grant := some (g.wrote r) }
  outputs := s.outputs ++ [.hostWrite (g.grant.address.toNat + g.used) r.bytes] }

theorem writeHead_due (h : DueBySpace (g.wrote r) s.port.queue.tail) : writeHead g r s = { s with
    port := { s.port with queue := s.port.queue.tail, grant := none, nextSeq := s.port.nextSeq + 1 }
    outputs := s.outputs ++ [.hostWrite (g.grant.address.toNat + g.used) r.bytes] ++
      retirementPuts (g.wrote r) .bySpace s } := by
  have due : spaceDue (recordOut g r s) = true := (spaceDue_iff (recordOut g r s) (g.wrote r) rfl).2 h
  exact (if_pos due).trans (retireGrant_eq (recordOut g r s) .bySpace rfl)

theorem writeHead_kept (h : ¬ DueBySpace (g.wrote r) s.port.queue.tail) : writeHead g r s = recordOut g r s :=
  if_neg (mt (spaceDue_iff (recordOut g r s) (g.wrote r) rfl).1 h)

end

theorem Rec.size_pos (r : Rec) : 16 ≤ r.size := by
  cases r <;> simp [Rec.size]
  omega

/-- R159: where no record can be written, nothing happens. -/
theorem exec_recordWrite_idle {s : State} (h : s.port.queue = [] ∨ s.port.grant = none ∨ s.port.link = .down ∨
    (∃ x o, s.port.queue.head? = some x ∧ s.port.grant = some o ∧ o.grant.length.toNat < o.used + x.size)) :
    exec .recordWrite s = .next s := by
  change execRecordWrite s = _
  unfold execRecordWrite
  split
  next r rest g hq hg hl =>
    rw [hq, hg, hl] at h
    rw [if_neg]
    obtain h | h | h | ⟨x, o, hx, ho, hlt⟩ := h
    · cases h
    · cases h
    · cases h
    · cases hx
      cases ho
      have := r.size_pos
      rw [OpenGrant.space]
      omega
  next => rfl

/-- R158: where no grant can be opened, nothing happens. -/
theorem exec_grantOpen_idle {s : State}
    (h : s.port.queue = [] ∨ s.port.grant ≠ none ∨ s.port.fifo = [] ∨ s.port.link = .down) :
    exec .grantOpen s = .next s := by
  change execGrantOpen s = _
  unfold execGrantOpen
  split
  next hq hg hf hl =>
    rw [hq, hg, hf, hl] at h
    obtain h | h | h | h := h
    · cases h
    · exact absurd rfl h
    · cases h
    · cases h
  next => rfl

/-- R181: with the link UP the message follows when completion interrupts are enabled. -/
theorem retirementPuts_up {s : State} (g : OpenGrant) (flag : RetireFlag) (hl : s.port.link = .up) :
    retirementPuts g flag s = .hostWrite (s.ctl.cfg.ring + 32 * ((s.port.nextSeq - 1).toNat % 256))
      (completionBytes s.port.nextSeq g flag) :: if completionInterrupts s = true then [.interrupt] else [] := by
  rw [retirementPuts, hl]
  rfl

/-- Settles O39: the layouts, the commands that write nothing, and the write with and without retirement by space. -/
theorem recordsWritten : Obligations.RecordsWritten := by
  refine ⟨rec_layout, completionBytes_layout, fun s c r rest g fifo => ⟨?_, ?_, fun hwait hq hl hw => ?_⟩⟩
  · rintro rfl h
    exact exec_recordWrite_idle h
  · rintro rfl h
    exact exec_grantOpen_idle h
  · have run := exec_writes hw hq hl
    have head : ∀ x, rest.head? = some x ↔ ∃ l, rest = x :: l := fun x => List.head?_eq_some_iff
    obtain ⟨hgrant, hused, hrecords, htimer, hband, hnone⟩ := g.wrote_spec r
    refine ⟨g.wrote r, hgrant, hused, hrecords, htimer, hband, hnone, fun hdue => ?_, fun hroom hfits => ?_⟩
    · have due : DueBySpace (g.wrote r) s.port.queue.tail := by
        rw [hq]
        obtain h | ⟨x, hx, h⟩ := hdue
        · exact .inl (by rwa [hgrant])
        · obtain ⟨l, hl⟩ := (head x).1 hx
          exact .inr ⟨x, l, hl, by rwa [hgrant]⟩
      rw [run, writeHead_due (by exact due), settle_waiting, retirementPuts_up _ _ (by exact hl)]
      · rw [List.append_assoc, hq]
        rfl
      · exact hwait.imp_right (Or.imp_right (Or.imp_left fun h => by rwa [hq]))
    · have kept : ¬ DueBySpace (g.wrote r) s.port.queue.tail := by
        rw [hq]
        rintro (h | ⟨x, l, hx, h⟩)
        · rw [hgrant] at h; omega
        · rw [hgrant] at h
          have := hfits x ((head x).2 ⟨l, hx⟩)
          omega
      rw [run, writeHead_kept (by exact kept), settle_waiting]
      · rw [recordOut, hq]
        rfl
      · exact hwait.imp_right (Or.imp_right (Or.imp_left fun h => by rw [recordOut, hq]; exact h))

/-- Settles O41: the last record, its grant retired by space or at halt, and the return to IDLE. -/
theorem lastRecordEndsRun : Obligations.LastRecordEndsRun := by
  intro s c r g fifo hop hes ho hq hl hw
  have run := exec_writes hw hq hl
  obtain ⟨hgrant, hused, hrecords, htimer, hband, hnone⟩ := g.wrote_spec r
  refine ⟨g.wrote r, _, hgrant, hused, hrecords, htimer, hband, hnone, rfl, ?_⟩
  have lastOne : DueBySpace (g.wrote r) s.port.queue.tail ↔ g.grant.length.toNat < (g.wrote r).used + 16 := by
    rw [hq, DueBySpace, hgrant]
    exact or_iff_left fun ⟨_, _, h, _⟩ => by cases h
  by_cases hdue : g.grant.length.toNat < (g.wrote r).used + 16
  · rw [run, if_pos hdue, writeHead_due (by exact lastOne.2 hdue),
      settle_drained (by exact hop) (by exact hes) (by simp [hq]) (by exact ho) rfl, retirementPuts_up _ _ (by exact hl),
      List.append_assoc, queueAfterEvent_congr (s := { s with port := { s.port with queue := [] } }) _ _ _ (by rfl) (by simp [hq])]
    rfl
  · rw [run, if_neg hdue, writeHead_kept (by exact mt lastOne.1 hdue),
      settle_drained_grant (by exact hop) (by exact hes) (by simp [recordOut, hq]) (by exact ho) rfl,
      retirementPuts_up _ _ (by exact hl),
      queueAfterEvent_congr (s := { s with port := { s.port with queue := [] } }) _ _ _ (by rfl) (by simp [recordOut, hq])]
    simp only [recordOut, List.append_assoc]
    rfl

end Sys2Proof.Machine
end

section
/-! Chapters 4 and 5 of the manual: what a record adds to the accumulator (R59 to R62) and to the tile slots (R71 to
R73), and the steps of finalisation (R64, R65). -/

namespace Sys2Proof.Machine

/-! ## Words in DRAM -/

/-- The 16-bit word at a DRAM address (log entry 7: the low byte first). -/
def dramWord (s : State) (a : Nat) : Nat := (dramByte s a).toNat + 256 * (dramByte s (a + 1)).toNat

theorem wordsOf_range (f : Nat → Byte) (n : Nat) : wordsOf ((List.range (2 * n)).map f) =
    (List.range n).map fun j => (f (2 * j)).toNat + 256 * (f (2 * j + 1)).toNat := by
  induction n generalizing f with
  | zero => rfl
  | succ n ih =>
    rw [show 2 * (n + 1) = 2 * n + 1 + 1 by omega, List.range_succ_eq_map, List.range_succ_eq_map,
      List.range_succ_eq_map]
    simp only [List.map_cons, List.map_map, wordsOf]
    exact congrArg _ (ih (fun i => f (i + 1 + 1)))

/-- R55: the accumulator row of a line, word by word. -/
theorem sumRow_eq (s : State) (r : Nat) : sumRow s r =
    (List.range s.ctl.cfg.w).map fun j => dramWord s (67108864 + 2 * (r * s.ctl.cfg.w + j)) := by
  rw [sumRow, dramRow_eq, wordsOf_range]
  refine List.map_congr_left fun j _ => ?_
  rw [dramWord, sumAddr, accumulatorBase, show 67108864 + 2 * (r * s.ctl.cfg.w + j) = 67108864 + 2 * (r * s.ctl.cfg.w) +
    2 * j by omega]
  rfl

theorem le16s_length (sums : List Nat) : (sums.flatMap le16).length = 2 * sums.length := by
  induction sums with
  | nil => rfl
  | cons n ns ih => rw [List.flatMap_cons, List.length_append, ih, le16_length, List.length_cons]; omega

theorem le16s_getElem? {sums : List Nat} {j n : Nat} (h : sums[j]? = some n) :
    (sums.flatMap le16)[2 * j]? = some (BitVec.ofNat 8 n) ∧
    (sums.flatMap le16)[2 * j + 1]? = some (BitVec.ofNat 8 (n / 256)) := by
  induction sums generalizing j with
  | nil => cases h
  | cons m ms ih =>
    cases j with
    | zero =>
      cases h
      exact ⟨rfl, rfl⟩
    | succ j => exact ih h

/-- R55, R60: an accumulator row written is read back, each word modulo 65,536. -/
theorem dramWord_writeSums {s : State} {r j n : Nat} {sums : List Nat} (h : sums[j]? = some n) :
    dramWord (writeSums r sums s) (67108864 + 2 * (r * s.ctl.cfg.w + j)) = n % 65536 := by
  obtain ⟨low, high⟩ := le16s_getElem? h
  obtain ⟨hlow, low⟩ := List.getElem?_eq_some_iff.1 low
  obtain ⟨hhigh, high⟩ := List.getElem?_eq_some_iff.1 high
  rw [dramWord, writeSums, sumAddr, accumulatorBase,
    show 67108864 + 2 * (r * s.ctl.cfg.w + j) = 67108864 + 2 * (r * s.ctl.cfg.w) + 2 * j by omega,
    dramByte_dramWrite_of_mem _ _ _ _ hlow, Nat.add_assoc, dramByte_dramWrite_of_mem _ _ _ _ hhigh, low, high,
    BitVec.toNat_ofNat, BitVec.toNat_ofNat]
  omega

theorem dramByte_writeSums_of_ne {s : State} {r a : Nat} {sums : List Nat} (hlen : sums.length = s.ctl.cfg.w)
    (h : a < 67108864 + 2 * (r * s.ctl.cfg.w) ∨ 67108864 + 2 * ((r + 1) * s.ctl.cfg.w) ≤ a) :
    dramByte (writeSums r sums s) a = dramByte s a := by
  refine dramByte_dramWrite_of_ne s _ _ _ ?_
  rw [sumAddr, accumulatorBase, le16s_length, hlen]
  rw [add_mul, one_mul] at h
  omega

/-! ## Learning -/

/-- R60: the words that a contribution writes. -/
def contributionSums (r : Nat) (pixels : List Byte) (s : State) : List Nat :=
  if countAt s r = 0 then pixels.map (·.toNat) else List.zipWith (· + ·) (sumRow s r) (pixels.map (·.toNat))

theorem contributionSums_getElem? {s : State} {r j : Nat} {pixels : List Byte} (hlen : pixels.length = s.ctl.cfg.w)
    (hj : j < s.ctl.cfg.w) : (contributionSums r pixels s)[j]? = some
      ((if countAt s r = 0 then 0 else dramWord s (67108864 + 2 * (r * s.ctl.cfg.w + j))) + (pixels.getD j 0).toNat) := by
  have pixel : pixels[j]? = some (pixels.getD j 0) := by
    rw [List.getD_eq_getElem _ _ (by omega), List.getElem?_eq_getElem (by omega)]
  unfold contributionSums
  split
  · rw [List.getElem?_map, pixel, Option.map_some, Nat.zero_add]
  · rw [sumRow_eq, List.getElem?_zipWith, List.getElem?_map, List.getElem?_map, List.getElem?_range hj, pixel]
    rfl

theorem contributionSums_length {s : State} {r : Nat} {pixels : List Byte} (hlen : pixels.length = s.ctl.cfg.w) :
    (contributionSums r pixels s).length = s.ctl.cfg.w := by
  unfold contributionSums
  split
  · rwa [List.length_map]
  · rw [sumRow_eq, List.length_zipWith, List.length_map, List.length_map, List.length_range, hlen, Nat.min_self]

theorem contribute_eq (r : Nat) (pixels : List Byte) (s : State) : contribute r pixels s =
    { writeSums r (contributionSums r pixels s) s with
      ref := { s.ref with
        counts := s.ref.counts.set r (countAt s r + 1)
        touched := if countAt s r + 1 = 1 then s.ref.touched + 1 else s.ref.touched
        shortLines := if countAt s r + 1 = s.ref.depth then s.ref.shortLines - 1 else s.ref.shortLines } } := rfl

theorem contributes_iff {rec : LineRecord} {row : Row} {s : State} : contributes rec row s = true ↔
    s.ref.state = .learning ∧ rec.mode = .locked ∧ row.state = .present ∧
      ∃ r, rec.index = some r ∧ s.ref.counts.getD r 0 < 255 := by
  simp only [contributes, Bool.and_eq_true, beq_iff_eq, and_assoc, Option.any_eq_true, decide_eq_true_iff]
  rfl

theorem takeRecord_repeatEnd (rec : LineRecord) (s : State) : takeRecord rec s =
    takeRecord { rec with repeatEnd := false } (if rec.repeatEnd = true then repeatEnd rec.line s else s) := by
  have rows : rowAt rec.line (if rec.repeatEnd = true then repeatEnd rec.line s else s) = rowAt rec.line s := by
    have same : (if rec.repeatEnd = true then repeatEnd rec.line s else s).table = s.table := by split <;> simp
    rw [rowAt, rowAt, findEntry_congr same]
  dsimp only [takeRecord]
  rw [rows]
  rfl

theorem learningComplete_iff {r : RefCtl} : learningComplete r = true ↔
    r.shortLines = 0 ∨ (4 * r.depth ≤ r.learned.toNat ∧ 1 ≤ r.touched) := by
  simp [learningComplete]

/-- Settles O44: the records that contribute, what a contribution writes, and the repeat end before its record. -/
theorem learningContribution : Obligations.LearningContribution := by
  refine fun s rec row => ⟨fun h => ?_, ?_, takeRecord_repeatEnd rec s, ?_⟩
  · rw [learnFrom, if_neg]
    rw [contributes_iff]
    rintro ⟨hstate, hmode, hrow, r, hr, hcount⟩
    obtain h | h | h | h := h
    · exact h hstate
    · exact h hmode
    · exact h hrow
    · exact absurd (h r hr) (by omega)
  · rintro r c - hstate hmode hrow hr hl hlen rfl hc hw
    have taken : learnFrom rec row s = contribute r (row.pixels.take s.ctl.cfg.w) s := by
      rw [learnFrom, if_pos (contributes_iff.2 ⟨hstate, hmode, hrow, r, hr, hc⟩), hr]
      rfl
    have width : (row.pixels.take s.ctl.cfg.w).length = s.ctl.cfg.w := by rw [List.length_take]; omega
    refine ⟨_, rfl, fun j hj => ?_, fun a ha => ?_, ?_, ?_⟩ <;> rw [taken, contribute_eq]
    · have word := dramWord_writeSums (s := s) (r := r) (contributionSums_getElem? (r := r) width hj)
      have pixel : (row.pixels.take s.ctl.cfg.w).getD j 0 = row.pixels.getD j 0 := by
        simp [List.getD_eq_getElem?_getD, hj]
      rw [pixel] at word
      exact word
    · exact dramByte_writeSums_of_ne (contributionSums_length width) ha
    · simp [countAt]
    · rfl
  · rintro line learned rfl
    refine ⟨fun h => if_neg h, fun h hdone => ?_, fun h hshort hmore => ?_⟩
    · have complete : learningComplete { s.ref with learned := satInc s.ref.learned } = true :=
        learningComplete_iff.2 hdone
      rw [repeatEnd, if_pos h, State.updRef]
      dsimp only
      rw [if_pos complete]
    · have short : ¬ learningComplete { s.ref with learned := satInc s.ref.learned } = true :=
        mt learningComplete_iff.1 (by simp only; omega)
      rw [repeatEnd, if_pos h, State.updRef]
      dsimp only
      rw [if_neg short]

/-! ## Tile slots -/

theorem learnFrom_frame (rec : LineRecord) (row : Row) (s : State) :
    learnFrom rec row s = { s with ref := (learnFrom rec row s).ref, dram := (learnFrom rec row s).dram } := by
  unfold learnFrom
  split <;> rfl

theorem takeRecord_eq {rec : LineRecord} {s : State} {e : Entry} {row : Row} (hend : rec.repeatEnd = false)
    (he : findEntry (rec.line / 32) s = some e) (hrow : e.rows[rec.line % 32]? = some row) :
    takeRecord rec s = updEntry (rec.line / 32) (fun x => { x with slots := scorerTake row (serve rec row s) x.slots })
      (learnFrom rec row s) := by
  have at_row : rowAt rec.line s = row := by
    have := (findEntry_congr (s := s) (t := s) rfl (bandOf rec.line)).trans he
    rw [rowAt, this]
    simp [rowOf, List.getD_eq_getElem?_getD, hrow]
  dsimp only [takeRecord]
  rw [at_row, hend]
  rfl

/-- R73: the peak after some differences is the greatest of them and the one before. -/
theorem foldl_max_spec (l : List Nat) (p : Nat) :
    p ≤ l.foldl max p ∧ (∀ x ∈ l, x ≤ l.foldl max p) ∧ (l.foldl max p = p ∨ l.foldl max p ∈ l) := by
  induction l generalizing p with
  | nil => exact ⟨Nat.le_refl p, List.forall_mem_nil _, .inl rfl⟩
  | cons x xs ih =>
    obtain ⟨below, all, reached⟩ := ih (max p x)
    refine ⟨(Nat.le_max_left p x).trans below, fun y hy => ?_, ?_⟩
    · rcases List.mem_cons.1 hy with rfl | hy
      · exact (Nat.le_max_right p y).trans below
      · exact all y hy
    · rw [List.foldl_cons]
      rcases reached with h | h
      · rw [h]
        rcases Nat.le_total p x with hp | hp
        · exact .inr (by rw [Nat.max_eq_right hp]; exact List.mem_cons_self)
        · exact .inl (Nat.max_eq_left hp)
      · exact .inr (List.mem_cons_of_mem _ h)

theorem glareOf_eq (px : List Byte) : glareOf px = (px.filter fun p => p = 0 ∨ p = 255).length := by
  rw [glareOf]
  congr 1
  exact List.filter_congr fun p _ => (Bool.decide_or _ _).symm

theorem tileChunk_imageLine {s : State} {r i : Nat} (h : 32 * (i + 1) ≤ s.ctl.cfg.w) : tileChunk i (imageLine s r) =
    (List.range 32).map fun j => dramByte s (r * s.ctl.cfg.w + 32 * i + j) := by
  rw [tileChunk, imageLine, imageAddr, dramRow_eq]
  refine List.ext_getElem? fun j => ?_
  rw [List.getElem?_take, List.getElem?_drop]
  by_cases hj : j < 32
  · rw [if_pos hj, List.getElem?_map, List.getElem?_map, List.getElem?_range hj, List.getElem?_range (by omega),
      Option.map_some, Option.map_some, Nat.add_assoc]
  · rw [if_neg hj, List.getElem?_eq_none (by simp; omega)]

theorem serve_eq_none {rec : LineRecord} {row : Row} {s : State}
    (h : s.ref.state ≠ .ready ∨ row.registered = false ∨ rec.index = none) : serve rec row s = none := by
  unfold serve
  split
  next hs =>
    obtain ⟨hstate, hreg, -⟩ := hs
    obtain h | h | h := h
    · exact absurd hstate h
    · rw [h] at hreg; cases hreg
    · rw [h]; rfl
  next => rfl

theorem serve_eq_some {rec : LineRecord} {row : Row} {s : State} {r : Nat} (hrow : row.state = .present)
    (href : s.ref.state = .ready) (hreg : row.registered = true) (hr : rec.index = some r) :
    serve rec row s = some (imageLine s r) := by
  rw [serve, if_pos ⟨href, hreg, hrow⟩, hr]
  rfl

theorem addRow_eq (px : List Byte) (slot : Slot) : slot.addRow px = { slot with
    inspectable := slot.inspectable + 1
    pixelSum := slot.pixelSum + (px.map (·.toNat)).sum
    glare := slot.glare + (px.filter fun p => p = 0 ∨ p = 255).length } := by
  rw [Slot.addRow, glareOf_eq]
  rfl

theorem slotTake_unserved {row : Row} (h : row.state = .present) (i : Nat) (slot : Slot) :
    slotTake row none i slot = slot.addRow (tileChunk i row.pixels) := if_pos h

theorem slotTake_served {row : Row} (h : row.state = .present) (line : List Byte) (i : Nat) (slot : Slot) :
    slotTake row (some line) i slot = (slot.addRow (tileChunk i row.pixels)).addDifferences
      (differences (tileChunk i row.pixels) (tileChunk i line)) := if_pos h

theorem addDifferences_peak (ds : List Int) (slot : Slot) : slot.peak ≤ (slot.addDifferences ds).peak ∧
    (∀ d ∈ ds, d.natAbs ≤ (slot.addDifferences ds).peak) ∧
    ((slot.addDifferences ds).peak = slot.peak ∨ ∃ d ∈ ds, d.natAbs = (slot.addDifferences ds).peak) := by
  obtain ⟨below, all, reached⟩ := foldl_max_spec (ds.map (·.natAbs)) slot.peak
  exact ⟨below, fun d hd => all _ (List.mem_map_of_mem hd), reached.imp_right List.mem_map.1⟩

/-- Settles O60: the slots of the record's entry, served and not, and what is left. -/
theorem tileAccumulators : Obligations.TileAccumulators := by
  intro s rec e row hend he hrow hw
  have taken := takeRecord_eq hend he hrow
  have table : (learnFrom rec row s).table = s.table := by rw [learnFrom_frame]
  refine ⟨_, scorerTake row (serve rec row s) e.slots, rfl, ?_, fun b hb => ?_, List.length_mapIdx, fun i slot hi => ?_, ?_⟩
  · rw [taken, findEntry_updEntry _ _ _ (by exact fun _ => rfl), findEntry_congr table, he]
    rfl
  · rw [taken, findEntry_updEntry_ne _ _ (by exact fun _ => rfl) hb, findEntry_congr table]
  · obtain ⟨hlen, -⟩ := List.getElem?_eq_some_iff.1 hi
    refine ⟨slotTake row (serve rec row s) i slot, tileChunk i row.pixels,
      tileChunk i (imageLine s (rec.index.getD 0)), differences (tileChunk i row.pixels)
        (tileChunk i (imageLine s (rec.index.getD 0))), ?_, rfl, fun h => if_neg h, fun h hserve => ?_,
      fun r h href hreg hr => ?_⟩
    · rw [scorerTake, List.getElem?_mapIdx, hi]
      rfl
    · rw [serve_eq_none hserve, slotTake_unserved h, addRow_eq]
    · rw [serve_eq_some h href hreg hr, slotTake_served h, hr, addRow_eq]
      exact ⟨tileChunk_imageLine (by omega), rfl, rfl, addDifferences_peak _ _⟩
  · rw [taken, learnFrom_frame]
    rfl

end Sys2Proof.Machine
end

section
/-! Chapter 4 of the manual, section 4.5: the steps of finalisation (R64, R65). -/

namespace Sys2Proof.Machine

/-! ## The lowest counted line -/

theorem firstTouched_none {l : List Nat} (h : ∀ x ∈ l, x = 0) (k : Nat) : firstTouched k l = none := by
  induction l generalizing k with
  | nil => rfl
  | cons c cs ih =>
    rw [firstTouched, if_pos (h c (by simp))]
    exact ih (fun x hx => h x (by simp [hx])) _

theorem firstTouched_some {l : List Nat} {m : Nat} (hm : l.getD m 0 ≠ 0) (hbelow : ∀ i, i < m → l.getD i 0 = 0)
    (k : Nat) : firstTouched k l = some (k + m) := by
  induction l generalizing k m with
  | nil => exact absurd List.getD_nil hm
  | cons c cs ih =>
    rw [firstTouched]
    cases m with
    | zero => exact if_neg hm
    | succ m =>
      rw [if_pos (by exact hbelow 0 (by omega)), ih hm (fun i hi => hbelow (i + 1) (by omega))]
      congr 1
      omega

theorem getD_take {l : List Nat} {i n : Nat} (h : i < n) : (l.take n).getD i 0 = l.getD i 0 := by
  rw [List.getD_eq_getElem?_getD, List.getD_eq_getElem?_getD, List.getElem?_take_of_lt h]

/-- R64: the lowest counted line below L. -/
theorem lowestTouched_eq {s : State} {m : Nat} (hm : m < s.ctl.cfg.l) (hcount : 1 ≤ s.ref.counts.getD m 0)
    (hbelow : ∀ i, i < m → s.ref.counts.getD i 0 = 0) : lowestTouched s = some m := by
  rw [lowestTouched, firstTouched_some (m := m), Nat.zero_add]
  · rw [getD_take hm]; omega
  · intro i hi
    rw [getD_take (by omega)]
    exact hbelow i hi

theorem lowestTouched_none {s : State} (h : ∀ i, i < s.ctl.cfg.l → s.ref.counts.getD i 0 = 0) :
    lowestTouched s = none := by
  refine firstTouched_none (fun x hx => ?_) 0
  obtain ⟨i, hi, rfl⟩ := List.mem_iff_getElem.1 hx
  rw [List.length_take] at hi
  rw [List.getElem_take, ← h i (by omega), List.getD_eq_getElem _ _ (by omega)]

/-! ## One reference line -/

/-- R64: the pixels that finalisation gives line `r`. -/
def finalisedLine (m r : Nat) (s : State) : List Byte :=
  if countAt s r = 0 then imageLine s (copySource m r)
  else divideRow s.ctl.cfg.rounding (sumRow s r) (countAt s r)

theorem finaliseRow_eq (m r : Nat) (s : State) : finaliseRow m r s = { writeImage r (finalisedLine m r s) s with
    ref := { s.ref with filled := if countAt s r = 0 then s.ref.filled + 1 else s.ref.filled } } := by
  unfold finaliseRow finalisedLine
  split <;> rfl

theorem finalisedLine_length (m r : Nat) (s : State) : (finalisedLine m r s).length = s.ctl.cfg.w := by
  unfold finalisedLine
  split
  · rw [imageLine, length_dramRow]
  · rw [divideRow, List.length_map, sumRow_eq, List.length_map, List.length_range]

theorem finalisedLine_divided {m r j : Nat} {s : State} (h : countAt s r ≠ 0) (hj : j < s.ctl.cfg.w) :
    (finalisedLine m r s)[j]? = some (byte (roundNat s.ctl.cfg.rounding
      (dramWord s (67108864 + 2 * (r * s.ctl.cfg.w + j))) (countAt s r))) := by
  rw [finalisedLine, if_neg h, divideRow, List.getElem?_map, sumRow_eq, List.getElem?_map, List.getElem?_range hj]
  rfl

theorem finalisedLine_copied {m r j : Nat} {s : State} (h : countAt s r = 0) (hj : j < s.ctl.cfg.w) :
    (finalisedLine m r s)[j]? = some (dramByte s (copySource m r * s.ctl.cfg.w + j)) := by
  rw [finalisedLine, if_pos h, imageLine, imageAddr, dramRow_eq, List.getElem?_map, List.getElem?_range hj]
  rfl

/-- R64: the image line that a row of finalisation writes, and nothing else. -/
theorem finaliseRow_dram (m r : Nat) (s : State) :
    (∀ j b, (finalisedLine m r s)[j]? = some b → dramByte (finaliseRow m r s) (r * s.ctl.cfg.w + j) = b) ∧
    ∀ a, a < r * s.ctl.cfg.w ∨ (r + 1) * s.ctl.cfg.w ≤ a → dramByte (finaliseRow m r s) a = dramByte s a := by
  rw [finaliseRow_eq]
  refine ⟨fun j b hb => ?_, fun a ha => ?_⟩
  · obtain ⟨hj, rfl⟩ := List.getElem?_eq_some_iff.1 hb
    exact dramByte_dramWrite_of_mem s _ _ j hj
  · refine dramByte_dramWrite_of_ne s _ _ a ?_
    rw [finalisedLine_length, imageAddr]
    rwa [add_mul, one_mul] at ha

/-! ## The step -/

/-- R64: the state once the line has been written and counted. -/
def rowFinalised (m r : Nat) (s : State) : State :=
  (finaliseRow m r s).updRef fun c => { c with written := c.written + 1 }

/-- R64, R65: a step of finalisation: the line, and with the last one REFERENCE_READY. -/
theorem finaliseStep_spec {m r : Nat} {s : State} (hw : s.ref.written < s.ctl.cfg.l)
    (hr : r = finaliseTarget m s.ref.written) (hstate : s.ref.state = .finalising) :
    (finaliseStep m s).dram = (rowFinalised m r s).dram ∧
    (finaliseStep m s).powerCycles = s.powerCycles ∧
    (finaliseStep m s).ref = { s.ref with
      written := s.ref.written + 1
      filled := if s.ref.counts.getD r 0 = 0 then s.ref.filled + 1 else s.ref.filled
      state := if s.ref.written + 1 = s.ctl.cfg.l then .ready else .finalising } ∧
    (finaliseStep m s).port.queue = if s.ref.written + 1 = s.ctl.cfg.l then
        queueAfterEvent .referenceReady s.ref.endingLine (BitVec.ofNat 32 (finaliseStep m s).ref.filled) s
      else s.port.queue := by
  have step : finaliseStep m s = finaliseEnd (rowFinalised m r s) := by
    rw [finaliseStep, if_pos hw, hr]
    rfl
  have row : rowFinalised m r s = { s with
      dram := (rowFinalised m r s).dram
      ref := { s.ref with
        written := s.ref.written + 1
        filled := if s.ref.counts.getD r 0 = 0 then s.ref.filled + 1 else s.ref.filled } } := by
    rw [rowFinalised, finaliseRow_eq]
    rfl
  have written : (rowFinalised m r s).ref.written = s.ref.written + 1 := by rw [row]
  have l : (rowFinalised m r s).ctl.cfg.l = s.ctl.cfg.l := by rw [row]
  rw [step]
  refine ⟨finaliseEnd_dram _, by rw [finaliseEnd_powerCycles, row], ?_⟩
  by_cases hlast : s.ref.written + 1 = s.ctl.cfg.l
  · have ends : finaliseEnd (rowFinalised m r s) = raise .referenceReady s.ref.endingLine
        (BitVec.ofNat 32 (rowFinalised m r s).ref.filled)
        ((rowFinalised m r s).updRef fun c => { c with state := .ready }) := by
      rw [finaliseEnd, if_neg (by omega), row]
    have ref : (finaliseEnd (rowFinalised m r s)).ref = { s.ref with
        written := s.ref.written + 1
        filled := if s.ref.counts.getD r 0 = 0 then s.ref.filled + 1 else s.ref.filled
        state := .ready } := by
      rw [ends, raise_ref, row]
      rfl
    have filled : (rowFinalised m r s).ref.filled = (finaliseEnd (rowFinalised m r s)).ref.filled := by rw [ref, row]
    rw [if_pos hlast, if_pos hlast]
    refine ⟨ref, ?_⟩
    rw [← filled, ends, (raise_raised _ _ _ _).1]
    exact queueAfterEvent_congr _ _ _ (by rw [row]; rfl) (by rw [row]; rfl)
  · have ends : finaliseEnd (rowFinalised m r s) = rowFinalised m r s := by rw [finaliseEnd, if_pos (by omega)]
    rw [if_neg hlast, if_neg hlast, ends, row, ← hstate]
    exact ⟨rfl, rfl⟩

theorem exec_finaliseLine {s : State} (h : s.ref.state = .finalising) : exec .finaliseLine s =
    match lowestTouched s with
    | some m => .next (finaliseStep m s)
    | none => .fault .finaliseNothing := if_pos h

/-- Settles O43: a step of finalisation, the byte of the line it writes, and the end of it. -/
theorem finaliseLine : Obligations.FinaliseLine := by
  refine fun s => ⟨fun h => if_neg h, fun h hnone => ?_, fun m r _ hstate hm hbelow hcount hw hr => ?_⟩
  · rw [exec_finaliseLine h, lowestTouched_none hnone]
  · obtain ⟨dram, cycles, ref, queue⟩ := finaliseStep_spec (m := m) hw hr hstate
    obtain ⟨inside, outside⟩ := finaliseRow_dram m r s
    have bytes : ∀ a, dramByte (finaliseStep m s) a = dramByte (finaliseRow m r s) a := fun a => by
      rw [dramByte, dramByte, dram, cycles, rowFinalised, finaliseRow_eq]
      rfl
    refine ⟨finaliseStep m s, by rw [exec_finaliseLine hstate, lowestTouched_eq hm hcount hbelow], fun hc j hj => ?_,
      fun hc j hj => ?_, fun a ha => (bytes a).trans (outside a ha), ref, queue, by simp, by simp, by simp, by simp,
      finaliseStep_bus m s, by simp, by simp⟩
    · refine ⟨_, roundsTo_roundNat _ _ hc, Int.natCast_nonneg _, ?_⟩
      rw [bytes, inside j _ (finalisedLine_divided (by rw [countAt]; omega) hj), Int.toNat_natCast]
      rfl
    · rw [bytes, inside j _ (finalisedLine_copied hc hj)]
      rfl

end Sys2Proof.Machine
end

section
/-! Chapter 3 of the manual: a line event through the tracker (R38 to R41, R47 to R50, R61). -/

namespace Sys2Proof.Machine

/-! ## Before the marks -/

/-- R38: the tracker once a window start has returned it to SEEKING. -/
def reseeked (ev : LineEvent) (t : Tracker) : Tracker :=
  if ev.windowStart = true then
    { t with mode := .seeking, wrapPending := false, prevAccepted := false, sinceWrap := 0, coasts := 0 }
  else t

/-- R39: the tracker once the line has been counted. -/
def counted (t : Tracker) : Tracker := { t with
  sinceStart := satInc t.sinceStart
  sinceWrap := if t.wrapPending = true then t.sinceWrap + 1 else t.sinceWrap }

theorem beforeMarks_eq (ev : LineEvent) (s : State) : beforeMarks ev s =
    if (reseeked ev s.tracker).wrapPending = true ∧ s.ctl.cfg.wc ≤ (reseeked ev s.tracker).sinceWrap then
      coast ev { s with tracker := counted (reseeked ev s.tracker) }
    else { s with tracker := counted (reseeked ev s.tracker) } := by
  have start : (if ev.windowStart then reseek s else s) = { s with tracker := reseeked ev s.tracker } := by
    unfold reseeked
    split <;> rfl
  rw [beforeMarks, start]
  dsimp only [countLine]
  refine if_congr ?_ rfl rfl
  rw [Bool.and_eq_true, decide_eq_true_iff, Nat.add_le_add_iff_right]

theorem beforeMarks_counted {ev : LineEvent} {s : State}
    (h : (reseeked ev s.tracker).wrapPending = false ∨ (reseeked ev s.tracker).sinceWrap < s.ctl.cfg.wc) :
    beforeMarks ev s = { s with tracker := counted (reseeked ev s.tracker) } := by
  rw [beforeMarks_eq, if_neg]
  rintro ⟨hwrap, hwc⟩
  rcases h with h | h
  · rw [h] at hwrap; cases hwrap
  · omega

/-- R39: a line that makes a coast. -/
theorem beforeMarks_coast {ev : LineEvent} {s : State} {code : EventCode} (hw : (reseeked ev s.tracker).wrapPending = true)
    (hwc : s.ctl.cfg.wc ≤ (reseeked ev s.tracker).sinceWrap)
    (hcode : code = if (reseeked ev s.tracker).coasts + 1 < 4 then .coasting else .lost) :
    (beforeMarks ev s).tracker = { reseeked ev s.tracker with
      sinceStart := satInc (reseeked ev s.tracker).sinceStart
      sinceWrap := (reseeked ev s.tracker).sinceWrap + 1
      wrapPending := false
      prevAccepted := false
      coasts := (reseeked ev s.tracker).coasts + 1
      mode := if (reseeked ev s.tracker).coasts + 1 < 4 then .coasting else .lost } ∧
    EventRaised code ev.line ev.position s (beforeMarks ev s) ∧ (beforeMarks ev s).bus = s.bus ∧
    (beforeMarks ev s).counters = { s.counters with
      eventRecordsDropped := (beforeMarks ev s).counters.eventRecordsDropped } := by
  rw [beforeMarks_eq, if_pos ⟨hw, hwc⟩]
  obtain ⟨tracker, -, bus, counters⟩ := coast_eq ev { s with tracker := counted (reseeked ev s.tracker) } code hcode
  refine ⟨?_, ?_, bus, counters⟩
  · rw [tracker]
    simp only [counted, hw, if_true]
  · rw [hcode]
    exact (raise_raised _ _ _ _).of_eq rfl rfl rfl rfl

/-! ## The marks of a line -/

/-- R41: the state once the due marks have been taken off the queue. -/
def marksTaken (rest : List MarkEntry) (last : MarkEntry) (due : List MarkEntry) (u : State) : State := { u with
  tracker := { u.tracker with marks := rest, lastTaken := some last.start }
  counters := { u.counters with
    marksDiscarded := satAdd u.counters.marksDiscarded (due.length - 1) } }

section
variable {u : State} {ev : LineEvent} {due rest : List MarkEntry} (hmarks : u.tracker.marks = due ++ rest)
  (hdue : dueMarks ev.line u.tracker.marks = due)
include hdue

theorem takeMarks_none (h : due = []) : takeMarks ev u = u := by
  rw [takeMarks, hdue, h]
  rfl

theorem noticeAt_none (h : due = []) : noticeAt ev u = false := by
  rw [noticeAt, hdue, h]
  rfl

include hmarks

theorem takeMarks_some {last : MarkEntry} (h : due.getLast? = some last) : takeMarks ev u =
    if ev.blanked then bump .marksDiscarded (marksTaken rest last due u) else actOnMark ev (marksTaken rest last due u) := by
  have some_due : (dueMarks ev.line u.tracker.marks).isEmpty = false := by
    rw [hdue]
    cases due with
    | nil => cases h
    | cons => rfl
  rw [takeMarks, some_due, takeDue_eq hmarks hdue h]
  rfl

/-- R61: the repeat-end notice of a line with due marks. -/
theorem noticeAt_iff (h : due ≠ []) : noticeAt ev u = true ↔ ev.blanked = false ∧
    (u.tracker.mode = .locked ∨ u.tracker.mode = .coasting) ∧ (markOffset u).natAbs ≤ u.ctl.cfg.wc ∧
      u.tracker.prevAccepted = true := by
  have some_due : (dueMarks ev.line u.tracker.marks).isEmpty = false := by rw [hdue]; simpa using h
  have sends : sendsNotice (marksTaken rest (due.getLast h) due u) = sendsNotice u := rfl
  rw [noticeAt, some_due, takeDue_eq hmarks hdue (List.getLast?_eq_some_getLast h)]
  change (true && !ev.blanked && sendsNotice u) = true ↔ _
  rw [sendsNotice]
  cases u.tracker.mode <;> simp
end

/-! ## The record and the advance -/

theorem registersLine_iff {ev : LineEvent} {v : State} : registersLine ev v = true ↔
    (v.tracker.mode = .locked ∨ v.tracker.mode = .coasting) ∧ ev.blanked = false := by
  simp [registersLine]

theorem roundedPhase_rounds (s : State) : RoundsTo s.ctl.cfg.rounding s.tracker.p 65536 (roundedPhase s : Nat) :=
  roundsTo_roundNat _ _ (by decide)

theorem afterRecord_unregistered {ev : LineEvent} {v : State} (h : registersLine ev v = false) :
    afterRecord ev v = { v with tracker := { v.tracker with line := ev.line + 1 } } := by
  rw [afterRecord, h]
  rfl

section
variable {ev : LineEvent} {v : State} (h : registersLine ev v = true)
include h

theorem afterRecord_registered : afterRecord ev v = { v with
    tracker := { v.tracker.advance (65536 * v.ctl.cfg.l) with line := ev.line + 1 } } := by
  rw [afterRecord, h]
  rfl

/-- R48: the phase grows by the step. -/
theorem afterRecord_advanced (hp : v.tracker.p + v.tracker.step < 65536 * v.ctl.cfg.l) : afterRecord ev v = { v with
    tracker := { v.tracker with p := v.tracker.p + v.tracker.step, line := ev.line + 1 } } := by
  have grown : v.tracker.advance (65536 * v.ctl.cfg.l) = { v.tracker with p := v.tracker.p + v.tracker.step } := if_pos hp
  rw [afterRecord_registered h, grown]

/-- R48: a phase that reaches L × 65,536 wraps. -/
theorem afterRecord_wrapped (hp : 65536 * v.ctl.cfg.l ≤ v.tracker.p + v.tracker.step) : afterRecord ev v = { v with
    tracker := { v.tracker with
      p := v.tracker.p + v.tracker.step - 65536 * v.ctl.cfg.l
      repeatNo := satInc v.tracker.repeatNo
      wrapPending := true
      sinceWrap := 0
      line := ev.line + 1 } } := by
  have wrapped : v.tracker.advance (65536 * v.ctl.cfg.l) = { v.tracker with
      p := v.tracker.p + v.tracker.step - 65536 * v.ctl.cfg.l
      repeatNo := satInc v.tracker.repeatNo
      wrapPending := true
      sinceWrap := 0 } := if_neg (by omega)
  rw [afterRecord_registered h, wrapped]

end

theorem reseeked_marks (ev : LineEvent) (t : Tracker) : (reseeked ev t).marks = t.marks := by
  unfold reseeked
  split <;> rfl

theorem beforeMarks_marks (ev : LineEvent) (s : State) : (beforeMarks ev s).tracker.marks = s.tracker.marks := by
  rw [beforeMarks_eq]
  split
  · obtain ⟨tracker, -⟩ := coast_eq ev { s with tracker := counted (reseeked ev s.tracker) } _ rfl
    rw [tracker]
    exact reseeked_marks ev s.tracker
  · exact reseeked_marks ev s.tracker

/-- Settles O45: the line that is registered with nothing else due, and the line event in general. -/
theorem registeredLine : Obligations.RegisteredLine := by
  refine ⟨fun s ev hmode hblank hstart hwrap hmarks => ?_, ?_⟩
  · obtain ⟨u, hu⟩ : ∃ u : State, u = { s with tracker := counted s.tracker } := ⟨_, rfl⟩
    have still : reseeked ev s.tracker = s.tracker := if_neg (by rw [hstart]; nofun)
    have before : beforeMarks ev s = u := by
      rw [hu, beforeMarks_counted, still]
      rw [still]
      cases hw : s.tracker.wrapPending with
      | false => exact .inl rfl
      | true => exact .inr (hwrap hw)
    have hdue : dueMarks ev.line u.tracker.marks = [] := by
      rw [hu]
      exact dueMarks_append (due := []) (rest := s.tracker.marks) (List.forall_mem_nil _) hmarks
    have registered : registersLine ev u = true := by
      rw [registersLine_iff, hu]
      exact ⟨hmode, hblank⟩
    have line : trackLine ev s = (afterRecord ev u, recordFor ev false u) := by
      dsimp only [trackLine]
      rw [before, takeMarks_none hdue rfl, noticeAt_none hdue rfl]
    refine ⟨roundedPhase s, _, roundedPhase_rounds s, Int.natCast_nonneg _, rfl, ?_, fun hp => ?_, fun hp => ?_⟩
    · rw [line, recordFor, registered, hu]
      rfl
    · rw [line, afterRecord_advanced registered (by rw [hu]; exact hp), hu]
      rfl
    · rw [line, afterRecord_wrapped registered (by rw [hu]; exact hp), hu]
      rfl
  · rintro s ev k code due rest hk hcode hmarks hbelow habove
    replace hk : k = reseeked ev s.tracker := hk
    subst hk
    have kept : (beforeMarks ev s).tracker.marks = due ++ rest := by rw [beforeMarks_marks, hmarks]
    have hdue : dueMarks ev.line (beforeMarks ev s).tracker.marks = due := by rw [kept, dueMarks_append hbelow habove]
    have cfg : (beforeMarks ev s).ctl.cfg = s.ctl.cfg := by rw [beforeMarks_ctl]
    have cfg' : (takeMarks ev (beforeMarks ev s)).ctl.cfg = s.ctl.cfg := by rw [takeMarks_ctl, cfg]
    refine ⟨beforeMarks ev s, takeMarks ev (beforeMarks ev s), roundedPhase (beforeMarks ev s),
      markOffset (beforeMarks ev s), roundedPhase (takeMarks ev (beforeMarks ev s)), (trackLine ev s).2,
      registersLine ev (takeMarks ev (beforeMarks ev s)), fun hw hwc => ?_, beforeMarks_counted, fun h => ?_,
      fun last w hlast hw => ?_, ?_, ?_, fun h => ?_, registersLine_iff, ?_, Int.natCast_nonneg _, ?_, rfl,
      afterRecord_unregistered, fun h hp => ?_, fun h hp => ?_⟩
    · obtain ⟨tracker, raised, bus, counters⟩ := beforeMarks_coast hw hwc hcode
      exact ⟨tracker, raised, bus, by simp, by simp, by simp, by simp, by simp, by simp, by simp, counters⟩
    · exact ⟨takeMarks_none hdue h, noticeAt_none hdue h⟩
    · have taken := takeMarks_some kept hdue hlast
      replace hw : w = marksTaken rest last due (beforeMarks ev s) := hw
      rw [← hw] at taken
      refine ⟨fun hb => ?_, fun hb => ?_⟩
      · rw [taken, hb]
        rfl
      · rw [taken, hb]
        rfl
    · rw [← cfg]
      exact roundedPhase_rounds _
    · rw [markOffset, cfg]
    · rw [← cfg]
      exact noticeAt_iff kept hdue h
    · rw [← cfg']
      exact roundedPhase_rounds _
    · rw [← cfg']
      rfl
    · exact afterRecord_advanced h (by rwa [cfg'])
    · rw [← cfg'] at hp ⊢
      exact afterRecord_wrapped h hp

end Sys2Proof.Machine
end

section
/-! Section 6.4 and chapter 8 of the manual: the close of a band (R98 to R101, R131 to R149). -/

namespace Sys2Proof.Machine

/-! ## Payloads (R144) -/

theorem fullRow_eq (t : Nat) : fullRow t = fun r : Row =>
    if r.state = .present ∨ r.state = .blanked then (r.pixels.drop (32 * t)).take 32 else List.replicate 32 0 := by
  funext r
  simp only [fullRow, tileChunk, usable_iff, UsableRow]

/-- The part of a tile's 32 columns that a block of `n` columns takes is the row's own pixels there. -/
theorem take_drop_tileChunk {n j t : Nat} (fits : n * j + n ≤ 32) (pixels : List Byte) :
    ((tileChunk t pixels).drop (n * j)).take n = (pixels.drop (32 * t + n * j)).take n := by
  rw [tileChunk, List.drop_take, List.drop_drop, List.take_take, Nat.min_eq_left (by omega)]

/-- R144: the pixels whose mean a block is. -/
theorem blockPixels_eq {n i j t : Nat} (fits : n * j + n ≤ 32) (rows : List Row) :
    ((rowGroup n i rows).filter Row.usable).flatMap (fun r => ((tileChunk t r.pixels).drop (n * j)).take n) =
      blockPixels rows t n i j := by
  simp only [take_drop_tileChunk fits, blockPixels, rowGroup, ← usable_eq]

theorem sumOf_le (px : List Byte) : sumOf px ≤ 255 * px.length := by
  induction px with
  | nil => simp [sumOf]
  | cons x xs ih =>
    have small : x.toNat < 256 := x.isLt
    simp only [sumOf, List.map_cons, List.sum_cons, List.length_cons] at ih ⊢
    omega

/-- R144: a mean of pixels, put in a byte, is that of the rounding table: bytes have no mean above 255. -/
theorem roundsTo_byte_mean (mode : Rounding) {px : List Byte} (some : px ≠ []) :
    RoundsTo mode (px.map fun x => (x.toNat : Int)).sum px.length (byte (roundNat mode (sumOf px) px.length)).toNat := by
  have positive : 0 < px.length := List.length_pos_iff.mpr some
  have rounded := roundsTo_roundNat mode (sumOf px) positive
  have small : roundNat mode (sumOf px) px.length ≤ 255 := by
    exact_mod_cast rounded.le_of_le_mul (k := 255) (by omega) (by exact_mod_cast sumOf_le px)
  have whole : (byte (roundNat mode (sumOf px) px.length)).toNat = roundNat mode (sumOf px) px.length := by
    rw [byte, BitVec.toNat_ofNat, Nat.mod_eq_of_lt (by omega)]
  have total : (px.map fun x => (x.toNat : Int)).sum = (sumOf px : Int) := by
    rw [sumOf, Nat.cast_list_sum, List.map_map]
    rfl
  rw [whole, total]
  exact rounded

theorem length_flatMap_range {α : Type} (m k : Nat) (f : Nat → Nat → α) :
    ((List.range m).flatMap fun i => (List.range k).map (f i)).length = m * k := by
  simp

/-- The place of a pair in a table read row after row. -/
theorem getElem?_flatMap_range {α : Type} {m k i j : Nat} (f : Nat → Nat → α) (hi : i < m) (hj : j < k) :
    ((List.range m).flatMap fun i => (List.range k).map (f i))[i * k + j]? = some (f i j) := by
  induction m with
  | zero => omega
  | succ m ih =>
    rw [List.range_succ, List.flatMap_append]
    by_cases inside : i < m
    · have before : i * k + j < m * k := by
        have : (i + 1) * k ≤ m * k := Nat.mul_le_mul_right k inside
        rw [Nat.add_mul] at this
        omega
      rw [List.getElem?_append_left (by rw [length_flatMap_range]; exact before), ih inside]
    · obtain rfl : i = m := by omega
      rw [List.getElem?_append_right (by rw [length_flatMap_range]; omega), length_flatMap_range,
        Nat.add_sub_cancel_left]
      simp [hj]

/-- R144: a payload reduced by 2 or by 4 in each direction holds the means of its blocks. -/
theorem reducedPayload_reduced (mode : Rounding) {n : Nat} (divides : n * (32 / n) = 32) (t : Nat) (rows : List Row) :
    Reduced mode n t rows (reducedPayload mode n t rows) := by
  refine ⟨length_flatMap_range .., fun i j hi hj => ⟨_, getElem?_flatMap_range _ hi hj, ?_⟩⟩
  have fits : n * j + n ≤ 32 := by
    have : n * (j + 1) ≤ n * (32 / n) := Nat.mul_le_mul_left n hj
    rw [Nat.mul_add] at this
    omega
  dsimp only [blockMean]
  rw [blockPixels_eq fits]
  refine ⟨fun none => by rw [none]; rfl, fun some => ?_⟩
  rw [if_neg (by simpa using some)]
  exact roundsTo_byte_mean mode some

theorem payloadOf_is (mode : Rounding) (f : Fidelity) (t : Nat) (rows : List Row) :
    PayloadIs mode f t rows (payloadOf mode f t rows) := by
  cases f with
  | full => exact congrArg (fun g => rows.flatMap g) (fullRow_eq t)
  | half => exact reducedPayload_reduced mode rfl t rows
  | quarter => exact reducedPayload_reduced mode rfl t rows
  | stamp => rfl

/-! ## The records of a close (R146, R147, R149) -/

theorem tileRecord_is (s : State) (e : Entry) (t : Nat) (slot : Slot) (res : TileResult) (st : Standing) (why : Reason)
    (f : Fidelity) (hst : st = (closeView s e).standing (s.ctl.cfg.c0 / 32 + t) res) :
    TileRecordIs s e t slot res st why f (tileRecord (closeView s e) t slot res why f) := by
  refine ⟨partialOf_is f e.rows, payloadOf_is s.ctl.cfg.rounding f t e.rows, ?_⟩
  have handedOver : (why != .core) = decide (why ≠ .core) := by cases why <;> rfl
  have usable : e.rows.map Row.usable =
      e.rows.map fun x => decide (x.state = .present ∨ x.state = .blanked) :=
    List.map_congr_left fun r _ => usable_eq r
  subst hst
  rw [← handedOver, ← usable]
  rfl

theorem classCount_eq (c : TileClass) (slots : List Slot) : classCount c slots = countIn c slots := by
  simp only [classCount, countIn, beq_eq_decide]

theorem bandRecord_closeView (s : State) (e : Entry) : bandRecord (closeView s e) =
    { station := s.ctl.station
      mode := e.row0.mode
      pressure := pressure s
      left := closedStatus s.bus.left e.left
      right := closedStatus s.bus.right e.right
      band := e.band
      repeatNo := e.row0.repeatNo
      voids := countIn .void e.slots
      blinds := countIn .blind e.slots
      unrefs := countIn .unref e.slots
      quiets := countIn .quiet e.slots
      hits := countIn .hit e.slots
      queued := 0
      coreDrops := 0
      contextDrops := 0
      sampleDrops := 0
      unreported := 0 } := by
  simp only [← absentIfNone_status, ← classCount_eq]
  rfl

/-! ## The carry map (R101) -/

theorem carryColumns_pairwise (cfg : StationConfig) (e : Entry) : (carryColumns cfg e).Pairwise (· < ·) :=
  (List.pairwise_map.mpr (List.pairwise_lt_range.imp fun h => Nat.add_lt_add_right h _)).filter _

theorem mem_carryColumns {cfg : StationConfig} {e : Entry} {g : Nat} : g ∈ carryColumns cfg e ↔
    (firstTile cfg - 1 ≤ g ∧ g < endTile cfg - firstTile cfg + 2 + (firstTile cfg - 1)) ∧ g ∈ entryHits cfg e := by
  simp only [carryColumns, List.mem_filter, List.mem_map, List.mem_range, List.contains_iff_mem]
  refine and_congr_left fun _ => ⟨?_, fun ⟨low, high⟩ => ⟨g - (firstTile cfg - 1), by omega, by omega⟩⟩
  rintro ⟨i, hi, rfl⟩
  omega

theorem mem_carryColumns_closing {s : State} {e : Entry} {g : Nat} :
    g ∈ carryColumns s.ctl.cfg (closingEntry s e) ↔
      (firstTile s.ctl.cfg - 1 ≤ g ∧
        g < endTile s.ctl.cfg - firstTile s.ctl.cfg + 2 + (firstTile s.ctl.cfg - 1)) ∧
      ClassedHit s.ctl.cfg e g := by
  rw [mem_carryColumns, entryHits_closing, mem_entryHits]

/-! ## The close -/

theorem closeEntry_eq (s : State) (e : Entry) : closeEntry e s = { steer (closeView s e) s with
    table := { s.table with
      entries := s.table.entries.filter fun x => x.band ≠ e.band
      carryBand := some e.band
      carryCols := carryColumns s.ctl.cfg (closingEntry s e)
      free := s.table.free ++ [e.rows.map (·.pixels)] } } := by
  have kept : (fun x : Entry => x.band != e.band) = fun x => decide (x.band ≠ e.band) :=
    funext fun x => by simp [bne, beq_eq_decide]
  rw [← kept, ← steer_table s (closeView s e)]
  rfl

/-- Settles O49: a close is the Steering Unit's offers, slot by slot, and the update of the Band Table. -/
theorem bandCloses : Obligations.BandCloses := by
  intro s e
  obtain ⟨whole, begun⟩ := steer_offered s (closeView s e)
  have actions : (offeringOf (closeView s e)).actions =
      e.slots.mapIdx fun i slot => tileAction (closeView s e) (0 + i) slot := tileActions_eq ..
  refine ⟨steer (closeView s e) s, closeEntry e s, pressure s, offeringOf (closeView s e), rfl, levelOf_spec _,
    by rw [actions, List.length_mapIdx], fun i slot act hslot hact => ?_, rfl, rfl, bandRecord_closeView s e, whole,
    begun, closeEntry_eq s e, carryColumns_pairwise .., fun g hg => (mem_carryColumns_closing.mp hg).2,
    fun g hit low high => mem_carryColumns_closing.mpr ⟨?_, hit⟩⟩
  · rw [actions, List.getElem?_mapIdx, hslot, Option.map_some, Option.some_inj, Nat.zero_add] at hact
    rw [← hact]
    exact tileAction_decided s e i slot fun t slot res st why f => tileRecord_is s e t slot res st why f
  · simp only [firstTile, endTile]
    omega

end Sys2Proof.Machine
end

section
/-! What the events, the closes and the scorings that a line event brings leave alone: the counts of lines, and what has
been put out (sections 2.6 and 9.4). -/

namespace Sys2Proof.Machine

/-- The counters of the triggers and the lines (R7, R12, R18 to R21). -/
def lineTallies (s : State) : Word × Word × Word × Word × Word × Word × Word :=
  (s.counters.linesTriggered, s.counters.stampOverflows, s.counters.linesArrived, s.counters.linesMissed,
    s.counters.linesDamaged, s.counters.linesUnsolicited, s.counters.linesBlanked)

/-- From one state to a later one the host has given and been told nothing at the grant port: no grant has been taken,
and with none open none is retired. -/
structure PortKept (s t : State) : Prop where
  fifo : t.port.fifo = s.port.fifo
  link : t.port.link = s.port.link
  status : t.port.grantStatus = s.port.grantStatus
  failed : t.counters.commandsFailed = s.counters.commandsFailed
  grantless : s.port.grant = none →
    t.port.grant = none ∧ t.port.nextSeq = s.port.nextSeq ∧ t.outputs = s.outputs

theorem PortKept.refl (s : State) : PortKept s s := ⟨rfl, rfl, rfl, rfl, fun h => ⟨h, rfl, rfl⟩⟩

theorem PortKept.trans {s t u : State} (h : PortKept s t) (k : PortKept t u) : PortKept s u := by
  refine ⟨k.fifo.trans h.fifo, k.link.trans h.link, k.status.trans h.status, k.failed.trans h.failed, fun none => ?_⟩
  obtain ⟨grant, seq, puts⟩ := h.grantless none
  obtain ⟨grant', seq', puts'⟩ := k.grantless grant
  exact ⟨grant', seq'.trans seq, puts'.trans puts⟩

/-- From one state to a later one no trigger and no line has been counted, and what has been put out is put out. -/
structure Follows (s t : State) : Prop extends PortKept s t where
  tallies : lineTallies t = lineTallies s
  outputs : s.outputs <+: t.outputs

namespace Follows

theorem refl (s : State) : Follows s s := ⟨.refl s, rfl, List.prefix_refl _⟩

theorem of_eq {s t : State} (hc : lineTallies t = lineTallies s)
    (hf : t.counters.commandsFailed = s.counters.commandsFailed) (ho : t.outputs = s.outputs)
    (hp : t.port = { s.port with
      queue := t.port.queue, offering := t.port.offering, coreDrops := t.port.coreDrops
      contextDrops := t.port.contextDrops, sampleDrops := t.port.sampleDrops, unreported := t.port.unreported }) :
    Follows s t := by
  refine ⟨⟨?_, ?_, ?_, hf, fun h => ⟨?_, ?_, ho⟩⟩, hc, ho ▸ List.prefix_refl _⟩ <;> rw [hp]
  exact h

theorem trans {s t u : State} (h : Follows s t) (k : Follows t u) : Follows s u :=
  ⟨h.toPortKept.trans k.toPortKept, k.tallies.trans h.tallies, h.outputs.trans k.outputs⟩

end Follows

/-- R160: with no grant open, offers to the queue retire none. -/
theorem SpaceTested.grantless {s t : State} (h : SpaceTested s t) (none : s.port.grant = none) :
    t.port.grant = Option.none ∧ t.port.nextSeq = s.port.nextSeq ∧ t.outputs = s.outputs := by
  obtain ⟨grant, kept⟩ := h.2 fun g hg => absurd (none.symm.trans hg) nofun
  exact ⟨grant.trans none, kept⟩

theorem SpaceTested.outputs_prefix {s t : State} (h : SpaceTested s t) : s.outputs <+: t.outputs := by
  obtain ⟨retired, kept⟩ := h
  by_cases due : ∃ g, s.port.grant = some g ∧ t.port.queue ≠ s.port.queue ∧ DueBySpace g t.port.queue
  · obtain ⟨g, hg, joined, due⟩ := due
    rw [(retired g hg joined due).2.2]
    exact List.prefix_append ..
  · rw [(kept fun g hg => ?_).2.2]
    by_contra no
    rw [not_or, not_not] at no
    exact due ⟨g, hg, no⟩

/-! ## Events -/

/-- From one state to a later one events have been raised, and no close has been begun or gone on. -/
structure FollowsEvents (s t : State) : Prop extends Follows s t where
  offering : t.port.offering = s.port.offering

namespace FollowsEvents

theorem refl (s : State) : FollowsEvents s s := ⟨.refl s, rfl⟩

theorem of_eq {s t : State} (hc : lineTallies t = lineTallies s)
    (hf : t.counters.commandsFailed = s.counters.commandsFailed) (ho : t.outputs = s.outputs) (hp : t.port = s.port) :
    FollowsEvents s t := ⟨.of_eq hc hf ho (by rw [hp]), by rw [hp]⟩

theorem trans {s t u : State} (h : FollowsEvents s t) (k : FollowsEvents t u) : FollowsEvents s u :=
  ⟨h.toFollows.trans k.toFollows, k.offering.trans h.offering⟩

end FollowsEvents

theorem raise_follows {code : EventCode} (line : Nat) (data : Word) (s : State) (h : sharedAs code = none) :
    FollowsEvents s (raise code line data s) := by
  have tested := (raise_raised s code line data).2.2
  have same := raise_eq line data s h
  refine ⟨⟨⟨?_, ?_, ?_, ?_, tested.grantless⟩, ?_, tested.outputs_prefix⟩, raise_offering ..⟩ <;> rw [same]
  rfl

theorem coast_follows (ev : LineEvent) (s : State) : FollowsEvents s (coast ev s) := by
  refine (FollowsEvents.of_eq ?_ ?_ ?_ ?_).trans (raise_follows _ _ _ ?_)
  · rfl
  · rfl
  · rfl
  · rfl
  · split <;> rfl

theorem beforeMarks_follows (ev : LineEvent) (s : State) : FollowsEvents s (beforeMarks ev s) := by
  rw [beforeMarks_eq]
  split
  · refine (FollowsEvents.of_eq ?_ ?_ ?_ ?_).trans (coast_follows _ _) <;> rfl
  · exact .of_eq rfl rfl rfl rfl

theorem updateStep_follows (ev : LineEvent) (s : State) : FollowsEvents s (updateStep ev s) := by
  dsimp only [updateStep]
  split
  · exact .of_eq rfl rfl rfl rfl
  · refine (FollowsEvents.of_eq ?_ ?_ ?_ ?_).trans (raise_follows _ _ _ ?_) <;> rfl

theorem addOffset_follows (e : Int) (s : State) : FollowsEvents s (addOffset e s) := by
  unfold addOffset
  repeat' split
  all_goals exact .of_eq rfl rfl rfl rfl

theorem acceptMark_follows (ev : LineEvent) (s : State) : FollowsEvents s (acceptMark ev s) := by
  have stepped : FollowsEvents s (if s.tracker.prevAccepted then updateStep ev (addOffset (markOffset s) s)
      else addOffset (markOffset s) s) := by
    split
    · exact (addOffset_follows _ s).trans (updateStep_follows _ _)
    · exact addOffset_follows _ s
  dsimp only [acceptMark]
  generalize (if s.tracker.prevAccepted then updateStep ev (addOffset (markOffset s) s)
    else addOffset (markOffset s) s) = u at stepped ⊢
  have locked : FollowsEvents s (lockOn (if s.tracker.wrapPending then u else nextRepeat u)) :=
    stepped.trans (by split <;> exact .of_eq rfl rfl rfl rfl)
  split
  · exact locked.trans (raise_follows _ _ _ rfl)
  · exact locked

theorem actOnMark_follows (ev : LineEvent) (s : State) : FollowsEvents s (actOnMark ev s) := by
  have acquired : FollowsEvents s (acquireMark ev s) := by
    refine (FollowsEvents.of_eq ?_ ?_ ?_ ?_).trans (raise_follows _ _ _ ?_) <;> rfl
  have tested : FollowsEvents s (if (markOffset s).natAbs ≤ s.ctl.cfg.wc then acceptMark ev s else bump .marksRejected s) := by
    split
    · exact acceptMark_follows ev s
    · exact .of_eq rfl rfl rfl rfl
  unfold actOnMark
  split
  · exact acquired
  · exact acquired
  · exact tested
  · exact tested

/-- R38 to R50: a line event through the tracker. -/
theorem trackLine_follows (ev : LineEvent) (s : State) : FollowsEvents s (trackLine ev s).1 := by
  have due : ∀ u, FollowsEvents u (takeDue ev.line u) := by
    intro u
    dsimp only [takeDue]
    split <;> exact .of_eq rfl rfl rfl rfl
  have marks : ∀ u, FollowsEvents u (takeMarks ev u) := by
    intro u
    unfold takeMarks
    split
    · exact .refl u
    · split
      · exact (due u).trans (.of_eq rfl rfl rfl rfl)
      · exact (due u).trans (actOnMark_follows ev _)
  have after : ∀ u, FollowsEvents u (afterRecord ev u) :=
    fun u => .of_eq (by rw [lineTallies, afterRecord_counters]; rfl) (by rw [afterRecord_counters])
      (afterRecord_outputs u ev) (afterRecord_port u ev)
  exact ((beforeMarks_follows ev s).trans (marks _)).trans (after _)

/-! ## Closes and scorings -/

/-- From one state to a later one the records of closes have joined the queue, and nothing else has been counted or
put out but by them. -/
structure FollowsClosed (s t : State) : Prop extends Follows s t where
  queue : ∃ more, t.port.queue = s.port.queue ++ more ∧ ∀ r ∈ more, ∀ x, r ≠ .event x

namespace FollowsClosed

theorem refl (s : State) : FollowsClosed s s := ⟨.refl s, [], (List.append_nil _).symm, by simp⟩

theorem of_eq {s t : State} (hc : lineTallies t = lineTallies s)
    (hf : t.counters.commandsFailed = s.counters.commandsFailed) (ho : t.outputs = s.outputs)
    (hp : t.port = { s.port with
      offering := t.port.offering, coreDrops := t.port.coreDrops, contextDrops := t.port.contextDrops
      sampleDrops := t.port.sampleDrops, unreported := t.port.unreported }) : FollowsClosed s t :=
  ⟨.of_eq hc hf ho (by rw [hp]), [], by rw [hp, List.append_nil], by simp⟩

theorem trans {s t u : State} (h : FollowsClosed s t) (k : FollowsClosed t u) : FollowsClosed s u := by
  obtain ⟨a, ha, noneA⟩ := h.queue
  obtain ⟨b, hb, noneB⟩ := k.queue
  exact ⟨h.toFollows.trans k.toFollows, a ++ b, by rw [hb, ha, List.append_assoc],
    List.forall_mem_append.mpr ⟨noneA, noneB⟩⟩

end FollowsClosed

theorem ActionsDone.follows {acts : List TileAction} {taken dropped : List TileRec} {s t : State}
    (h : ActionsDone acts taken dropped s t) : FollowsClosed s t := by
  obtain ⟨-, done, tested⟩ := h
  refine ⟨⟨⟨?_, ?_, ?_, ?_, tested.grantless⟩, ?_, tested.outputs_prefix⟩, taken.map Rec.tile, ?_, by simp⟩ <;>
    rw [done]
  rfl

theorem BandOffered.follows {b : BandRec} {s t : State} (h : BandOffered b s t) : FollowsClosed s t := by
  obtain ⟨fits, full, tested⟩ := h
  rcases Nat.lt_or_ge 2097152 (queueSize s.port.queue + 32) with above | within
  · rw [full above]
    exact .of_eq rfl rfl rfl rfl
  · refine ⟨⟨⟨?_, ?_, ?_, ?_, tested.grantless⟩, ?_, tested.outputs_prefix⟩, [_], by rw [fits within], by simp⟩ <;>
      rw [fits within]
    rfl

theorem OffersMade.follows {o : Offering} {s t : State} (h : OffersMade o s t) : FollowsClosed s t := by
  obtain ⟨_, _, u, tiles, band⟩ := h
  exact tiles.follows.trans band.follows

theorem OffersBegun.follows {n : Nat} {o : Offering} {s t : State} (h : OffersBegun n o s t) : FollowsClosed s t := by
  obtain ⟨_, _, u, tiles, rest⟩ := h
  rw [rest]
  exact tiles.follows.trans (.of_eq rfl rfl rfl rfl)

theorem closeEntry_follows (e : Entry) (s : State) : FollowsClosed s (closeEntry e s) := by
  obtain ⟨whole, begun⟩ := steer_offered s (closeView s e)
  have steered : FollowsClosed s (steer (closeView s e) s) := by
    cases overlap : s.overlap with
    | nil => exact (whole overlap).follows
    | cons n later =>
      refine FollowsClosed.trans ?_ (begun n later overlap).follows
      exact .of_eq rfl rfl rfl rfl
  rw [closeEntry_eq]
  exact steered.trans (.of_eq rfl rfl rfl rfl)

theorem ClosesInTurn.follows {closed : List Entry} {s t : State} (h : ClosesInTurn s closed t) : FollowsClosed s t := by
  induction closed generalizing s with
  | nil =>
    obtain ⟨rfl, _⟩ := h
    exact .refl _
  | cons e es ih =>
    obtain ⟨_, _, _, later⟩ := h
    exact (closeEntry_follows e s).trans (ih later)

theorem closingTest_follows (s : State) : FollowsClosed s (closingTest s) := by
  obtain ⟨_, closes⟩ := closingTest_closesInTurn s
  exact closes.follows

theorem finishCloses_follows (s : State) : FollowsClosed s (finishCloses s) := by
  unfold finishCloses
  split
  · exact .refl s
  next o _ =>
    have offers := (endOffers_made (s.updOverlap fun _ => []) o).follows
    refine FollowsClosed.trans (FollowsClosed.trans (FollowsClosed.trans ?_ offers) (closingTest_follows _)) ?_ <;>
      exact .of_eq rfl rfl rfl rfl

theorem offerFrame_follows (f : Frame) (s : State) : FollowsClosed s (offerFrame f s) := by
  rw [offerFrame_eq]
  exact .of_eq rfl rfl rfl rfl

theorem scoreBand_follows (b : Nat) (s : State) : FollowsClosed s (scoreBand b s) := by
  rw [scoreBand]
  refine (finishCloses_follows s).trans ?_
  generalize finishCloses s = u
  unfold scoreEntry
  split
  · exact .refl u
  · refine FollowsClosed.trans ?_ (closingTest_follows _)
    split
    · refine FollowsClosed.trans ?_ (offerFrame_follows _ _)
      exact .of_eq rfl rfl rfl rfl
    · exact .of_eq rfl rfl rfl rfl

/-- R91: what row 31 does after its record. -/
theorem afterRow_follows (line : Nat) (s : State) : FollowsClosed s (afterRow line s) := by
  unfold afterRow
  split
  · exact scoreBand_follows _ s
  · exact .refl s

/-! ## A line event -/

/-- R20 to R24, R50, R61, R91: a line event counts what intake counts of it. -/
theorem takeLine_follows (ev : LineEvent) (s : State) : Follows (intakeEvent ev s) (takeLine ev s) := by
  refine (trackLine_follows ev (intakeEvent ev s)).toFollows.trans (Follows.trans ?_ (afterRow_follows _ _).toFollows)
  exact .of_eq (by simp [lineTallies]) (by simp) (by simp) (by simp)

theorem lineTallies_intakeEvent (ev : LineEvent) (s : State) : lineTallies (intakeEvent ev s) =
    (s.counters.linesTriggered, s.counters.stampOverflows,
      if ev.arrived then satInc s.counters.linesArrived else s.counters.linesArrived,
      if ev.arrived then s.counters.linesMissed else satInc s.counters.linesMissed,
      s.counters.linesDamaged, s.counters.linesUnsolicited,
      if ev.blanked then satInc s.counters.linesBlanked else s.counters.linesBlanked) := by
  have counted : (intakeEvent ev s).counters = (countEvent ev s).counters := by
    simp only [intakeEvent]
    split <;> simp
  rw [lineTallies, counted]
  unfold countEvent
  cases ev.arrived <;> cases ev.blanked <;> rfl

/-- R7, R12, R18 to R21, R31: the counts of triggers and lines behind a line event. -/
theorem lineTallies_takeLine (ev : LineEvent) (s : State) : lineTallies (takeLine ev s) =
    (s.counters.linesTriggered, s.counters.stampOverflows,
      if ev.arrived then satInc s.counters.linesArrived else s.counters.linesArrived,
      if ev.arrived then s.counters.linesMissed else satInc s.counters.linesMissed,
      s.counters.linesDamaged, s.counters.linesUnsolicited,
      if ev.blanked then satInc s.counters.linesBlanked else s.counters.linesBlanked) :=
  (takeLine_follows ev s).tallies.trans (lineTallies_intakeEvent ev s)

theorem takeLine_outputs_prefix (ev : LineEvent) (s : State) : s.outputs <+: (takeLine ev s).outputs := by
  have := (takeLine_follows ev s).outputs
  rwa [intakeEvent_outputs] at this

/-- R50: the tracker line moves past the line. -/
theorem takeLine_trackerLine (ev : LineEvent) (s : State) : (takeLine ev s).tracker.line = ev.line + 1 := by
  rw [takeLine_eq, afterRow_tracker, recordTaken, takeRecord_tracker, markRegistered_tracker]
  rfl

end Sys2Proof.Machine
end

section
/-! Chapter 2 of the manual: a line arrival (R17 to R24, R30, R47, R50). -/

namespace Sys2Proof.Machine

/-! ## The line event of an arrival -/

/-- R19 to R21: the line event of the arrival that takes a stamp. -/
def arrivalEvent (st : Stamp) (px : List Byte) (s : State) : LineEvent :=
  lineEventOf st true (adjustTo s.ctl.cfg.w (stored px)) (decide (pixelCount px ≠ s.ctl.cfg.w)) s

/-- R11, R17, R19: the state in which an arrival's line event goes through the station: its stamp taken, the line
buffer filled, and a damaged arrival counted. -/
def arrived (px : List Byte) (rest : List Stamp) (s : State) : State := { s with
  encoder := { s.encoder with stamps := rest }
  intake := { s.intake with buffer := stored px, count := pixelCount px }
  counters := { s.counters with
    linesDamaged := if pixelCount px = s.ctl.cfg.w then s.counters.linesDamaged else satInc s.counters.linesDamaged } }

theorem exec_lineArrival {s : State} {oldest : Stamp} {rest : List Stamp} (px : List Byte)
    (h : s.encoder.stamps = oldest :: rest) :
    exec (.lineArrival px) s = .next (takeLine (arrivalEvent oldest px s) (arrived px rest s)) := by
  change Host.Outcome.next (lineArrives px s) = _
  unfold lineArrives
  rw [h]
  dsimp only [arriveAt]
  by_cases count : pixelCount px = s.ctl.cfg.w
  · simp only [arrived, if_pos count]
    split
    next damaged => exact absurd count (of_decide_eq_true damaged)
    next => rfl
  · simp only [arrived, if_neg count]
    split
    next => rfl
    next intact => exact absurd (decide_eq_true count) intact

/-- R21, R30: what intake leaves of the blanking windows behind a line. -/
theorem dropEnded_markStarted (line : Nat) (ws : List Window) : dropEnded line (markStarted line ws) =
    (ws.map fun w => if w.start ≤ line ∧ line ≤ w.stop then { w with started := true } else w).filter
      fun w => line < w.stop := by
  simp only [dropEnded, markStarted, Window.holds, Bool.and_eq_true, decide_eq_true_eq]

/-- Settles O8. -/
theorem lineArrival : Obligations.LineArrival := by
  intro px s
  constructor
  · intro none
    change Host.Outcome.next (lineArrives px s) = _
    unfold lineArrives
    rw [none]
    rfl
  · intro oldest rest h
    have counts := lineTallies_takeLine (arrivalEvent oldest px s) (arrived px rest s)
    simp only [lineTallies, Prod.mk.injEq] at counts
    obtain ⟨-, -, lines, missed, damaged, unsolicited, blanked⟩ := counts
    refine ⟨_, exec_lineArrival px h, takeLine_encoder .., ?_, takeLine_trackerLine .., lines, damaged, blanked, missed,
      unsolicited, takeLine_ctl .., takeLine_op .., takeLine_powerCycles .., takeLine_draws .., takeLine_pending ..⟩
    rw [takeLine_intake, intakeEvent_intake, dropEnded_markStarted]
    rfl

/-! ## The row of an arrival -/

/-- R47: the line record names an index when the line is registered, which the mode behind its marks decides. -/
theorem trackLine_index_isSome (ev : LineEvent) (u : State) : (trackLine ev u).2.index.isSome = true ↔
    ((trackLine ev u).1.tracker.mode = .locked ∨ (trackLine ev u).1.tracker.mode = .coasting) ∧
      ev.blanked = false := by
  generalize hv : takeMarks ev (beforeMarks ev u) = v
  have mode : (trackLine ev u).1.tracker.mode = v.tracker.mode := by
    change (afterRecord ev (takeMarks ev (beforeMarks ev u))).tracker.mode = _
    rw [hv]
    cases registers : registersLine ev v with
    | false => rw [afterRecord_unregistered registers]
    | true =>
      rw [afterRecord_registered registers]
      dsimp only [Tracker.advance]
      split <;> rfl
  have index : (trackLine ev u).2.index = if registersLine ev v then some (refIndex v) else none := by
    rw [← hv]
    rfl
  rw [mode, index, ← registersLine_iff]
  cases registersLine ev v <;> simp

/-- R22 to R24, R47: the row's registered flag, once its line event has been taken. -/
theorem LineTaken.registered_iff {st : Stamp} {px : Option (List Byte)} {s t : State} {f : Entry} {r : Row}
    (h : LineTaken st px s t f) (hr : f.rows[st.line % 32]? = some r) : r.registered = true ↔
      (t.tracker.mode = .locked ∨ t.tracker.mode = .coasting) ∧ blankedAt st.line s.intake.windows = false := by
  obtain ⟨e, record, _, _, ⟨ev, u, _, _, _, blanked, _, _, _, _, _, hrecord, tracker, _⟩, ⟨_, length, _, written⟩, _⟩ := h
  obtain ⟨inside, _⟩ := List.getElem?_eq_some_iff.mp hr
  have row := written _ (List.getElem?_eq_getElem (length ▸ inside))
  rw [hr, Option.some_inj] at row
  rw [row, hrecord, tracker, ← blanked]
  exact trackLine_index_isSome ev u

/-- R20 to R24: the line event of an arrival, up to the scoring of its band. -/
theorem arrival_lineTaken {s : State} {oldest : Stamp} (px : List Byte) (rest : List Stamp)
    (hnew : oldest.line % 32 = 0 → findEntry (oldest.line / 32) s = none)
    (hold : oldest.line % 32 ≠ 0 → ∃ e, findEntry (oldest.line / 32) s = some e) :
    ∃ f, LineTaken oldest (some px) s (recordTaken (arrivalEvent oldest px s) (arrived px rest s)) f := by
  obtain ⟨f, taken⟩ := lineTaken (arrived px rest s) (st := oldest) (px := some px) (ev := arrivalEvent oldest px s)
    rfl rfl rfl rfl rfl (fun p hp => by
      obtain rfl := Option.some_inj.mp hp
      exact ⟨rfl, adjustTo_stored s.ctl.cfg px⟩) hnew hold
  exact ⟨f, taken.of_eq rfl rfl rfl rfl rfl rfl rfl rfl rfl nofun⟩

/-- Settles O9. -/
theorem arrivalWritesItsRow : Obligations.ArrivalWritesItsRow := by
  intro px s oldest rest hstamps not31 hnew hold
  obtain ⟨f, taken⟩ := arrival_lineTaken px rest hnew hold
  refine ⟨_, f, ?_, taken, fun r => taken.registered_iff⟩
  rw [exec_lineArrival px hstamps, takeLine_eq, afterRow, if_neg (by exact not31)]

end Sys2Proof.Machine
end

section
/-! Sections 1.6 and 6.2 of the manual: the line a trigger declares missed (R12, R20), and the scoring of a band at its
last row (R75, R91, R98, R99). -/

namespace Sys2Proof.Machine

/-! ## The dropped stamp -/

/-- R7, R12: the state in which the line event of a dropped stamp goes through the station: the forward advance made,
the pulse put out, the stamp taken and counted. -/
def dropping (p : ChannelPair) (rest : List Stamp) (s : State) : State := { s with
  encoder := { s.encoder with
    pair := p
    e := s.encoder.e + 1
    high := s.encoder.e + 1
    dividerPhase := 0
    stamps := rest }
  counters := { s.counters with
    stampOverflows := satInc s.counters.stampOverflows }
  outputs := s.outputs ++ [.linePulse] }

/-- R7, R8: what the trigger itself does, once there is room for its stamp. -/
def triggered (s : State) : State := { s with
  encoder := s.encoder.triggered
  counters := { s.counters with
    linesTriggered := satInc s.counters.linesTriggered } }

theorem exec_encoderStep_drops {p : ChannelPair} {s : State} {oldest : Stamp} {rest : List Stamp}
    (h : (s.encoder.pair, p) ∈ forwardCycle) (hop : s.bus.op = .running) (he : s.encoder.e = s.encoder.high)
    (hd : s.encoder.dividerPhase + 1 = s.ctl.cfg.d) (hl : s.encoder.lineLimit = false)
    (hst : s.encoder.stamps = oldest :: rest) (hlen : 3 ≤ rest.length) :
    exec (.encoderStep p) s = .next (triggered (missLine oldest (dropping p rest s))) := by
  have four : 4 ≤ s.encoder.stamps.length := by
    rw [hst, List.length_cons]
    omega
  rw [exec_encoderStep, encoderInputs_forward h, forwardStep_advance hop he, forwardAdvance, if_pos (by exact hd)]
  dsimp only
  rw [if_neg (by rw [State.updEncoder_encoder, hl]; nofun), trigger, makeRoom, if_pos (by exact four)]
  simp only [show ((emit .linePulse ((s.updEncoder fun c => { c with pair := p, e := c.e + 1 }).updEncoder fun c =>
    { c with high := c.e, dividerPhase := 0 })).encoder.stamps) = oldest :: rest from hst]
  rfl

/-- R20 to R24: the line event of a missed line, up to the scoring of its band. -/
theorem miss_lineTaken {s : State} {oldest : Stamp} (p : ChannelPair) (rest : List Stamp)
    (hnew : oldest.line % 32 = 0 → findEntry (oldest.line / 32) s = none)
    (hold : oldest.line % 32 ≠ 0 → ∃ e, findEntry (oldest.line / 32) s = some e) :
    ∃ f, LineTaken oldest none s (recordTaken (lineEventOf oldest false [] false (dropping p rest s))
      (dropping p rest s)) f := by
  obtain ⟨f, taken⟩ := lineTaken (dropping p rest s) (st := oldest) (px := none)
    (ev := lineEventOf oldest false [] false (dropping p rest s)) rfl rfl rfl rfl rfl nofun hnew hold
  exact ⟨f, taken.of_eq rfl rfl rfl rfl rfl rfl rfl rfl rfl fun _ => ⟨rfl, rfl⟩⟩

/-! ## The entry that is filling -/

/-- R89: while a band is filling its entry is the one of the next line's band, and the last. -/
theorem BandsInOrder.filling {next hs : Nat} {es : List Entry} (h : BandsInOrder next hs es) (hrow : next % 32 ≠ 0) :
    ∃ f, es.find? (fun e => e.band == bandOf next) = some f ∧ f.state = .filling ∧ ∀ y ∈ es, y.band ≤ f.band := by
  obtain ⟨c, consecutive⟩ := h.consecutive
  obtain ⟨scored, _, _, _, _, hes⟩ := h
  rw [if_neg hrow] at hes
  obtain ⟨f, rfl, filling, band⟩ := hes
  have below : ∀ y ∈ scored, y.band < f.band := fun y hy =>
    (List.pairwise_append.1 (consecutive_pairwise consecutive)).2.2 y hy f (List.mem_singleton_self f)
  refine ⟨f, ?_, filling, List.forall_mem_append.2 ⟨fun y hy => (below y hy).le, by simp⟩⟩
  rw [List.find?_append, List.find?_eq_none.2 fun y hy => ?_]
  · simp [band]
  · have := below y hy
    rw [beq_iff_eq]
    omega

theorem RunOk.findEntry_row {s : State} {oldest : Stamp} {rest : List Stamp} (run : RunOk s) (hop : s.bus.op = .running)
    (hst : s.encoder.stamps = oldest :: rest) (hrow : oldest.line % 32 ≠ 0) :
    ∃ e, findEntry (oldest.line / 32) s = some e := by
  obtain ⟨stamps, bands⟩ := run.running hop
  rw [hst] at stamps
  rw [← stamps.head] at bands
  obtain ⟨f, hf, _⟩ := bands.filling hrow
  exact ⟨f, hf⟩

/-! ## The last row -/

/-- R98: in a run the last entry waits in the table while no band a settle depth later is scored. -/
theorem ClosesInTurn.last_waits {closed : List Entry} {s t : State} {x : Entry} (h : ClosesInTurn s closed t)
    (hop : s.bus.op = .running) (hhs : 1 ≤ s.ctl.cfg.hs) (hx : x ∈ s.table.entries)
    (last : ∀ y ∈ s.table.entries, y.band ≤ x.band) : x ∈ t.table.entries := by
  induction closed generalizing s with
  | nil =>
    obtain ⟨rfl, _⟩ := h
    exact hx
  | cons e es ih =>
    obtain ⟨_, he, ⟨_, _, may⟩, later⟩ := h
    have before : x.band ≠ e.band := by
      intro same
      rcases may with ⟨y, hy, _⟩ | ⟨y, hy, _, depth⟩ | stopping
      · have := last y (List.mem_of_find?_eq_some hy)
        have := findEntry_band s hy
        omega
      · have := last y hy
        omega
      · rw [hop] at stopping
        cases stopping
    have entries := closeEntry_entries s e
    refine ih later (by rw [closeEntry_bus, hop]) (by rw [closeEntry_ctl]; exact hhs) ?_ fun y hy => last y ?_
    · rw [entries, List.mem_filter]
      exact ⟨hx, by simpa using before⟩
    · rw [entries] at hy
      exact List.mem_of_mem_filter hy

/-- R131: closes that were to come change of the bus and the control nothing. -/
theorem ClosesEnded.frame {s t : State} (h : ClosesEnded s t) : t.bus = s.bus ∧ t.ctl = s.ctl := by
  obtain ⟨same, made⟩ := h
  cases offering : s.port.offering with
  | none =>
    obtain rfl := same offering
    exact ⟨rfl, rfl⟩
  | some o =>
    obtain ⟨u, v, closed, offers, closes, _, _, rfl⟩ := made o offering
    obtain ⟨_, _, _, _, bus, ctl, _⟩ := closesInTurn_frame u closes
    have kept := offers.keeps
    exact ⟨bus.trans (by rw [kept]), ctl.trans (by rw [kept])⟩

/-- R91, R127: the scoring of a band offers a frame at most, and leaves the control. -/
theorem BandScored.frame {f g : Entry} {s t : State} (h : BandScored f g s t) :
    t.bus = { s.bus with queue := t.bus.queue, nextAge := t.bus.nextAge } ∧ t.ctl = s.ctl := by
  obtain ⟨level, a, v, closed, made, _, _, hv, handed, quiet, closes, _⟩ := h
  obtain ⟨_, _, _, _, bus, ctl, _⟩ := closesInTurn_frame v closes
  obtain ⟨before, beforeCtl⟩ := made.frame
  have control : v.ctl = a.ctl := by rw [hv]
  have offered : v.bus = { a.bus with queue := v.bus.queue, nextAge := v.bus.nextAge } := by
    cases sent : g.summarySent with
    | false => rw [(quiet sent).1]
    | true =>
      obtain ⟨_, _, _, _, _, _, offer, _⟩ := handed sent
      exact offer
  rw [before] at offered
  rw [bus, ctl, control, beforeCtl]
  exact ⟨offered, rfl⟩

/-- R91, R98, R99: the entry scored in a run waits in the table. -/
theorem BandScored.waits {f g : Entry} {s t : State} {c : Nat} (h : BandScored f g s t) (hop : s.bus.op = .running)
    (hhs : 1 ≤ s.ctl.cfg.hs) (hc : Consecutive c s.table.entries) (hf : f ∈ s.table.entries) (hfill : f.state = .filling)
    (last : ∀ y ∈ s.table.entries, y.band ≤ f.band) : g ∈ t.table.entries ∧ g.band = f.band := by
  have ⟨busBefore, ctlBefore⟩ := h.frame
  obtain ⟨level, a, v, closed, made, _, hg, hv, _, _, closes, _⟩ := h
  obtain ⟨_, gone, split, scored, _⟩ := made.split hc
  have after := closesInTurn_frame v closes
  obtain ⟨_, _, _, _, bus, ctl, _⟩ := after
  have entries : v.table.entries = a.table.entries.map fun x => if x.band = f.band then g else x := by rw [hv]
  have band : g.band = f.band := by rw [hg]
  have remains : f ∈ a.table.entries := by
    rw [split] at hf
    refine (List.mem_append.1 hf).resolve_left fun hin => ?_
    rw [scored f hin] at hfill
    cases hfill
  refine ⟨closes.last_waits (by rw [← bus, busBefore, hop]) (by rw [← ctl, ctlBefore]; exact hhs) ?_ ?_, band⟩
  · rw [entries]
    exact List.mem_map.2 ⟨f, remains, if_pos rfl⟩
  · rw [entries, List.forall_mem_map]
    intro y hy
    have := last y (split ▸ List.mem_append_right _ hy)
    split <;> omega

/-- R75, R91, R98, R99: in a run, row 31's line event `ev` scores its band. -/
theorem lastRow_scored {s w : State} {oldest : Stamp} {rest : List Stamp} {px : Option (List Byte)} {ev : LineEvent}
    {f : Entry} (run : RunOk s) (hop : s.bus.op = .running) (hst : s.encoder.stamps = oldest :: rest)
    (h31 : oldest.line % 32 = 31) (table : w.table = s.table) (ctl : w.ctl = s.ctl) (hline : ev.line = oldest.line)
    (taken : LineTaken oldest px s (recordTaken ev w) f) : ∃ g, BandScored f g (recordTaken ev w) (takeLine ev w) ∧
      g ∈ (takeLine ev w).table.entries ∧ g.band = oldest.line / 32 ∧
      (∀ x ∈ (takeLine ev w).table.entries, x.state = .scored) := by
  obtain ⟨stamps, bands⟩ := run.running hop
  rw [hst] at stamps
  rw [← stamps.head, ← table, ← ctl, ← hline] at bands
  have row : rowOf ev.line = 31 := by rw [hline]; exact h31
  obtain ⟨_, _, _, _, _, _, _, band, found, _, _, _, _, _, _, _, _, _, _, tbus, tctl⟩ := taken
  have before := recordTaken_bandsInOrder bands
  rw [if_pos row] at before
  obtain ⟨c, consecutive⟩ := before.consecutive
  obtain ⟨x, hx, filling, last⟩ := before.filling (by rw [hline]; omega)
  rw [band] at found
  obtain rfl : x = f := Option.some_inj.1 (hx.symm.trans (by rw [hline]; exact found))
  have scoring : takeLine ev w = scoreBand (oldest.line / 32) (recordTaken ev w) := by
    rw [takeLine_eq, afterRow, if_pos row, hline]
    rfl
  obtain ⟨g, scored⟩ := scoreBand_scored _ found filling consecutive
  rw [← scoring] at scored
  obtain ⟨waits, same⟩ := scored.waits (by rw [tbus, hop]) (by rw [tctl]; have := (run.1 (by rw [hop]; nofun)).1; omega)
    consecutive (List.mem_of_find?_eq_some found) filling last
  refine ⟨g, scored, waits, same.trans band, ?_⟩
  obtain ⟨all, _, done, _, _, entries⟩ := takeLine_bandsInOrder bands
  rw [if_pos (by omega)] at entries
  rwa [entries]

/-- R98: of records, only those of closes join the queue when row 31 scores its band. -/
theorem takeLine_queue (ev : LineEvent) (w : State) :
    ∃ more, (takeLine ev w).port.queue = (recordTaken ev w).port.queue ++ more ∧ ∀ r ∈ more, ∀ x, r ≠ .event x :=
  (afterRow_follows ev.line (recordTaken ev w)).queue

/-! ## The obligations -/

/-- Settles O7. -/
theorem encoderTriggerDropsOldest : Obligations.EncoderTriggerDropsOldest := by
  intro p s oldest rest h hop he hd hl hst hlen
  obtain ⟨ev, hev⟩ : ∃ ev, ev = lineEventOf oldest false [] false (dropping p rest s) := ⟨_, rfl⟩
  obtain ⟨u, hu⟩ : ∃ u, u = takeLine ev (dropping p rest s) := ⟨_, rfl⟩
  have line : ev.line = oldest.line := by rw [hev]; rfl
  have missing : ev.arrived = false := by rw [hev]; rfl
  have encoder : u.encoder = (dropping p rest s).encoder := by rw [hu, takeLine_encoder]
  have counts := lineTallies_takeLine ev (dropping p rest s)
  rw [← hu] at counts
  simp only [lineTallies, missing, Prod.mk.injEq] at counts
  obtain ⟨triggers, overflows, arrivals, missed, -⟩ := counts
  obtain ⟨more, puts⟩ := takeLine_outputs_prefix ev (dropping p rest s)
  have run : exec (.encoderStep p) s = .next (triggered u) := by
    rw [exec_encoderStep_drops h hop he hd hl hst hlen, hu, hev]
    rfl
  refine ⟨triggered u, more, run, ?_, congrArg satInc triggers, overflows, missed, arrivals, ?_, ?_, ?_, ?_, ?_, ?_, ?_⟩
  · change u.encoder.triggered = _
    rw [encoder]
    rfl
  · change u.intake.nextLine = _
    rw [hu, takeLine_nextLine, line]
  · change u.tracker.line = _
    rw [hu, takeLine_trackerLine, line]
  · change u.outputs = _
    rw [hu, ← puts]
    simp [dropping]
  · intro hnew hold ok
    obtain ⟨f, taken⟩ := miss_lineTaken p rest hnew hold
    rw [← hev] at taken
    have counted : satInc u.counters.linesTriggered = (triggered u).counters.linesTriggered := rfl
    refine ⟨u, ⟨_, f, taken, fun inside => ?_, fun last => ?_⟩, rfl⟩
    · rw [hu, takeLine_eq, afterRow, if_neg (by rw [line]; exact inside)]
    · obtain ⟨g, scored, _⟩ := lastRow_scored (w := dropping p rest s) (ok last) hop hst last rfl rfl line taken
      exact ⟨g, hu ▸ scored⟩
  · change u.ctl = _
    rw [hu, takeLine_ctl]
    rfl
  · change u.bus.op = _
    rw [hu, takeLine_op]
    rfl
  · change u.pending = _
    rw [hu, takeLine_pending]
    rfl

/-- Settles O10. -/
theorem lastRowScoresItsBand : Obligations.LastRowScoresItsBand := by
  intro c px s oldest rest ok hop hst h31 command
  have hold : oldest.line % 32 ≠ 0 → ∃ e, findEntry (oldest.line / 32) s = some e := ok.findEntry_row hop hst
  have hnew : oldest.line % 32 = 0 → findEntry (oldest.line / 32) s = none := by omega
  rcases command with ⟨p, rfl, rfl⟩ | ⟨p, rfl, rfl, h, he, hd, hl, hlen⟩
  · obtain ⟨f, taken⟩ := arrival_lineTaken p rest hnew hold
    obtain ⟨g, scored, waits, band, all⟩ :=
      lastRow_scored (w := arrived p rest s) ok hop hst h31 rfl rfl rfl taken
    exact ⟨_, _, _, f, g, exec_lineArrival p hst, taken, scored, rfl, waits, band, all, takeLine_queue _ _⟩
  · obtain ⟨f, taken⟩ := miss_lineTaken p rest hnew hold
    obtain ⟨g, scored, waits, band, all⟩ :=
      lastRow_scored (w := dropping p rest s) ok hop hst h31 rfl rfl rfl taken
    exact ⟨_, _, _, f, g, exec_encoderStep_drops h hop he hd hl hst hlen, taken, scored, rfl, waits, band, all,
      takeLine_queue _ _⟩

end Sys2Proof.Machine
end

section
/-! Sections 1.7, 5.3, 6.5 and 7.9 of the manual: what the end of a run does to the lines, the bands and the queue (R14,
R102, R126). -/

namespace Sys2Proof.Machine

/-! ## Lines retired -/

/-- R14, R20: from one state to a later one `n` lines have been retired as missed; the records and events this brought
joined the queue behind those there. -/
structure Retired (n : Nat) (s t : State) : Prop where
  missed : t.counters.linesMissed = satAdd s.counters.linesMissed n
  arrived : t.counters.linesArrived = s.counters.linesArrived
  nextLine : t.intake.nextLine = s.intake.nextLine + n
  buffer : t.intake.buffer = s.intake.buffer
  queue : s.port.queue <+: t.port.queue
  bus : t.bus = { s.bus with queue := t.bus.queue, nextAge := t.bus.nextAge }

theorem satAdd_satAdd (w : Word) (m n : Nat) : satAdd (satAdd w m) n = satAdd w (m + n) := by
  apply BitVec.eq_of_toNat_eq
  simp only [satAdd_toNat]
  omega

theorem Retired.refl (s : State) : Retired 0 s s :=
  ⟨(satAdd_zero _).symm, rfl, rfl, rfl, List.prefix_refl _, rfl⟩

theorem Retired.trans {m n : Nat} {s t u : State} (h : Retired m s t) (k : Retired n t u) : Retired (m + n) s u :=
  ⟨by rw [k.missed, h.missed, satAdd_satAdd], k.arrived.trans h.arrived, by rw [k.nextLine, h.nextLine, Nat.add_assoc],
    k.buffer.trans h.buffer, h.queue.trans k.queue, k.bus.trans (by rw [h.bus])⟩

/-- Closes retire no line. -/
theorem FollowsClosed.retired {s t : State} (h : FollowsClosed s t) (hi : t.intake = s.intake) (hb : t.bus = s.bus) : Retired 0 s t := by
  have counts := h.tallies
  simp only [lineTallies, Prod.mk.injEq] at counts
  obtain ⟨_, _, arrived, missed, _⟩ := counts
  obtain ⟨more, queue, _⟩ := h.queue
  exact ⟨by rw [missed, satAdd_zero], arrived, by rw [hi, Nat.add_zero], by rw [hi], ⟨more, queue.symm⟩, by rw [hb]⟩

theorem ClosesInTurn.retired {closed : List Entry} {s t : State} (h : ClosesInTurn s closed t) : Retired 0 s t := by
  obtain ⟨_, intake, _, _, bus, _⟩ := closesInTurn_frame s h
  exact h.follows.retired intake bus

theorem ClosesEnded.retired {s t : State} (h : ClosesEnded s t) : Retired 0 s t := by
  cases offering : s.port.offering with
  | none =>
    rw [h.1 offering]
    exact .refl s
  | some o =>
    obtain ⟨u, v, closed, offers, closes, _, _, rfl⟩ := h.2 o offering
    have made : Retired 0 s u := by
      refine FollowsClosed.retired (FollowsClosed.trans ?_ offers.follows) ?_ ?_
      · exact .of_eq rfl rfl rfl rfl
      all_goals rw [offers.keeps]
    have closed := made.trans closes.retired
    exact ⟨closed.missed, closed.arrived, closed.nextLine, closed.buffer, closed.queue, closed.bus⟩

theorem BandScored.retired {f g : Entry} {s t : State} (h : BandScored f g s t) : Retired 0 s t := by
  have ⟨bus, _⟩ := h.frame
  obtain ⟨level, a, v, closed, made, _, _, hv, _, _, closes, _⟩ := h
  have before := made.retired
  have after := closes.retired
  have counts : v.counters.linesMissed = a.counters.linesMissed ∧ v.counters.linesArrived = a.counters.linesArrived := by
    rw [hv]
    exact ⟨rfl, rfl⟩
  have same : v.intake = a.intake ∧ v.port = a.port := by
    rw [hv]
    exact ⟨rfl, rfl⟩
  refine ⟨?_, ?_, ?_, ?_, ?_, bus⟩
  · rw [after.missed, counts.1, satAdd_zero, before.missed]
  · rw [after.arrived, counts.2, before.arrived]
  · rw [after.nextLine, same.1, before.nextLine]
  · rw [after.buffer, same.1, before.buffer]
  · exact before.queue.trans (same.2 ▸ after.queue)

theorem LineTaken.retired {st : Stamp} {s t : State} {f : Entry} (h : LineTaken st none s t f)
    (hline : st.line = s.intake.nextLine) : Retired 1 s t := by
  obtain ⟨_, _, _, _, ⟨_, _, _, _, _, _, _, _, _, _, _, _, _, _, events, _, queue⟩, _, _, _, _, _, _, _, _, next, _, kept,
    _, missed, arrived, bus, _⟩ := h
  exact ⟨missed, arrived, by rw [next, hline], (kept rfl).1, ⟨events, queue.symm⟩, by rw [bus]⟩

theorem LineThrough.retired {st : Stamp} {s t : State} (h : LineThrough st none s t)
    (hline : st.line = s.intake.nextLine) : Retired 1 s t := by
  obtain ⟨u, f, taken, inside, last⟩ := h
  by_cases row : st.line % 32 = 31
  · obtain ⟨g, scored⟩ := last row
    exact (taken.retired hline).trans scored.retired
  · rw [inside row]
    exact taken.retired hline

theorem LinesRetired.retired {l : List Stamp} {s t : State} (h : LinesRetired l s t)
    (hl : ∀ i, (hi : i < l.length) → l[i].line = s.intake.nextLine + i) : Retired l.length s t := by
  induction l generalizing s with
  | nil =>
    obtain rfl : t = s := h
    exact .refl t
  | cons st sts ih =>
    obtain ⟨_, u, through, later⟩ := h
    have first := through.retired (hl 0 (Nat.zero_lt_succ _))
    rw [List.length_cons, Nat.add_comm]
    refine first.trans (ih later fun i hi => ?_)
    have := hl (i + 1) (Nat.succ_lt_succ hi)
    rw [first.nextLine, Nat.add_assoc, Nat.add_comm 1]
    exact this

/-- R14, R102: what the end of a run has retired, and what waits for a close. -/
theorem BandsEnd.retired {stamps : List Stamp} {s t : State} (h : BandsEnd stamps s t)
    (hl : ∀ i, (hi : i < stamps.length) → stamps[i].line = s.intake.nextLine + i) :
    ∃ now rest : List Stamp, stamps = now ++ rest ∧ Retired now.length s t ∧
      (∀ o, t.port.offering = some o → o.retired = rest) ∧ (t.port.offering = none → rest = []) := by
  obtain ⟨closed, now, rest, u, v, rfl, closes, _, lines, waits, ends⟩ := h
  have before : Retired 0 s u := closes.retired
  have through : Retired now.length s v := by
    have := before.trans (lines.retired fun i hi => ?_)
    · rwa [Nat.zero_add] at this
    · have := hl i (by rw [List.length_append]; omega)
      rwa [List.getElem_append_left hi, ← Nat.add_zero s.intake.nextLine, ← before.nextLine] at this
  refine ⟨now, rest, rfl, ?_⟩
  cases offering : v.port.offering with
  | some o =>
    rw [waits o offering]
    refine ⟨⟨through.missed, through.arrived, through.nextLine, through.buffer, through.queue,
      through.bus⟩, fun p hp => ?_, nofun⟩
    rw [← Option.some_inj.1 hp]
  | none =>
    obtain ⟨rfl, done, scoring⟩ := ends offering
    by_cases filling : ∃ f ∈ v.table.entries, f.state = .filling
    · obtain ⟨f, hf, hfill⟩ := filling
      obtain ⟨g, _, scored⟩ := scoring f hf hfill
      refine ⟨through.trans scored.retired, fun o ho => ?_, fun _ => rfl⟩
      obtain ⟨_, a, w, _, made, _, _, hw, _, _, closes, _⟩ := scored
      rw [made.1 offering] at hw
      exact closesInTurn_retired closes (by rw [hw]; exact offering) ho
    · rw [done fun f hf hfill => filling ⟨f, hf, hfill⟩]
      exact ⟨through, fun o ho => absurd (offering.symm.trans ho) nofun, fun _ => rfl⟩

/-! ## What is still to be delivered -/

/-- R126: a record is queued, an offer is to come, or a band is open. -/
def Busy (s : State) : Prop := s.port.queue ≠ [] ∨ s.port.offering ≠ none ∨ s.table.entries ≠ []

theorem closeEntry_busy (e : Entry) (s : State) : Busy (closeEntry e s) :=
  (closeEntry_offers s e).imp_right .inl

theorem OffersMade.queue_ne_nil {o : Offering} {s t : State} (h : OffersMade o s t) : t.port.queue ≠ [] := by
  obtain ⟨_, _, u, _, fits, full, _⟩ := h
  rcases Nat.lt_or_ge 2097152 (queueSize u.port.queue + 32) with above | within
  · rw [full above]
    intro none
    rw [none] at above
    exact absurd above (by decide)
  · rw [fits within]
    exact List.append_ne_nil_of_right_ne_nil _ (List.cons_ne_nil _ _)

theorem ClosesInTurn.busy {closed : List Entry} {s t : State} (h : ClosesInTurn s closed t) (busy : Busy s) : Busy t := by
  induction closed generalizing s with
  | nil => rwa [h.1]
  | cons e es ih =>
    obtain ⟨_, _, _, later⟩ := h
    exact ih later (closeEntry_busy e s)

theorem ClosesEnded.busy {s t : State} (h : ClosesEnded s t) (busy : Busy s) : Busy t := by
  cases offering : s.port.offering with
  | none => rwa [h.1 offering]
  | some o =>
    obtain ⟨u, v, closed, offers, closes, _, _, rfl⟩ := h.2 o offering
    exact closes.busy (.inl offers.queue_ne_nil)

theorem BandScored.busy {f g : Entry} {s t : State} (h : BandScored f g s t) (busy : Busy s) : Busy t := by
  obtain ⟨_, a, v, _, made, _, _, hv, _, _, closes, _⟩ := h
  have before := made.busy busy
  refine closes.busy ?_
  rw [hv]
  exact before.imp_right (Or.imp_right fun some none => some (List.map_eq_nil_iff.1 none))

theorem LineThrough.busy {st : Stamp} {px : Option (List Byte)} {s t : State} (h : LineThrough st px s t) : Busy t := by
  obtain ⟨u, f, ⟨_, _, _, _, _, _, _, _, found, _⟩, inside, last⟩ := h
  have busy : Busy u := .inr (.inr (List.ne_nil_of_mem (List.mem_of_find?_eq_some found)))
  by_cases row : st.line % 32 = 31
  · obtain ⟨g, scored⟩ := last row
    exact scored.busy busy
  · rwa [inside row]

theorem LinesRetired.busy {l : List Stamp} {s t : State} (h : LinesRetired l s t) (busy : Busy s ∨ l ≠ []) : Busy t := by
  induction l generalizing s with
  | nil =>
    obtain rfl : t = s := h
    exact busy.resolve_right (· rfl)
  | cons st sts ih =>
    obtain ⟨_, u, through, later⟩ := h
    exact ih later (.inl through.busy)

/-- R102, R126: a run that ends with anything still to be delivered, a stamp pending or a band open leaves something to
be delivered. -/
theorem BandsEnd.busy {stamps : List Stamp} {s t : State} (h : BandsEnd stamps s t) (busy : Busy s ∨ stamps ≠ []) :
    Busy t := by
  obtain ⟨closed, now, rest, u, v, rfl, closes, _, lines, waits, ends⟩ := h
  cases offering : v.port.offering with
  | some o =>
    rw [waits o offering]
    exact .inr (.inl nofun)
  | none =>
    obtain ⟨rfl, done, scoring⟩ := ends offering
    have through : Busy v := lines.busy (busy.imp closes.busy fun some => by rwa [List.append_nil] at some)
    by_cases filling : ∃ f ∈ v.table.entries, f.state = .filling
    · obtain ⟨f, hf, hfill⟩ := filling
      obtain ⟨g, _, scored⟩ := scoring f hf hfill
      exact scored.busy through
    · rwa [done fun f hf hfill => filling ⟨f, hf, hfill⟩]

end Sys2Proof.Machine
end

section
/-! Sections 7.9 and 9.4 of the manual: the end of a run, with what it leaves of the host port, the queue and the
transmit queue (R14, R102, R116, R125, R126, R162). -/

namespace Sys2Proof.Machine

/-! ## The grant port -/

theorem intakeEvent_portKept (ev : LineEvent) (s : State) : PortKept s (intakeEvent ev s) := by
  have counted : (intakeEvent ev s).counters.commandsFailed = s.counters.commandsFailed := by
    have same : (intakeEvent ev s).counters = (countEvent ev s).counters := by
      simp only [intakeEvent]
      split <;> simp
    rw [same]
    unfold countEvent
    cases ev.arrived <;> cases ev.blanked <;> rfl
  refine ⟨?_, ?_, ?_, counted, fun none => ⟨?_, ?_, intakeEvent_outputs s ev⟩⟩ <;> rw [intakeEvent_port]
  exact none

theorem takeLine_portKept (ev : LineEvent) (s : State) : PortKept s (takeLine ev s) :=
  (intakeEvent_portKept ev s).trans (takeLine_follows ev s).toPortKept

theorem scoreFilling_portKept (s : State) : PortKept s (scoreFilling s) := by
  unfold scoreFilling
  split
  · exact .refl s
  · exact (scoreBand_follows _ s).toPortKept

theorem keepRetired_portKept (l : List Stamp) (s : State) : PortKept s (keepRetired l s) :=
  ⟨rfl, rfl, rfl, rfl, fun none => ⟨none, rfl, rfl⟩⟩

theorem retireStamps_portKept (l : List Stamp) (s : State) : PortKept s (retireStamps l s) := by
  induction l generalizing s with
  | nil =>
    unfold retireStamps
    split
    · exact keepRetired_portKept [] s
    · exact scoreFilling_portKept s
  | cons st sts ih =>
    unfold retireStamps
    split
    · exact keepRetired_portKept _ s
    · exact (takeLine_portKept _ s).trans (ih _)

theorem windUp_portKept (l : List Stamp) (s : State) : PortKept s (windUp l s) := by
  have closes : PortKept s (closingTest s) := (closingTest_follows s).toPortKept
  unfold windUp
  split
  · exact closes.trans (retireStamps_portKept l _)
  · exact closes

theorem enterStopping_portKept (s : State) : PortKept s (enterStopping s) := by
  refine PortKept.trans (t := emptyStamps (setOp .stopping s)) ?_ (windUp_portKept _ _)
  exact ⟨rfl, rfl, rfl, rfl, fun none => ⟨none, rfl, rfl⟩⟩

theorem haltRetire_portKept (s : State) : PortKept s (haltRetire s) := by
  unfold haltRetire
  split
  · cases open_ : s.port.grant with
    | none =>
      have same : retireGrant .byHalt s = s := by simp only [retireGrant, open_]
      rw [same]
      exact .refl s
    | some g =>
      rw [retireGrant_eq s .byHalt open_]
      exact ⟨rfl, rfl, rfl, rfl, fun none => absurd (open_.symm.trans none) nofun⟩
  · exact .refl s

theorem settle_portKept (s : State) : PortKept s (settle s) := by
  obtain same | ⟨_, _, _, same⟩ := settle_cases s
  · rw [same]
    exact haltRetire_portKept s
  · rw [same, returnToIdle]
    refine (haltRetire_portKept s).trans (PortKept.trans ?_ (raise_follows _ _ _ rfl).toPortKept)
    exact ⟨rfl, rfl, rfl, rfl, fun none => ⟨none, rfl, rfl⟩⟩

/-! ## Closes made whole (log entry 29) -/

/-- No close has other commands fallen into it, and none will. -/
def Whole (s : State) : Prop := s.overlap = [] ∧ s.port.offering = none

theorem closingTest_whole {s : State} (h : Whole s) : Whole (closingTest s) := by
  obtain ⟨_, closes⟩ := closingTest_closesInTurn s
  exact closesInTurn_whole s closes h.1 h.2

theorem scoreBand_whole (b : Nat) {s : State} (h : Whole s) : Whole (scoreBand b s) := by
  have before : finishCloses s = s := by
    unfold finishCloses
    rw [h.2]
  rw [scoreBand, before]
  unfold scoreEntry
  split
  · exact h
  · refine closingTest_whole ?_
    split
    · rw [offerFrame_eq]
      exact h
    · exact h

theorem takeLine_whole (ev : LineEvent) {s : State} (h : Whole s) : Whole (takeLine ev s) := by
  have before : Whole (recordTaken ev s) := by
    refine ⟨?_, ?_⟩
    · rw [recordTaken, takeRecord_overlap, markRegistered_overlap, trackLine_overlap, intakeEvent_overlap, h.1]
    · rw [recordTaken, takeRecord_port, markRegistered_port, (trackLine_follows ev _).offering, intakeEvent_port, h.2]
  rw [takeLine_eq]
  unfold afterRow
  split
  · exact scoreBand_whole _ before
  · exact before

theorem retireStamps_whole (l : List Stamp) {s : State} (h : Whole s) : Whole (retireStamps l s) := by
  induction l generalizing s with
  | nil =>
    rw [retireStamps, h.2, if_neg nofun]
    unfold scoreFilling
    split
    · exact h
    · exact scoreBand_whole _ h
  | cons st sts ih =>
    rw [retireStamps, h.2, if_neg nofun]
    exact ih (takeLine_whole _ h)

theorem enterStopping_whole {s : State} (h : Whole s) : Whole (enterStopping s) := by
  rw [enterStopping, windUp, if_pos (by rfl)]
  exact retireStamps_whole _ (closingTest_whole h)

/-! ## The end of a run -/

/-- R102: with no band open and no stamp pending there is nothing to wind up. -/
theorem windUp_of_no_entries {s : State} (hes : s.table.entries = []) (ho : s.port.offering = none) : windUp [] s = s := by
  have scored : scoreFilling s = s := by
    unfold scoreFilling fillingBand
    rw [hes]
    rfl
  rw [windUp, closingTest_of_no_entries hes]
  split
  · rw [retireStamps, ho, if_neg nofun, scored]
  · rfl

/-- The state `b` in which a run ends is `s` but for what the command that ends it has done before: at the bus, at the
command slot, and at the host port, whose queue, open grant and outputs are `q`, `g` and `out`. -/
structure EndsRunOf (s : State) (q : List Rec) (g : Option OpenGrant) (out : List Output) (b : State) : Prop where
  same : b = { s with
    bus := b.bus, ctl := b.ctl, counters := b.counters, outputs := out, draws := b.draws
    port := { s.port with queue := q, grant := g, fifo := b.port.fifo, link := b.port.link } }
  op : b.bus.op = .running
  left : b.bus.left = s.bus.left
  right : b.bus.right = s.bus.right
  cfg : b.ctl.cfg = s.ctl.cfg
  station : b.ctl.station = s.ctl.station
  missed : b.counters.linesMissed = s.counters.linesMissed
  arrived : b.counters.linesArrived = s.counters.linesArrived
  link : g ≠ none → b.port.link = s.port.link

section
variable {s b : State} {q : List Rec} {g : Option OpenGrant} {out : List Output}

/-- R126: a station in STOPPING with nothing to deliver is settled, its grant retired at halt. -/
theorem settle_idle {a : State} (hop : a.bus.op = .stopping) (idle : ¬ Busy a) :
    (settle a).bus = { a.bus with op := .idle, queue := [] } ∧ (settle a).port.grant = none ∧
      (settle a).port.offering = none ∧
      (settle a).port.nextSeq = (if a.port.grant = none then a.port.nextSeq else a.port.nextSeq + 1) ∧
      (a.port.grant = none → (settle a).outputs = a.outputs) ∧
      (∀ x, a.port.grant = some x → (settle a).outputs = a.outputs ++ retirementPuts x .byHalt a) ∧
      (settle a).port.queue = queueAfterEvent .runEnded a.intake.nextLine
        (BitVec.ofNat 32 ((a.intake.nextLine + 31) / 32)) a ∧
      (settle a).counters = a.counters := by
  rw [Busy, not_or, not_or, not_not, not_not, not_not] at idle
  obtain ⟨hq, ho, hes⟩ := idle
  cases grant : a.port.grant with
  | none =>
    rw [settle_drained hop hes hq ho grant]
    exact ⟨rfl, grant, ho, rfl, fun _ => rfl, fun x h => absurd h nofun, rfl, rfl⟩
  | some x =>
    rw [settle_drained_grant hop hes hq ho grant]
    exact ⟨rfl, rfl, ho, rfl, fun h => absurd h nofun, fun y h => by rw [← Option.some_inj.1 h], rfl, rfl⟩

/-- R126: a station with anything to deliver is not settled. -/
theorem settle_busy {z : State} (busy : Busy z) : settle z = z :=
  settle_waiting (.inr (busy.elim (.inr ∘ .inl) (Or.elim · (.inr ∘ .inr) .inl)))

/-- The state of the entry to STOPPING, its stamps off the queue. -/
def entered (b : State) : State := emptyStamps (setOp .stopping b)

theorem enterStopping_eq (b : State) : enterStopping b = windUp b.encoder.stamps (entered b) := rfl

theorem queueAfterEvent_of_same {s t : State} (code : EventCode) (line : Nat) (data : Word)
    (station : t.ctl.station = s.ctl.station) (cfg : t.ctl.cfg = s.ctl.cfg) (hq : t.port.queue = s.port.queue) :
    queueAfterEvent code line data t = queueAfterEvent code line data s := by
  unfold queueAfterEvent fill
  rw [station, cfg, hq]

/-- R14, R102, R126: with nothing to deliver, no band open and no stamp pending, the entry to STOPPING changes nothing
more, and the station is in IDLE. -/
theorem runEnds_idle (e : EndsRunOf s q g out b) (idle : ¬ Busy (entered b)) (none : s.encoder.stamps = []) :
    enterStopping b = entered b := by
  rw [Busy, not_or, not_or, not_not, not_not, not_not] at idle
  obtain ⟨_, offering, entries⟩ := idle
  have stamps : b.encoder.stamps = [] := by rw [e.same]; exact none
  rw [enterStopping_eq, stamps, windUp_of_no_entries entries offering]

/-- R116, R126, R162: what the station is at once in IDLE with, in the words of `RunEnds`. -/
theorem runEnds_outcome {t : State} (e : EndsRunOf s q g out b) (idle : ¬ Busy (entered b))
    (next : s.encoder.lineCounter = s.intake.nextLine) (bus : t.bus = { (entered b).bus with op := .idle, queue := [] })
    (grant : t.port.grant = none) (offering : t.port.offering = none)
    (seq : t.port.nextSeq = if (entered b).port.grant = none then (entered b).port.nextSeq
      else (entered b).port.nextSeq + 1)
    (silent : (entered b).port.grant = none → t.outputs = (entered b).outputs)
    (puts : ∀ x, (entered b).port.grant = some x → t.outputs = (entered b).outputs ++ retirementPuts x .byHalt (entered b))
    (queued : t.port.queue = queueAfterEvent .runEnded (entered b).intake.nextLine
      (BitVec.ofNat 32 (((entered b).intake.nextLine + 31) / 32)) (entered b)) :
    t.bus.op = .idle ∧ t.bus.queue = [] ∧ t.port.grant = none ∧ t.port.offering = none ∧ q = [] ∧
      t.port.nextSeq = (if g = none then s.port.nextSeq else s.port.nextSeq + 1) ∧
      (g = none → t.outputs = out) ∧ (∀ x, g = some x → t.outputs = out ++ retirementPuts x .byHalt s) ∧
      t.port.queue = queueAfterEvent .runEnded s.encoder.lineCounter
        (BitVec.ofNat 32 ((s.encoder.lineCounter + 31) / 32))
        { s with port := { s.port with queue := [] } } := by
  have ⟨same, _, _, _, cfg, station, _, _, link⟩ := e
  have held : (entered b).port.grant = g := by rw [same]; rfl
  have before : (entered b).port.nextSeq = s.port.nextSeq := by rw [same]; rfl
  have put : (entered b).outputs = out := by rw [same]; rfl
  have line : (entered b).intake.nextLine = s.intake.nextLine := by rw [same]; rfl
  have empty : (entered b).port.queue = [] := by
    rw [Busy, not_or, not_not] at idle
    exact idle.1
  refine ⟨by rw [bus], by rw [bus], grant, offering, ?_, by rw [seq, held, before], ?_, ?_, ?_⟩
  · rw [← empty, same]
    rfl
  · rw [← held, ← put]
    exact silent
  · intro x hx
    have link : (entered b).port.link = s.port.link := link (by rw [hx]; nofun)
    have cfg : (entered b).ctl.cfg = s.ctl.cfg := cfg
    have interrupts : completionInterrupts (entered b) = completionInterrupts s := by
      rw [completionInterrupts, cfg]
      rfl
    rw [puts x (held.trans hx), put, retirementPuts, interrupts, link, cfg, before]
    rfl
  · rw [queued, line, ← next]
    exact queueAfterEvent_of_same _ _ _ station cfg empty

/-- R113: the end of a run leaves the report of a duplicate as it is. -/
theorem enterStopping_settled_dupReported (run : RunOk b) (hop : b.bus.op = .running) :
    (settle (enterStopping b)).bus.dupReported = b.bus.dupReported := by
  obtain ⟨⟨_, inLine, _⟩, _⟩ := run.running hop
  obtain ⟨_, _, _, retired, _⟩ := (enterStopping_bandsEnd b run hop).retired inLine
  have before : (enterStopping b).bus.dupReported = b.bus.dupReported := by
    rw [retired.bus]
    rfl
  by_cases busy : Busy (enterStopping b)
  · rw [settle_busy busy, before]
  · obtain ⟨bus, _⟩ := settle_idle (windUp_op _ _) busy
    rw [bus]
    exact before

/-- R14, R102, R125, R126, R162: the end of a run. -/
theorem runEnds (run : RunOk b) (e : EndsRunOf s q g out b) : RunEnds q g out s (settle (enterStopping b)) := by
  have ⟨same, op, left, right, cfg, station, missed, arrived, link⟩ := e
  obtain ⟨stamps, bands⟩ := run.running op
  have encoder : b.encoder = s.encoder := by rw [same]
  have intake : (entered b).intake = s.intake := by rw [same]; rfl
  have queue : (entered b).port.queue = q := by rw [same]; rfl
  have offering : (entered b).port.offering = s.port.offering := by rw [same]; rfl
  have table : (entered b).table = s.table := by rw [same]; rfl
  have stopping : (enterStopping b).bus.op = .stopping := windUp_op _ _
  have ends : BandsEnd s.encoder.stamps (entered b) (enterStopping b) := by
    have := enterStopping_bandsEnd b run op
    rwa [encoder] at this
  have waiting := ((enterStopping_runOk op run).stopping stopping).2.1
  rw [encoder] at stamps
  obtain ⟨_, inLine, counter⟩ := stamps
  rw [encoder] at counter
  have next : b.intake.nextLine = s.intake.nextLine := by rw [same]
  rw [next] at inLine counter
  obtain ⟨now, rest, split, retired, waits, noneWaits⟩ := ends.retired (by rw [intake]; exact inLine)
  obtain ⟨z, hz⟩ : ∃ z, z = enterStopping b := ⟨_, rfl⟩
  rw [← hz] at stopping ends waiting retired waits noneWaits ⊢
  have busyIff : Busy z ↔ Busy (entered b) ∨ s.encoder.stamps ≠ [] := by
    refine ⟨fun busy => ?_, ends.busy⟩
    by_contra idle
    rw [not_or, not_not] at idle
    rw [hz, runEnds_idle e idle.1 idle.2] at busy
    exact idle.1 busy
  have idleIff : (settle z).bus.op = .idle ↔ ¬ Busy z := by
    refine ⟨fun idle busy => ?_, fun idle => ?_⟩
    · rw [settle_busy busy, stopping] at idle
      cases idle
    · rw [(settle_idle stopping idle).1]
  have settled : (settle z).counters = z.counters ∧ (settle z).port.offering = z.port.offering ∧
      (settle z).bus.left = z.bus.left ∧ (settle z).bus.right = z.bus.right := by
    by_cases busy : Busy z
    · rw [settle_busy busy]
      exact ⟨rfl, rfl, rfl, rfl⟩
    · obtain ⟨bus, _, none, _, _, _, _, counters⟩ := settle_idle stopping busy
      rw [Busy, not_or, not_or, not_not, not_not] at busy
      exact ⟨counters, none.trans busy.2.1.symm, by rw [bus], by rw [bus]⟩
  obtain ⟨counters, offers, toLeft, toRight⟩ := settled
  refine ⟨?_, ⟨now, rest, split, ?_, ?_, ?_, ?_⟩, ?_, ?_, ?_, ?_, ?_, ?_, ?_, ?_, ?_, ?_, ?_⟩
  · rw [settle_encoder, hz, enterStopping_eq, windUp_encoder, ← encoder]
    rfl
  · rw [settle_intake, retired.nextLine, intake, counter, split, List.length_append, Nat.add_assoc]
  · rw [counters, retired.missed, ← missed]
    rfl
  · rw [offers]
    exact waits
  · rw [offers, settle_table]
    exact fun none => ⟨noneWaits none, waiting none⟩
  · intro overlap none
    have whole : Whole (enterStopping b) := enterStopping_whole (by rw [same]; exact ⟨overlap, none⟩)
    rw [offers, hz]
    exact whole.2
  · rw [settle_intake, retired.buffer, intake]
  · rw [counters, retired.arrived, ← arrived]
    rfl
  · by_cases busy : Busy z
    · obtain ⟨more, queued⟩ := retired.queue
      rw [settle_busy busy]
      refine .inl ⟨stopping, busy.imp_right fun some none => ?_, more, by rw [← queued, queue]⟩
      exact some.elim (absurd none) (absurd (waiting none))
    · right
      have empty := mt busyIff.2 busy
      rw [not_or, not_not] at empty
      have entry : z = entered b := hz.trans (runEnds_idle e empty.1 empty.2)
      obtain ⟨bus, grant, none, seq, silent, puts, queued, _⟩ := settle_idle stopping busy
      rw [entry] at bus grant none seq silent puts queued ⊢
      obtain ⟨h1, h2, h3, h4, h5, h6, silent, puts, h7⟩ :=
        runEnds_outcome e empty.1 (by rw [counter, empty.2]; rfl) bus grant none seq silent puts queued
      refine ⟨h1, h2, h3, h4, h5, h6, ?_, h7⟩
      cases g with
      | none => rw [silent rfl, List.append_nil]
      | some x => exact puts x rfl
  · rw [idleIff, busyIff, not_or, not_not, Busy, not_or, not_or, not_not, not_not, not_not, queue, offering, table]
    exact ⟨fun ⟨⟨hq, ho, hes⟩, hst⟩ => ⟨hq, hes, hst, ho⟩, fun ⟨hq, hes, hst, ho⟩ => ⟨⟨hq, ho, hes⟩, hst⟩⟩
  · refine ⟨entered b, z, ?_, intake, ?_, ?_, table, ?_, cfg, station, rfl, left, right, queue, ?_, offering, ?_, ?_, ends,
      settle_intake z, settle_tracker z, settle_ref z, settle_table z, settle_dram z, fun hop => ?_⟩
    case refine_8 =>
      have busy : Busy z := by
        by_contra idle
        rw [idleIff.2 idle] at hop
        cases hop
      rw [settle_busy busy]
      exact ⟨rfl, rfl, rfl⟩
    all_goals
      rw [same]
      rfl
  · rw [toLeft, retired.bus, ← left]
    rfl
  · rw [toRight, retired.bus, ← right]
    rfl
  · rw [settle_ctl, hz, enterStopping_ctl, cfg]
  · rw [settle_powerCycles, hz, enterStopping_powerCycles, same]
  · rw [settle_pending, hz, enterStopping_pending, same]

end

end Sys2Proof.Machine
end

section
/-! Chapters 7 and 10 of the manual: what ends a run: a HALT frame or command (R14, R125, R172), a HALT of the station's
own number (R113), and the loss of the host link (R165, R182). -/

namespace Sys2Proof.Machine

/-! ## A HALT frame or command -/

/-- R125: a HALT frame taken, or HALT with the bus disabled, ends the run at once. -/
theorem haltTaken_running {s : State} (hop : s.bus.op = .running) : haltTaken s = settle (enterStopping s) := by
  simp only [haltTaken, hop]

theorem haltAction_running {s : State} (hop : s.bus.op = .running) (hb : busEnabled s = false) :
    haltAction s = settle (enterStopping s) := by
  simp only [haltAction, hop, hb]
  rfl

/-- What RunEnds says is nothing of the command slot. -/
theorem RunEnds.of_ctl {q : List Rec} {g : Option OpenGrant} {out : List Output} {s t : State} (h : RunEnds q g out s t) :
    RunEnds q g out s { t with ctl := s.ctl } := by
  obtain ⟨encoder, lines, whole, buffer, arrived, ends, idle, bands, left, right, _, cycles, pending⟩ := h
  exact ⟨encoder, lines, whole, buffer, arrived, ends, idle, bands, left, right, rfl, cycles, pending⟩

/-- Settles O18. -/
theorem haltEndsRun : Obligations.HaltEndsRun := by
  intro s c run hop command
  rcases command with ⟨n, base, rfl, taken⟩ | ⟨rfl, hb, hu⟩
  · obtain ⟨queue, rfl⟩ := taken.base
    refine ⟨_, (exec_haltFrame_taken taken).trans (by rw [if_neg nofun]), ?_, ?_⟩
    · rw [haltTaken_running (by exact hop)]
      exact runEnds (run.congr rfl rfl rfl rfl rfl rfl rfl fun _ => .inl)
        ⟨rfl, hop, rfl, rfl, rfl, rfl, rfl, rfl, fun _ => rfl⟩
    · rw [haltTaken_running (by exact hop), settle_ctl, enterStopping_ctl]
  · have ended : RunEnds s.port.queue s.port.grant s.outputs s (settle (enterStopping (accepted (BitVec.ofNat 32 3) s))) :=
      runEnds (run.congr rfl rfl rfl rfl rfl rfl rfl fun _ => .inl)
        ⟨rfl, hop, rfl, rfl, rfl, rfl, rfl, rfl, fun _ => rfl⟩
    refine ⟨_, ?_, ended.of_ctl, rfl⟩
    rw [exec_halt, writeHalt, submit_accepted hu _ rfl rfl, haltAction_running (by exact hop) (by exact hb),
      endDone_accepted 3 s _ (by rw [settle_ctl, enterStopping_ctl]; rfl), if_pos rfl]

/-! ## A frame of the station's own number -/

/-- R160: an event that joins the queue never makes an open grant due that was not. -/
theorem GrantsOk.event_not_due {s : State} {g : OpenGrant} (ok : GrantsOk s) (hg : s.port.grant = some g) (e : EventRec) :
    ¬ DueBySpace g (s.port.queue ++ [.event e]) := by
  obtain ⟨_, _, _, due⟩ := ok
  have kept : ¬ DueBySpace g s.port.queue := by
    rw [← spaceDue_iff s g hg, due]
    nofun
  rw [DueBySpace, not_or] at kept ⊢
  refine ⟨kept.1, fun ⟨r, rest, queue, above⟩ => ?_⟩
  cases before : s.port.queue with
  | nil =>
    rw [before] at queue
    obtain ⟨rfl, _⟩ := List.cons.inj queue
    exact kept.1 above
  | cons x xs =>
    rw [before] at queue
    obtain ⟨rfl, _⟩ := List.cons.inj queue
    exact kept.2 ⟨x, xs, before, above⟩

theorem GrantsOk.raise_kept {s : State} (ok : GrantsOk s) (code : EventCode) (line : Nat) (data : Word) :
    (raise code line data s).port.grant = s.port.grant ∧ (raise code line data s).port.nextSeq = s.port.nextSeq ∧
      (raise code line data s).outputs = s.outputs := by
  obtain ⟨_, _, _, kept⟩ := raise_raised s code line data
  refine kept fun g hg => ?_
  rw [raise_queue]
  dsimp only [queueAfterEvent]
  split
  · exact .inr (ok.event_not_due hg _)
  · exact .inl rfl

/-- R113: what the report of a duplicate does, the first time in a run and after. -/
theorem reportDuplicate_eq (h : HeardFrame) (s : State) : ∃ grant seq dropped outputs,
    reportDuplicate h s = { s with
      bus := { s.bus with dupReported := true }
      port := { s.port with
        queue := if s.bus.dupReported = true then s.port.queue
          else queueAfterEvent .duplicateStation s.intake.nextLine (BitVec.ofNat 32 h.frame.arb) s
        grant := grant
        nextSeq := seq }
      counters := { s.counters with eventRecordsDropped := dropped }
      outputs := outputs } ∧
    (GrantsOk s → grant = s.port.grant ∧ seq = s.port.nextSeq ∧ outputs = s.outputs) := by
  by_cases reported : s.bus.dupReported = true
  · refine ⟨s.port.grant, s.port.nextSeq, s.counters.eventRecordsDropped, s.outputs, ?_, fun _ => ⟨rfl, rfl, rfl⟩⟩
    have same : { s.bus with dupReported := true } = s.bus := by rw [← reported]
    rw [reportDuplicate, if_pos reported, if_pos reported, same]
  · refine ⟨_, _, droppedAfterEvent .duplicateStation s, _, ?_, fun ok => ok.raise_kept .duplicateStation s.intake.nextLine (BitVec.ofNat 32 h.frame.arb)⟩
    rw [reportDuplicate, if_neg reported, if_neg reported, raiseDuplicate, raiseNow]
    refine (congrArg _ (raise_eq _ _ s rfl)).trans rfl

/-- R113: of the frames, HALT ends a run. -/
theorem isHalt_eq_false {h : HeardFrame} (no : ∀ n, h ≠ .halt n) : h.isHalt = false := by
  cases h with
  | halt n => exact absurd rfl (no n)
  | _ => rfl

/-- R113: a frame of the station's own number in RUNNING or STOPPING. -/
theorem exec_ownNumber_inRun {h : HeardFrame} {s : State} (run : inRun s) (own : OwnNumber h s) :
    exec h.command s = .next (if h.isHalt = true then haltTaken (reportDuplicate h (frameEnded s))
      else reportDuplicate h (frameEnded s)) := by
  rw [exec_of_ownNumber s own, endOfFrame_eq]
  have hop : (frameEnded s).bus.op = .running ∨ (frameEnded s).bus.op = .stopping := run
  rcases hop with hop | hop <;> simp only [actOnDuplicate, hop]

/-- Settles O26. -/
theorem duplicateStation : Obligations.DuplicateStation := by
  intro s h q inrun own hq
  obtain ⟨grant, seq, dropped, outputs, reported, kept⟩ := reportDuplicate_eq h (frameEnded s)
  have queued : (if (frameEnded s).bus.dupReported = true then (frameEnded s).port.queue
      else queueAfterEvent .duplicateStation (frameEnded s).intake.nextLine (BitVec.ofNat 32 h.frame.arb)
        (frameEnded s)) = q := hq.symm
  rw [queued] at reported
  refine ⟨_, exec_ownNumber_inRun inrun own, fun quiet => ?_, ?_⟩
  · have same : (if h.isHalt = true then haltTaken (reportDuplicate h (frameEnded s))
        else reportDuplicate h (frameEnded s)) = reportDuplicate h (frameEnded s) := by
      rcases quiet with other | stopping
      · rw [isHalt_eq_false other, if_neg nofun]
      · have stays : haltTaken (reportDuplicate h (frameEnded s)) = reportDuplicate h (frameEnded s) := by
          have op : (reportDuplicate h (frameEnded s)).bus.op = .stopping := by rw [reported]; exact stopping
          simp only [haltTaken, op]
        rw [stays, ite_self]
    rw [same, reported]
    exact ⟨rfl, rfl, rfl, rfl, rfl, rfl, rfl, rfl, rfl, rfl⟩
  · rintro ⟨n, rfl⟩ hop run ok
    obtain ⟨rfl, rfl, rfl⟩ := kept ok
    have op : (reportDuplicate (.halt n) (frameEnded s)).bus.op = .running := by rw [reported]; exact hop
    have halts : (HeardFrame.halt n).isHalt = true := rfl
    rw [if_pos halts, haltTaken_running op, reported]
    have before : RunOk { frameEnded s with
        bus := { (frameEnded s).bus with dupReported := true }
        port := { (frameEnded s).port with
          queue := q, grant := (frameEnded s).port.grant, nextSeq := (frameEnded s).port.nextSeq }
        counters := { (frameEnded s).counters with
          eventRecordsDropped := dropped }
        outputs := (frameEnded s).outputs } :=
      run.congr rfl rfl rfl rfl rfl rfl rfl fun _ => .inl
    have ended := runEnds (s := s) (q := q) (g := s.port.grant) (out := s.outputs) before
      ⟨rfl, hop, rfl, rfl, rfl, rfl, rfl, rfl, fun _ => rfl⟩
    refine ⟨ended, ?_, ?_, ?_⟩
    · rw [enterStopping_settled_dupReported before hop]
    · obtain ⟨_, _, _, _, _, ⟨_, _, more⟩ | ⟨_, _, _, _, rfl, _⟩, _⟩ := ended
      · exact more
      · exact ⟨_, (List.nil_append _).symm⟩
    · rw [settle_ctl, enterStopping_ctl]
      rfl

/-! ## The loss of the host link -/

theorem haltAction_portKept (s : State) : PortKept s (haltAction s) := by
  have moved : ∀ b, PortKept s { s with bus := b } := fun _ => ⟨rfl, rfl, rfl, rfl, fun none => ⟨none, rfl, rfl⟩⟩
  unfold haltAction
  split
  · exact .refl s
  · exact .refl s
  · exact .refl s
  · exact moved _
  · exact moved _
  · split
    · exact (offerFrame_follows _ s).toPortKept
    · exact (enterStopping_portKept s).trans (settle_portKept _)

/-- R126: once settled, a station has nothing to settle. -/
theorem settle_settle {s : State} (hop : s.bus.op = .stopping) : settle (settle s) = settle s := by
  by_cases busy : Busy s
  · rw [settle_busy busy, settle_busy busy]
  · obtain ⟨bus, _⟩ := settle_idle hop busy
    exact settle_waiting (.inl (by rw [bus]; nofun))

/-- R165, R182: the state in which the loss of the link has emptied the grant port and abandoned a command in flight,
which has left the command slot, the count of commands that failed and the outputs as given. -/
def linkLost (ctl : Control) (failed : Word) (outputs : List Output) (draws : Nat) (s : State) : State := { s with
  port := { s.port with link := .down, fifo := [], grant := none }
  ctl := ctl
  counters := { s.counters with
    commandsFailed := failed }
  outputs := outputs
  draws := draws }

/-- R182: what becomes of a command in flight at the loss of the link. -/
structure Abandoned (s : State) (ctl : Control) (failed : Word) (outputs : List Output) : Prop where
  cfg : ctl.cfg = s.ctl.cfg
  station : ctl.station = s.ctl.station
  configuring : ∀ a, ctl.phase = .busy (.configure a) → s.ctl.phase = .busy (.configure a)
  unoccupied : Unoccupied s → ctl = s.ctl ∧ outputs = s.outputs ∧ failed = s.counters.commandsFailed
  busy : ∀ w, s.ctl.phase = .busy w →
    ctl = s.ctl.ended .failed .linkLost 0 ∧ failed = satInc s.counters.commandsFailed
  configure : ∀ a, s.ctl.phase = .busy (.configure a) → outputs = s.outputs
  snapshot : ∀ a words, s.ctl.phase = .busy (.snapshot a words) →
    ∃ n, n ≤ words.length ∧ outputs = s.outputs ++ [.hostWrite a.toNat (wordBytes (words.take n))]

/-- R172, R181: with the link DOWN a command that fails sends no message. -/
theorem endFailed_linkDown {s : State} (result : ResultCode) (detail : Nat) (down : s.port.link = .down) :
    endFailed result detail s = { s with
      ctl := s.ctl.ended .failed result (BitVec.ofNat 8 detail)
      counters := { s.counters with commandsFailed := satInc s.counters.commandsFailed } } := by
  rw [endFailed_eq, down, messageOf, List.append_nil]

theorem abandonCommand_dropLink (s : State) : ∃ ctl failed outputs draws,
    abandonCommand (dropLink s) = linkLost ctl failed outputs draws s ∧ Abandoned s ctl failed outputs := by
  have phase : (dropLink s).ctl.phase = s.ctl.phase := rfl
  unfold abandonCommand
  rw [phase]
  split
  next a busy =>
    refine ⟨s.ctl.ended .failed .linkLost 0, satInc s.counters.commandsFailed, s.outputs, s.draws,
      (endFailed_linkDown _ _ (by rfl)).trans (by rfl), rfl, rfl, fun _ h => CmdPhase.noConfusion h,
      fun no => absurd busy (no _), fun _ _ => ⟨rfl, rfl⟩, fun _ _ => rfl, fun b words other => ?_⟩
    rw [busy] at other
    cases other
  next a words busy =>
    refine ⟨s.ctl.ended .failed .linkLost 0, satInc s.counters.commandsFailed,
      s.outputs ++ [.hostWrite a.toNat (wordBytes (words.take (Config.snapshotIssued s.draws % 33)))], s.draws + 1,
      (endFailed_linkDown _ _ (by rfl)).trans (by rfl), rfl, rfl, fun _ h => CmdPhase.noConfusion h,
      fun no => absurd busy (no _), fun _ _ => ⟨rfl, rfl⟩, fun b other => ?_, fun b words' same => ?_⟩
    · rw [busy] at other
      cases other
    · rw [busy] at same
      cases same
      refine ⟨min (Config.snapshotIssued s.draws % 33) words.length, Nat.min_le_right _ _, ?_⟩
      rw [← List.take_eq_take_min]
  next noConfigure noSnapshot =>
    have idle : ∀ w, s.ctl.phase ≠ .busy w := by
      rintro (a | ⟨a, words⟩) busy
      · exact noConfigure a busy
      · exact noSnapshot a words busy
    exact ⟨s.ctl, s.counters.commandsFailed, s.outputs, s.draws, rfl, rfl, rfl, fun _ => id, fun _ => ⟨rfl, rfl, rfl⟩,
      fun w busy => absurd busy (idle w), fun a busy => absurd busy (idle _), fun a words busy => absurd busy (idle _)⟩

/-- R125, R126: what the loss of the link makes of the operating state, once the port and a command in flight have been
dealt with. -/
theorem settle_haltAction (w : State) :
    (w.bus.op = .unconfigured ∨ w.bus.op = .idle → settle (haltAction w) = w) ∧
    (w.bus.op = .enrolling ∨ w.bus.op = .armed → settle (haltAction w) = stoodDown w) ∧
    (w.bus.op = .running → busEnabled w = true → settle (haltAction w) = offerFrame (haltFrameOf w) w) ∧
    (w.bus.op = .running → busEnabled w = false → settle (haltAction w) = settle (enterStopping w)) ∧
    (w.bus.op = .stopping → settle (haltAction w) = settle w) := by
  refine ⟨fun hop => ?_, fun hop => ?_, fun hop bus => ?_, fun hop bus => ?_, fun hop => ?_⟩
  · have stays : haltAction w = w := by obtain hop | hop := hop <;> simp only [haltAction, hop]
    rw [stays]
    exact settle_waiting (.inl (by obtain hop | hop := hop <;> rw [hop] <;> nofun))
  · rw [haltAction_standDown hop]
    exact settle_waiting (.inl nofun)
  · have offers : haltAction w = offerFrame (haltFrameOf w) w := by
      simp only [haltAction, hop, bus, if_true]
    rw [offers]
    exact settle_waiting (.inl (by rw [offerFrame_op, hop]; nofun))
  · rw [haltAction_running hop bus, settle_settle (windUp_op _ _)]
  · have stays : haltAction w = w := by simp only [haltAction, hop]
    rw [stays]

/-- Settles O42. -/
theorem linkLossAndUp : Obligations.LinkLossAndUp := by
  refine fun s => ⟨rfl, ?_⟩
  obtain ⟨ctl, failed, outputs, draws, lost, abandoned⟩ := abandonCommand_dropLink s
  obtain ⟨w, hw⟩ : ∃ w, w = linkLost ctl failed outputs draws s := ⟨_, rfl⟩
  obtain ⟨t, ht⟩ : ∃ t, t = settle (haltAction w) := ⟨_, rfl⟩
  have kept : PortKept w t := ht ▸ (haltAction_portKept w).trans (settle_portKept _)
  obtain ⟨grant, seq, puts⟩ := kept.grantless (by rw [hw]; rfl)
  obtain ⟨resting, standing, offering, ending, stopping⟩ := settle_haltAction w
  rw [← ht] at resting standing offering ending stopping
  have busSame : w.bus = s.bus := by rw [hw]; rfl
  have discards : w.counters.busQueueDiscards = s.counters.busQueueDiscards := by rw [hw]; rfl
  have enabled : busEnabled w = busEnabled s := busEnabled_congr (by rw [hw]; exact abandoned.cfg)
  have control : t.ctl = ctl := by
    rw [ht, settle_ctl, haltAction_ctl, hw]
    rfl
  have out : t.outputs = outputs := by rw [puts, hw]; rfl
  have count : t.counters.commandsFailed = failed := by rw [kept.failed, hw]; rfl
  refine ⟨t, ?_, by rw [kept.link, hw]; rfl, by rw [kept.fifo, hw]; rfl, grant, by rw [seq, hw]; rfl,
    by rw [kept.status, hw]; rfl, ?_, ?_, ?_, ?_, ?_, ?_, ?_, ?_, ?_, ?_, ?_, ?_⟩
  · rw [ht, hw, ← lost]
    rfl
  · rw [control, out, count]
    exact abandoned.unoccupied
  · rw [control, count]
    exact abandoned.busy
  · rw [out]
    exact abandoned.configure
  · rw [out]
    exact abandoned.snapshot
  · intro hop
    rw [resting (by rw [hw]; exact hop), hw]
    exact ⟨rfl, rfl⟩
  · intro hop
    rw [standing (by rw [hw]; exact hop), hw]
    rfl
  · intro hop bus
    have frame : haltFrameOf w = { kind := .halt, sender := s.ctl.station, body := [] } := by
      rw [← abandoned.station, hw]
      rfl
    have offered := offerFrame_offered w (haltFrameOf w)
    rw [← offering (by rw [hw]; exact hop) (by rw [enabled, bus]), frame, busSame, discards] at offered
    refine ⟨?_, offered⟩
    rw [offering (by rw [hw]; exact hop) (by rw [enabled, bus]), offerFrame_port, hw]
    rfl
  · intro hop bus run
    have before : RunOk w := by
      rw [hw]
      exact run.congr rfl rfl rfl rfl rfl rfl abandoned.cfg fun a h => .inl (abandoned.configuring a h)
    rw [out, ending (by rw [hw]; exact hop) (by rw [enabled, bus])]
    refine runEnds before ?_
    rw [hw]
    exact ⟨rfl, hop, rfl, rfl, abandoned.cfg, abandoned.station, rfl, rfl, fun no => absurd rfl no⟩
  · intro hop entries none
    rw [stopping (by rw [hw]; exact hop)]
    refine ⟨fun empty => ?_, fun some => ?_⟩
    · rw [settle_drained (by rw [hw]; exact hop) (by rw [hw]; exact entries) (by rw [hw]; exact empty)
        (by rw [hw]; exact none) (by rw [hw]; rfl)]
      refine ⟨by rw [busSame], ?_⟩
      rw [hw]
      exact queueAfterEvent_of_same _ _ _ abandoned.station abandoned.cfg rfl
    · rw [settle_waiting (.inr (.inr (.inl (by rw [hw]; exact some)))), hw]
      exact ⟨rfl, rfl⟩
  · intro hop some
    have waits : w.table.entries ≠ [] ∨ w.port.queue ≠ [] ∨ w.port.offering ≠ none := by
      rw [hw]
      exact some.imp_right .inr
    rw [stopping (by rw [hw]; exact hop), settle_waiting (.inr waits), hw]
    exact ⟨rfl, rfl⟩
  · rw [control, abandoned.cfg]
  · rw [ht, settle_pending, haltAction_pending, hw]
    rfl

end Sys2Proof.Machine
end
